-- ==== Sys2Proof/Word.lean ====
section
/-! DEFINITION. The word types of the block: bytes, block addresses, 4-bit fields. -/

namespace Sys2Proof

/-- A byte is 8 bits, bit 0 the least significant (00_scope.md R7). -/
abbrev Byte := BitVec 8

/-- The 16-bit block address operand (20_memory.md R50, R52). -/
abbrev Addr := BitVec 16

/-- A 4-bit field: STATUS, BITCNT, LEN, CNT, the input mask (10_state.md R20). -/
abbrev Nibble := BitVec 4

end Sys2Proof
end

