-- ==== Sys2Proof/Config.lean ====
section
/-! DEFINITION. The parameters of 00_scope.md R6 (OPEN ones as a record, fixed ones as constants) and the
free values the spec leaves open. -/

namespace Sys2Proof

/-- The OPEN parameters of 00_scope.md R6. Each constraint of the table is built into the type of its field, so
that every value of this type is a legal choice and every legal choice is a value of it (log 2). -/
structure Config where
  /-- bit number of SCL in the latch: `SCL_MASK` has exactly this bit set -/
  sclBit : Fin 8
  /-- bit number of SDA, counted upwards (modulo 8) from the bit after SCL: `SDA_MASK != SCL_MASK` -/
  sdaStep : Fin 7
  /-- bit number of CTS in the 4-bit input mask: `CTS_MASK` -/
  ctsBit : Fin 4
  /-- `LATCH_INIT` -/
  latchInit : Byte
  /-- `{SIG0, SIG1}` as a number, counted past the one excluded pair `{0x58, 0x59}` -/
  sigCode : Fin 65535
  /-- `OUT_REQTYPE` -/
  outReqType : Nat
  /-- `OUT_REQUEST` -/
  outRequest : Nat
  /-- `OUT_INDEX` -/
  outIndex : Nat
  /-- `IN_REQTYPE` -/
  inReqType : Nat
  /-- `IN_REQUEST` -/
  inRequest : Nat
  /-- `IN_VALUE`, carried in the 16-bit value field (20_memory.md R55) -/
  inValue : BitVec 16
  /-- `IN_INDEX` -/
  inIndex : Nat
  /-- `XFER_TIMEOUT_MS` -/
  timeoutMs : Nat
deriving DecidableEq, Repr, Inhabited

/-- The parameters of the machine that comes out of reset: OPEN, so nothing is known of them (log 1). -/
opaque Config.chip : Config

/-- One answer of the environment to one transfer (00_scope.md R10): the return count, the two status bytes (used
by an input transfer only), whether a FAILED output transfer reached the bridge's register all the same
(10_state.md R23), and how long the transfer took (00_scope.md R11: any non-negative time). That a duration is a whole
number of microseconds is the model's choice (log 15). -/
structure Reply where
  ret : Int
  b0 : Byte
  b1 : Byte
  took : Bool
  dur : Nat
deriving DecidableEq, Repr, Inhabited

/-- What the registers that 60_exceptions.md R224 leaves unspecified may hold afterwards; the ranges of
10_state.md R20 for BITCNT, LEN and CNT are kept (LEN is stored less one). -/
structure FreeRegs where
  idbuf : Vector Byte 9
  ackf : Bool
  shift : Byte
  bitcnt : Fin 9
  addr : Addr
  lenLess1 : Fin 8
  cnt : Fin 9
  blkbuf : Vector Byte 8
deriving DecidableEq, Repr, Inhabited

/-- The `n`-th answer of an environment of which nothing is known (93_implementation_defined.md U9, U11). -/
opaque Config.freeReply : Nat → Reply

/-- The `n`-th unspecified register content (93_implementation_defined.md U2, 60_exceptions.md R224). -/
opaque Config.freeRegs : Nat → FreeRegs

namespace Config

/-- `SIG_ADDR` -/
def sigAddr : Addr := 0
/-- `SIG_LEN` -/
def sigLen : Nat := 2
/-- `ID_ADDR` -/
def idAddr : Addr := 2
/-- `ID_LEN` -/
def idLen : Nat := 8
/-- `IDBUF_LEN`: 8 data bytes and the terminator -/
def idbufLen : Nat := 9
/-- `DEVSEL_W` -/
def devselWBase : Byte := 0xA0
/-- `DEVSEL_R` -/
def devselRBase : Byte := 0xA1
/-- `DEVSEL_HI_MASK` -/
def devselHiMask : Byte := 0x0F
/-- `BLOCK_MAX` (decision D13) -/
def blockMax : Nat := 8
/-- `T_SETTLE`, microseconds, a lower bound -/
def tSettle : Nat := 10
/-- `T_WRITE`, microseconds, a lower bound -/
def tWrite : Nat := 10000
/-- `T_RESTART` (decision D10: the settling time) -/
def tRestart : Nat := tSettle

end Config
end Sys2Proof
end

