-- ==== Sys2Proof/Syntax.lean ====
section
/-! DEFINITION. The operations of the block and the byte frames of the bus, one constructor per row of
spec/opcode_table.json, the host's three commands, and the packets in which any of them is written down (log 17). -/

namespace Sys2Proof

/-- A data byte frame, by the party that sends the byte; the receiver drives the ninth clock
(30_encoding.md R95, R99, R100). -/
inductive DataFrame
  /-- the master sends the byte `d` -/
  | sent (d : Byte)
  /-- the slave sends the byte; `isLast` chooses the master's NACK -/
  | received (isLast : Bool)
deriving DecidableEq, Repr

/-- Operations 0 to 14, the reserved number 15 (30_encoding.md R91), and the four wire byte frames (R95 to R98). -/
inductive Instr
  /-- RDIN (R130) -/
  | readInputs
  /-- WROUT (R131) -/
  | writeOutputs (v : Byte)
  /-- GETSDA (R132) -/
  | getSDA
  /-- SETSCL (R133) -/
  | setSCL (b : Bool)
  /-- SETSDA (R134) -/
  | setSDA (b : Bool)
  /-- BUSINIT (R151) -/
  | busInit
  /-- START (R152) -/
  | start
  /-- STOP (R153) -/
  | stop
  /-- TXBYTE (R154) -/
  | txByte (v : Byte)
  /-- RXBYTE (R155) -/
  | rxByte (isLast : Bool)
  /-- RDBLK (R181) -/
  | readBlock (addr : Addr) (length : Nibble)
  /-- WRBLK (R182) -/
  | writeBlock (addr : Addr) (data : List Byte)
  /-- PROBE (R183) -/
  | probe
  /-- RDID (R184) -/
  | readIdentifier
  /-- WRID (R185); `text` is a sequence of non-zero bytes of any length -/
  | writeIdentifier (text : List Byte)
  /-- RESERVED15: names no operation (R110 a) -/
  | reserved15
  /-- DEVSEL_W: device-select byte in write position, `h = addr[11:8]` (R96, R97) -/
  | devselW (h : Nibble)
  /-- DEVSEL_R: device-select byte in read position, `h = addr[11:9]` (R96, R97) -/
  | devselR (h : BitVec 3)
  /-- WORDADDR: the word-address byte `addr[7:0]` (R98) -/
  | wordAddr (a : Byte)
  /-- DATA: a data byte frame (R95) -/
  | dataFrame (f : DataFrame)
deriving DecidableEq, Repr

/-- What the host can issue: the three exposed operations and nothing else (30_encoding.md R91, R110 a, decision D7;
60_exceptions.md R237). -/
inductive HostOp
  | probe
  | readIdentifier
  | writeIdentifier (text : List Byte)
deriving DecidableEq, Repr

/-- The operation a host command names. -/
def HostOp.instr : HostOp → Instr
  | .probe => .probe
  | .readIdentifier => .readIdentifier
  | .writeIdentifier text => .writeIdentifier text

/-- Where the bytes of a packet stand: a call with its operation number, or one of the byte positions of a transaction
(30_encoding.md R99, R100). A wire byte carries no tag of its own; its position says what it is. -/
inductive Slot
  | command
  | selectWrite
  | selectRead
  | wordAddress
  | dataSent
  | dataReceived
deriving DecidableEq, Repr

/-- One operation placed below the host interface: a slot and the bytes in it (log 11, 17). -/
structure Packet where
  slot : Slot
  bytes : List Byte
deriving DecidableEq, Repr

/-- Only operations 12, 13 and 14 are exposed to the host (30_encoding.md R91, 60_exceptions.md R233). -/
def Instr.exposed : Instr → Bool
  | .probe | .readIdentifier | .writeIdentifier _ => true
  | .readInputs | .writeOutputs _ | .getSDA | .setSCL _ | .setSDA _ | .busInit | .start | .stop | .txByte _
  | .rxByte _ | .readBlock _ _ | .writeBlock _ _ | .reserved15 | .devselW _ | .devselR _ | .wordAddr _
  | .dataFrame _ => false

end Sys2Proof
end

