-- ==== Sys2Proof/WellFormed.lean ====
section
/-! DEFINITION. Which operands the spec admits: the domain of the block operations (42_eeprom_protocol.md R180,
30_encoding.md R110 c) and of the text operand (R101, R110 d). -/

namespace Sys2Proof

/-- `1 <= n <= BLOCK_MAX` (20_memory.md R57, decision D13). -/
def blockLengthOk (n : Nat) : Bool := decide (1 ≤ n) && decide (n ≤ Config.blockMax)

/-- A text is a finite sequence of non-zero bytes (30_encoding.md R101, decision D20). -/
def textOk (text : List Byte) : Bool := text.all (· != 0)

/-- The operands lie in the domain the spec gives the operation. -/
def Instr.wellFormed : Instr → Bool
  | .readBlock _ length => blockLengthOk length.toNat
  | .writeBlock _ data => blockLengthOk data.length
  | .writeIdentifier text => textOk text
  | .readInputs | .writeOutputs _ | .getSDA | .setSCL _ | .setSDA _ | .busInit | .start | .stop | .txByte _
  | .rxByte _ | .probe | .readIdentifier | .reserved15 | .devselW _ | .devselR _ | .wordAddr _ | .dataFrame _ => true

end Sys2Proof
end

