-- ==== Sys2Proof/Decode.lean ====
section
/-! DEFINITION. Reading a packet: the 4-bit operation number of 30_encoding.md R91 with its operands, or a byte
at one of the wire positions of R95 to R100. Total; what encodes nothing is rejected by name. After it, the
encoder, and the reading of the opcode table's own words. -/

namespace Sys2Proof

/-- Why a packet encodes nothing. -/
inductive DecodeError
  /-- there is no byte at all -/
  | empty
  /-- the command byte has a bit set above `OP[3:0]` -/
  | notAnOperation (b : Byte)
  /-- an operand byte is missing -/
  | operandMissing
  /-- a 1-bit operand is neither 0 nor 1 -/
  | notABit (b : Byte)
  /-- a block length outside 1 to BLOCK_MAX (R110 c) -/
  | lengthOutsideDomain
  /-- a text operand with no terminating zero byte -/
  | textNotTerminated
  /-- a byte in a device-select position that is not `1010hhhh`, or not `1010hhh1` in read position (R96) -/
  | notADeviceSelect (b : Byte)
deriving DecidableEq, Repr

/-- A 1-bit operand in a byte of its own: `true = 1` (00_scope.md R9). -/
def decodeBit (b : Byte) : Except DecodeError Bool :=
  if b = 0 then .ok false else if b = 1 then .ok true else .error (.notABit b)

/-- The byte that carries a 1-bit operand. -/
def encodeBit (b : Bool) : Byte := if b then 1 else 0

/-- A 16-bit operand from its two bytes, low byte first (log 17). -/
def joinAddr (lo hi : Byte) : Addr := hi ++ lo

/-- The low byte of a 16-bit operand. -/
def addrLo (a : Addr) : Byte := a.extractLsb' 0 8

/-- The high byte of a 16-bit operand. -/
def addrHi (a : Addr) : Byte := a.extractLsb' 8 8

/-- A text operand: the bytes before the first zero byte (decision D20: strings are null-terminated). -/
def decodeText : List Byte → Except DecodeError (List Byte)
  | [] => .error .textNotTerminated
  | b :: rest =>
    if b = 0 then .ok []
    else match decodeText rest with
      | .ok t => .ok (b :: t)
      | .error e => .error e

/-- A 1-bit operand read from the bytes after the operation number. -/
def decodeBitOperand (mk : Bool → Instr) : List Byte → Except DecodeError Instr
  | [] => .error .operandMissing
  | b :: _ => (decodeBit b).map mk

/-- An 8-bit operand read from the bytes after the operation number. -/
def decodeByteOperand (mk : Byte → Instr) : List Byte → Except DecodeError Instr
  | [] => .error .operandMissing
  | b :: _ => .ok (mk b)

/-- The operands of `readBlock`: address, then the length less one. -/
def decodeReadBlock : List Byte → Except DecodeError Instr
  | lo :: hi :: n :: _ =>
    if n.toNat < Config.blockMax then .ok (.readBlock (joinAddr lo hi) (BitVec.ofNat 4 (n.toNat + 1)))
    else .error .lengthOutsideDomain
  | _ => .error .operandMissing

/-- The operands of `writeBlock`: address, the number of data bytes less one, the data. -/
def decodeWriteBlock : List Byte → Except DecodeError Instr
  | lo :: hi :: n :: rest =>
    if n.toNat < Config.blockMax then
      if n.toNat < rest.length then .ok (.writeBlock (joinAddr lo hi) (rest.take (n.toNat + 1)))
      else .error .operandMissing
    else .error .lengthOutsideDomain
  | _ => .error .operandMissing

/-- The 4-bit operation number `OP[3:0]` (R91) and its operands. -/
def decodeOperation (op : Nibble) (rest : List Byte) : Except DecodeError Instr :=
  match op.toNat with
  | 0 => .ok .readInputs
  | 1 => decodeByteOperand .writeOutputs rest
  | 2 => .ok .getSDA
  | 3 => decodeBitOperand .setSCL rest
  | 4 => decodeBitOperand .setSDA rest
  | 5 => .ok .busInit
  | 6 => .ok .start
  | 7 => .ok .stop
  | 8 => decodeByteOperand .txByte rest
  | 9 => decodeBitOperand .rxByte rest
  | 10 => decodeReadBlock rest
  | 11 => decodeWriteBlock rest
  | 12 => .ok .probe
  | 13 => .ok .readIdentifier
  | 14 => (decodeText rest).map .writeIdentifier
  | _ => .ok .reserved15

/-- The first byte of a command packet holds `OP[3:0]` in its low nibble and zero above. -/
def decodeCommand : List Byte → Except DecodeError Instr
  | [] => .error .empty
  | b :: rest =>
    if b.extractLsb' 4 4 = 0#4 then decodeOperation (b.extractLsb' 0 4) rest else .error (.notAnOperation b)

/-- A byte in the write position of a transaction: `1010hhhh` (R96). -/
def decodeSelectWrite (b : Byte) : Except DecodeError Instr :=
  if b.extractLsb' 4 4 = 0xA#4 then .ok (.devselW (b.extractLsb' 0 4)) else .error (.notADeviceSelect b)

/-- A byte in the read position of a transaction: `1010hhh1` (R96). -/
def decodeSelectRead (b : Byte) : Except DecodeError Instr :=
  if b.extractLsb' 4 4 = 0xA#4 ∧ b.extractLsb' 0 1 = 1#1 then .ok (.devselR (b.extractLsb' 1 3))
  else .error (.notADeviceSelect b)

/-- Decoding a packet. Bytes after the operands are ports the operation does not use, and are not read (log 17). -/
def decode (p : Packet) : Except DecodeError Instr :=
  match p.slot, p.bytes with
  | .command, bytes => decodeCommand bytes
  | _, [] => .error .empty
  | .selectWrite, b :: _ => decodeSelectWrite b
  | .selectRead, b :: _ => decodeSelectRead b
  | .wordAddress, b :: _ => .ok (.wordAddr b)
  | .dataSent, b :: _ => .ok (.dataFrame (.sent b))
  | .dataReceived, b :: _ => (decodeBit b).map fun l => .dataFrame (.received l)

/-- The packet of an instruction, from the same tables. -/
def encode : Instr → Packet
  | .readInputs => ⟨.command, [0x0]⟩
  | .writeOutputs v => ⟨.command, [0x1, v]⟩
  | .getSDA => ⟨.command, [0x2]⟩
  | .setSCL b => ⟨.command, [0x3, encodeBit b]⟩
  | .setSDA b => ⟨.command, [0x4, encodeBit b]⟩
  | .busInit => ⟨.command, [0x5]⟩
  | .start => ⟨.command, [0x6]⟩
  | .stop => ⟨.command, [0x7]⟩
  | .txByte v => ⟨.command, [0x8, v]⟩
  | .rxByte isLast => ⟨.command, [0x9, encodeBit isLast]⟩
  | .readBlock addr length => ⟨.command, [0xA, addrLo addr, addrHi addr, BitVec.ofNat 8 (length.toNat - 1)]⟩
  | .writeBlock addr data =>
    ⟨.command, 0xB :: addrLo addr :: addrHi addr :: BitVec.ofNat 8 (data.length - 1) :: data⟩
  | .probe => ⟨.command, [0xC]⟩
  | .readIdentifier => ⟨.command, [0xD]⟩
  | .writeIdentifier text => ⟨.command, 0xE :: (text ++ [0])⟩
  | .reserved15 => ⟨.command, [0xF]⟩
  | .devselW h => ⟨.selectWrite, [0xA#4 ++ h]⟩
  | .devselR h => ⟨.selectRead, [0xA#4 ++ (h ++ 1#1)]⟩
  | .wordAddr a => ⟨.wordAddress, [a]⟩
  | .dataFrame (.sent d) => ⟨.dataSent, [d]⟩
  | .dataFrame (.received isLast) => ⟨.dataReceived, [encodeBit isLast]⟩

/-- `n` bytes of a number, least significant first. -/
def bytesOf : Nat → Nat → List Byte
  | 0, _ => []
  | n + 1, w => BitVec.ofNat 8 w :: bytesOf n (w / 256)

/-- The slot of a word of spec/opcode_table.json. The table's rows overlap (the operations are 4-bit numbers,
the wire rows are whole bytes told apart by their position), so the word's value chooses (log 18): up to 15 an
operation; `1010hhh0` the write position, `1010hhh1` the read position; any other byte a data byte. -/
def tableSlot (b : Byte) : Slot :=
  if b.extractLsb' 4 4 = 0#4 then .command
  else if b.extractLsb' 4 4 = 0xA#4 then (if b.extractLsb' 0 1 = 0#1 then .selectWrite else .selectRead)
  else .dataSent

/-- The longest packet of a block operation: operation number, address, length and eight data bytes. -/
def packetMax : Nat := 12

/-- The packet that a word of the opcode table stands for: its bits, and zeros above them. -/
def tablePacket (nbits w : Nat) : Packet :=
  let bytes := bytesOf packetMax (w % 2 ^ nbits)
  ⟨tableSlot (bytes.headD 0), bytes⟩

/-- The instruction the decoder reads from a word of the opcode table. -/
def decodeTableWord (nbits w : Nat) : Option Instr :=
  match decode (tablePacket nbits w) with
  | .ok i => some i
  | .error _ => none

end Sys2Proof
end

