-- ==== Sys2Proof/Machine/State.lean ====
section
/-! DEFINITION. The state of the machine as plain data: the block's registers (10_state.md R20), the bridge and the
attached world (R30 to R33), the host's side of the block, the recorded trace (00_scope.md R10), and reset (R34). -/

namespace Sys2Proof.Machine

/-- `BUS` (10_state.md R24). -/
inductive BusState
  | idle
  | busy
  | unknown
deriving DecidableEq, Repr, Inhabited

/-- One control transfer as the block requests it (30_encoding.md R105, R106). No data stage: the output request
carries the latch in `value`, `length` is 0 (decision D23). -/
structure Request where
  requestType : Nat
  request : Nat
  value : BitVec 16
  index : Nat
  length : Nat
  timeoutMs : Nat
deriving DecidableEq, Repr

/-- The events of a run (00_scope.md R10): an output transfer and its answer, an input transfer and its answer,
a delay of at least `us` microseconds. A transfer that failed is recorded too, with its answer (log 20). -/
inductive Event
  | out (req : Request) (ret : Int)
  | inp (req : Request) (ret : Int) (b0 b1 : Byte)
  | delay (us : Nat)
deriving DecidableEq, Repr

/-- Memory of the reference EEPROM: address and byte, addresses strictly rising, no byte listed that an unlisted
address reads as (20_memory.md R50, R70). -/
abbrev Memory := List Host.Cell

/-- Mode of the reference EEPROM (20_memory.md R70). -/
inductive EepromMode
  | idle
  | rxDev
  | rxWord
  | rxData
  | tx
deriving DecidableEq, Repr, Inhabited

/-- The reference EEPROM of 20_memory.md R70: parameters, content, and its side of the bus. Environment, general
knowledge, for tests (R76, log 8). -/
structure Eeprom where
  /-- `EE_SIZE` -/
  size : Nat
  /-- `EE_PAGE`, any natural (00_scope.md R6) -/
  page : Nat
  /-- `T_WR_DEV`, whole microseconds (the model's choice, log 15) -/
  tWr : Nat
  /-- `EE_DEVSEL` -/
  devsel : List Byte
  /-- `M` -/
  mem : Memory
  /-- `P` -/
  ptr : Nat
  /-- `busy_until` -/
  busyUntil : Nat
  mode : EepromMode
  /-- the byte being received, or the byte being sent -/
  shift : Byte
  /-- rising edges of SCL seen in the current byte -/
  bits : Nat
  /-- page buffer `W` -/
  w : List Byte
  /-- its base `WB` -/
  wb : Byte
  /-- `S_OUT`, true = released -/
  sOut : Bool
  /-- the line as sampled on the ninth rising edge of a sent byte -/
  mack : Bool
deriving DecidableEq, Repr

/-- What the status block carries beside the SDA line, when an attached device answers: the other bits of byte 0
and all of byte 1 (93_implementation_defined.md U11: any value, so they are data here). -/
structure StatusLines where
  rest0 : Byte
  b1 : Byte
deriving DecidableEq, Repr

/-- What stands at the other end of the bus (10_state.md R32). -/
inductive World
  /-- nothing is known of it: transfers get free answers -/
  | unspecified
  /-- no EEPROM attached (20_memory.md R75) -/
  | absent (lines : StatusLines)
  /-- the reference EEPROM (20_memory.md R70 to R74) -/
  | reference (lines : StatusLines) (e : Eeprom)
deriving DecidableEq, Repr

/-- The result ports of an operation (30_encoding.md R91), or that a transport failure ended it (60_exceptions.md
R220: a distinct error kind). -/
inductive Result
  /-- the operation has no result -/
  | none
  /-- `raise TransportFatal` ended it -/
  | fatal
  /-- a transport primitive returned `(ret, b0, b1)` -/
  | xfer (ret : Int) (b0 b1 : Byte)
  /-- readInputs -/
  | mask (m : Nibble)
  /-- getSDA -/
  | level (b : Bool)
  /-- txByte -/
  | ack (b : Bool)
  /-- rxByte -/
  | byte (v : Byte)
  /-- readBlock: `ok` and the bytes, which mean something only when `ok` -/
  | block (ok : Bool) (bytes : List Byte)
  /-- writeBlock -/
  | done (ok : Bool)
  /-- probe, writeIdentifier: SUCCESS and STATUS -/
  | outcome (success : Bool) (status : Nibble)
  /-- readIdentifier: SUCCESS, STATUS and IDBUF -/
  | identifier (success : Bool) (status : Nibble) (idbuf : Vector Byte 9)
deriving DecidableEq, Repr

/-- What a frame of the sequencer runs: an operation, or one of the two transport primitives (10_state.md R25). -/
inductive Activity
  | op (i : Instr)
  | xferOut (value : BitVec 16)
  | xferIn
deriving DecidableEq, Repr

/-- One frame `(operation, step)` of SEQ; `loc` is the operation's one local boolean (`ok` of the block
operations, the sample `s` of the byte operations). -/
structure Frame where
  act : Activity
  line : Nat
  loc : Bool
deriving DecidableEq, Repr

/-- The machine. -/
structure State where
  /-- the parameters of 00_scope.md R6, written by no operation (log 1) -/
  cfg : Config
  /-- `LATCH` (R21) -/
  latch : Byte
  /-- `BUS` (R24) -/
  bus : BusState
  /-- `IDBUF[0..8]` (R28) -/
  idbuf : Vector Byte 9
  /-- `STATUS` (R27) -/
  status : Nibble
  /-- `SUCCESS` (R27) -/
  success : Bool
  /-- `ACKF` (R26) -/
  ackf : Bool
  /-- `SHIFT` (R20) -/
  shift : Byte
  /-- `BITCNT` (R20) -/
  bitcnt : Nibble
  /-- `ADDR` (R20) -/
  addr : Addr
  /-- `LEN` (R20) -/
  len : Nibble
  /-- `CNT` (R20) -/
  cnt : Nibble
  /-- `BLKBUF[0..BLOCK_MAX-1]` (R29) -/
  blkbuf : Vector Byte 8
  /-- `SEQ`, the running frame first (R25) -/
  seq : List Frame
  /-- the bridge's real output control register (R23, R30) -/
  bridge : Byte
  /-- the other end of the bus (R32) -/
  world : World
  /-- the environment's answers to the next transfers; `none` leaves one to the world (log 7) -/
  replies : List (Option Reply)
  /-- lower bound of the elapsed time (00_scope.md R11), whole microseconds (the model's choice, log 15) -/
  now : Nat
  /-- the host port: the exposed operations the host has issued and the block has not yet taken (60_exceptions.md R237) -/
  port : List HostOp
  /-- the model's own: operations placed below the host interface, as a caller inside a larger design or a test bench
  places them; taken before the host's (log 11) -/
  calls : List Packet
  /-- the result ports of the operation that ended last -/
  result : Result
  /-- the recorded trace, newest event first (60_exceptions.md R238) -/
  trace : List Event
  /-- how often `start()` was called -/
  starts : Nat
  /-- how often `stop()` was called -/
  stops : Nat
  /-- how many free values have been drawn -/
  fresh : Nat
deriving DecidableEq, Repr

/-- No behaviour of this machine stops it with a fault: an operation ends with a result, a protocol-tier code or
TRANSPORT_FATAL, and there is no halt state (70_reset_and_hazards.md R265). -/
inductive Fault
deriving DecidableEq, Repr

/-- Why the model declines to describe a step. -/
inductive Refusal
  /-- raised by exec's refused arms only; safe -/
  | notModelled (mnemonic : String)
  /-- raised by RESERVED15: OP 15 names no operation and has no effect in the spec (30_encoding.md R110 a); safe -/
  | reservedOperation
  /-- raised by RDBLK and WRBLK for a length outside 1 to BLOCK_MAX (R110 c, 93_implementation_defined.md U13);
  safe -/
  | lengthOutsideDomain
  /-- raised by WRID for a text that holds a zero byte, which is no string (R110 d); safe -/
  | textHoldsZeroByte
  /-- raised by step for a packet of `calls` that encodes nothing; safe -/
  | undecodable (e : DecodeError)
deriving DecidableEq, Repr

/-- Right after reset (10_state.md R34, 70_reset_and_hazards.md R260): LATCH is LATCH_INIT, BUS is UNKNOWN, SEQ is
empty, no transfer has been issued. The spec leaves every other register unspecified; the values here are the
model's (log 4, 5, 6). -/
def State.reset : State where
  cfg := Config.chip
  latch := Config.chip.latchInit
  bus := .unknown
  idbuf := Vector.replicate 9 0
  status := 0
  success := true
  ackf := false
  shift := 0
  bitcnt := 0
  addr := 0
  len := 1
  cnt := 0
  blkbuf := Vector.replicate 8 0
  seq := []
  bridge := 0
  world := .unspecified
  replies := []
  now := 0
  port := []
  calls := []
  result := .none
  trace := []
  starts := 0
  stops := 0
  fresh := 0

end Sys2Proof.Machine
end

