-- ==== Sys2Proof/Machine/Memory.lean ====
section
/-! DEFINITION. The EEPROM address space as sparse memory (20_memory.md R50, R70): reading and writing one byte,
and the canonical form. -/

namespace Sys2Proof.Machine

/-- What a byte that nothing has written reads as: the blank value 0xFF (log 9). -/
def blankByte : Byte := 0xFF

/-- The byte at address `a`. -/
def Memory.read (m : Memory) (a : Nat) : Byte :=
  match m with
  | [] => blankByte
  | (k, v) :: rest => if k = a then v else Memory.read rest a

/-- A cell put in front, unless its byte is what an unlisted address reads as. -/
def consCell (a : Nat) (b : Byte) (m : Memory) : Memory := if b = blankByte then m else (a, b) :: m

/-- The memory with byte `b` at address `a`, in canonical form again. -/
def Memory.write (m : Memory) (a : Nat) (b : Byte) : Memory :=
  match m with
  | [] => consCell a b []
  | (k, v) :: rest =>
    if a < k then consCell a b ((k, v) :: rest)
    else if a = k then consCell a b rest
    else (k, v) :: Memory.write rest a b

/-- Every listed address is above `lo`, addresses rise strictly, and no listed byte is the blank value. -/
def Memory.wfFrom (lo : Nat) (m : Memory) : Bool :=
  match m with
  | [] => true
  | (k, v) :: rest => decide (lo ≤ k) && v != blankByte && Memory.wfFrom (k + 1) rest

/-- The canonical form. -/
def Memory.wf (m : Memory) : Bool := Memory.wfFrom 0 m

end Sys2Proof.Machine
end

