-- ==== Sys2Proof/Machine/Eeprom.lean ====
section
/-! DEFINITION. The reference EEPROM of 20_memory.md R70 to R74: an environment agent for tests, general knowledge
and not the source's (R76, log 8). -/

namespace Sys2Proof.Machine

/-- A blank device with nothing going on, and the given parameters (95_test_vectors.md section 0: blank is all
0xFF). -/
def blankEeprom (size : Nat) (page : Nat) (tWr : Nat) (devsel : List Byte) : Eeprom where
  size := size
  page := page
  tWr := tWr
  devsel := devsel
  mem := []
  ptr := 0
  busyUntil := 0
  mode := .idle
  shift := 0
  bits := 0
  w := []
  wb := 0
  sOut := true
  mack := true

/-- Where byte `i` of the page buffer goes: `(WB & ~(EE_PAGE-1)) | ((WB + i) & (EE_PAGE-1))` (R74), over naturals of
any size; `wb ^^^ (wb &&& m)` is `WB & ~m`. A page of 0 gives the mask -1, all ones (log 28). -/
def commitAddr (page : Nat) (wb : Byte) (i : Nat) : Nat :=
  match page with
  | 0 => wb.toNat + i
  | m + 1 => (wb.toNat ^^^ (wb.toNat &&& m)) ||| ((wb.toNat + i) &&& m)

/-- The page buffer written to memory, byte `i` onwards (R74). The address is not reduced modulo EE_SIZE: with EE_SIZE
under 256, or a page larger than the device, a byte can go to an address the device never reads (the model's choice,
log 30). -/
def commitFrom (page : Nat) (wb : Byte) (m : Memory) (i : Nat) (w : List Byte) : Memory :=
  match w with
  | [] => m
  | b :: rest => commitFrom page wb (m.write (commitAddr page wb i) b) (i + 1) rest

/-- Commit (R74): the page buffer goes to memory and the write cycle starts. -/
def eepromCommit (now : Nat) (e : Eeprom) : Eeprom :=
  { e with mem := commitFrom e.page e.wb e.mem 0 e.w, busyUntil := now + e.tWr }

/-- START (R71). -/
def eepromStart (e : Eeprom) : Eeprom := { e with mode := .rxDev, bits := 0, sOut := true }

/-- STOP (R71): commit a page buffer that is not empty, then idle. -/
def eepromStop (now : Nat) (e : Eeprom) : Eeprom :=
  let e' := if e.mode = .rxData ∧ e.w ≠ [] then eepromCommit now e else e
  { e' with mode := .idle, sOut := true }

/-- The next byte to send is loaded and its bit 7 driven (R73). -/
def eepromLoad (e : Eeprom) : Eeprom :=
  let cur := e.mem.read e.ptr
  { e with mode := .tx, bits := 0, shift := cur, ptr := (e.ptr + 1) % e.size, sOut := cur.getLsbD 7 }

/-- A received byte is acknowledged (R72): in RXDEV iff it is a select byte of this device and no write cycle is in
progress, otherwise always. -/
def eepromAcks (now : Nat) (e : Eeprom) : Bool :=
  match e.mode with
  | .rxDev => decide (e.shift ∈ e.devsel) && decide (e.busyUntil ≤ now)
  | .rxWord | .rxData => true
  | .idle | .tx => false

/-- End of the ninth clock of a received byte (R72); `sOut` low means it was acknowledged. -/
def eepromByteEnd (e : Eeprom) : Eeprom :=
  if e.sOut then { e with mode := .idle, bits := 0 }
  else
    match e.mode with
    | .rxDev =>
      if e.shift.getLsbD 0 then eepromLoad { e with sOut := true }
      else { e with mode := .rxWord, bits := 0, sOut := true }
    | .rxWord =>
      { e with mode := .rxData, bits := 0, sOut := true, ptr := e.shift.toNat % e.size, wb := e.shift, w := [] }
    | .rxData => { e with bits := 0, sOut := true, w := e.w ++ [e.shift] }
    | .idle | .tx => { e with bits := 0, sOut := true }

/-- A rising edge of SCL with the SDA line at `line` (R72, R73). -/
def eepromRise (line : Bool) (e : Eeprom) : Eeprom :=
  match e.mode with
  | .idle => e
  | .rxDev | .rxWord | .rxData =>
    if e.bits < 8 then { e with shift := (e.shift <<< 1) ||| (BitVec.ofBool line).zeroExtend 8, bits := e.bits + 1 }
    else { e with bits := e.bits + 1 }
  | .tx => if e.bits < 8 then { e with bits := e.bits + 1 } else { e with bits := e.bits + 1, mack := line }

/-- A falling edge of SCL (R72, R73). -/
def eepromFall (now : Nat) (e : Eeprom) : Eeprom :=
  match e.mode with
  | .idle => e
  | .rxDev | .rxWord | .rxData =>
    if e.bits = 8 then { e with sOut := !eepromAcks now e }
    else if e.bits = 9 then eepromByteEnd e
    else e
  | .tx =>
    if e.bits = 0 then e
    else if e.bits < 8 then { e with sOut := e.shift.getLsbD (7 - e.bits) }
    else if e.bits = 8 then { e with sOut := true }
    else if e.mack then { e with mode := .idle, sOut := true, bits := 0 }
    else eepromLoad e

/-- The master's pins go from `(scl, sda)` to `(scl', sda')`. With SCL high throughout, a fall of the SDA line is
START and a rise STOP (R71); otherwise only the edge of SCL counts (log 8). -/
def eepromPins (now : Nat) (scl sda scl' sda' : Bool) (e : Eeprom) : Eeprom :=
  let line := sda && e.sOut
  let line' := sda' && e.sOut
  match scl, scl' with
  | true, true => if line && !line' then eepromStart e else if !line && line' then eepromStop now e else e
  | false, true => eepromRise line' e
  | true, false => eepromFall now e
  | false, false => e

end Sys2Proof.Machine
end

