-- ==== Sys2Proof/Machine/Flags.lean ====
section
/-! DEFINITION. The condition codes: ACKF (10_state.md R26), STATUS and SUCCESS (R27), and the bookkeeping of BUS
(41_i2c_bus_engine.md R150). No zero, carry, sign or overflow flag exists (R26). -/

namespace Sys2Proof.Machine

/-- `OK` -/
def stOk : Nibble := 0
/-- `NO_ACK` -/
def stNoAck : Nibble := 1
/-- `NO_EEPROM` -/
def stNoEeprom : Nibble := 2
/-- `BAD_SIGNATURE` -/
def stBadSignature : Nibble := 3
/-- `WRITE_SIG_FAILED` -/
def stWriteSigFailed : Nibble := 4
/-- `WRITE_ID_FAILED` -/
def stWriteIdFailed : Nibble := 5
/-- `TRANSPORT_FATAL` -/
def stTransportFatal : Nibble := 6

/-- An exposed operation ends with a code: `SUCCESS <- (STATUS == OK)` (R27). -/
def setOutcome (code : Nibble) (s : State) : State := { s with status := code, success := code == stOk }

/-- `ACKF <- !s` for the sample `s` of the ninth clock (R154). -/
def setAck (sample : Bool) (s : State) : State := { s with ackf := !sample }

/-- BUS after an operation that requires `pre` and leaves `post`; a precondition violation leaves UNKNOWN (R150). -/
def busAfter (pre post now : BusState) : BusState := if now = pre then post else .unknown

/-- `start` takes IDLE to BUSY. -/
def setBusStarted (s : State) : State := { s with bus := busAfter .idle .busy s.bus }

/-- `stop` takes BUSY to IDLE. -/
def setBusStopped (s : State) : State := { s with bus := busAfter .busy .idle s.bus }

/-- `txByte` and `rxByte` leave BUSY as BUSY. -/
def setBusByte (s : State) : State := { s with bus := busAfter .busy .busy s.bus }

end Sys2Proof.Machine
end

