-- ==== Sys2Proof/Machine/Operands.lean ====
section
/-! DEFINITION. Masks and operand forms: the latch bits (10_state.md R22), the status mask (40_pin_controller.md R130,
R132), the address bytes (30_encoding.md R96 to R98), the identifier images (R101, R102), the transport requests
(R105, R106), and the block buffers. -/

namespace Sys2Proof.Machine

/-- `SCL_MASK`: one bit set. -/
def sclMask (c : Config) : Byte := 1#8 <<< c.sclBit.val

/-- The bit number of SDA: `sdaStep + 1` places after SCL, modulo 8, hence never SCL's own. -/
def sdaBit (c : Config) : Nat := (c.sclBit.val + c.sdaStep.val + 1) % 8

/-- `SDA_MASK`: one bit set, not that of `SCL_MASK`. -/
def sdaMask (c : Config) : Byte := 1#8 <<< sdaBit c

/-- `CTS_MASK`: one bit set within `0x0F`. -/
def ctsMask (c : Config) : Byte := 1#8 <<< c.ctsBit.val

/-- The latch bits no pin operation touches: `~(SCL_MASK | SDA_MASK)` (10_state.md R22). -/
def fixedMask (c : Config) : Byte := ~~~(sclMask c ||| sdaMask c)

/-- `{SIG0, SIG1}`: any pair but `{0x58, 0x59}` (00_scope.md R6). -/
def sigWord (c : Config) : BitVec 16 := BitVec.ofNat 16 (if c.sigCode.val < 0x5859 then c.sigCode.val else c.sigCode.val + 1)

/-- `SIG0` -/
def sig0 (c : Config) : Byte := (sigWord c).extractLsb' 8 8

/-- `SIG1` -/
def sig1 (c : Config) : Byte := (sigWord c).extractLsb' 0 8

/-- `b ? v | mask : v & ~mask`: the setters' new latch value (40_pin_controller.md R133, R134). -/
def withBit (mask v : Byte) (b : Bool) : Byte := if b then v ||| mask else v &&& ~~~mask

/-- A bit of a byte under a one-bit mask. -/
def bitUnder (mask v : Byte) : Bool := v &&& mask != 0

/-- `LATCH.SCL`, `LATCH.SDA` or the same pins of the bridge's register. -/
def sclOf (c : Config) (v : Byte) : Bool := bitUnder (sclMask c) v

/-- See `sclOf`. -/
def sdaOf (c : Config) (v : Byte) : Bool := bitUnder (sdaMask c) v

/-- `(~b0) & 0x0F` as the 4-bit mask of `readInputs` (R130). -/
def inputMask (b0 : Byte) : Nibble := (~~~b0).extractLsb' 0 4

/-- `(m & CTS_MASK) == 0`: the level `getSDA` returns (R132). -/
def levelOfMask (c : Config) (m : Nibble) : Bool := m &&& (1#4 <<< c.ctsBit.val) == 0

/-- `(addr >> 8) & 0x0F` (30_encoding.md R96). -/
def highAddrBits (addr : Addr) : Byte := ((addr >>> 8).truncate 8) &&& Config.devselHiMask

/-- `DEVW(addr) = 0xA0 | ((addr >> 8) & 0x0F)` (R96; 90_conflicts.md C1). -/
def devW (addr : Addr) : Byte := Config.devselWBase ||| highAddrBits addr

/-- `DEVR(addr) = 0xA1 | ((addr >> 8) & 0x0F)` (R96). -/
def devR (addr : Addr) : Byte := Config.devselRBase ||| highAddrBits addr

/-- `WORD(addr) = addr & 0xFF` (R98). -/
def wordByte (addr : Addr) : Byte := (addr &&& 0xFF).truncate 8

/-- `ID8(text)`: truncated or zero-padded to 8 bytes (R101). -/
def id8 (text : List Byte) : List Byte := (List.range Config.idLen).map fun i => text.getD i 0

/-- The text the host is given: the bytes of IDBUF before the first zero byte (10_state.md R28, R102). -/
def deliveredText (idbuf : Vector Byte 9) : List Byte := idbuf.toList.takeWhile (· != 0)

/-- IDBUF after a successful read: the 8 bytes and a zero (R28). -/
def idbufOf (b : List Byte) : Vector Byte 9 :=
  #v[b.getD 0 0, b.getD 1 0, b.getD 2 0, b.getD 3 0, b.getD 4 0, b.getD 5 0, b.getD 6 0, b.getD 7 0, 0]

/-- `buf[i], buf[i+1], ... <- data` (R29). -/
def storeFrom (buf : Vector Byte 8) (i : Nat) (data : List Byte) : Vector Byte 8 :=
  match data with
  | [] => buf
  | b :: rest => storeFrom (buf.setIfInBounds i b) (i + 1) rest

/-- `BLKBUF[i]`. -/
def blkAt (buf : Vector Byte 8) (i : Nat) : Byte := buf.toList.getD i 0

/-- `BLKBUF[0..n-1]`. -/
def blkPrefix (buf : Vector Byte 8) (n : Nat) : List Byte := buf.toList.take n

/-- The output request "set modem control lines" (R105): the latch zero-extended in the value field. -/
def outRequest (c : Config) (value : BitVec 16) : Request where
  requestType := c.outReqType
  request := c.outRequest
  value := value
  index := c.outIndex
  length := 0
  timeoutMs := c.timeoutMs

/-- The input request "get modem status" (R106): two bytes are asked for. -/
def inRequest (c : Config) : Request where
  requestType := c.inReqType
  request := c.inRequest
  value := c.inValue
  index := c.inIndex
  length := 2
  timeoutMs := c.timeoutMs

end Sys2Proof.Machine
end

