-- ==== Sys2Proof/Machine/Ops.lean ====
section
/-! DEFINITION. The primitives of 00_scope.md R9: the two transport transfers, the delay, and raising TransportFatal
with its entry (60_exceptions.md R224); and how an operation ends. -/

namespace Sys2Proof.Machine

/-- What abandons an operation and every enclosing one. -/
inductive Raise
  | transportFatal
deriving DecidableEq, Repr

/-- A piece of an operation: it ends with a value, or TransportFatal has been raised. -/
abbrev Op (α : Type) := EStateM Raise State α

/-- Read the whole state. -/
def peek : Op State := fun s => .ok s s

/-- Change the state. -/
def upd (f : State → State) : Op Unit := fun s => .ok () (f s)

/-- Entry of the transport tier (R224): SEQ emptied, BUS UNKNOWN, SUCCESS false, STATUS 6; IDBUF and the working
registers unspecified, that is free values; LATCH kept. No transfer, no delay, no stop. -/
def fatalEntry (s : State) : State :=
  { s with
    bus := .unknown
    seq := []
    success := false
    status := stTransportFatal
    idbuf := (Config.freeRegs s.fresh).idbuf
    ackf := (Config.freeRegs s.fresh).ackf
    shift := (Config.freeRegs s.fresh).shift
    bitcnt := BitVec.ofNat 4 (Config.freeRegs s.fresh).bitcnt.val
    addr := (Config.freeRegs s.fresh).addr
    len := BitVec.ofNat 4 ((Config.freeRegs s.fresh).lenLess1.val + 1)
    cnt := BitVec.ofNat 4 (Config.freeRegs s.fresh).cnt.val
    blkbuf := (Config.freeRegs s.fresh).blkbuf
    result := .fatal
    fresh := s.fresh + 1 }

/-- `raise TransportFatal`. -/
def raiseFatal {α : Type} : Op α := fun s => .error .transportFatal (fatalEntry s)

/-- BLKBUF after a readBlock that ended in error: unspecified (10_state.md R29, 93_implementation_defined.md U2). -/
def freeBlkbuf (s : State) : State := { s with blkbuf := (Config.freeRegs s.fresh).blkbuf, fresh := s.fresh + 1 }

/-- IDBUF after a failed readIdentifier: unspecified (R28, decision D15). -/
def freeIdbuf (s : State) : State := { s with idbuf := (Config.freeRegs s.fresh).idbuf, fresh := s.fresh + 1 }

/-- The level of the SDA line: the master's output AND the device's (R32 c, R33, decision D21). The master's output is
the bridge's real register, not LATCH; the two differ before the first successful output and after a failed one
(the model's choice, log 29). -/
def lineLevel (s : State) : Bool :=
  match s.world with
  | .unspecified | .absent _ => sdaOf s.cfg s.bridge
  | .reference _ e => sdaOf s.cfg s.bridge && e.sOut

/-- The status block an attached device answers with: CTS carries the line, raw (R132), all else is data. -/
def deviceReply (lines : StatusLines) (s : State) : Reply where
  ret := 2
  b0 := withBit (ctsMask s.cfg) lines.rest0 (lineLevel s)
  b1 := lines.b1
  took := true
  dur := 0

/-- The answer an output transfer gets from an attached device: success, no bytes. -/
def outAccepted : Reply where
  ret := 0
  b0 := 0
  b1 := 0
  took := true
  dur := 0

/-- The world's own answer to a transfer; of an unspecified world, a free value. -/
def worldReply (input : Bool) (s : State) : Reply × State :=
  match s.world with
  | .unspecified => (Config.freeReply s.fresh, { s with fresh := s.fresh + 1 })
  | .absent lines => (if input then deviceReply lines s else outAccepted, s)
  | .reference lines _ => (if input then deviceReply lines s else outAccepted, s)

/-- The environment's answer to the next transfer: the next entry of `replies`, or the world's own. -/
def nextReply (input : Bool) (s : State) : Reply × State :=
  match s.replies with
  | [] => worldReply input s
  | none :: rest => worldReply input { s with replies := rest }
  | some r :: rest => (r, { s with replies := rest })

/-- The attached device sees the pins of the bridge's real register go from `old` to `new` (log 29). -/
def worldPins (c : Config) (now : Nat) (old new : Byte) (w : World) : World :=
  match w with
  | .reference lines e =>
    .reference lines (eepromPins now (sclOf c old) (sdaOf c old) (sclOf c new) (sdaOf c new) e)
  | .unspecified => .unspecified
  | .absent lines => .absent lines

/-- The bridge's output register takes a value, and the bus follows it, not LATCH (log 29). -/
def drive (v : Byte) (s : State) : State :=
  { s with bridge := v, world := worldPins s.cfg s.now s.bridge v s.world }

/-- An output transfer fails iff `ret < 0` (R223). -/
def outFails (ret : Int) : Bool := decide (ret < 0)

/-- An input transfer fails iff `ret <= 0` (R223). -/
def inFails (ret : Int) : Bool := decide (ret ≤ 0)

/-- What an output transfer answered with `r` does: time passes, the bridge takes the value (after a failure, only
if the answer says so, 10_state.md R23), and the event is recorded. -/
def outEffect (value : BitVec 16) (r : Reply) (s : State) : State :=
  let s1 := { s with now := s.now + r.dur, trace := .out (outRequest s.cfg value) r.ret :: s.trace }
  if !outFails r.ret || r.took then drive (value.truncate 8) s1 else s1

/-- What an input transfer answered with `r` does: time passes and the event is recorded (20_memory.md R59). -/
def inEffect (r : Reply) (s : State) : State :=
  { s with now := s.now + r.dur, trace := .inp (inRequest s.cfg) r.ret r.b0 r.b1 :: s.trace }

/-- `XferOut(value) -> ret`. -/
def xferOut (value : BitVec 16) : Op Int := fun s =>
  match nextReply false s with
  | (r, s1) => .ok r.ret (outEffect value r s1)

/-- `XferIn() -> (ret, b0, b1)`. -/
def xferIn : Op (Int × Byte × Byte) := fun s =>
  match nextReply true s with
  | (r, s1) => .ok (r.ret, r.b0, r.b1) (inEffect r s1)

/-- A delay of at least `us` microseconds: an event, and the lower bound of the time grows (R11). -/
def delayEffect (us : Nat) (s : State) : State := { s with now := s.now + us, trace := .delay us :: s.trace }

/-- `Delay(t)`. -/
def delay (us : Nat) : Op Unit := upd (delayEffect us)

/-- An operation ends: its result goes to the result ports; after TransportFatal there is none. -/
def finish {α : Type} (mk : α → Result) (m : Op α) (s : State) : State :=
  match m s with
  | .ok a s' => { s' with result := mk a }
  | .error _ s' => s'

end Sys2Proof.Machine
end

