-- ==== Sys2Proof/Machine/Pin.lean ====
section
/-! DEFINITION. The Pin Controller: readInputs, writeOutputs, getSDA, setSCL, setSDA (40_pin_controller.md). The
parameters `c` are those of the state the operation starts in. -/

namespace Sys2Proof.Machine

/-- R130. -/
def readInputs : Op Nibble := do
  let (ret, b0, _) ← xferIn
  if inFails ret then raiseFatal else pure (inputMask b0)

/-- R131: the latch is changed, then flushed. -/
def writeOutputs (v : Byte) : Op Unit := do
  upd fun s => { s with latch := v }
  let ret ← xferOut (v.zeroExtend 16)
  if outFails ret then raiseFatal else pure ()

/-- R132. -/
def getSDA (c : Config) : Op Bool := do
  let m ← readInputs
  pure (levelOfMask c m)

/-- One bit of the latch set or cleared, flushed, and the settling delay (R133, R134). -/
def setPin (mask : Byte) (b : Bool) : Op Unit := do
  let s ← peek
  writeOutputs (withBit mask s.latch b)
  delay Config.tSettle

/-- R133. -/
def setSCL (c : Config) (b : Bool) : Op Unit := setPin (sclMask c) b

/-- R134. -/
def setSDA (c : Config) (b : Bool) : Op Unit := setPin (sdaMask c) b

/-- RDIN. -/
def execReadInputs (s : State) : Host.Outcome State Fault Refusal := .next (finish .mask readInputs s)

/-- WROUT. -/
def execWriteOutputs (v : Byte) (s : State) : Host.Outcome State Fault Refusal :=
  .next (finish (fun _ => .none) (writeOutputs v) s)

/-- GETSDA. -/
def execGetSDA (s : State) : Host.Outcome State Fault Refusal := .next (finish .level (getSDA s.cfg) s)

/-- SETSCL. -/
def execSetSCL (b : Bool) (s : State) : Host.Outcome State Fault Refusal :=
  .next (finish (fun _ => .none) (setSCL s.cfg b) s)

/-- SETSDA. -/
def execSetSDA (b : Bool) (s : State) : Host.Outcome State Fault Refusal :=
  .next (finish (fun _ => .none) (setSDA s.cfg b) s)

end Sys2Proof.Machine
end

