-- ==== Sys2Proof/Machine/Bus.lean ====
section
/-! DEFINITION. The I2C Bus Engine: busInit, start, stop, txByte, rxByte (41_i2c_bus_engine.md). An operation
entered in the wrong bus state emits its pin sequence as written and leaves BUS UNKNOWN (R150, log 10). -/

namespace Sys2Proof.Machine

/-- R151. -/
def busInit (c : Config) : Op Unit := do
  setSCL c true
  setSDA c true
  upd fun s => { s with bus := .idle }

/-- The call counter of `start()` (60_exceptions.md R238). -/
def countStart (s : State) : State := { s with starts := s.starts + 1 }

/-- The call counter of `stop()` (60_exceptions.md R238). -/
def countStop (s : State) : State := { s with stops := s.stops + 1 }

/-- R152. -/
def start (c : Config) : Op Unit := do
  upd countStart
  setSDA c false
  setSCL c false
  upd setBusStarted

/-- R153. -/
def stop (c : Config) : Op Unit := do
  upd countStop
  setSDA c false
  setSCL c true
  setSDA c true
  upd setBusStopped

/-- The next data cell is clocked out: `SHIFT <- (SHIFT << 1) & 0xFF`, one bit fewer to clock (R154). -/
def shiftOut (left : Nat) (s : State) : State :=
  { s with shift := s.shift <<< 1, bitcnt := BitVec.ofNat 4 left }

/-- The next sample is shifted in: `SHIFT <- ((SHIFT << 1) | s) & 0xFF`, one bit fewer to clock (R155). -/
def shiftIn (sample : Bool) (left : Nat) (s : State) : State :=
  { s with shift := (s.shift <<< 1) ||| (BitVec.ofBool sample).zeroExtend 8, bitcnt := BitVec.ofNat 4 left }

/-- The eight data cells of `txByte`, `left` of them still to clock (R92, R154). -/
def txBits (c : Config) : Nat → Op Unit
  | 0 => pure ()
  | left + 1 => do
    let s ← peek
    setSDA c (s.shift.getLsbD 7)
    setSCL c true
    setSCL c false
    upd (shiftOut left)
    txBits c left

/-- R154. -/
def txByte (c : Config) (v : Byte) : Op Bool := do
  upd fun s => { s with shift := v, bitcnt := 8 }
  txBits c 8
  setSDA c true
  setSCL c true
  let sample ← getSDA c
  setSCL c false
  upd (setAck sample)
  upd setBusByte
  pure (!sample)

/-- The eight data cells of `rxByte`, `left` of them still to clock (R92, R155). -/
def rxBits (c : Config) : Nat → Op Unit
  | 0 => pure ()
  | left + 1 => do
    setSCL c true
    let sample ← getSDA c
    setSCL c false
    upd (shiftIn sample left)
    rxBits c left

/-- R155. -/
def rxByte (c : Config) (isLast : Bool) : Op Byte := do
  upd fun s => { s with shift := 0, bitcnt := 8 }
  rxBits c 8
  setSDA c isLast
  setSCL c true
  setSCL c false
  setSDA c true
  upd setBusByte
  let s ← peek
  pure s.shift

/-- BUSINIT. -/
def execBusInit (s : State) : Host.Outcome State Fault Refusal := .next (finish (fun _ => .none) (busInit s.cfg) s)

/-- START. -/
def execStart (s : State) : Host.Outcome State Fault Refusal := .next (finish (fun _ => .none) (start s.cfg) s)

/-- STOP. -/
def execStop (s : State) : Host.Outcome State Fault Refusal := .next (finish (fun _ => .none) (stop s.cfg) s)

/-- TXBYTE. -/
def execTxByte (v : Byte) (s : State) : Host.Outcome State Fault Refusal := .next (finish .ack (txByte s.cfg v) s)

/-- RXBYTE. -/
def execRxByte (isLast : Bool) (s : State) : Host.Outcome State Fault Refusal :=
  .next (finish .byte (rxByte s.cfg isLast) s)

end Sys2Proof.Machine
end

