-- ==== Sys2Proof/Machine/Protocol.lean ====
section
/-! DEFINITION. The EEPROM Protocol: readBlock, writeBlock, probe, readIdentifier, writeIdentifier
(42_eeprom_protocol.md). `out`, the single exit of the block operations (R186), is what follows the body. -/

namespace Sys2Proof.Machine

/-- `ADDR <- addr ; LEN <- length` (R181). -/
def setBlock (addr : Addr) (length : Nibble) (s : State) : State := { s with addr := addr, len := length }

/-- `BLKBUF[CNT] <- v`, and one byte more moved (R181). -/
def storeByte (v : Byte) (s : State) : State :=
  { s with blkbuf := s.blkbuf.setIfInBounds s.cnt.toNat v, cnt := s.cnt + 1 }

/-- The receive loop of `readBlock`, `left` bytes to go: `isLastByte` only on the final one (R181). -/
def readBytes (c : Config) : Nat → Op Unit
  | 0 => pure ()
  | left + 1 => do
    let s ← peek
    let v ← rxByte c (s.cnt == s.len - 1)
    upd (storeByte v)
    readBytes c left

/-- The second transaction of `readBlock` after its START, up to `out` (R181). -/
def readSelected (c : Config) (addr : Addr) (length : Nibble) : Op Bool := do
  let ack ← txByte c (devR addr)
  if ack then
    upd fun s => { s with cnt := 0 }
    readBytes c length.toNat
    pure true
  else pure false

/-- `readBlock` from its word-address byte up to `out` (R181). -/
def readAddressed (c : Config) (addr : Addr) (length : Nibble) : Op Bool := do
  let ack ← txByte c (wordByte addr)
  if ack then
    stop c
    delay Config.tRestart
    start c
    readSelected c addr length
  else pure false

/-- `readBlock` from its first START up to `out`: true where every select and address byte was acknowledged. -/
def readBody (c : Config) (addr : Addr) (length : Nibble) : Op Bool := do
  start c
  let ack ← txByte c (devW addr)
  if ack then readAddressed c addr length else pure false

/-- R181. -/
def readBlock (c : Config) (addr : Addr) (length : Nibble) : Op (Bool × List Byte) := do
  upd (setBlock addr length)
  let ok ← readBody c addr length
  stop c
  upd fun s => if ok then s else freeBlkbuf s
  let s ← peek
  pure (ok, blkPrefix s.blkbuf s.len.toNat)

/-- The transmit loop of `writeBlock`, `left` bytes to go: false at the first NACK (R182). -/
def writeBytes (c : Config) : Nat → Op Bool
  | 0 => pure true
  | left + 1 => do
    let s ← peek
    let ack ← txByte c (blkAt s.blkbuf s.cnt.toNat)
    if ack then
      upd fun s => { s with cnt := s.cnt + 1 }
      writeBytes c left
    else pure false

/-- `writeBlock` from its word-address byte up to `out` (R182). -/
def writeAddressed (c : Config) (addr : Addr) (n : Nat) : Op Bool := do
  let ack ← txByte c (wordByte addr)
  if ack then
    upd fun s => { s with cnt := 0 }
    writeBytes c n
  else pure false

/-- `writeBlock` from its START up to `out`: true where every byte was acknowledged. -/
def writeBody (c : Config) (addr : Addr) (n : Nat) : Op Bool := do
  start c
  let ack ← txByte c (devW addr)
  if ack then writeAddressed c addr n else pure false

/-- `ADDR <- addr ; LEN <- len(data) ; BLKBUF[0 .. LEN-1] <- data` (R182). -/
def setWrite (addr : Addr) (data : List Byte) (s : State) : State :=
  { s with addr := addr, len := BitVec.ofNat 4 data.length, blkbuf := storeFrom s.blkbuf 0 data }

/-- R182; the wait is the operation's own last step (decision D11). -/
def writeBlock (c : Config) (addr : Addr) (data : List Byte) : Op Bool := do
  upd (setWrite addr data)
  let ok ← writeBody c addr data.length
  stop c
  delay Config.tWrite
  pure ok

/-- The code of `probe` (R183, decision D24). -/
def probeCode (c : Config) (ok : Bool) (b : List Byte) : Nibble :=
  if ok then (if b.getD 0 0 != sig0 c || b.getD 1 0 != sig1 c then stBadSignature else stOk) else stNoEeprom

/-- R183. -/
def probe (c : Config) : Op (Bool × Nibble) := do
  busInit c
  let (ok, b) ← readBlock c Config.sigAddr 2
  upd (setOutcome (probeCode c ok b))
  let s ← peek
  pure (s.success, s.status)

/-- R184. -/
def readIdentifier (c : Config) : Op (Bool × Nibble × Vector Byte 9) := do
  let (ok, b) ← readBlock c Config.idAddr 8
  upd fun s => if ok then { s with idbuf := idbufOf b } else freeIdbuf s
  upd (setOutcome (if ok then stOk else stNoAck))
  let s ← peek
  pure (s.success, s.status, s.idbuf)

/-- The code of `writeIdentifier`: once the signature has been written, that of the second write cycle, which is not
attempted after a failed first one (R185, decision D12). -/
def writeIdField (c : Config) (text : List Byte) (signed : Bool) : Op Nibble :=
  if signed then do
    let ok ← writeBlock c Config.idAddr (id8 text)
    pure (if ok then stOk else stWriteIdFailed)
  else pure stWriteSigFailed

/-- R185. -/
def writeIdentifier (c : Config) (text : List Byte) : Op (Bool × Nibble) := do
  let ok ← writeBlock c Config.sigAddr [sig0 c, sig1 c]
  let code ← writeIdField c text ok
  upd (setOutcome code)
  let s ← peek
  pure (s.success, s.status)

/-- RDBLK; a length outside 1 to BLOCK_MAX is refused (30_encoding.md R110 c). -/
def execReadBlock (addr : Addr) (length : Nibble) (s : State) : Host.Outcome State Fault Refusal :=
  if blockLengthOk length.toNat then
    .next (finish (fun r => .block r.1 r.2) (readBlock s.cfg addr length) s)
  else .refused .lengthOutsideDomain

/-- WRBLK; a length outside 1 to BLOCK_MAX is refused (30_encoding.md R110 c). -/
def execWriteBlock (addr : Addr) (data : List Byte) (s : State) : Host.Outcome State Fault Refusal :=
  if blockLengthOk data.length then .next (finish .done (writeBlock s.cfg addr data) s)
  else .refused .lengthOutsideDomain

/-- PROBE. -/
def execProbe (s : State) : Host.Outcome State Fault Refusal :=
  .next (finish (fun r => .outcome r.1 r.2) (probe s.cfg) s)

/-- RDID. -/
def execReadIdentifier (s : State) : Host.Outcome State Fault Refusal :=
  .next (finish (fun r => .identifier r.1 r.2.1 r.2.2) (readIdentifier s.cfg) s)

/-- WRID; a text that holds a zero byte is no string and is refused (30_encoding.md R110 d). -/
def execWriteIdentifier (text : List Byte) (s : State) : Host.Outcome State Fault Refusal :=
  if textOk text then .next (finish (fun r => .outcome r.1 r.2) (writeIdentifier s.cfg text) s)
  else .refused .textHoldsZeroByte

end Sys2Proof.Machine
end

