-- ==== Sys2Proof/Machine/Wire.lean ====
section
/-! DEFINITION. The wire byte frames of 30_encoding.md R95 to R98, and the reserved operation number. A frame the
master sends is one `txByte` of the byte (R95: it releases SDA for the ninth cell and samples it); a data frame the
slave sends is one `rxByte` (log 26). -/

namespace Sys2Proof.Machine

/-- `0xA0 | h` with `h = addr[11:8]` (R96). -/
def selectWByte (h : Nibble) : Byte := Config.devselWBase ||| h.zeroExtend 8

/-- `0xA1 | (addr[11:8])`, of which `h = addr[11:9]` reaches bits 3 to 1 (R97). -/
def selectRByte (h : BitVec 3) : Byte := Config.devselRBase ||| (h.zeroExtend 8 <<< 1)

/-- DEVSEL_W. -/
def execDevselW (h : Nibble) (s : State) : Host.Outcome State Fault Refusal :=
  .next (finish .ack (txByte s.cfg (selectWByte h)) s)

/-- DEVSEL_R. -/
def execDevselR (h : BitVec 3) (s : State) : Host.Outcome State Fault Refusal :=
  .next (finish .ack (txByte s.cfg (selectRByte h)) s)

/-- WORDADDR. -/
def execWordAddr (a : Byte) (s : State) : Host.Outcome State Fault Refusal := .next (finish .ack (txByte s.cfg a) s)

/-- DATA. -/
def execDataFrame (f : DataFrame) (s : State) : Host.Outcome State Fault Refusal :=
  match f with
  | .sent d => .next (finish .ack (txByte s.cfg d) s)
  | .received isLast => .next (finish .byte (rxByte s.cfg isLast) s)

/-- RESERVED15: OP 15 names no operation (R110 a). -/
def execReserved15 (_ : State) : Host.Outcome State Fault Refusal := .refused .reservedOperation

end Sys2Proof.Machine
end

