-- ==== Sys2Proof/Machine/Dispatch.lean ====
section
/-! DEFINITION. Dispatch: one arm per constructor of Instr. -/

namespace Sys2Proof.Machine

def exec (i : Instr) (s : State) : Host.Outcome State Fault Refusal :=
  match i with
  -- Pin Controller
  | .readInputs => Sys2Proof.Machine.execReadInputs s
  | .writeOutputs v => Sys2Proof.Machine.execWriteOutputs v s
  | .getSDA => Sys2Proof.Machine.execGetSDA s
  | .setSCL b => Sys2Proof.Machine.execSetSCL b s
  | .setSDA b => Sys2Proof.Machine.execSetSDA b s
  -- I2C Bus Engine
  | .busInit => Sys2Proof.Machine.execBusInit s
  | .start => Sys2Proof.Machine.execStart s
  | .stop => Sys2Proof.Machine.execStop s
  | .txByte v => Sys2Proof.Machine.execTxByte v s
  | .rxByte isLast => Sys2Proof.Machine.execRxByte isLast s
  -- EEPROM Protocol
  | .readBlock addr length => Sys2Proof.Machine.execReadBlock addr length s
  | .writeBlock addr data => Sys2Proof.Machine.execWriteBlock addr data s
  | .probe => Sys2Proof.Machine.execProbe s
  | .readIdentifier => Sys2Proof.Machine.execReadIdentifier s
  | .writeIdentifier text => Sys2Proof.Machine.execWriteIdentifier text s
  -- the reserved number and the wire byte frames
  | .reserved15 => Sys2Proof.Machine.execReserved15 s
  | .devselW h => Sys2Proof.Machine.execDevselW h s
  | .devselR h => Sys2Proof.Machine.execDevselR h s
  | .wordAddr a => Sys2Proof.Machine.execWordAddr a s
  | .dataFrame f => Sys2Proof.Machine.execDataFrame f s

end Sys2Proof.Machine
end

