-- ==== Sys2Proof/Machine/Sequencer.lean ====
section
/-! DEFINITION. The sequencer of 10_state.md R25, line by line: SEQ is a stack of frames (operation, step), a step is
one line of an operation's pseudocode, a call pushes a frame, a return pops one, `pc <- out` sets the top frame's
step, and raising TransportFatal empties the stack. The operations of Pin, Bus and Protocol are the same procedures
evaluated in one go. -/

namespace Sys2Proof.Machine

/-- The frame of a call, at its first line. -/
def newFrame (a : Activity) : Frame := ⟨a, 0, false⟩

/-- On to the next line of the running operation. -/
def seqNext (f : Frame) (rest : List Frame) (s : State) : State := { s with seq := { f with line := f.line + 1 } :: rest }

/-- `pc <- L`, and the loop back edges. -/
def seqGoto (f : Frame) (rest : List Frame) (line : Nat) (s : State) : State :=
  { s with seq := { f with line := line } :: rest }

/-- `call`: the caller will go on at its next line. -/
def seqCall (f : Frame) (rest : List Frame) (a : Activity) (s : State) : State :=
  { s with seq := newFrame a :: { f with line := f.line + 1 } :: rest }

/-- `return`: the frame is popped and its result is on the result ports. -/
def seqReturn (rest : List Frame) (r : Result) (s : State) : State := { s with seq := rest, result := r }

/-- The local boolean set, and on to the next line. -/
def seqSetLoc (f : Frame) (rest : List Frame) (b : Bool) (s : State) : State :=
  { s with seq := { f with line := f.line + 1, loc := b } :: rest }

/-- What the callee returned: the count of a transfer. -/
def retOf : Result → Int
  | .xfer ret _ _ => ret
  | _ => 0

/-- What the callee returned: the first byte of an input transfer. -/
def b0Of : Result → Byte
  | .xfer _ b0 _ => b0
  | _ => 0

/-- What the callee returned: the input mask. -/
def maskOf : Result → Nibble
  | .mask m => m
  | _ => 0

/-- What the callee returned: one bit (level, acknowledgement, `ok`). -/
def flagOf : Result → Bool
  | .level b | .ack b | .done b | .block b _ => b
  | _ => false

/-- What the callee returned: a received byte. -/
def byteOf : Result → Byte
  | .byte v => v
  | _ => 0

/-- What the callee returned: the bytes of a block. -/
def bytesOfResult : Result → List Byte
  | .block _ bytes => bytes
  | _ => []

/-- R130. -/
def lineReadInputs (f : Frame) (rest : List Frame) (s : State) : State :=
  match f.line with
  | 0 => seqCall f rest .xferIn s
  | 1 => if inFails (retOf s.result) then fatalEntry s else seqNext f rest s
  | _ => seqReturn rest (.mask (inputMask (b0Of s.result))) s

/-- R131. -/
def lineWriteOutputs (v : Byte) (f : Frame) (rest : List Frame) (s : State) : State :=
  match f.line with
  | 0 => seqNext f rest { s with latch := v }
  | 1 => seqCall f rest (.xferOut (v.zeroExtend 16)) s
  | _ => if outFails (retOf s.result) then fatalEntry s else seqReturn rest .none s

/-- R132. -/
def lineGetSDA (c : Config) (f : Frame) (rest : List Frame) (s : State) : State :=
  match f.line with
  | 0 => seqCall f rest (.op .readInputs) s
  | _ => seqReturn rest (.level (levelOfMask c (maskOf s.result))) s

/-- R133, R134. -/
def lineSetPin (mask : Byte) (b : Bool) (f : Frame) (rest : List Frame) (s : State) : State :=
  match f.line with
  | 0 => seqCall f rest (.op (.writeOutputs (withBit mask s.latch b))) s
  | _ => seqReturn rest .none (delayEffect Config.tSettle s)

/-- R151. -/
def lineBusInit (f : Frame) (rest : List Frame) (s : State) : State :=
  match f.line with
  | 0 => seqCall f rest (.op (.setSCL true)) s
  | 1 => seqCall f rest (.op (.setSDA true)) s
  | _ => seqReturn rest .none { s with bus := .idle }

/-- R152. -/
def lineStart (f : Frame) (rest : List Frame) (s : State) : State :=
  match f.line with
  | 0 => seqCall f rest (.op (.setSDA false)) (countStart s)
  | 1 => seqCall f rest (.op (.setSCL false)) s
  | _ => seqReturn rest .none (setBusStarted s)

/-- R153. -/
def lineStop (f : Frame) (rest : List Frame) (s : State) : State :=
  match f.line with
  | 0 => seqCall f rest (.op (.setSDA false)) (countStop s)
  | 1 => seqCall f rest (.op (.setSCL true)) s
  | 2 => seqCall f rest (.op (.setSDA true)) s
  | _ => seqReturn rest .none (setBusStopped s)

/-- R154; line 1 is the loop's test. -/
def lineTxByte (v : Byte) (f : Frame) (rest : List Frame) (s : State) : State :=
  match f.line with
  | 0 => seqNext f rest { s with shift := v, bitcnt := 8 }
  | 1 => if s.bitcnt = 0 then seqGoto f rest 6 s else seqNext f rest s
  | 2 => seqCall f rest (.op (.setSDA (s.shift.getLsbD 7))) s
  | 3 => seqCall f rest (.op (.setSCL true)) s
  | 4 => seqCall f rest (.op (.setSCL false)) s
  | 5 => seqGoto f rest 1 (shiftOut (s.bitcnt.toNat - 1) s)
  | 6 => seqCall f rest (.op (.setSDA true)) s
  | 7 => seqCall f rest (.op (.setSCL true)) s
  | 8 => seqCall f rest (.op .getSDA) s
  | 9 => seqSetLoc f rest (flagOf s.result) s
  | 10 => seqCall f rest (.op (.setSCL false)) s
  | 11 => seqNext f rest (setAck f.loc s)
  | _ => seqReturn rest (.ack (!f.loc)) (setBusByte s)

/-- R155; line 1 is the loop's test. -/
def lineRxByte (isLast : Bool) (f : Frame) (rest : List Frame) (s : State) : State :=
  match f.line with
  | 0 => seqNext f rest { s with shift := 0, bitcnt := 8 }
  | 1 => if s.bitcnt = 0 then seqGoto f rest 7 s else seqNext f rest s
  | 2 => seqCall f rest (.op (.setSCL true)) s
  | 3 => seqCall f rest (.op .getSDA) s
  | 4 => seqSetLoc f rest (flagOf s.result) s
  | 5 => seqCall f rest (.op (.setSCL false)) s
  | 6 => seqGoto f rest 1 (shiftIn f.loc (s.bitcnt.toNat - 1) s)
  | 7 => seqCall f rest (.op (.setSDA isLast)) s
  | 8 => seqCall f rest (.op (.setSCL true)) s
  | 9 => seqCall f rest (.op (.setSCL false)) s
  | 10 => seqCall f rest (.op (.setSDA true)) s
  | _ => seqReturn rest (.byte s.shift) (setBusByte s)

/-- R181; line 12 is the loop's test, line 16 is `out`. -/
def lineReadBlock (addr : Addr) (length : Nibble) (f : Frame) (rest : List Frame) (s : State) : State :=
  match f.line with
  | 0 => seqSetLoc f rest false (setBlock addr length s)
  | 1 => seqCall f rest (.op .start) s
  | 2 => seqCall f rest (.op (.txByte (devW s.addr))) s
  | 3 => if flagOf s.result then seqNext f rest s else seqGoto f rest 16 s
  | 4 => seqCall f rest (.op (.txByte (wordByte s.addr))) s
  | 5 => if flagOf s.result then seqNext f rest s else seqGoto f rest 16 s
  | 6 => seqCall f rest (.op .stop) s
  | 7 => seqNext f rest (delayEffect Config.tRestart s)
  | 8 => seqCall f rest (.op .start) s
  | 9 => seqCall f rest (.op (.txByte (devR s.addr))) s
  | 10 => if flagOf s.result then seqNext f rest s else seqGoto f rest 16 s
  | 11 => seqNext f rest { s with cnt := 0 }
  | 12 => if s.cnt = s.len then seqGoto f rest 15 s else seqNext f rest s
  | 13 => seqCall f rest (.op (.rxByte (s.cnt == s.len - 1))) s
  | 14 => seqGoto f rest 12 (storeByte (byteOf s.result) s)
  | 15 => seqSetLoc f rest true s
  | 16 => seqCall f rest (.op .stop) s
  | 17 => seqNext f rest (if f.loc then s else freeBlkbuf s)
  | _ => seqReturn rest (.block f.loc (blkPrefix s.blkbuf s.len.toNat)) s

/-- R182; line 7 is the loop's test, line 11 is `out`. -/
def lineWriteBlock (addr : Addr) (data : List Byte) (f : Frame) (rest : List Frame) (s : State) : State :=
  match f.line with
  | 0 => seqSetLoc f rest false (setWrite addr data s)
  | 1 => seqCall f rest (.op .start) s
  | 2 => seqCall f rest (.op (.txByte (devW s.addr))) s
  | 3 => if flagOf s.result then seqNext f rest s else seqGoto f rest 11 s
  | 4 => seqCall f rest (.op (.txByte (wordByte s.addr))) s
  | 5 => if flagOf s.result then seqNext f rest s else seqGoto f rest 11 s
  | 6 => seqNext f rest { s with cnt := 0 }
  | 7 => if s.cnt = s.len then seqGoto f rest 10 s else seqNext f rest s
  | 8 => seqCall f rest (.op (.txByte (blkAt s.blkbuf s.cnt.toNat))) s
  | 9 => if flagOf s.result then seqGoto f rest 7 { s with cnt := s.cnt + 1 } else seqGoto f rest 11 s
  | 10 => seqSetLoc f rest true s
  | 11 => seqCall f rest (.op .stop) s
  | 12 => seqNext f rest (delayEffect Config.tWrite s)
  | _ => seqReturn rest (.done f.loc) s

/-- R183. -/
def lineProbe (c : Config) (f : Frame) (rest : List Frame) (s : State) : State :=
  match f.line with
  | 0 => seqCall f rest (.op .busInit) s
  | 1 => seqCall f rest (.op (.readBlock Config.sigAddr 2)) s
  | 2 => seqNext f rest (setOutcome (probeCode c (flagOf s.result) (bytesOfResult s.result)) s)
  | _ => seqReturn rest (.outcome s.success s.status) s

/-- R184. -/
def lineReadIdentifier (f : Frame) (rest : List Frame) (s : State) : State :=
  match f.line with
  | 0 => seqCall f rest (.op (.readBlock Config.idAddr 8)) s
  | 1 =>
    if flagOf s.result then
      seqNext f rest (setOutcome stOk { s with idbuf := idbufOf (bytesOfResult s.result) })
    else seqNext f rest (setOutcome stNoAck (freeIdbuf s))
  | _ => seqReturn rest (.identifier s.success s.status s.idbuf) s

/-- R185; line 4 is the common end. -/
def lineWriteIdentifier (c : Config) (text : List Byte) (f : Frame) (rest : List Frame) (s : State) : State :=
  match f.line with
  | 0 => seqCall f rest (.op (.writeBlock Config.sigAddr [sig0 c, sig1 c])) s
  | 1 => if flagOf s.result then seqNext f rest s else seqGoto f rest 4 (setOutcome stWriteSigFailed s)
  | 2 => seqCall f rest (.op (.writeBlock Config.idAddr (id8 text))) s
  | 3 => seqNext f rest (setOutcome (if flagOf s.result then stOk else stWriteIdFailed) s)
  | _ => seqReturn rest (.outcome s.success s.status) s

/-- A wire byte frame is one byte operation of the engine (log 26). -/
def lineFrame (i : Instr) (f : Frame) (rest : List Frame) (s : State) : State :=
  match f.line with
  | 0 => seqCall f rest (.op i) s
  | _ => seqReturn rest s.result s

/-- One line of an operation. -/
def lineOp (c : Config) (i : Instr) (f : Frame) (rest : List Frame) (s : State) : State :=
  match i with
  | .readInputs => lineReadInputs f rest s
  | .writeOutputs v => lineWriteOutputs v f rest s
  | .getSDA => lineGetSDA c f rest s
  | .setSCL b => lineSetPin (sclMask c) b f rest s
  | .setSDA b => lineSetPin (sdaMask c) b f rest s
  | .busInit => lineBusInit f rest s
  | .start => lineStart f rest s
  | .stop => lineStop f rest s
  | .txByte v => lineTxByte v f rest s
  | .rxByte isLast => lineRxByte isLast f rest s
  | .readBlock addr length => lineReadBlock addr length f rest s
  | .writeBlock addr data => lineWriteBlock addr data f rest s
  | .probe => lineProbe c f rest s
  | .readIdentifier => lineReadIdentifier f rest s
  | .writeIdentifier text => lineWriteIdentifier c text f rest s
  | .reserved15 => seqReturn rest .none s
  | .devselW h => lineFrame (.txByte (selectWByte h)) f rest s
  | .devselR h => lineFrame (.txByte (selectRByte h)) f rest s
  | .wordAddr a => lineFrame (.txByte a) f rest s
  | .dataFrame (.sent d) => lineFrame (.txByte d) f rest s
  | .dataFrame (.received isLast) => lineFrame (.rxByte isLast) f rest s

/-- One line of the running frame; a transport primitive is one line and returns. -/
def seqLine (f : Frame) (rest : List Frame) (s : State) : State :=
  match f.act with
  | .op i => lineOp s.cfg i f rest s
  | .xferOut value =>
    match nextReply false s with
    | (r, s1) => seqReturn rest (.xfer r.ret 0 0) (outEffect value r s1)
  | .xferIn =>
    match nextReply true s with
    | (r, s1) => seqReturn rest (.xfer r.ret r.b0 r.b1) (inEffect r s1)

/-- One step of the sequencer; with SEQ empty the block is ready and nothing happens. -/
def seqStep (s : State) : State :=
  match s.seq with
  | [] => s
  | f :: rest => seqLine f rest s

/-- `k` steps of the sequencer. -/
def seqRun : Nat → State → State
  | 0, s => s
  | k + 1, s => seqRun k (seqStep s)

/-- The block takes an operation up: its frame is the only one. -/
def issue (i : Instr) (s : State) : State := { s with seq := [newFrame (.op i)] }

end Sys2Proof.Machine
end

