-- ==== Sys2Proof/Machine/Step.lean ====
section
/-! DEFINITION. One step. A busy block runs the next line of its sequencer; a ready block runs the next operation
placed below the host interface (log 11), then the next exposed operation the host has issued, whole; with nothing to
do it waits (60_exceptions.md R237, 70_reset_and_hazards.md R260, R265). -/

namespace Sys2Proof.Machine

/-- A ready block with the packet `p` taken off `calls`. -/
def runPacket (p : Packet) (s : State) : Host.Outcome State Fault Refusal :=
  match decode p with
  | .ok i => exec i s
  | .error e => .refused (.undecodable e)

/-- One step of the machine. -/
def step (s : State) : Host.Outcome State Fault Refusal :=
  match s.seq with
  | _ :: _ => .next (seqStep s)
  | [] =>
    match s.calls with
    | p :: rest => runPacket p { s with calls := rest }
    | [] =>
      match s.port with
      | h :: rest => exec h.instr { s with port := rest }
      | [] => .next s

/-- A word of the opcode table placed where the next step takes its operation: at the head of the calls of a ready
block. The program is loaded from outside the machine (log 19). -/
def State.withFetchWord (s : State) (nbits w : Nat) : State :=
  { s with seq := [], calls := tablePacket nbits w :: s.calls }

end Sys2Proof.Machine
end

