-- ==== Sys2Proof/Machine/Trace.lean ====
section
/-! DEFINITION. The trace notation of 30_encoding.md R112 and what a string of its tokens means: the latch it leaves,
the transfers it asks for, the events it records, the samples it takes. Written from R92 to R100, apart from the
operations, so that statements can compare the two. Nothing here is part of the machine's step. -/

namespace Sys2Proof.Machine

/-- `C0`/`C1` setSCL, `D0`/`D1` setSDA, `R` getSDA, `W` the settle of readBlock, `WR` the write wait. -/
inductive Tok
  | c (b : Bool)
  | d (b : Bool)
  | r
  | w
  | wr
deriving DecidableEq, Repr

/-- A transmitted bit cell (R92). -/
def txCell (b : Bool) : List Tok := [.d b, .c true, .c false]

/-- A received bit cell (R92). -/
def rxCell : List Tok := [.c true, .r, .c false]

/-- The bits of a byte in the order they travel, bit 7 first (20_memory.md R53). -/
def wireBits (v : Byte) : List Bool := (List.range 8).map fun i => v.getLsbD (7 - i)

/-- `|Txx`: eight data cells, then SDA released and the acknowledge cell sampled (R95). -/
def txToks (v : Byte) : List Tok := (wireBits v).flatMap txCell ++ [.d true, .c true, .r, .c false]

/-- `|X0`, `|X1`: eight received cells, then ACK or NACK driven and SDA released (R95). -/
def rxToks (isLast : Bool) : List Tok :=
  (List.replicate 8 rxCell).flatten ++ [.d isLast, .c true, .c false, .d true]

/-- busInit (41_i2c_bus_engine.md R151). -/
def initToks : List Tok := [.c true, .d true]

/-- `|S` (R93). -/
def startToks : List Tok := [.d false, .c false]

/-- `|P` (R94). -/
def stopToks : List Tok := [.d false, .c true, .d true]

/-- The frames of a run of bytes the master sends. -/
def sendToks (bytes : List Byte) : List Tok := bytes.flatMap txToks

/-- The frames of `n` bytes the master receives, NACK after the last (R100). -/
def receiveToks (n : Nat) : List Tok := (List.range n).flatMap fun i => rxToks (i + 1 == n)

/-- The random read (R100), every byte acknowledged. -/
def readToks (addr : Addr) (n : Nat) : List Tok :=
  startToks ++ sendToks [devW addr, wordByte addr] ++ stopToks ++ [.w] ++ startToks ++ sendToks [devR addr]
    ++ receiveToks n ++ stopToks

/-- The read with a NACK on its first byte, on its second, on its third (42_eeprom_protocol.md R181). -/
def readNack1Toks (addr : Addr) : List Tok := startToks ++ sendToks [devW addr] ++ stopToks

/-- See `readNack1Toks`. -/
def readNack2Toks (addr : Addr) : List Tok := startToks ++ sendToks [devW addr, wordByte addr] ++ stopToks

/-- See `readNack1Toks`. -/
def readNack3Toks (addr : Addr) : List Tok :=
  startToks ++ sendToks [devW addr, wordByte addr] ++ stopToks ++ [.w] ++ startToks ++ sendToks [devR addr] ++ stopToks

/-- A write transaction of which `k` bytes are sent: device select, word address, then data (R99); with all of
them sent `k` is `2 + data.length`. The wait follows the STOP (decision D11). -/
def writeToks (addr : Addr) (data : List Byte) (k : Nat) : List Tok :=
  startToks ++ sendToks ((devW addr :: wordByte addr :: data).take k) ++ stopToks ++ [.wr]

/-- The latch after a string of tokens. -/
def latchAfter (c : Config) (latch : Byte) : List Tok → Byte
  | [] => latch
  | .c b :: ts => latchAfter c (withBit (sclMask c) latch b) ts
  | .d b :: ts => latchAfter c (withBit (sdaMask c) latch b) ts
  | .r :: ts | .w :: ts | .wr :: ts => latchAfter c latch ts

/-- One answer for each transfer of the string, none of them a failure (60_exceptions.md R223). -/
def answered : List Tok → List Reply → Bool
  | [], [] => true
  | .c _ :: ts, r :: rs | .d _ :: ts, r :: rs => decide (0 ≤ r.ret) && answered ts rs
  | .r :: ts, r :: rs => decide (0 < r.ret) && answered ts rs
  | .w :: ts, rs | .wr :: ts, rs => answered ts rs
  | _, _ => false

/-- The level a status byte reports: the raw CTS bit (40_pin_controller.md R132). -/
def rawLevel (c : Config) (b0 : Byte) : Bool := bitUnder (ctsMask c) b0

/-- What the `R` tokens sample. -/
def samples (c : Config) : List Tok → List Reply → List Bool
  | .c _ :: ts, _ :: rs | .d _ :: ts, _ :: rs => samples c ts rs
  | .r :: ts, r :: rs => rawLevel c r.b0 :: samples c ts rs
  | .w :: ts, rs | .wr :: ts, rs => samples c ts rs
  | _, _ => []

/-- The events of the string, oldest first (R112). -/
def eventsOf (c : Config) (latch : Byte) : List Tok → List Reply → List Event
  | .c b :: ts, r :: rs =>
    .out (outRequest c ((withBit (sclMask c) latch b).zeroExtend 16)) r.ret :: .delay Config.tSettle ::
      eventsOf c (withBit (sclMask c) latch b) ts rs
  | .d b :: ts, r :: rs =>
    .out (outRequest c ((withBit (sdaMask c) latch b).zeroExtend 16)) r.ret :: .delay Config.tSettle ::
      eventsOf c (withBit (sdaMask c) latch b) ts rs
  | .r :: ts, r :: rs => .inp (inRequest c) r.ret r.b0 r.b1 :: eventsOf c latch ts rs
  | .w :: ts, rs => .delay Config.tRestart :: eventsOf c latch ts rs
  | .wr :: ts, rs => .delay Config.tWrite :: eventsOf c latch ts rs
  | _, _ => []

/-- A byte from its bits, bit 7 first. -/
def byteOfBits (bits : List Bool) : Byte :=
  bits.foldl (fun acc b => (acc <<< 1) ||| (BitVec.ofBool b).zeroExtend 8) 0

/-- `n` bytes from a run of bits, eight each, oldest first. -/
def bytesOfBits : Nat → List Bool → List Byte
  | 0, _ => []
  | n + 1, bits => byteOfBits (bits.take 8) :: bytesOfBits n (bits.drop 8)

/-- The run of an operation from `s` to `t` is exactly the token string `toks` with the answers `rs`: the answers are
used up, the events are those of the string, and latch and bridge agree afterwards (10_state.md R23). -/
def Played (toks : List Tok) (rs : List Reply) (rest : List (Option Reply)) (s t : State) : Prop :=
  t.replies = rest ∧ t.latch = latchAfter s.cfg s.latch toks ∧ t.bridge = t.latch
    ∧ t.trace = (eventsOf s.cfg s.latch toks rs).reverse ++ s.trace

/-- Number of output transfers in a list of events. -/
def outCount (evs : List Event) : Nat := evs.countP fun | .out _ _ => true | _ => false

/-- Number of input transfers. -/
def inCount (evs : List Event) : Nat := evs.countP fun | .inp _ _ _ _ => true | _ => false

/-- Sum of the lower bounds of the delays, microseconds (42_eeprom_protocol.md R187). -/
def delaySum : List Event → Nat
  | [] => 0
  | .delay us :: evs => us + delaySum evs
  | _ :: evs => delaySum evs

/-- A transfer that failed (60_exceptions.md R223): an output with `ret < 0`, an input with `ret <= 0`. -/
def isFailure : Event → Bool
  | .out _ ret => decide (ret < 0)
  | .inp _ ret _ _ => decide (ret ≤ 0)
  | .delay _ => false

/-- Every output of a run, oldest first, carries the latch zero-extended after a change of SCL alone or of SDA alone
(40_pin_controller.md R136, 41_i2c_bus_engine.md R157); the latch at the end of the run. -/
def pinWalk (c : Config) (latch : Byte) : List Event → Option Byte
  | [] => some latch
  | .out req _ :: evs =>
    let v : Byte := req.value.truncate 8
    if req.value = v.zeroExtend 16 ∧ ((v ^^^ latch) &&& ~~~sclMask c = 0 ∨ (v ^^^ latch) &&& ~~~sdaMask c = 0) then
      pinWalk c v evs
    else none
  | _ :: evs => pinWalk c latch evs

/-- The levels SDA, as the latch drives it, is taken to while SCL stays high, in a run of events, oldest first: a low
level is a START on the bus, a high one a STOP (30_encoding.md R93, R94). -/
def sdaMovesHigh (c : Config) (latch : Byte) : List Event → List Bool
  | [] => []
  | .out req _ :: evs =>
    let v : Byte := req.value.truncate 8
    let rest := sdaMovesHigh c v evs
    if sclOf c latch && sclOf c v && (sdaOf c latch != sdaOf c v) then sdaOf c v :: rest else rest
  | _ :: evs => sdaMovesHigh c latch evs

/-- `k` transactions seen that way: each a START and a STOP, and SDA still whenever else SCL is high. -/
def transactionMoves (k : Nat) : List Bool := (List.replicate k [false, true]).flatten

/-- Rising edges of SCL, as the latch drives it, in a run of events, oldest first. -/
def sclRises (c : Config) (latch : Byte) : List Event → Nat
  | [] => 0
  | .out req _ :: evs =>
    (if !sclOf c latch && sclOf c (req.value.truncate 8) then 1 else 0) + sclRises c (req.value.truncate 8) evs
  | _ :: evs => sclRises c latch evs

end Sys2Proof.Machine
end

