-- ==== Sys2Proof/Safety.lean ====
section
/-! DEFINITION. What counts as a safe run, in the terms claims use: preconditions on BUS, the host's duties, the
released bus, the invariant of the state, the memory an attached EEPROM shows, the order of calls. -/

namespace Sys2Proof.Machine

/-- The bus state an operation requires (41_i2c_bus_engine.md R150, 42_eeprom_protocol.md R180); a run that violates
it has no specified bus-level meaning (70_reset_and_hazards.md R266, 93_implementation_defined.md U6). -/
def preconditionMet (i : Instr) (s : State) : Bool :=
  match i with
  | .readInputs | .writeOutputs _ | .getSDA | .setSCL _ | .setSDA _ | .busInit | .probe => true
  | .start | .readBlock _ _ | .writeBlock _ _ | .readIdentifier | .writeIdentifier _ => s.bus == .idle
  | .stop | .txByte _ | .rxByte _ | .devselW _ | .devselR _ | .wordAddr _ | .dataFrame _ => s.bus == .busy
  | .reserved15 => false

/-- What the host may issue: one of the three exposed operations, while no other runs, with a text that is one, and
after a `probe` that completed (60_exceptions.md R229, R237), which BUS = IDLE records (log 11). -/
def hostMay (h : HostOp) (s : State) : Bool := s.seq.isEmpty && h.instr.wellFormed && preconditionMet h.instr s

/-- Both lines released by the master: LATCH.SCL = LATCH.SDA = 1 (10_state.md R24). -/
def released (s : State) : Prop := sclOf s.cfg s.latch = true ∧ sdaOf s.cfg s.latch = true

/-- IDLE means that the master has released both lines (10_state.md R24). -/
def idleReleased (s : State) : Prop := s.bus = .idle → released s

/-- The byte the attached reference EEPROM holds at an address; without one there is none to speak of. -/
def readMem (w : World) (a : Nat) : Option Byte :=
  match w with
  | .reference _ e => some (e.mem.read a)
  | .unspecified | .absent _ => none

/-- The addresses to which a STOP would commit the page buffer of the attached EEPROM, one byte more included for
the byte whose ninth clock may just be ending (20_memory.md R72, R74). -/
def pendingStores (w : World) : List Nat :=
  match w with
  | .reference _ e =>
    if e.mode = .rxData then (List.range (e.w.length + 1)).map fun i => commitAddr e.page e.wb i else []
  | .unspecified | .absent _ => []

/-- The addresses a block write of `n` bytes at `addr` goes to in the attached EEPROM (20_memory.md R74). -/
def blockStores (w : World) (addr : Addr) (n : Nat) : List Nat :=
  match w with
  | .reference _ e => (List.range n).map fun i => commitAddr e.page (wordByte addr) i
  | .unspecified | .absent _ => []

/-- The attached device, if any, is not driving SDA low. -/
def deviceReleased (w : World) : Prop :=
  match w with
  | .reference _ e => e.sOut = true
  | .unspecified | .absent _ => True

/-- Pins as after a completed transaction: both lines released, the bridge holds the latch, the device drives
nothing. -/
def quiet (s : State) : Prop := released s ∧ s.bridge = s.latch ∧ deviceReleased s.world

/-- The memory of the attached EEPROM is in canonical form. -/
def memOk (w : World) : Bool :=
  match w with
  | .reference _ e => e.mem.wf
  | .unspecified | .absent _ => true

/-- Depth of an activity in the order of calls (10_state.md R25): a callee is always of lower rank. -/
def rank : Activity → Nat
  | .xferOut _ | .xferIn => 0
  | .op .readInputs | .op (.writeOutputs _) => 1
  | .op .getSDA | .op (.setSCL _) | .op (.setSDA _) => 2
  | .op .busInit | .op .start | .op .stop | .op (.txByte _) | .op (.rxByte _) => 3
  | .op (.readBlock _ _) | .op (.writeBlock _ _) => 4
  | .op (.devselW _) | .op (.devselR _) | .op (.wordAddr _) | .op (.dataFrame _) => 4
  | .op .probe | .op .readIdentifier | .op (.writeIdentifier _) => 5
  | .op .reserved15 => 6

/-- The operands of a frame lie in their domain, and the frame runs an operation there is. -/
def frameOk (f : Frame) : Bool :=
  match f.act with
  | .xferOut _ | .xferIn => true
  | .op i => i.wellFormed && i != .reserved15

/-- A stack the sequencer can have: every frame was called by one of higher rank (10_state.md R25). -/
def stackOk : List Frame → Bool
  | [] => true
  | [f] => frameOk f
  | f :: g :: rest => frameOk f && decide (rank f.act < rank g.act) && stackOk (g :: rest)

/-- The invariant every step keeps: the EEPROM's memory in canonical form (20_memory.md R50); STATUS one of its seven
codes and SUCCESS = (STATUS == 0) (10_state.md R27); LEN and BITCNT in their ranges (R20); a legal call stack (R25). -/
def Inv (s : State) : Prop :=
  memOk s.world = true ∧ s.status.toNat ≤ 6 ∧ s.success = (s.status == stOk) ∧ 1 ≤ s.len.toNat ∧ s.len.toNat ≤ 8
    ∧ s.bitcnt.toNat ≤ 8 ∧ stackOk s.seq = true

/-- Registers of the block that pin activity never writes: everything of 10_state.md R20 but LATCH. -/
def sameRegs (s t : State) : Prop :=
  t.bus = s.bus ∧ t.idbuf = s.idbuf ∧ t.status = s.status ∧ t.success = s.success ∧ t.ackf = s.ackf ∧ t.shift = s.shift
    ∧ t.bitcnt = s.bitcnt ∧ t.addr = s.addr ∧ t.len = s.len ∧ t.cnt = s.cnt ∧ t.blkbuf = s.blkbuf ∧ t.seq = s.seq

/-- The parameters and what is still to be run: written by no operation (00_scope.md R6, 60_exceptions.md R237). -/
def sameHost (s t : State) : Prop := t.cfg = s.cfg ∧ t.port = s.port ∧ t.calls = s.calls

end Sys2Proof.Machine
end

