-- ==== Sys2Proof/Certificates/Slice0/Obligations.lean ====
section
/-! DEFINITION. The statements for the provers, one `def Obligations.<Name> : Prop` each. The environment is
quantified over: `rs` is an arbitrary list of answers to the transfers an operation makes (00_scope.md R10), a
statement with no `rs` holds whatever the answers are. Free values (60_exceptions.md R224) are never relied on. -/

open Sys2Proof Sys2Proof.Machine

/-! ### Encoding and stepping -/

/-- No bit of an operand is dropped by the packets and the wire positions (log 17, 18). -/
def Obligations.DecodeOfEncodeIsTheInstruction : Prop :=
  ∀ i : Instr, i.wellFormed = true → decode (encode i) = .ok i

/-- The sixteen numbers of 30_encoding.md R91 read as the operations of its table; operands there are zero. -/
def Obligations.OperationNumbersDecode : Prop :=
  (List.range 16).map (decodeTableWord 8) =
    [some .readInputs, some (.writeOutputs 0), some .getSDA, some (.setSCL false), some (.setSDA false),
     some .busInit, some .start, some .stop, some (.txByte 0), some (.rxByte false), some (.readBlock 0 1),
     some (.writeBlock 0 [0]), some .probe, some .readIdentifier, some (.writeIdentifier []), some .reserved15]

/-- A byte in a device-select position is read by its bits: `1010hhhh` in write position, `1010hhh1` in read position,
nothing else (30_encoding.md R96). -/
def Obligations.SelectBytesDecodeByPosition : Prop :=
  ∀ b : Byte, (decode ⟨.selectWrite, [b]⟩ = .ok (.devselW (b.extractLsb' 0 4)) ↔ b &&& 0xF0 = 0xA0)
    ∧ (decode ⟨.selectRead, [b]⟩ = .ok (.devselR (b.extractLsb' 1 3)) ↔ b &&& 0xF1 = 0xA1)

/-- 30_encoding.md R97: the device-select bytes bit by bit; (a) `0xA0` and `0xA1` for `addr & 0x0F00 = 0`; (b) with
`addr[8] = 1` the write-direction byte has its read/write bit set; (c) `DEVR` does not see `addr[8]`; (d) `addr[15:12]`
never appear. -/
def Obligations.DeviceSelectBytesBitByBit : Prop :=
  ∀ addr : Addr, devW addr = 0xA#4 ++ addr.extractLsb' 8 4
    ∧ devR addr = 0xA#4 ++ (addr.extractLsb' 9 3 ++ 1#1)
    ∧ (addr &&& 0x0F00 = 0 → devW addr = 0xA0 ∧ devR addr = 0xA1)
    ∧ (addr.getLsbD 8 = true → (devW addr).getLsbD 0 = true)
    ∧ devR (addr ^^^ 0x0100) = devR addr
    ∧ devW (addr &&& 0x0FFF) = devW addr ∧ devR (addr &&& 0x0FFF) = devR addr
    ∧ wordByte (addr &&& 0x0FFF) = wordByte addr

/-- 30_encoding.md R101: truncated or zero-padded to exactly 8 bytes. -/
def Obligations.IdentifierImageIsEightBytes : Prop :=
  ∀ text : List Byte, (id8 text).length = 8
    ∧ ∀ k, k < 8 → (id8 text)[k]? = some (if k < text.length then text.getD k 0 else 0)

/-- A step of a ready block runs the decoded packet of a call placed below the host interface (log 11); one that encodes
nothing is refused by name; with no call it runs the next operation the host has issued, which is one of the three
exposed ones (30_encoding.md R91, 60_exceptions.md R237); with neither the block waits; a busy block runs one line of
its sequencer (log 19, 20). -/
def Obligations.StepRunsThePacket : Prop :=
  (∀ s : State,
    (∀ p rest i, s.seq = [] → s.calls = p :: rest → decode p = .ok i → step s = exec i { s with calls := rest })
    ∧ (∀ p rest e, s.seq = [] → s.calls = p :: rest → decode p = .error e → step s = .refused (.undecodable e))
    ∧ (∀ h rest, s.seq = [] → s.calls = [] → s.port = h :: rest → step s = exec h.instr { s with port := rest })
    ∧ (s.seq = [] → s.calls = [] → s.port = [] → step s = .next s)
    ∧ (s.seq ≠ [] → step s = .next (seqStep s)))
  ∧ ∀ i : Instr, i.exposed = true ↔ ∃ h : HostOp, h.instr = i

/-- A word of the opcode table placed among the calls is the very next thing to run (log 19). -/
def Obligations.FetchedWordRuns : Prop :=
  ∀ (s : State) (nbits w : Nat) (i : Instr), decodeTableWord nbits w = some i →
    step (s.withFetchWord nbits w) = exec i { s with seq := [] }

/-- 70_reset_and_hazards.md R260: LATCH is LATCH_INIT, BUS is UNKNOWN, SEQ is empty, no transfer has been issued, and
the block waits for the host. -/
def Obligations.ResetStateIsAsStated : Prop :=
  State.reset.latch = State.reset.cfg.latchInit ∧ State.reset.bus = .unknown ∧ State.reset.seq = []
    ∧ State.reset.trace = [] ∧ step State.reset = .next State.reset

/-! ### Refused forms -/

/-- 30_encoding.md R110 (a): OP 15 names no operation. -/
def Obligations.ReservedOperationIsRefused : Prop :=
  ∀ s : State, exec .reserved15 s = .refused .reservedOperation

/-- 30_encoding.md R110 (c) and (d): a block length outside 1 to BLOCK_MAX, and a text with a zero byte. -/
def Obligations.OperandsOutsideTheirDomainAreRefused : Prop :=
  (∀ (addr : Addr) (n : Nibble) (s : State), ¬ (1 ≤ n.toNat ∧ n.toNat ≤ 8) →
      exec (.readBlock addr n) s = .refused .lengthOutsideDomain)
  ∧ (∀ (addr : Addr) (data : List Byte) (s : State), ¬ (1 ≤ data.length ∧ data.length ≤ 8) →
      exec (.writeBlock addr data) s = .refused .lengthOutsideDomain)
  ∧ (∀ (text : List Byte) (s : State), (0 : Byte) ∈ text →
      exec (.writeIdentifier text) s = .refused .textHoldsZeroByte)

/-! ### Pin Controller -/

/-- 40_pin_controller.md R130. -/
def Obligations.ReadInputsReturnsTheNegatedNibble : Prop :=
  ∀ (s : State) (r : Reply) (rest : List (Option Reply)), s.replies = some r :: rest →
    ∃ t, exec .readInputs s = .next t ∧ t.latch = s.latch ∧ t.replies = rest
      ∧ t.trace = .inp (inRequest s.cfg) r.ret r.b0 r.b1 :: s.trace
      ∧ (0 < r.ret → sameRegs s t ∧ t.bridge = s.bridge ∧ t.world = s.world
          ∧ ∃ m : Nibble, t.result = .mask m ∧ ∀ k, k < 4 → m.getLsbD k = !r.b0.getLsbD k)
      ∧ (r.ret ≤ 0 → t.result = .fatal)

/-- 40_pin_controller.md R131: the latch holds the new value whether or not the transfer succeeds. -/
def Obligations.WriteOutputsMutatesThenFlushes : Prop :=
  ∀ (s : State) (v : Byte) (r : Reply) (rest : List (Option Reply)), s.replies = some r :: rest →
    ∃ t, exec (.writeOutputs v) s = .next t ∧ t.latch = v ∧ t.replies = rest
      ∧ t.trace = .out (outRequest s.cfg (v.zeroExtend 16)) r.ret :: s.trace
      ∧ (0 ≤ r.ret → t.result = .none ∧ t.bridge = v ∧ sameRegs s t)
      ∧ (r.ret < 0 → t.result = .fatal)

/-- 40_pin_controller.md R132: the level is the raw CTS bit of the first status byte. -/
def Obligations.GetSDAReturnsTheRawCtsBit : Prop :=
  ∀ (s : State) (r : Reply) (rest : List (Option Reply)), s.replies = some r :: rest →
    ∃ t, exec .getSDA s = .next t ∧ t.latch = s.latch ∧ t.replies = rest
      ∧ t.trace = .inp (inRequest s.cfg) r.ret r.b0 r.b1 :: s.trace
      ∧ (0 < r.ret → t.result = .level (r.b0.getLsbD s.cfg.ctsBit.val) ∧ sameRegs s t ∧ t.bridge = s.bridge
          ∧ t.world = s.world)
      ∧ (r.ret ≤ 0 → t.result = .fatal)

/-- 40_pin_controller.md R133: one latch bit, one output, then the settling delay; on a failure no delay. -/
def Obligations.SetSCLChangesOneBitThenSettles : Prop :=
  ∀ (s : State) (b : Bool) (r : Reply) (rest : List (Option Reply)), s.replies = some r :: rest →
    ∃ t, exec (.setSCL b) s = .next t ∧ t.replies = rest
      ∧ (∀ k, k < 8 → t.latch.getLsbD k = if k = s.cfg.sclBit.val then b else s.latch.getLsbD k)
      ∧ (0 ≤ r.ret → t.result = .none ∧ t.bridge = t.latch ∧ sameRegs s t
          ∧ t.trace = .delay 10 :: .out (outRequest s.cfg (t.latch.zeroExtend 16)) r.ret :: s.trace)
      ∧ (r.ret < 0 → t.result = .fatal
          ∧ t.trace = .out (outRequest s.cfg (t.latch.zeroExtend 16)) r.ret :: s.trace)

/-- 40_pin_controller.md R134. -/
def Obligations.SetSDAChangesOneBitThenSettles : Prop :=
  ∀ (s : State) (b : Bool) (r : Reply) (rest : List (Option Reply)), s.replies = some r :: rest →
    ∃ t, exec (.setSDA b) s = .next t ∧ t.replies = rest
      ∧ (∀ k, k < 8 → t.latch.getLsbD k = if k = sdaBit s.cfg then b else s.latch.getLsbD k)
      ∧ (0 ≤ r.ret → t.result = .none ∧ t.bridge = t.latch ∧ sameRegs s t
          ∧ t.trace = .delay 10 :: .out (outRequest s.cfg (t.latch.zeroExtend 16)) r.ret :: s.trace)
      ∧ (r.ret < 0 → t.result = .fatal
          ∧ t.trace = .out (outRequest s.cfg (t.latch.zeroExtend 16)) r.ret :: s.trace)

/-- 10_state.md R22, 40_pin_controller.md R136: only a direct `writeOutputs` can change a latch bit other than SCL's
and SDA's; a transport failure does not either. -/
def Obligations.OtherLatchBitsAreHeld : Prop :=
  ∀ (i : Instr) (s t : State), (∀ v, i ≠ .writeOutputs v) → exec i s = .next t →
    t.latch &&& fixedMask s.cfg = s.latch &&& fixedMask s.cfg

/-- 40_pin_controller.md R136: each output carries the latch, and differs from the one before in SCL alone or in SDA
alone. -/
def Obligations.OutputsChangeOnePinAtATime : Prop :=
  ∀ (i : Instr) (s t : State), (∀ v, i ≠ .writeOutputs v) → exec i s = .next t →
    ∃ evs, t.trace = evs.reverse ++ s.trace ∧ pinWalk s.cfg s.latch evs = some t.latch

/-! ### I2C Bus Engine -/

/-- 41_i2c_bus_engine.md R151: from any latch content and any bus state. -/
def Obligations.BusInitReleasesTheBus : Prop :=
  ∀ (s : State) (rs : List Reply) (rest : List (Option Reply)),
    s.replies = rs.map some ++ rest → answered initToks rs = true →
    ∃ t, exec .busInit s = .next t ∧ Played initToks rs rest s t ∧ released t ∧ t.result = .none
      ∧ sameRegs { s with bus := .idle } t ∧ sameHost s t ∧ t.starts = s.starts ∧ t.stops = s.stops

/-- 41_i2c_bus_engine.md R152; IDLE becomes BUSY;
entered in the wrong bus state it runs all the same and leaves BUS UNKNOWN (41_i2c_bus_engine.md R150, log 10). -/
def Obligations.StartEmitsTheStartCondition : Prop :=
  ∀ (s : State) (rs : List Reply) (rest : List (Option Reply)),
    s.replies = rs.map some ++ rest → answered startToks rs = true →
    ∃ t, exec .start s = .next t ∧ Played startToks rs rest s t
      ∧ sclOf t.cfg t.latch = false ∧ sdaOf t.cfg t.latch = false ∧ t.result = .none
      ∧ sameRegs { s with bus := if s.bus = .idle then .busy else .unknown } t ∧ sameHost s t
      ∧ t.starts = s.starts + 1 ∧ t.stops = s.stops

/-- 41_i2c_bus_engine.md R153; BUSY becomes IDLE;
entered in the wrong bus state it runs all the same and leaves BUS UNKNOWN (41_i2c_bus_engine.md R150, log 10). -/
def Obligations.StopEmitsTheStopCondition : Prop :=
  ∀ (s : State) (rs : List Reply) (rest : List (Option Reply)),
    s.replies = rs.map some ++ rest → answered stopToks rs = true →
    ∃ t, exec .stop s = .next t ∧ Played stopToks rs rest s t ∧ released t ∧ t.result = .none
      ∧ sameRegs { s with bus := if s.bus = .busy then .idle else .unknown } t ∧ sameHost s t
      ∧ t.stops = s.stops + 1 ∧ t.starts = s.starts

/-- 41_i2c_bus_engine.md R154: eight cells, bit 7 first, then SDA released and the acknowledgement sampled while SCL
is high; `ack = !sample`;
entered in the wrong bus state it runs all the same and leaves BUS UNKNOWN (41_i2c_bus_engine.md R150, log 10). -/
def Obligations.TxByteClocksOutAndSamplesAck : Prop :=
  ∀ (v : Byte) (s : State) (rs : List Reply) (rest : List (Option Reply)),
    s.replies = rs.map some ++ rest → answered (txToks v) rs = true →
    ∃ t level, exec (.txByte v) s = .next t ∧ Played (txToks v) rs rest s t
      ∧ samples s.cfg (txToks v) rs = [level] ∧ t.ackf = (!level) ∧ t.result = .ack (!level)
      ∧ sclOf t.cfg t.latch = false ∧ sdaOf t.cfg t.latch = true
      ∧ t.bus = (if s.bus = .busy then .busy else .unknown)
      ∧ sameRegs { s with bus := t.bus, ackf := t.ackf, shift := t.shift, bitcnt := t.bitcnt } t
      ∧ sameHost s t ∧ t.starts = s.starts ∧ t.stops = s.stops

/-- 41_i2c_bus_engine.md R155: eight samples, the first in bit 7, then ACK or NACK driven; ACKF untouched;
entered in the wrong bus state it runs all the same and leaves BUS UNKNOWN (41_i2c_bus_engine.md R150, log 10). -/
def Obligations.RxByteAssemblesSamplesAndAnswers : Prop :=
  ∀ (isLast : Bool) (s : State) (rs : List Reply) (rest : List (Option Reply)),
    s.replies = rs.map some ++ rest → answered (rxToks isLast) rs = true →
    ∃ t, exec (.rxByte isLast) s = .next t ∧ Played (rxToks isLast) rs rest s t
      ∧ (samples s.cfg (rxToks isLast) rs).length = 8
      ∧ t.result = .byte (byteOfBits (samples s.cfg (rxToks isLast) rs))
      ∧ t.shift = byteOfBits (samples s.cfg (rxToks isLast) rs)
      ∧ sclOf t.cfg t.latch = false ∧ sdaOf t.cfg t.latch = true
      ∧ t.bus = (if s.bus = .busy then .busy else .unknown)
      ∧ sameRegs { s with bus := t.bus, shift := t.shift, bitcnt := t.bitcnt } t
      ∧ sameHost s t ∧ t.starts = s.starts ∧ t.stops = s.stops

/-- 41_i2c_bus_engine.md R157: every byte is exactly nine SCL pulses; a transaction of `k` bytes has `9k + 1` rises, the
last inside `stop`. A byte sent is one IN event, so a write transaction, acknowledged or not, has as many bytes as IN
events; a `readBlock` with one start is one transaction of that kind; with two starts the first (59 outputs) has two
bytes, the second the select byte and, if it was acknowledged, the `n` bytes received. Whatever the world answers, as
long as no transfer fails. -/
def Obligations.NinePulsesPerByte : Prop :=
  (∀ (i : Instr) (s t : State) (evs : List Event),
      ((∃ v, i = .txByte v) ∨ (∃ l, i = .rxByte l) ∨ (∃ h, i = .devselW h) ∨ (∃ h, i = .devselR h)
        ∨ (∃ a, i = .wordAddr a) ∨ (∃ f, i = .dataFrame f)) →
      sclOf s.cfg s.latch = false → exec i s = .next t → t.result ≠ .fatal → t.trace = evs.reverse ++ s.trace →
      sclRises s.cfg s.latch evs = 9)
  ∧ (∀ (addr : Addr) (data : List Byte) (s t : State) (evs : List Event), released s →
      exec (.writeBlock addr data) s = .next t → t.result ≠ .fatal → t.trace = evs.reverse ++ s.trace →
      sclRises s.cfg s.latch evs = 9 * inCount evs + 1 ∧ 1 ≤ inCount evs ∧ inCount evs ≤ 2 + data.length
        ∧ (t.result = .done true → inCount evs = 2 + data.length))
  ∧ (∀ (addr : Addr) (n : Nibble) (s t : State) (evs : List Event), released s →
      exec (.readBlock addr n) s = .next t → t.result ≠ .fatal → t.trace = evs.reverse ++ s.trace →
      (t.starts = s.starts + 1 ∧ sclRises s.cfg s.latch evs = 9 * inCount evs + 1
          ∧ (inCount evs = 1 ∨ inCount evs = 2) ∧ ∃ bytes, t.result = .block false bytes)
      ∨ (t.starts = s.starts + 2 ∧ ∃ evs1 evs2, evs = evs1 ++ evs2 ∧ outCount evs1 = 59 ∧ inCount evs1 = 2
          ∧ sclRises s.cfg s.latch evs1 = 9 * 2 + 1
          ∧ ((∃ bytes, t.result = .block true bytes ∧ sclRises s.cfg s.latch evs2 = 9 * (1 + n.toNat) + 1)
            ∨ ∃ bytes, t.result = .block false bytes ∧ sclRises s.cfg s.latch evs2 = 9 * 1 + 1)))

/-- 30_encoding.md R95 to R98: a wire byte frame is sent as one `txByte` of its byte, and a data frame from the slave
is received as one `rxByte` (log 26);
entered in the wrong bus state it runs all the same and leaves BUS UNKNOWN (41_i2c_bus_engine.md R150, log 10). -/
def Obligations.WireFramesAreByteFrames : Prop :=
  (∀ (i : Instr) (v : Byte) (s : State) (rs : List Reply) (rest : List (Option Reply)),
      ((∃ h : Nibble, i = .devselW h ∧ v = 0xA#4 ++ h) ∨ (∃ h : BitVec 3, i = .devselR h ∧ v = 0xA#4 ++ (h ++ 1#1))
        ∨ i = .wordAddr v ∨ i = .dataFrame (.sent v)) →
      s.replies = rs.map some ++ rest → answered (txToks v) rs = true →
      ∃ t level, exec i s = .next t ∧ Played (txToks v) rs rest s t ∧ samples s.cfg (txToks v) rs = [level]
        ∧ t.ackf = (!level) ∧ t.result = .ack (!level)
        ∧ sclOf t.cfg t.latch = false ∧ sdaOf t.cfg t.latch = true
        ∧ t.bus = (if s.bus = .busy then .busy else .unknown)
        ∧ sameRegs { s with bus := t.bus, ackf := t.ackf, shift := t.shift, bitcnt := t.bitcnt } t
        ∧ sameHost s t ∧ t.starts = s.starts ∧ t.stops = s.stops)
  ∧ (∀ (isLast : Bool) (s : State) (rs : List Reply) (rest : List (Option Reply)),
      s.replies = rs.map some ++ rest → answered (rxToks isLast) rs = true →
      ∃ t, exec (.dataFrame (.received isLast)) s = .next t ∧ Played (rxToks isLast) rs rest s t
        ∧ (samples s.cfg (rxToks isLast) rs).length = 8
        ∧ t.result = .byte (byteOfBits (samples s.cfg (rxToks isLast) rs))
        ∧ t.shift = byteOfBits (samples s.cfg (rxToks isLast) rs)
        ∧ sclOf t.cfg t.latch = false ∧ sdaOf t.cfg t.latch = true
        ∧ t.bus = (if s.bus = .busy then .busy else .unknown)
        ∧ sameRegs { s with bus := t.bus, shift := t.shift, bitcnt := t.bitcnt } t
        ∧ sameHost s t ∧ t.starts = s.starts ∧ t.stops = s.stops)

/-! ### EEPROM Protocol -/

/-- 42_eeprom_protocol.md R181, 30_encoding.md R100: with the three bytes acknowledged, the two transactions run as
written and the result is the sampled bytes. That ADDR and LEN keep the operands afterwards is the model's (log 14);
entered in the wrong bus state it runs all the same and leaves BUS UNKNOWN (41_i2c_bus_engine.md R150, log 10). -/
def Obligations.ReadBlockReturnsTheSampledBytes : Prop :=
  ∀ (addr : Addr) (n : Nat) (s : State) (rs : List Reply) (rest : List (Option Reply)) (bits : List Bool),
    1 ≤ n → n ≤ 8 → s.replies = rs.map some ++ rest → answered (readToks addr n) rs = true →
    samples s.cfg (readToks addr n) rs = [false, false, false] ++ bits →
    ∃ t, exec (.readBlock addr (BitVec.ofNat 4 n)) s = .next t ∧ Played (readToks addr n) rs rest s t
      ∧ t.result = .block true (bytesOfBits n bits) ∧ t.blkbuf.toList.take n = bytesOfBits n bits
      ∧ t.addr = addr ∧ t.len = BitVec.ofNat 4 n ∧ t.bus = (if s.bus = .idle then .idle else .unknown)
      ∧ t.starts = s.starts + 2 ∧ t.stops = s.stops + 2
      ∧ t.idbuf = s.idbuf ∧ t.status = s.status ∧ t.success = s.success ∧ t.seq = s.seq ∧ sameHost s t

/-- 42_eeprom_protocol.md R181, R186: a NACK of the first, second or third byte goes to `out`; `stop()` runs and the
result is `ok = false`;
entered in the wrong bus state it runs all the same and leaves BUS UNKNOWN (41_i2c_bus_engine.md R150, log 10). -/
def Obligations.ReadBlockNackStillStops : Prop :=
  ∀ (addr : Addr) (n : Nibble) (s : State) (rs : List Reply) (rest : List (Option Reply)) (toks : List Tok) (nack k : Nat),
    1 ≤ n.toNat → n.toNat ≤ 8 → s.replies = rs.map some ++ rest → answered toks rs = true →
    (toks = readNack1Toks addr ∧ nack = 0 ∧ k = 1 ∨ toks = readNack2Toks addr ∧ nack = 1 ∧ k = 1
      ∨ toks = readNack3Toks addr ∧ nack = 2 ∧ k = 2) →
    samples s.cfg toks rs = List.replicate nack false ++ [true] →
    ∃ t bytes, exec (.readBlock addr n) s = .next t ∧ Played toks rs rest s t ∧ t.result = .block false bytes
      ∧ released t ∧ t.bus = (if s.bus = .idle then .idle else .unknown)
      ∧ t.starts = s.starts + k ∧ t.stops = s.stops + k
      ∧ t.idbuf = s.idbuf ∧ t.status = s.status ∧ t.success = s.success ∧ t.seq = s.seq ∧ sameHost s t

/-- 42_eeprom_protocol.md R182, 30_encoding.md R99: every byte acknowledged. That ADDR, LEN and BLKBUF keep the operands
afterwards is the model's (log 14);
entered in the wrong bus state it runs all the same and leaves BUS UNKNOWN (41_i2c_bus_engine.md R150, log 10). -/
def Obligations.WriteBlockSendsEveryByte : Prop :=
  ∀ (addr : Addr) (data : List Byte) (s : State) (rs : List Reply) (rest : List (Option Reply)),
    1 ≤ data.length → data.length ≤ 8 → s.replies = rs.map some ++ rest →
    answered (writeToks addr data (2 + data.length)) rs = true →
    samples s.cfg (writeToks addr data (2 + data.length)) rs = List.replicate (2 + data.length) false →
    ∃ t, exec (.writeBlock addr data) s = .next t ∧ Played (writeToks addr data (2 + data.length)) rs rest s t
      ∧ t.result = .done true ∧ released t ∧ t.bus = (if s.bus = .idle then .idle else .unknown)
      ∧ t.addr = addr ∧ t.len = BitVec.ofNat 4 data.length ∧ t.blkbuf.toList.take data.length = data
      ∧ t.starts = s.starts + 1 ∧ t.stops = s.stops + 1
      ∧ t.idbuf = s.idbuf ∧ t.status = s.status ∧ t.success = s.success ∧ t.seq = s.seq ∧ sameHost s t

/-- 42_eeprom_protocol.md R182: at the first NACK the later bytes are not sent; `stop()` and the wait still run;
entered in the wrong bus state it runs all the same and leaves BUS UNKNOWN (41_i2c_bus_engine.md R150, log 10). -/
def Obligations.WriteBlockAbortsAtTheFirstNack : Prop :=
  ∀ (addr : Addr) (data : List Byte) (k : Nat) (s : State) (rs : List Reply) (rest : List (Option Reply)),
    1 ≤ data.length → data.length ≤ 8 → k < 2 + data.length → s.replies = rs.map some ++ rest →
    answered (writeToks addr data (k + 1)) rs = true →
    samples s.cfg (writeToks addr data (k + 1)) rs = List.replicate k false ++ [true] →
    ∃ t, exec (.writeBlock addr data) s = .next t ∧ Played (writeToks addr data (k + 1)) rs rest s t
      ∧ t.result = .done false ∧ released t ∧ t.bus = (if s.bus = .idle then .idle else .unknown)
      ∧ t.starts = s.starts + 1 ∧ t.stops = s.stops + 1
      ∧ t.idbuf = s.idbuf ∧ t.status = s.status ∧ t.success = s.success ∧ t.seq = s.seq ∧ sameHost s t

/-- 42_eeprom_protocol.md R183: from any bus state; OK exactly when both bytes equal the signature, otherwise
BAD_SIGNATURE. -/
def Obligations.ProbeComparesTheSignature : Prop :=
  ∀ (s : State) (rs : List Reply) (rest : List (Option Reply)) (bits : List Bool),
    s.replies = rs.map some ++ rest → answered (initToks ++ readToks 0 2) rs = true →
    samples s.cfg (initToks ++ readToks 0 2) rs = [false, false, false] ++ bits →
    ∃ t, exec .probe s = .next t ∧ Played (initToks ++ readToks 0 2) rs rest s t ∧ t.bus = .idle
      ∧ t.status = (if bytesOfBits 2 bits = [sig0 s.cfg, sig1 s.cfg] then 0 else 3)
      ∧ t.success = (t.status == 0) ∧ t.result = .outcome t.success t.status
      ∧ t.idbuf = s.idbuf ∧ t.seq = s.seq ∧ sameHost s t

/-- 42_eeprom_protocol.md R183: any read failure is NO_EEPROM. -/
def Obligations.ProbeWithNoAcknowledgeReportsNoEeprom : Prop :=
  ∀ (s : State) (rs : List Reply) (rest : List (Option Reply)) (toks : List Tok) (nack : Nat),
    s.replies = rs.map some ++ rest → answered (initToks ++ toks) rs = true →
    (toks = readNack1Toks 0 ∧ nack = 0 ∨ toks = readNack2Toks 0 ∧ nack = 1 ∨ toks = readNack3Toks 0 ∧ nack = 2) →
    samples s.cfg (initToks ++ toks) rs = List.replicate nack false ++ [true] →
    ∃ t, exec .probe s = .next t ∧ Played (initToks ++ toks) rs rest s t ∧ t.bus = .idle ∧ t.status = 2
      ∧ t.success = false ∧ t.result = .outcome false 2 ∧ t.idbuf = s.idbuf ∧ t.seq = s.seq ∧ sameHost s t

/-- 42_eeprom_protocol.md R184, 10_state.md R28: the 8 bytes and a zero; the text delivered is the bytes before the first
zero (30_encoding.md R102);
entered in the wrong bus state it runs all the same and leaves BUS UNKNOWN (41_i2c_bus_engine.md R150, log 10). -/
def Obligations.ReadIdentifierFillsTheBuffer : Prop :=
  ∀ (s : State) (rs : List Reply) (rest : List (Option Reply)) (bits : List Bool),
    s.replies = rs.map some ++ rest → answered (readToks 2 8) rs = true →
    samples s.cfg (readToks 2 8) rs = [false, false, false] ++ bits →
    ∃ t, exec .readIdentifier s = .next t ∧ Played (readToks 2 8) rs rest s t
      ∧ t.idbuf.toList = bytesOfBits 8 bits ++ [0] ∧ t.status = 0 ∧ t.success = true
      ∧ (∃ n, n ≤ 8 ∧ deliveredText t.idbuf = t.idbuf.toList.take n ∧ t.idbuf.toList[n]? = some 0
          ∧ ∀ k, k < n → t.idbuf.toList[k]? ≠ some 0)
      ∧ t.result = .identifier true 0 t.idbuf ∧ t.bus = (if s.bus = .idle then .idle else .unknown)
      ∧ t.seq = s.seq ∧ sameHost s t

/-- 42_eeprom_protocol.md R184: a read failure is NO_ACK;
entered in the wrong bus state it runs all the same and leaves BUS UNKNOWN (41_i2c_bus_engine.md R150, log 10). -/
def Obligations.ReadIdentifierWithNoAcknowledgeReportsNoAck : Prop :=
  ∀ (s : State) (rs : List Reply) (rest : List (Option Reply)) (toks : List Tok) (nack : Nat),
    s.replies = rs.map some ++ rest → answered toks rs = true →
    (toks = readNack1Toks 2 ∧ nack = 0 ∨ toks = readNack2Toks 2 ∧ nack = 1 ∨ toks = readNack3Toks 2 ∧ nack = 2) →
    samples s.cfg toks rs = List.replicate nack false ++ [true] →
    ∃ t, exec .readIdentifier s = .next t ∧ Played toks rs rest s t ∧ t.status = 1 ∧ t.success = false
      ∧ t.bus = (if s.bus = .idle then .idle else .unknown) ∧ t.seq = s.seq ∧ sameHost s t

/-- 42_eeprom_protocol.md R185: two write cycles, the signature, then the identifier image;
entered in the wrong bus state it runs all the same and leaves BUS UNKNOWN (41_i2c_bus_engine.md R150, log 10). -/
def Obligations.WriteIdentifierRunsTwoWriteCycles : Prop :=
  ∀ (text : List Byte) (s : State) (rs : List Reply) (rest : List (Option Reply)) (toks : List Tok),
    (0 : Byte) ∉ text → toks = writeToks 0 [sig0 s.cfg, sig1 s.cfg] 4 ++ writeToks 2 (id8 text) 10 →
    s.replies = rs.map some ++ rest → answered toks rs = true →
    samples s.cfg toks rs = List.replicate 14 false →
    ∃ t, exec (.writeIdentifier text) s = .next t ∧ Played toks rs rest s t ∧ t.status = 0 ∧ t.success = true
      ∧ t.result = .outcome true 0 ∧ t.bus = (if s.bus = .idle then .idle else .unknown)
      ∧ t.starts = s.starts + 2 ∧ t.stops = s.stops + 2 ∧ t.idbuf = s.idbuf ∧ t.seq = s.seq ∧ sameHost s t

/-- 42_eeprom_protocol.md R185, decision D12: after a failed first write the second is not attempted; a failed second
write is the partial failure, reported with a code of its own;
entered in the wrong bus state it runs all the same and leaves BUS UNKNOWN (41_i2c_bus_engine.md R150, log 10). -/
def Obligations.WriteIdentifierFailuresAreTold : Prop :=
  ∀ (text : List Byte) (k : Nat) (s : State) (rs : List Reply) (rest : List (Option Reply)) (toks : List Tok),
    (0 : Byte) ∉ text → s.replies = rs.map some ++ rest → answered toks rs = true →
    (k < 4 → toks = writeToks 0 [sig0 s.cfg, sig1 s.cfg] (k + 1) →
      samples s.cfg toks rs = List.replicate k false ++ [true] →
      ∃ t, exec (.writeIdentifier text) s = .next t ∧ Played toks rs rest s t ∧ t.status = 4 ∧ t.success = false
        ∧ t.bus = (if s.bus = .idle then .idle else .unknown) ∧ t.result = .outcome false 4
        ∧ t.starts = s.starts + 1 ∧ t.stops = s.stops + 1 ∧ t.idbuf = s.idbuf ∧ sameHost s t)
    ∧ (k < 10 → toks = writeToks 0 [sig0 s.cfg, sig1 s.cfg] 4 ++ writeToks 2 (id8 text) (k + 1) →
      samples s.cfg toks rs = List.replicate (4 + k) false ++ [true] →
      ∃ t, exec (.writeIdentifier text) s = .next t ∧ Played toks rs rest s t ∧ t.status = 5 ∧ t.success = false
        ∧ t.bus = (if s.bus = .idle then .idle else .unknown) ∧ t.result = .outcome false 5
        ∧ t.starts = s.starts + 2 ∧ t.stops = s.stops + 2 ∧ t.idbuf = s.idbuf ∧ sameHost s t)

/-- 60_exceptions.md R237: the codes the host can see, and SUCCESS = (STATUS == 0), whatever the world answers. -/
def Obligations.ExposedOperationsReportTheirCodes : Prop :=
  ∀ (i : Instr) (s t : State), i.exposed = true → exec i s = .next t →
    t.success = (t.status == 0)
    ∧ (i = .probe → t.status = 0 ∨ t.status = 2 ∨ t.status = 3 ∨ t.status = 6)
    ∧ (i = .readIdentifier → t.status = 0 ∨ t.status = 1 ∨ t.status = 6)
    ∧ (∀ text, i = .writeIdentifier text → t.status = 0 ∨ t.status = 4 ∨ t.status = 5 ∨ t.status = 6)
    ∧ (t.status = 6 ↔ t.result = .fatal)

/-- 42_eeprom_protocol.md R186: without TransportFatal every `start()` has its `stop()`. -/
def Obligations.StopsMatchStarts : Prop :=
  ∀ (i : Instr) (s t : State),
    (i.exposed = true ∨ (∃ a n, i = .readBlock a n) ∨ (∃ a d, i = .writeBlock a d)) →
    exec i s = .next t → t.result ≠ .fatal →
    ∃ k, 1 ≤ k ∧ k ≤ 2 ∧ t.starts = s.starts + k ∧ t.stops = s.stops + k

/-- 42_eeprom_protocol.md R180, 20_memory.md R66: without TransportFatal the protocol operations leave the bus idle,
both lines released and the bridge holding the latch; `probe` from any state. -/
def Obligations.ProtocolLeavesTheBusIdle : Prop :=
  ∀ (i : Instr) (s t : State),
    (i = .probe ∨ s.bus = .idle ∧ (i.exposed = true ∨ (∃ a n, i = .readBlock a n) ∨ (∃ a d, i = .writeBlock a d))) →
    exec i s = .next t → t.result ≠ .fatal → t.bus = .idle ∧ released t ∧ t.bridge = t.latch

/-- 10_state.md R24: what the host can do never makes IDLE a false claim about the latch. -/
def Obligations.IdleMeansReleasedForTheHost : Prop :=
  ∀ (i : Instr) (s t : State), i.exposed = true → idleReleased s → exec i s = .next t → idleReleased t

/-- 41_i2c_bus_engine.md R150 with decision D5: only an operation that runs `busInit` takes BUS out of UNKNOWN. -/
def Obligations.OnlyBusInitLeavesUnknown : Prop :=
  ∀ (i : Instr) (s t : State), s.bus = .unknown → i ≠ .busInit → i ≠ .probe → exec i s = .next t → t.bus = .unknown

/-- 42_eeprom_protocol.md R187: events and time lower bounds of the runs that succeed, whatever the world answers. -/
def Obligations.SuccessfulRunsHaveTheirEventCounts : Prop :=
  ∀ (i : Instr) (s t : State) (evs : List Event), exec i s = .next t → t.trace = evs ++ s.trace →
    (∀ a n bytes, i = .readBlock a n → t.result = .block true bytes →
      outCount evs = 91 + 20 * n.toNat ∧ inCount evs = 3 + 8 * n.toNat ∧ delaySum evs = (92 + 20 * n.toNat) * 10)
    ∧ (∀ a d, i = .writeBlock a d → t.result = .done true →
      outCount evs = 59 + 27 * d.length ∧ inCount evs = 2 + d.length
        ∧ delaySum evs = (59 + 27 * d.length) * 10 + 10000)
    ∧ (i = .probe → (t.status = 0 ∨ t.status = 3) → outCount evs = 133 ∧ inCount evs = 19 ∧ delaySum evs = 1340)
    ∧ (i = .readIdentifier → t.status = 0 → outCount evs = 251 ∧ inCount evs = 67 ∧ delaySum evs = 2520)
    ∧ (∀ text, i = .writeIdentifier text → t.status = 0 →
      outCount evs = 388 ∧ inCount evs = 14 ∧ delaySum evs = 23880)

/-! ### Transport tier -/

/-- 60_exceptions.md R224: what raising TransportFatal leaves, for every operation and every transfer: the failed
transfer is the last event, and a failed output leaves its new value in LATCH. -/
def Obligations.TransportFatalEntryState : Prop :=
  ∀ (i : Instr) (s t : State), exec i s = .next t → t.result = .fatal →
    t.bus = .unknown ∧ t.seq = [] ∧ t.success = false ∧ t.status = 6 ∧ sameHost s t
      ∧ ∃ e evs, t.trace = e :: evs ∧ isFailure e = true
        ∧ ∀ req ret, e = .out req ret → req.value = t.latch.zeroExtend 16

/-- 60_exceptions.md R223, R226: an operation ends in TransportFatal exactly when one of its transfers failed, and that
transfer is the last thing it does. -/
def Obligations.FatalExactlyOnAFailedTransfer : Prop :=
  ∀ (i : Instr) (s t : State), exec i s = .next t →
    ∃ evs, t.trace = evs ++ s.trace ∧ (t.result = .fatal ↔ ∃ e ∈ evs, isFailure e = true)
      ∧ ∀ e ∈ evs.tail, isFailure e = false

/-- 60_exceptions.md R224: the trace before the failing transfer, the answer number `pre.length + 1`, is the trace of any
run that got the same answers up to there and another one then: in particular of the fault-free run. -/
def Obligations.FailedRunIsAPrefixOfTheFaultFreeRun : Prop :=
  ∀ (i : Instr) (s t t' : State) (pre : List Reply) (bad good : Reply) (rest : List (Option Reply)) (evs : List Event),
    exec i { s with replies := pre.map some ++ [some bad] } = .next t → t.result = .fatal →
    t.trace = evs ++ s.trace → outCount evs + inCount evs = pre.length + 1 →
    exec i { s with replies := pre.map some ++ some good :: rest } = .next t' →
    ∃ later, t'.trace = later ++ evs.tail ++ s.trace

/-! ### Frames -/

/-- No operation writes a parameter or the host's side of the block (00_scope.md R6; log 1, 11). -/
def Obligations.ParametersAndPortAreKept : Prop :=
  (∀ (i : Instr) (s t : State), exec i s = .next t → sameHost s t)
  ∧ (∀ s t : State, step s = .next t → t.cfg = s.cfg)

/-- Frame of the pin operations (40_pin_controller.md R130 to R134): no register but LATCH; the readers not even that,
nor the bridge, nor the world. -/
def Obligations.PinOperationsWriteOnlyTheLatch : Prop :=
  ∀ (i : Instr) (s t : State), exec i s = .next t → t.result ≠ .fatal →
    ((i = .readInputs ∨ i = .getSDA) → sameRegs s t ∧ t.latch = s.latch ∧ t.bridge = s.bridge ∧ t.world = s.world
      ∧ t.starts = s.starts ∧ t.stops = s.stops)
    ∧ (((∃ v, i = .writeOutputs v) ∨ (∃ b, i = .setSCL b) ∨ (∃ b, i = .setSDA b)) →
      sameRegs s t ∧ t.starts = s.starts ∧ t.stops = s.stops)

/-- Frame of the engine's operations and the wire frames (41_i2c_bus_engine.md R151 to R155): BUS; a byte also SHIFT
and BITCNT; a sent byte also ACKF. -/
def Obligations.BusOperationsWriteOnlyTheirRegisters : Prop :=
  ∀ (i : Instr) (s t : State), exec i s = .next t → t.result ≠ .fatal →
    ((i = .busInit ∨ i = .start ∨ i = .stop) → sameRegs { s with bus := t.bus } t)
    ∧ (((∃ l, i = .rxByte l) ∨ (∃ l, i = .dataFrame (.received l))) →
      sameRegs { s with bus := t.bus, shift := t.shift, bitcnt := t.bitcnt } t)
    ∧ (((∃ v, i = .txByte v) ∨ (∃ h, i = .devselW h) ∨ (∃ h, i = .devselR h) ∨ (∃ a, i = .wordAddr a)
        ∨ (∃ d, i = .dataFrame (.sent d))) →
      sameRegs { s with bus := t.bus, shift := t.shift, bitcnt := t.bitcnt, ackf := t.ackf } t)

/-- Frame of the EEPROM Protocol (42_eeprom_protocol.md R181 to R185): the block operations keep IDBUF, STATUS and
SUCCESS; `probe` and `writeIdentifier` keep IDBUF; none touches SEQ. -/
def Obligations.ProtocolOperationsWriteOnlyTheirRegisters : Prop :=
  ∀ (i : Instr) (s t : State), exec i s = .next t → t.result ≠ .fatal →
    (((∃ a n, i = .readBlock a n) ∨ (∃ a d, i = .writeBlock a d)) →
      t.idbuf = s.idbuf ∧ t.status = s.status ∧ t.success = s.success ∧ t.seq = s.seq)
    ∧ ((i = .probe ∨ ∃ text, i = .writeIdentifier text) → t.idbuf = s.idbuf ∧ t.seq = s.seq)
    ∧ (i = .readIdentifier → t.seq = s.seq)

/-- Memory frame of the operations below the protocol, transport failures included: the readers store nothing; the
others store at most where a STOP commits the page buffer of the attached EEPROM (20_memory.md R71, R74); not reducing
those addresses modulo EE_SIZE is the model's choice (log 30). -/
def Obligations.LowerOperationsStoreOnlyThePendingPage : Prop :=
  ∀ (i : Instr) (s t : State) (a : Nat), exec i s = .next t →
    ((i = .readInputs ∨ i = .getSDA) → readMem t.world a = readMem s.world a)
    ∧ (((∃ v, i = .writeOutputs v) ∨ (∃ b, i = .setSCL b) ∨ (∃ b, i = .setSDA b) ∨ i = .busInit ∨ i = .start
        ∨ i = .stop ∨ (∃ v, i = .txByte v) ∨ (∃ l, i = .rxByte l) ∨ (∃ h, i = .devselW h) ∨ (∃ h, i = .devselR h)
        ∨ (∃ v, i = .wordAddr v) ∨ (∃ f, i = .dataFrame f)) →
      a ∉ pendingStores s.world → readMem t.world a = readMem s.world a)

/-- 20_memory.md R59: a read does not change EEPROM content, whatever its outcome, from a quiet bus. -/
def Obligations.ReadsLeaveTheMemory : Prop :=
  ∀ (i : Instr) (s t : State) (a : Nat), ((∃ ad n, i = .readBlock ad n) ∨ i = .probe ∨ i = .readIdentifier) →
    quiet s → exec i s = .next t → readMem t.world a = readMem s.world a

/-- Memory frame of the writes, whatever their outcome, from a quiet bus: only the addresses of R74 for the bytes sent
(20_memory.md R74); for `writeIdentifier` those of its two writes. Not reducing them modulo EE_SIZE is the model's
choice (log 30). -/
def Obligations.WritesStoreOnlyAtTheirAddresses : Prop :=
  ∀ (s t : State) (a : Nat), quiet s →
    (∀ (addr : Addr) (data : List Byte), exec (.writeBlock addr data) s = .next t →
      a ∉ blockStores s.world addr data.length → readMem t.world a = readMem s.world a)
    ∧ (∀ text : List Byte, exec (.writeIdentifier text) s = .next t →
      a ∉ blockStores s.world 0 2 → a ∉ blockStores s.world 2 8 → readMem t.world a = readMem s.world a)

/-! ### The reference EEPROM (20_memory.md R60, 42_eeprom_protocol.md R188: claims about a device are claims about it) -/

/-- 20_memory.md R60, MemRead: against the reference EEPROM, present and idle, `readBlock` returns its content. -/
def Obligations.MemReadReturnsTheContent : Prop :=
  ∀ (addr : Addr) (n : Nat) (s : State) (lines : StatusLines) (e : Eeprom),
    1 ≤ n → n ≤ 8 → addr.toNat + n ≤ 256 → addr.toNat + n ≤ e.size → (0xA0 : Byte) ∈ e.devsel →
    (0xA1 : Byte) ∈ e.devsel → e.busyUntil ≤ s.now → s.world = .reference lines e → s.replies = [] → quiet s →
    ∃ t, exec (.readBlock addr (BitVec.ofNat 4 n)) s = .next t
      ∧ t.result = .block true ((List.range n).map fun k => e.mem.read (addr.toNat + k))

/-- 20_memory.md R60, MemWrite: against the reference EEPROM, present, idle, and with the addressed bytes in one page,
`writeBlock` stores the data and nothing else, and the write cycle is over when it returns. For addresses that are not
below EE_SIZE, where R70 has no M, what it says is the model's choice (log 30). -/
def Obligations.MemWriteStoresTheData : Prop :=
  ∀ (addr : Addr) (data : List Byte) (s : State) (lines : StatusLines) (e : Eeprom), memOk s.world = true →
    1 ≤ data.length → data.length ≤ 8 → addr.toNat + data.length ≤ 256 → (0xA0 : Byte) ∈ e.devsel →
    (∀ k, k < data.length → commitAddr e.page (wordByte addr) k = addr.toNat + k) →
    e.tWr ≤ 10000 → e.busyUntil ≤ s.now → s.world = .reference lines e → s.replies = [] → quiet s →
    ∃ t e', exec (.writeBlock addr data) s = .next t ∧ t.result = .done true ∧ t.world = .reference lines e'
      ∧ e'.busyUntil ≤ t.now
      ∧ ∀ a, e'.mem.read a =
          if addr.toNat ≤ a ∧ a < addr.toNat + data.length then data.getD (a - addr.toNat) 0 else e.mem.read a

/-- 42_eeprom_protocol.md R188 (c): `probe` succeeds if and only if the bytes at addresses 0 and 1 equal the signature. -/
def Obligations.ProbeSucceedsIffTheSignatureIsThere : Prop :=
  ∀ (s : State) (lines : StatusLines) (e : Eeprom),
    2 ≤ e.size → (0xA0 : Byte) ∈ e.devsel → (0xA1 : Byte) ∈ e.devsel → e.busyUntil ≤ s.now →
    s.world = .reference lines e → s.replies = [] → quiet s →
    ∃ t, exec .probe s = .next t
      ∧ (t.success = true ↔ e.mem.read 0 = sig0 s.cfg ∧ e.mem.read 1 = sig1 s.cfg)

/-- 42_eeprom_protocol.md R188 (b), the round-trip law: what `writeIdentifier` wrote, `readIdentifier` returns, zero
padded or truncated to 8 bytes, for a device whose page contains addresses 2 to 9 (70_reset_and_hazards.md R270). -/
def Obligations.IdentifierRoundTrip : Prop :=
  ∀ (text : List Byte) (s : State) (lines : StatusLines) (e : Eeprom), memOk s.world = true →
    (0 : Byte) ∉ text → 10 ≤ e.size → (0xA0 : Byte) ∈ e.devsel → (0xA1 : Byte) ∈ e.devsel →
    (∀ k, k < 2 → commitAddr e.page 0 k = k) → (∀ k, k < 8 → commitAddr e.page 2 k = 2 + k) →
    e.tWr ≤ 10000 → e.busyUntil ≤ s.now → s.world = .reference lines e → s.replies = [] → quiet s →
    ∃ t u, exec (.writeIdentifier text) s = .next t ∧ t.status = 0
      ∧ exec .readIdentifier t = .next u ∧ u.status = 0 ∧ u.idbuf.toList = id8 text ++ [0]

/-! ### Invariants and the sequencer -/

/-- The invariant of Safety.lean holds at reset. -/
def Obligations.ResetMeetsTheInvariant : Prop := Inv State.reset

/-- Every step keeps the invariant: canonical memory (20_memory.md R50), SUCCESS = (STATUS == 0) with STATUS at most 6
(10_state.md R27), LEN and BITCNT in range (R20), a legal call stack (R25). -/
def Obligations.EveryStepKeepsTheInvariant : Prop :=
  ∀ s t : State, Inv s → step s = .next t → Inv t

/-- 10_state.md R25: a legal stack has at most six frames. -/
def Obligations.CallStackHasAtMostSixFrames : Prop :=
  ∀ s : State, Inv s → s.seq.length ≤ 6

/-- 10_state.md R25: evaluating an operation as one function is equivalent to running SEQ line by line until it is
empty. -/
def Obligations.SequencerRefinesTheOperations : Prop :=
  ∀ (i : Instr) (s t : State), s.seq = [] → exec i s = .next t → ∃ k, seqRun k (issue i s) = t

/-! ### More about the bus -/

/-- 41_i2c_bus_engine.md R157: START and STOP are the only places where SDA, as the master drives it, changes while SCL
is high. A byte entered with SCL low has none; a protocol operation entered with both lines released has, for each of
its transactions, one fall (START) and one rise (STOP). Whatever the world answers, as long as no transfer fails. -/
def Obligations.SdaMovesOnlyWhileSclIsLow : Prop :=
  ∀ (i : Instr) (s t : State) (evs : List Event),
    exec i s = .next t → t.result ≠ .fatal → t.trace = evs.reverse ++ s.trace →
    (((∃ v, i = .txByte v) ∨ (∃ l, i = .rxByte l) ∨ (∃ h, i = .devselW h) ∨ (∃ h, i = .devselR h)
        ∨ (∃ a, i = .wordAddr a) ∨ (∃ f, i = .dataFrame f)) →
      sclOf s.cfg s.latch = false → sdaMovesHigh s.cfg s.latch evs = [])
    ∧ (i = .start → released s → sdaMovesHigh s.cfg s.latch evs = [false])
    ∧ (i = .stop → sclOf s.cfg s.latch = false → sdaMovesHigh s.cfg s.latch evs = [true])
    ∧ ((i.exposed = true ∨ (∃ a n, i = .readBlock a n) ∨ (∃ a d, i = .writeBlock a d)) → released s →
      sdaMovesHigh s.cfg s.latch evs = transactionMoves (t.starts - s.starts))

/-- 20_memory.md R75: with no EEPROM attached `getSDA` returns what the master itself drives (the bridge's register,
log 29), every byte is answered NACK, and the exposed operations report it (60_exceptions.md R237). General knowledge,
as R75 is (log 8). -/
def Obligations.AbsentDeviceNeverAcknowledges : Prop :=
  ∀ (s : State) (lines : StatusLines), s.world = .absent lines → s.replies = [] →
    (∃ t, exec .getSDA s = .next t ∧ t.result = .level (sdaOf s.cfg s.bridge))
    ∧ (∀ v, ∃ t, exec (.txByte v) s = .next t ∧ t.result = .ack false ∧ t.ackf = false)
    ∧ (∀ a n, 1 ≤ n.toNat → n.toNat ≤ 8 → ∃ t bytes, exec (.readBlock a n) s = .next t ∧ t.result = .block false bytes)
    ∧ (∀ a d, 1 ≤ d.length → d.length ≤ 8 → ∃ t, exec (.writeBlock a d) s = .next t ∧ t.result = .done false)
    ∧ (∃ t, exec .probe s = .next t ∧ t.success = false ∧ t.status = 2)
    ∧ (∃ t, exec .readIdentifier s = .next t ∧ t.success = false ∧ t.status = 1)
    ∧ (∀ text, (0 : Byte) ∉ text →
        ∃ t, exec (.writeIdentifier text) s = .next t ∧ t.success = false ∧ t.status = 4)
end

