-- ==== Sys2Proof/Laws/Decode.lean ====
section
/-! SUPPORT. What the operand readers of the decoder do with the operand writers of the encoder. -/

namespace Sys2Proof

@[simp] theorem decodeBit_encodeBit (b : Bool) : decodeBit (encodeBit b) = .ok b := by cases b <;> rfl

@[simp] theorem joinAddr_addrLo_addrHi (a : Addr) : joinAddr (addrLo a) (addrHi a) = a := by
  unfold joinAddr addrLo addrHi
  apply BitVec.eq_of_getLsbD_eq
  intro k hk
  rw [BitVec.getLsbD_append]
  by_cases h : k < 8
  · simp [h]
  · simp [h, show 8 + (k - 8) = k by omega]; omega

/-- A text and its terminator read back as the text. -/
theorem decodeText_terminated (text : List Byte) (h : textOk text = true) (rest : List Byte) :
    decodeText (text ++ 0 :: rest) = .ok text := by
  induction text with
  | nil => rfl
  | cons b text ih =>
    simp only [textOk, List.all_cons, Bool.and_eq_true, bne_iff_ne, ne_eq] at h
    rw [List.cons_append, decodeText, if_neg h.1, ih h.2]

/-- What the text reader reads is a text. -/
theorem decodeText_textOk {bytes text : List Byte} (h : decodeText bytes = .ok text) : textOk text = true := by
  induction bytes generalizing text with
  | nil => cases h
  | cons b bytes ih =>
    by_cases hb : b = 0
    · rw [decodeText, if_pos hb] at h
      cases h
      rfl
    · rw [decodeText, if_neg hb] at h
      cases hd : decodeText bytes with
      | ok t =>
        rw [hd] at h
        cases h
        have ht := ih hd
        simp only [textOk, List.all_cons, Bool.and_eq_true, bne_iff_ne, ne_eq]
        exact ⟨hb, ht⟩
      | error e =>
        rw [hd] at h
        cases h

end Sys2Proof
end

