-- ==== Sys2Proof/Laws/State.lean ====
section
/-! SUPPORT. What each field of State is after each named update of the machine: one lemma per field per update, so
that no proof unfolds a record update. -/

namespace Sys2Proof.Machine

/-! `setOutcome` -/

@[simp] theorem setOutcome_cfg (code : Nibble) (s : State) : (setOutcome code s).cfg = s.cfg := rfl
@[simp] theorem setOutcome_latch (code : Nibble) (s : State) : (setOutcome code s).latch = s.latch := rfl
@[simp] theorem setOutcome_bus (code : Nibble) (s : State) : (setOutcome code s).bus = s.bus := rfl
@[simp] theorem setOutcome_idbuf (code : Nibble) (s : State) : (setOutcome code s).idbuf = s.idbuf := rfl
@[simp] theorem setOutcome_status (code : Nibble) (s : State) : (setOutcome code s).status = code := rfl
@[simp] theorem setOutcome_success (code : Nibble) (s : State) : (setOutcome code s).success = (code == stOk) := rfl
@[simp] theorem setOutcome_ackf (code : Nibble) (s : State) : (setOutcome code s).ackf = s.ackf := rfl
@[simp] theorem setOutcome_shift (code : Nibble) (s : State) : (setOutcome code s).shift = s.shift := rfl
@[simp] theorem setOutcome_bitcnt (code : Nibble) (s : State) : (setOutcome code s).bitcnt = s.bitcnt := rfl
@[simp] theorem setOutcome_addr (code : Nibble) (s : State) : (setOutcome code s).addr = s.addr := rfl
@[simp] theorem setOutcome_len (code : Nibble) (s : State) : (setOutcome code s).len = s.len := rfl
@[simp] theorem setOutcome_cnt (code : Nibble) (s : State) : (setOutcome code s).cnt = s.cnt := rfl
@[simp] theorem setOutcome_blkbuf (code : Nibble) (s : State) : (setOutcome code s).blkbuf = s.blkbuf := rfl
@[simp] theorem setOutcome_seq (code : Nibble) (s : State) : (setOutcome code s).seq = s.seq := rfl
@[simp] theorem setOutcome_bridge (code : Nibble) (s : State) : (setOutcome code s).bridge = s.bridge := rfl
@[simp] theorem setOutcome_world (code : Nibble) (s : State) : (setOutcome code s).world = s.world := rfl
@[simp] theorem setOutcome_replies (code : Nibble) (s : State) : (setOutcome code s).replies = s.replies := rfl
@[simp] theorem setOutcome_now (code : Nibble) (s : State) : (setOutcome code s).now = s.now := rfl
@[simp] theorem setOutcome_port (code : Nibble) (s : State) : (setOutcome code s).port = s.port := rfl
@[simp] theorem setOutcome_calls (code : Nibble) (s : State) : (setOutcome code s).calls = s.calls := rfl
@[simp] theorem setOutcome_result (code : Nibble) (s : State) : (setOutcome code s).result = s.result := rfl
@[simp] theorem setOutcome_trace (code : Nibble) (s : State) : (setOutcome code s).trace = s.trace := rfl
@[simp] theorem setOutcome_starts (code : Nibble) (s : State) : (setOutcome code s).starts = s.starts := rfl
@[simp] theorem setOutcome_stops (code : Nibble) (s : State) : (setOutcome code s).stops = s.stops := rfl
@[simp] theorem setOutcome_fresh (code : Nibble) (s : State) : (setOutcome code s).fresh = s.fresh := rfl

/-! `setAck` -/

@[simp] theorem setAck_cfg (b : Bool) (s : State) : (setAck b s).cfg = s.cfg := rfl
@[simp] theorem setAck_latch (b : Bool) (s : State) : (setAck b s).latch = s.latch := rfl
@[simp] theorem setAck_bus (b : Bool) (s : State) : (setAck b s).bus = s.bus := rfl
@[simp] theorem setAck_idbuf (b : Bool) (s : State) : (setAck b s).idbuf = s.idbuf := rfl
@[simp] theorem setAck_status (b : Bool) (s : State) : (setAck b s).status = s.status := rfl
@[simp] theorem setAck_success (b : Bool) (s : State) : (setAck b s).success = s.success := rfl
@[simp] theorem setAck_ackf (b : Bool) (s : State) : (setAck b s).ackf = (!b) := rfl
@[simp] theorem setAck_shift (b : Bool) (s : State) : (setAck b s).shift = s.shift := rfl
@[simp] theorem setAck_bitcnt (b : Bool) (s : State) : (setAck b s).bitcnt = s.bitcnt := rfl
@[simp] theorem setAck_addr (b : Bool) (s : State) : (setAck b s).addr = s.addr := rfl
@[simp] theorem setAck_len (b : Bool) (s : State) : (setAck b s).len = s.len := rfl
@[simp] theorem setAck_cnt (b : Bool) (s : State) : (setAck b s).cnt = s.cnt := rfl
@[simp] theorem setAck_blkbuf (b : Bool) (s : State) : (setAck b s).blkbuf = s.blkbuf := rfl
@[simp] theorem setAck_seq (b : Bool) (s : State) : (setAck b s).seq = s.seq := rfl
@[simp] theorem setAck_bridge (b : Bool) (s : State) : (setAck b s).bridge = s.bridge := rfl
@[simp] theorem setAck_world (b : Bool) (s : State) : (setAck b s).world = s.world := rfl
@[simp] theorem setAck_replies (b : Bool) (s : State) : (setAck b s).replies = s.replies := rfl
@[simp] theorem setAck_now (b : Bool) (s : State) : (setAck b s).now = s.now := rfl
@[simp] theorem setAck_port (b : Bool) (s : State) : (setAck b s).port = s.port := rfl
@[simp] theorem setAck_calls (b : Bool) (s : State) : (setAck b s).calls = s.calls := rfl
@[simp] theorem setAck_result (b : Bool) (s : State) : (setAck b s).result = s.result := rfl
@[simp] theorem setAck_trace (b : Bool) (s : State) : (setAck b s).trace = s.trace := rfl
@[simp] theorem setAck_starts (b : Bool) (s : State) : (setAck b s).starts = s.starts := rfl
@[simp] theorem setAck_stops (b : Bool) (s : State) : (setAck b s).stops = s.stops := rfl
@[simp] theorem setAck_fresh (b : Bool) (s : State) : (setAck b s).fresh = s.fresh := rfl

/-! `setBusStarted` -/

@[simp] theorem setBusStarted_cfg (s : State) : (setBusStarted s).cfg = s.cfg := rfl
@[simp] theorem setBusStarted_latch (s : State) : (setBusStarted s).latch = s.latch := rfl
@[simp] theorem setBusStarted_bus (s : State) : (setBusStarted s).bus = busAfter .idle .busy s.bus := rfl
@[simp] theorem setBusStarted_idbuf (s : State) : (setBusStarted s).idbuf = s.idbuf := rfl
@[simp] theorem setBusStarted_status (s : State) : (setBusStarted s).status = s.status := rfl
@[simp] theorem setBusStarted_success (s : State) : (setBusStarted s).success = s.success := rfl
@[simp] theorem setBusStarted_ackf (s : State) : (setBusStarted s).ackf = s.ackf := rfl
@[simp] theorem setBusStarted_shift (s : State) : (setBusStarted s).shift = s.shift := rfl
@[simp] theorem setBusStarted_bitcnt (s : State) : (setBusStarted s).bitcnt = s.bitcnt := rfl
@[simp] theorem setBusStarted_addr (s : State) : (setBusStarted s).addr = s.addr := rfl
@[simp] theorem setBusStarted_len (s : State) : (setBusStarted s).len = s.len := rfl
@[simp] theorem setBusStarted_cnt (s : State) : (setBusStarted s).cnt = s.cnt := rfl
@[simp] theorem setBusStarted_blkbuf (s : State) : (setBusStarted s).blkbuf = s.blkbuf := rfl
@[simp] theorem setBusStarted_seq (s : State) : (setBusStarted s).seq = s.seq := rfl
@[simp] theorem setBusStarted_bridge (s : State) : (setBusStarted s).bridge = s.bridge := rfl
@[simp] theorem setBusStarted_world (s : State) : (setBusStarted s).world = s.world := rfl
@[simp] theorem setBusStarted_replies (s : State) : (setBusStarted s).replies = s.replies := rfl
@[simp] theorem setBusStarted_now (s : State) : (setBusStarted s).now = s.now := rfl
@[simp] theorem setBusStarted_port (s : State) : (setBusStarted s).port = s.port := rfl
@[simp] theorem setBusStarted_calls (s : State) : (setBusStarted s).calls = s.calls := rfl
@[simp] theorem setBusStarted_result (s : State) : (setBusStarted s).result = s.result := rfl
@[simp] theorem setBusStarted_trace (s : State) : (setBusStarted s).trace = s.trace := rfl
@[simp] theorem setBusStarted_starts (s : State) : (setBusStarted s).starts = s.starts := rfl
@[simp] theorem setBusStarted_stops (s : State) : (setBusStarted s).stops = s.stops := rfl
@[simp] theorem setBusStarted_fresh (s : State) : (setBusStarted s).fresh = s.fresh := rfl

/-! `setBusStopped` -/

@[simp] theorem setBusStopped_cfg (s : State) : (setBusStopped s).cfg = s.cfg := rfl
@[simp] theorem setBusStopped_latch (s : State) : (setBusStopped s).latch = s.latch := rfl
@[simp] theorem setBusStopped_bus (s : State) : (setBusStopped s).bus = busAfter .busy .idle s.bus := rfl
@[simp] theorem setBusStopped_idbuf (s : State) : (setBusStopped s).idbuf = s.idbuf := rfl
@[simp] theorem setBusStopped_status (s : State) : (setBusStopped s).status = s.status := rfl
@[simp] theorem setBusStopped_success (s : State) : (setBusStopped s).success = s.success := rfl
@[simp] theorem setBusStopped_ackf (s : State) : (setBusStopped s).ackf = s.ackf := rfl
@[simp] theorem setBusStopped_shift (s : State) : (setBusStopped s).shift = s.shift := rfl
@[simp] theorem setBusStopped_bitcnt (s : State) : (setBusStopped s).bitcnt = s.bitcnt := rfl
@[simp] theorem setBusStopped_addr (s : State) : (setBusStopped s).addr = s.addr := rfl
@[simp] theorem setBusStopped_len (s : State) : (setBusStopped s).len = s.len := rfl
@[simp] theorem setBusStopped_cnt (s : State) : (setBusStopped s).cnt = s.cnt := rfl
@[simp] theorem setBusStopped_blkbuf (s : State) : (setBusStopped s).blkbuf = s.blkbuf := rfl
@[simp] theorem setBusStopped_seq (s : State) : (setBusStopped s).seq = s.seq := rfl
@[simp] theorem setBusStopped_bridge (s : State) : (setBusStopped s).bridge = s.bridge := rfl
@[simp] theorem setBusStopped_world (s : State) : (setBusStopped s).world = s.world := rfl
@[simp] theorem setBusStopped_replies (s : State) : (setBusStopped s).replies = s.replies := rfl
@[simp] theorem setBusStopped_now (s : State) : (setBusStopped s).now = s.now := rfl
@[simp] theorem setBusStopped_port (s : State) : (setBusStopped s).port = s.port := rfl
@[simp] theorem setBusStopped_calls (s : State) : (setBusStopped s).calls = s.calls := rfl
@[simp] theorem setBusStopped_result (s : State) : (setBusStopped s).result = s.result := rfl
@[simp] theorem setBusStopped_trace (s : State) : (setBusStopped s).trace = s.trace := rfl
@[simp] theorem setBusStopped_starts (s : State) : (setBusStopped s).starts = s.starts := rfl
@[simp] theorem setBusStopped_stops (s : State) : (setBusStopped s).stops = s.stops := rfl
@[simp] theorem setBusStopped_fresh (s : State) : (setBusStopped s).fresh = s.fresh := rfl

/-! `setBusByte` -/

@[simp] theorem setBusByte_cfg (s : State) : (setBusByte s).cfg = s.cfg := rfl
@[simp] theorem setBusByte_latch (s : State) : (setBusByte s).latch = s.latch := rfl
@[simp] theorem setBusByte_bus (s : State) : (setBusByte s).bus = busAfter .busy .busy s.bus := rfl
@[simp] theorem setBusByte_idbuf (s : State) : (setBusByte s).idbuf = s.idbuf := rfl
@[simp] theorem setBusByte_status (s : State) : (setBusByte s).status = s.status := rfl
@[simp] theorem setBusByte_success (s : State) : (setBusByte s).success = s.success := rfl
@[simp] theorem setBusByte_ackf (s : State) : (setBusByte s).ackf = s.ackf := rfl
@[simp] theorem setBusByte_shift (s : State) : (setBusByte s).shift = s.shift := rfl
@[simp] theorem setBusByte_bitcnt (s : State) : (setBusByte s).bitcnt = s.bitcnt := rfl
@[simp] theorem setBusByte_addr (s : State) : (setBusByte s).addr = s.addr := rfl
@[simp] theorem setBusByte_len (s : State) : (setBusByte s).len = s.len := rfl
@[simp] theorem setBusByte_cnt (s : State) : (setBusByte s).cnt = s.cnt := rfl
@[simp] theorem setBusByte_blkbuf (s : State) : (setBusByte s).blkbuf = s.blkbuf := rfl
@[simp] theorem setBusByte_seq (s : State) : (setBusByte s).seq = s.seq := rfl
@[simp] theorem setBusByte_bridge (s : State) : (setBusByte s).bridge = s.bridge := rfl
@[simp] theorem setBusByte_world (s : State) : (setBusByte s).world = s.world := rfl
@[simp] theorem setBusByte_replies (s : State) : (setBusByte s).replies = s.replies := rfl
@[simp] theorem setBusByte_now (s : State) : (setBusByte s).now = s.now := rfl
@[simp] theorem setBusByte_port (s : State) : (setBusByte s).port = s.port := rfl
@[simp] theorem setBusByte_calls (s : State) : (setBusByte s).calls = s.calls := rfl
@[simp] theorem setBusByte_result (s : State) : (setBusByte s).result = s.result := rfl
@[simp] theorem setBusByte_trace (s : State) : (setBusByte s).trace = s.trace := rfl
@[simp] theorem setBusByte_starts (s : State) : (setBusByte s).starts = s.starts := rfl
@[simp] theorem setBusByte_stops (s : State) : (setBusByte s).stops = s.stops := rfl
@[simp] theorem setBusByte_fresh (s : State) : (setBusByte s).fresh = s.fresh := rfl

/-! `countStart` -/

@[simp] theorem countStart_cfg (s : State) : (countStart s).cfg = s.cfg := rfl
@[simp] theorem countStart_latch (s : State) : (countStart s).latch = s.latch := rfl
@[simp] theorem countStart_bus (s : State) : (countStart s).bus = s.bus := rfl
@[simp] theorem countStart_idbuf (s : State) : (countStart s).idbuf = s.idbuf := rfl
@[simp] theorem countStart_status (s : State) : (countStart s).status = s.status := rfl
@[simp] theorem countStart_success (s : State) : (countStart s).success = s.success := rfl
@[simp] theorem countStart_ackf (s : State) : (countStart s).ackf = s.ackf := rfl
@[simp] theorem countStart_shift (s : State) : (countStart s).shift = s.shift := rfl
@[simp] theorem countStart_bitcnt (s : State) : (countStart s).bitcnt = s.bitcnt := rfl
@[simp] theorem countStart_addr (s : State) : (countStart s).addr = s.addr := rfl
@[simp] theorem countStart_len (s : State) : (countStart s).len = s.len := rfl
@[simp] theorem countStart_cnt (s : State) : (countStart s).cnt = s.cnt := rfl
@[simp] theorem countStart_blkbuf (s : State) : (countStart s).blkbuf = s.blkbuf := rfl
@[simp] theorem countStart_seq (s : State) : (countStart s).seq = s.seq := rfl
@[simp] theorem countStart_bridge (s : State) : (countStart s).bridge = s.bridge := rfl
@[simp] theorem countStart_world (s : State) : (countStart s).world = s.world := rfl
@[simp] theorem countStart_replies (s : State) : (countStart s).replies = s.replies := rfl
@[simp] theorem countStart_now (s : State) : (countStart s).now = s.now := rfl
@[simp] theorem countStart_port (s : State) : (countStart s).port = s.port := rfl
@[simp] theorem countStart_calls (s : State) : (countStart s).calls = s.calls := rfl
@[simp] theorem countStart_result (s : State) : (countStart s).result = s.result := rfl
@[simp] theorem countStart_trace (s : State) : (countStart s).trace = s.trace := rfl
@[simp] theorem countStart_starts (s : State) : (countStart s).starts = s.starts + 1 := rfl
@[simp] theorem countStart_stops (s : State) : (countStart s).stops = s.stops := rfl
@[simp] theorem countStart_fresh (s : State) : (countStart s).fresh = s.fresh := rfl

/-! `countStop` -/

@[simp] theorem countStop_cfg (s : State) : (countStop s).cfg = s.cfg := rfl
@[simp] theorem countStop_latch (s : State) : (countStop s).latch = s.latch := rfl
@[simp] theorem countStop_bus (s : State) : (countStop s).bus = s.bus := rfl
@[simp] theorem countStop_idbuf (s : State) : (countStop s).idbuf = s.idbuf := rfl
@[simp] theorem countStop_status (s : State) : (countStop s).status = s.status := rfl
@[simp] theorem countStop_success (s : State) : (countStop s).success = s.success := rfl
@[simp] theorem countStop_ackf (s : State) : (countStop s).ackf = s.ackf := rfl
@[simp] theorem countStop_shift (s : State) : (countStop s).shift = s.shift := rfl
@[simp] theorem countStop_bitcnt (s : State) : (countStop s).bitcnt = s.bitcnt := rfl
@[simp] theorem countStop_addr (s : State) : (countStop s).addr = s.addr := rfl
@[simp] theorem countStop_len (s : State) : (countStop s).len = s.len := rfl
@[simp] theorem countStop_cnt (s : State) : (countStop s).cnt = s.cnt := rfl
@[simp] theorem countStop_blkbuf (s : State) : (countStop s).blkbuf = s.blkbuf := rfl
@[simp] theorem countStop_seq (s : State) : (countStop s).seq = s.seq := rfl
@[simp] theorem countStop_bridge (s : State) : (countStop s).bridge = s.bridge := rfl
@[simp] theorem countStop_world (s : State) : (countStop s).world = s.world := rfl
@[simp] theorem countStop_replies (s : State) : (countStop s).replies = s.replies := rfl
@[simp] theorem countStop_now (s : State) : (countStop s).now = s.now := rfl
@[simp] theorem countStop_port (s : State) : (countStop s).port = s.port := rfl
@[simp] theorem countStop_calls (s : State) : (countStop s).calls = s.calls := rfl
@[simp] theorem countStop_result (s : State) : (countStop s).result = s.result := rfl
@[simp] theorem countStop_trace (s : State) : (countStop s).trace = s.trace := rfl
@[simp] theorem countStop_starts (s : State) : (countStop s).starts = s.starts := rfl
@[simp] theorem countStop_stops (s : State) : (countStop s).stops = s.stops + 1 := rfl
@[simp] theorem countStop_fresh (s : State) : (countStop s).fresh = s.fresh := rfl

/-! `shiftOut` -/

@[simp] theorem shiftOut_cfg (left : Nat) (s : State) : (shiftOut left s).cfg = s.cfg := rfl
@[simp] theorem shiftOut_latch (left : Nat) (s : State) : (shiftOut left s).latch = s.latch := rfl
@[simp] theorem shiftOut_bus (left : Nat) (s : State) : (shiftOut left s).bus = s.bus := rfl
@[simp] theorem shiftOut_idbuf (left : Nat) (s : State) : (shiftOut left s).idbuf = s.idbuf := rfl
@[simp] theorem shiftOut_status (left : Nat) (s : State) : (shiftOut left s).status = s.status := rfl
@[simp] theorem shiftOut_success (left : Nat) (s : State) : (shiftOut left s).success = s.success := rfl
@[simp] theorem shiftOut_ackf (left : Nat) (s : State) : (shiftOut left s).ackf = s.ackf := rfl
@[simp] theorem shiftOut_shift (left : Nat) (s : State) : (shiftOut left s).shift = s.shift <<< 1 := rfl
@[simp] theorem shiftOut_bitcnt (left : Nat) (s : State) : (shiftOut left s).bitcnt = BitVec.ofNat 4 left := rfl
@[simp] theorem shiftOut_addr (left : Nat) (s : State) : (shiftOut left s).addr = s.addr := rfl
@[simp] theorem shiftOut_len (left : Nat) (s : State) : (shiftOut left s).len = s.len := rfl
@[simp] theorem shiftOut_cnt (left : Nat) (s : State) : (shiftOut left s).cnt = s.cnt := rfl
@[simp] theorem shiftOut_blkbuf (left : Nat) (s : State) : (shiftOut left s).blkbuf = s.blkbuf := rfl
@[simp] theorem shiftOut_seq (left : Nat) (s : State) : (shiftOut left s).seq = s.seq := rfl
@[simp] theorem shiftOut_bridge (left : Nat) (s : State) : (shiftOut left s).bridge = s.bridge := rfl
@[simp] theorem shiftOut_world (left : Nat) (s : State) : (shiftOut left s).world = s.world := rfl
@[simp] theorem shiftOut_replies (left : Nat) (s : State) : (shiftOut left s).replies = s.replies := rfl
@[simp] theorem shiftOut_now (left : Nat) (s : State) : (shiftOut left s).now = s.now := rfl
@[simp] theorem shiftOut_port (left : Nat) (s : State) : (shiftOut left s).port = s.port := rfl
@[simp] theorem shiftOut_calls (left : Nat) (s : State) : (shiftOut left s).calls = s.calls := rfl
@[simp] theorem shiftOut_result (left : Nat) (s : State) : (shiftOut left s).result = s.result := rfl
@[simp] theorem shiftOut_trace (left : Nat) (s : State) : (shiftOut left s).trace = s.trace := rfl
@[simp] theorem shiftOut_starts (left : Nat) (s : State) : (shiftOut left s).starts = s.starts := rfl
@[simp] theorem shiftOut_stops (left : Nat) (s : State) : (shiftOut left s).stops = s.stops := rfl
@[simp] theorem shiftOut_fresh (left : Nat) (s : State) : (shiftOut left s).fresh = s.fresh := rfl

/-! `shiftIn` -/

@[simp] theorem shiftIn_cfg (b : Bool) (left : Nat) (s : State) : (shiftIn b left s).cfg = s.cfg := rfl
@[simp] theorem shiftIn_latch (b : Bool) (left : Nat) (s : State) : (shiftIn b left s).latch = s.latch := rfl
@[simp] theorem shiftIn_bus (b : Bool) (left : Nat) (s : State) : (shiftIn b left s).bus = s.bus := rfl
@[simp] theorem shiftIn_idbuf (b : Bool) (left : Nat) (s : State) : (shiftIn b left s).idbuf = s.idbuf := rfl
@[simp] theorem shiftIn_status (b : Bool) (left : Nat) (s : State) : (shiftIn b left s).status = s.status := rfl
@[simp] theorem shiftIn_success (b : Bool) (left : Nat) (s : State) : (shiftIn b left s).success = s.success := rfl
@[simp] theorem shiftIn_ackf (b : Bool) (left : Nat) (s : State) : (shiftIn b left s).ackf = s.ackf := rfl
@[simp] theorem shiftIn_shift (b : Bool) (left : Nat) (s : State) :
    (shiftIn b left s).shift = (s.shift <<< 1) ||| (BitVec.ofBool b).zeroExtend 8 := rfl
@[simp] theorem shiftIn_bitcnt (b : Bool) (left : Nat) (s : State) :
    (shiftIn b left s).bitcnt = BitVec.ofNat 4 left := rfl
@[simp] theorem shiftIn_addr (b : Bool) (left : Nat) (s : State) : (shiftIn b left s).addr = s.addr := rfl
@[simp] theorem shiftIn_len (b : Bool) (left : Nat) (s : State) : (shiftIn b left s).len = s.len := rfl
@[simp] theorem shiftIn_cnt (b : Bool) (left : Nat) (s : State) : (shiftIn b left s).cnt = s.cnt := rfl
@[simp] theorem shiftIn_blkbuf (b : Bool) (left : Nat) (s : State) : (shiftIn b left s).blkbuf = s.blkbuf := rfl
@[simp] theorem shiftIn_seq (b : Bool) (left : Nat) (s : State) : (shiftIn b left s).seq = s.seq := rfl
@[simp] theorem shiftIn_bridge (b : Bool) (left : Nat) (s : State) : (shiftIn b left s).bridge = s.bridge := rfl
@[simp] theorem shiftIn_world (b : Bool) (left : Nat) (s : State) : (shiftIn b left s).world = s.world := rfl
@[simp] theorem shiftIn_replies (b : Bool) (left : Nat) (s : State) : (shiftIn b left s).replies = s.replies := rfl
@[simp] theorem shiftIn_now (b : Bool) (left : Nat) (s : State) : (shiftIn b left s).now = s.now := rfl
@[simp] theorem shiftIn_port (b : Bool) (left : Nat) (s : State) : (shiftIn b left s).port = s.port := rfl
@[simp] theorem shiftIn_calls (b : Bool) (left : Nat) (s : State) : (shiftIn b left s).calls = s.calls := rfl
@[simp] theorem shiftIn_result (b : Bool) (left : Nat) (s : State) : (shiftIn b left s).result = s.result := rfl
@[simp] theorem shiftIn_trace (b : Bool) (left : Nat) (s : State) : (shiftIn b left s).trace = s.trace := rfl
@[simp] theorem shiftIn_starts (b : Bool) (left : Nat) (s : State) : (shiftIn b left s).starts = s.starts := rfl
@[simp] theorem shiftIn_stops (b : Bool) (left : Nat) (s : State) : (shiftIn b left s).stops = s.stops := rfl
@[simp] theorem shiftIn_fresh (b : Bool) (left : Nat) (s : State) : (shiftIn b left s).fresh = s.fresh := rfl

/-! `setBlock` -/

@[simp] theorem setBlock_cfg (a : Addr) (n : Nibble) (s : State) : (setBlock a n s).cfg = s.cfg := rfl
@[simp] theorem setBlock_latch (a : Addr) (n : Nibble) (s : State) : (setBlock a n s).latch = s.latch := rfl
@[simp] theorem setBlock_bus (a : Addr) (n : Nibble) (s : State) : (setBlock a n s).bus = s.bus := rfl
@[simp] theorem setBlock_idbuf (a : Addr) (n : Nibble) (s : State) : (setBlock a n s).idbuf = s.idbuf := rfl
@[simp] theorem setBlock_status (a : Addr) (n : Nibble) (s : State) : (setBlock a n s).status = s.status := rfl
@[simp] theorem setBlock_success (a : Addr) (n : Nibble) (s : State) : (setBlock a n s).success = s.success := rfl
@[simp] theorem setBlock_ackf (a : Addr) (n : Nibble) (s : State) : (setBlock a n s).ackf = s.ackf := rfl
@[simp] theorem setBlock_shift (a : Addr) (n : Nibble) (s : State) : (setBlock a n s).shift = s.shift := rfl
@[simp] theorem setBlock_bitcnt (a : Addr) (n : Nibble) (s : State) : (setBlock a n s).bitcnt = s.bitcnt := rfl
@[simp] theorem setBlock_addr (a : Addr) (n : Nibble) (s : State) : (setBlock a n s).addr = a := rfl
@[simp] theorem setBlock_len (a : Addr) (n : Nibble) (s : State) : (setBlock a n s).len = n := rfl
@[simp] theorem setBlock_cnt (a : Addr) (n : Nibble) (s : State) : (setBlock a n s).cnt = s.cnt := rfl
@[simp] theorem setBlock_blkbuf (a : Addr) (n : Nibble) (s : State) : (setBlock a n s).blkbuf = s.blkbuf := rfl
@[simp] theorem setBlock_seq (a : Addr) (n : Nibble) (s : State) : (setBlock a n s).seq = s.seq := rfl
@[simp] theorem setBlock_bridge (a : Addr) (n : Nibble) (s : State) : (setBlock a n s).bridge = s.bridge := rfl
@[simp] theorem setBlock_world (a : Addr) (n : Nibble) (s : State) : (setBlock a n s).world = s.world := rfl
@[simp] theorem setBlock_replies (a : Addr) (n : Nibble) (s : State) : (setBlock a n s).replies = s.replies := rfl
@[simp] theorem setBlock_now (a : Addr) (n : Nibble) (s : State) : (setBlock a n s).now = s.now := rfl
@[simp] theorem setBlock_port (a : Addr) (n : Nibble) (s : State) : (setBlock a n s).port = s.port := rfl
@[simp] theorem setBlock_calls (a : Addr) (n : Nibble) (s : State) : (setBlock a n s).calls = s.calls := rfl
@[simp] theorem setBlock_result (a : Addr) (n : Nibble) (s : State) : (setBlock a n s).result = s.result := rfl
@[simp] theorem setBlock_trace (a : Addr) (n : Nibble) (s : State) : (setBlock a n s).trace = s.trace := rfl
@[simp] theorem setBlock_starts (a : Addr) (n : Nibble) (s : State) : (setBlock a n s).starts = s.starts := rfl
@[simp] theorem setBlock_stops (a : Addr) (n : Nibble) (s : State) : (setBlock a n s).stops = s.stops := rfl
@[simp] theorem setBlock_fresh (a : Addr) (n : Nibble) (s : State) : (setBlock a n s).fresh = s.fresh := rfl

/-! `storeByte` -/

@[simp] theorem storeByte_cfg (v : Byte) (s : State) : (storeByte v s).cfg = s.cfg := rfl
@[simp] theorem storeByte_latch (v : Byte) (s : State) : (storeByte v s).latch = s.latch := rfl
@[simp] theorem storeByte_bus (v : Byte) (s : State) : (storeByte v s).bus = s.bus := rfl
@[simp] theorem storeByte_idbuf (v : Byte) (s : State) : (storeByte v s).idbuf = s.idbuf := rfl
@[simp] theorem storeByte_status (v : Byte) (s : State) : (storeByte v s).status = s.status := rfl
@[simp] theorem storeByte_success (v : Byte) (s : State) : (storeByte v s).success = s.success := rfl
@[simp] theorem storeByte_ackf (v : Byte) (s : State) : (storeByte v s).ackf = s.ackf := rfl
@[simp] theorem storeByte_shift (v : Byte) (s : State) : (storeByte v s).shift = s.shift := rfl
@[simp] theorem storeByte_bitcnt (v : Byte) (s : State) : (storeByte v s).bitcnt = s.bitcnt := rfl
@[simp] theorem storeByte_addr (v : Byte) (s : State) : (storeByte v s).addr = s.addr := rfl
@[simp] theorem storeByte_len (v : Byte) (s : State) : (storeByte v s).len = s.len := rfl
@[simp] theorem storeByte_cnt (v : Byte) (s : State) : (storeByte v s).cnt = s.cnt + 1 := rfl
@[simp] theorem storeByte_blkbuf (v : Byte) (s : State) :
    (storeByte v s).blkbuf = s.blkbuf.setIfInBounds s.cnt.toNat v := rfl
@[simp] theorem storeByte_seq (v : Byte) (s : State) : (storeByte v s).seq = s.seq := rfl
@[simp] theorem storeByte_bridge (v : Byte) (s : State) : (storeByte v s).bridge = s.bridge := rfl
@[simp] theorem storeByte_world (v : Byte) (s : State) : (storeByte v s).world = s.world := rfl
@[simp] theorem storeByte_replies (v : Byte) (s : State) : (storeByte v s).replies = s.replies := rfl
@[simp] theorem storeByte_now (v : Byte) (s : State) : (storeByte v s).now = s.now := rfl
@[simp] theorem storeByte_port (v : Byte) (s : State) : (storeByte v s).port = s.port := rfl
@[simp] theorem storeByte_calls (v : Byte) (s : State) : (storeByte v s).calls = s.calls := rfl
@[simp] theorem storeByte_result (v : Byte) (s : State) : (storeByte v s).result = s.result := rfl
@[simp] theorem storeByte_trace (v : Byte) (s : State) : (storeByte v s).trace = s.trace := rfl
@[simp] theorem storeByte_starts (v : Byte) (s : State) : (storeByte v s).starts = s.starts := rfl
@[simp] theorem storeByte_stops (v : Byte) (s : State) : (storeByte v s).stops = s.stops := rfl
@[simp] theorem storeByte_fresh (v : Byte) (s : State) : (storeByte v s).fresh = s.fresh := rfl

/-! `setWrite` -/

@[simp] theorem setWrite_cfg (a : Addr) (d : List Byte) (s : State) : (setWrite a d s).cfg = s.cfg := rfl
@[simp] theorem setWrite_latch (a : Addr) (d : List Byte) (s : State) : (setWrite a d s).latch = s.latch := rfl
@[simp] theorem setWrite_bus (a : Addr) (d : List Byte) (s : State) : (setWrite a d s).bus = s.bus := rfl
@[simp] theorem setWrite_idbuf (a : Addr) (d : List Byte) (s : State) : (setWrite a d s).idbuf = s.idbuf := rfl
@[simp] theorem setWrite_status (a : Addr) (d : List Byte) (s : State) : (setWrite a d s).status = s.status := rfl
@[simp] theorem setWrite_success (a : Addr) (d : List Byte) (s : State) : (setWrite a d s).success = s.success := rfl
@[simp] theorem setWrite_ackf (a : Addr) (d : List Byte) (s : State) : (setWrite a d s).ackf = s.ackf := rfl
@[simp] theorem setWrite_shift (a : Addr) (d : List Byte) (s : State) : (setWrite a d s).shift = s.shift := rfl
@[simp] theorem setWrite_bitcnt (a : Addr) (d : List Byte) (s : State) : (setWrite a d s).bitcnt = s.bitcnt := rfl
@[simp] theorem setWrite_addr (a : Addr) (d : List Byte) (s : State) : (setWrite a d s).addr = a := rfl
@[simp] theorem setWrite_len (a : Addr) (d : List Byte) (s : State) :
    (setWrite a d s).len = BitVec.ofNat 4 d.length := rfl
@[simp] theorem setWrite_cnt (a : Addr) (d : List Byte) (s : State) : (setWrite a d s).cnt = s.cnt := rfl
@[simp] theorem setWrite_blkbuf (a : Addr) (d : List Byte) (s : State) :
    (setWrite a d s).blkbuf = storeFrom s.blkbuf 0 d := rfl
@[simp] theorem setWrite_seq (a : Addr) (d : List Byte) (s : State) : (setWrite a d s).seq = s.seq := rfl
@[simp] theorem setWrite_bridge (a : Addr) (d : List Byte) (s : State) : (setWrite a d s).bridge = s.bridge := rfl
@[simp] theorem setWrite_world (a : Addr) (d : List Byte) (s : State) : (setWrite a d s).world = s.world := rfl
@[simp] theorem setWrite_replies (a : Addr) (d : List Byte) (s : State) : (setWrite a d s).replies = s.replies := rfl
@[simp] theorem setWrite_now (a : Addr) (d : List Byte) (s : State) : (setWrite a d s).now = s.now := rfl
@[simp] theorem setWrite_port (a : Addr) (d : List Byte) (s : State) : (setWrite a d s).port = s.port := rfl
@[simp] theorem setWrite_calls (a : Addr) (d : List Byte) (s : State) : (setWrite a d s).calls = s.calls := rfl
@[simp] theorem setWrite_result (a : Addr) (d : List Byte) (s : State) : (setWrite a d s).result = s.result := rfl
@[simp] theorem setWrite_trace (a : Addr) (d : List Byte) (s : State) : (setWrite a d s).trace = s.trace := rfl
@[simp] theorem setWrite_starts (a : Addr) (d : List Byte) (s : State) : (setWrite a d s).starts = s.starts := rfl
@[simp] theorem setWrite_stops (a : Addr) (d : List Byte) (s : State) : (setWrite a d s).stops = s.stops := rfl
@[simp] theorem setWrite_fresh (a : Addr) (d : List Byte) (s : State) : (setWrite a d s).fresh = s.fresh := rfl

/-! `freeBlkbuf` -/

@[simp] theorem freeBlkbuf_cfg (s : State) : (freeBlkbuf s).cfg = s.cfg := rfl
@[simp] theorem freeBlkbuf_latch (s : State) : (freeBlkbuf s).latch = s.latch := rfl
@[simp] theorem freeBlkbuf_bus (s : State) : (freeBlkbuf s).bus = s.bus := rfl
@[simp] theorem freeBlkbuf_idbuf (s : State) : (freeBlkbuf s).idbuf = s.idbuf := rfl
@[simp] theorem freeBlkbuf_status (s : State) : (freeBlkbuf s).status = s.status := rfl
@[simp] theorem freeBlkbuf_success (s : State) : (freeBlkbuf s).success = s.success := rfl
@[simp] theorem freeBlkbuf_ackf (s : State) : (freeBlkbuf s).ackf = s.ackf := rfl
@[simp] theorem freeBlkbuf_shift (s : State) : (freeBlkbuf s).shift = s.shift := rfl
@[simp] theorem freeBlkbuf_bitcnt (s : State) : (freeBlkbuf s).bitcnt = s.bitcnt := rfl
@[simp] theorem freeBlkbuf_addr (s : State) : (freeBlkbuf s).addr = s.addr := rfl
@[simp] theorem freeBlkbuf_len (s : State) : (freeBlkbuf s).len = s.len := rfl
@[simp] theorem freeBlkbuf_cnt (s : State) : (freeBlkbuf s).cnt = s.cnt := rfl
@[simp] theorem freeBlkbuf_blkbuf (s : State) : (freeBlkbuf s).blkbuf = (Config.freeRegs s.fresh).blkbuf := rfl
@[simp] theorem freeBlkbuf_seq (s : State) : (freeBlkbuf s).seq = s.seq := rfl
@[simp] theorem freeBlkbuf_bridge (s : State) : (freeBlkbuf s).bridge = s.bridge := rfl
@[simp] theorem freeBlkbuf_world (s : State) : (freeBlkbuf s).world = s.world := rfl
@[simp] theorem freeBlkbuf_replies (s : State) : (freeBlkbuf s).replies = s.replies := rfl
@[simp] theorem freeBlkbuf_now (s : State) : (freeBlkbuf s).now = s.now := rfl
@[simp] theorem freeBlkbuf_port (s : State) : (freeBlkbuf s).port = s.port := rfl
@[simp] theorem freeBlkbuf_calls (s : State) : (freeBlkbuf s).calls = s.calls := rfl
@[simp] theorem freeBlkbuf_result (s : State) : (freeBlkbuf s).result = s.result := rfl
@[simp] theorem freeBlkbuf_trace (s : State) : (freeBlkbuf s).trace = s.trace := rfl
@[simp] theorem freeBlkbuf_starts (s : State) : (freeBlkbuf s).starts = s.starts := rfl
@[simp] theorem freeBlkbuf_stops (s : State) : (freeBlkbuf s).stops = s.stops := rfl
@[simp] theorem freeBlkbuf_fresh (s : State) : (freeBlkbuf s).fresh = s.fresh + 1 := rfl

/-! `freeIdbuf` -/

@[simp] theorem freeIdbuf_cfg (s : State) : (freeIdbuf s).cfg = s.cfg := rfl
@[simp] theorem freeIdbuf_latch (s : State) : (freeIdbuf s).latch = s.latch := rfl
@[simp] theorem freeIdbuf_bus (s : State) : (freeIdbuf s).bus = s.bus := rfl
@[simp] theorem freeIdbuf_idbuf (s : State) : (freeIdbuf s).idbuf = (Config.freeRegs s.fresh).idbuf := rfl
@[simp] theorem freeIdbuf_status (s : State) : (freeIdbuf s).status = s.status := rfl
@[simp] theorem freeIdbuf_success (s : State) : (freeIdbuf s).success = s.success := rfl
@[simp] theorem freeIdbuf_ackf (s : State) : (freeIdbuf s).ackf = s.ackf := rfl
@[simp] theorem freeIdbuf_shift (s : State) : (freeIdbuf s).shift = s.shift := rfl
@[simp] theorem freeIdbuf_bitcnt (s : State) : (freeIdbuf s).bitcnt = s.bitcnt := rfl
@[simp] theorem freeIdbuf_addr (s : State) : (freeIdbuf s).addr = s.addr := rfl
@[simp] theorem freeIdbuf_len (s : State) : (freeIdbuf s).len = s.len := rfl
@[simp] theorem freeIdbuf_cnt (s : State) : (freeIdbuf s).cnt = s.cnt := rfl
@[simp] theorem freeIdbuf_blkbuf (s : State) : (freeIdbuf s).blkbuf = s.blkbuf := rfl
@[simp] theorem freeIdbuf_seq (s : State) : (freeIdbuf s).seq = s.seq := rfl
@[simp] theorem freeIdbuf_bridge (s : State) : (freeIdbuf s).bridge = s.bridge := rfl
@[simp] theorem freeIdbuf_world (s : State) : (freeIdbuf s).world = s.world := rfl
@[simp] theorem freeIdbuf_replies (s : State) : (freeIdbuf s).replies = s.replies := rfl
@[simp] theorem freeIdbuf_now (s : State) : (freeIdbuf s).now = s.now := rfl
@[simp] theorem freeIdbuf_port (s : State) : (freeIdbuf s).port = s.port := rfl
@[simp] theorem freeIdbuf_calls (s : State) : (freeIdbuf s).calls = s.calls := rfl
@[simp] theorem freeIdbuf_result (s : State) : (freeIdbuf s).result = s.result := rfl
@[simp] theorem freeIdbuf_trace (s : State) : (freeIdbuf s).trace = s.trace := rfl
@[simp] theorem freeIdbuf_starts (s : State) : (freeIdbuf s).starts = s.starts := rfl
@[simp] theorem freeIdbuf_stops (s : State) : (freeIdbuf s).stops = s.stops := rfl
@[simp] theorem freeIdbuf_fresh (s : State) : (freeIdbuf s).fresh = s.fresh + 1 := rfl

/-! `fatalEntry` -/

@[simp] theorem fatalEntry_cfg (s : State) : (fatalEntry s).cfg = s.cfg := rfl
@[simp] theorem fatalEntry_latch (s : State) : (fatalEntry s).latch = s.latch := rfl
@[simp] theorem fatalEntry_bus (s : State) : (fatalEntry s).bus = .unknown := rfl
@[simp] theorem fatalEntry_idbuf (s : State) : (fatalEntry s).idbuf = (Config.freeRegs s.fresh).idbuf := rfl
@[simp] theorem fatalEntry_status (s : State) : (fatalEntry s).status = stTransportFatal := rfl
@[simp] theorem fatalEntry_success (s : State) : (fatalEntry s).success = false := rfl
@[simp] theorem fatalEntry_ackf (s : State) : (fatalEntry s).ackf = (Config.freeRegs s.fresh).ackf := rfl
@[simp] theorem fatalEntry_shift (s : State) : (fatalEntry s).shift = (Config.freeRegs s.fresh).shift := rfl
@[simp] theorem fatalEntry_bitcnt (s : State) :
    (fatalEntry s).bitcnt = BitVec.ofNat 4 (Config.freeRegs s.fresh).bitcnt.val := rfl
@[simp] theorem fatalEntry_addr (s : State) : (fatalEntry s).addr = (Config.freeRegs s.fresh).addr := rfl
@[simp] theorem fatalEntry_len (s : State) :
    (fatalEntry s).len = BitVec.ofNat 4 ((Config.freeRegs s.fresh).lenLess1.val + 1) := rfl
@[simp] theorem fatalEntry_cnt (s : State) :
    (fatalEntry s).cnt = BitVec.ofNat 4 (Config.freeRegs s.fresh).cnt.val := rfl
@[simp] theorem fatalEntry_blkbuf (s : State) : (fatalEntry s).blkbuf = (Config.freeRegs s.fresh).blkbuf := rfl
@[simp] theorem fatalEntry_seq (s : State) : (fatalEntry s).seq = [] := rfl
@[simp] theorem fatalEntry_bridge (s : State) : (fatalEntry s).bridge = s.bridge := rfl
@[simp] theorem fatalEntry_world (s : State) : (fatalEntry s).world = s.world := rfl
@[simp] theorem fatalEntry_replies (s : State) : (fatalEntry s).replies = s.replies := rfl
@[simp] theorem fatalEntry_now (s : State) : (fatalEntry s).now = s.now := rfl
@[simp] theorem fatalEntry_port (s : State) : (fatalEntry s).port = s.port := rfl
@[simp] theorem fatalEntry_calls (s : State) : (fatalEntry s).calls = s.calls := rfl
@[simp] theorem fatalEntry_result (s : State) : (fatalEntry s).result = .fatal := rfl
@[simp] theorem fatalEntry_trace (s : State) : (fatalEntry s).trace = s.trace := rfl
@[simp] theorem fatalEntry_starts (s : State) : (fatalEntry s).starts = s.starts := rfl
@[simp] theorem fatalEntry_stops (s : State) : (fatalEntry s).stops = s.stops := rfl
@[simp] theorem fatalEntry_fresh (s : State) : (fatalEntry s).fresh = s.fresh + 1 := rfl

/-! `drive` -/

@[simp] theorem drive_cfg (v : Byte) (s : State) : (drive v s).cfg = s.cfg := rfl
@[simp] theorem drive_latch (v : Byte) (s : State) : (drive v s).latch = s.latch := rfl
@[simp] theorem drive_bus (v : Byte) (s : State) : (drive v s).bus = s.bus := rfl
@[simp] theorem drive_idbuf (v : Byte) (s : State) : (drive v s).idbuf = s.idbuf := rfl
@[simp] theorem drive_status (v : Byte) (s : State) : (drive v s).status = s.status := rfl
@[simp] theorem drive_success (v : Byte) (s : State) : (drive v s).success = s.success := rfl
@[simp] theorem drive_ackf (v : Byte) (s : State) : (drive v s).ackf = s.ackf := rfl
@[simp] theorem drive_shift (v : Byte) (s : State) : (drive v s).shift = s.shift := rfl
@[simp] theorem drive_bitcnt (v : Byte) (s : State) : (drive v s).bitcnt = s.bitcnt := rfl
@[simp] theorem drive_addr (v : Byte) (s : State) : (drive v s).addr = s.addr := rfl
@[simp] theorem drive_len (v : Byte) (s : State) : (drive v s).len = s.len := rfl
@[simp] theorem drive_cnt (v : Byte) (s : State) : (drive v s).cnt = s.cnt := rfl
@[simp] theorem drive_blkbuf (v : Byte) (s : State) : (drive v s).blkbuf = s.blkbuf := rfl
@[simp] theorem drive_seq (v : Byte) (s : State) : (drive v s).seq = s.seq := rfl
@[simp] theorem drive_bridge (v : Byte) (s : State) : (drive v s).bridge = v := rfl
@[simp] theorem drive_world (v : Byte) (s : State) : (drive v s).world = worldPins s.cfg s.now s.bridge v s.world := rfl
@[simp] theorem drive_replies (v : Byte) (s : State) : (drive v s).replies = s.replies := rfl
@[simp] theorem drive_now (v : Byte) (s : State) : (drive v s).now = s.now := rfl
@[simp] theorem drive_port (v : Byte) (s : State) : (drive v s).port = s.port := rfl
@[simp] theorem drive_calls (v : Byte) (s : State) : (drive v s).calls = s.calls := rfl
@[simp] theorem drive_result (v : Byte) (s : State) : (drive v s).result = s.result := rfl
@[simp] theorem drive_trace (v : Byte) (s : State) : (drive v s).trace = s.trace := rfl
@[simp] theorem drive_starts (v : Byte) (s : State) : (drive v s).starts = s.starts := rfl
@[simp] theorem drive_stops (v : Byte) (s : State) : (drive v s).stops = s.stops := rfl
@[simp] theorem drive_fresh (v : Byte) (s : State) : (drive v s).fresh = s.fresh := rfl

/-! `inEffect` -/

@[simp] theorem inEffect_cfg (r : Reply) (s : State) : (inEffect r s).cfg = s.cfg := rfl
@[simp] theorem inEffect_latch (r : Reply) (s : State) : (inEffect r s).latch = s.latch := rfl
@[simp] theorem inEffect_bus (r : Reply) (s : State) : (inEffect r s).bus = s.bus := rfl
@[simp] theorem inEffect_idbuf (r : Reply) (s : State) : (inEffect r s).idbuf = s.idbuf := rfl
@[simp] theorem inEffect_status (r : Reply) (s : State) : (inEffect r s).status = s.status := rfl
@[simp] theorem inEffect_success (r : Reply) (s : State) : (inEffect r s).success = s.success := rfl
@[simp] theorem inEffect_ackf (r : Reply) (s : State) : (inEffect r s).ackf = s.ackf := rfl
@[simp] theorem inEffect_shift (r : Reply) (s : State) : (inEffect r s).shift = s.shift := rfl
@[simp] theorem inEffect_bitcnt (r : Reply) (s : State) : (inEffect r s).bitcnt = s.bitcnt := rfl
@[simp] theorem inEffect_addr (r : Reply) (s : State) : (inEffect r s).addr = s.addr := rfl
@[simp] theorem inEffect_len (r : Reply) (s : State) : (inEffect r s).len = s.len := rfl
@[simp] theorem inEffect_cnt (r : Reply) (s : State) : (inEffect r s).cnt = s.cnt := rfl
@[simp] theorem inEffect_blkbuf (r : Reply) (s : State) : (inEffect r s).blkbuf = s.blkbuf := rfl
@[simp] theorem inEffect_seq (r : Reply) (s : State) : (inEffect r s).seq = s.seq := rfl
@[simp] theorem inEffect_bridge (r : Reply) (s : State) : (inEffect r s).bridge = s.bridge := rfl
@[simp] theorem inEffect_world (r : Reply) (s : State) : (inEffect r s).world = s.world := rfl
@[simp] theorem inEffect_replies (r : Reply) (s : State) : (inEffect r s).replies = s.replies := rfl
@[simp] theorem inEffect_now (r : Reply) (s : State) : (inEffect r s).now = s.now + r.dur := rfl
@[simp] theorem inEffect_port (r : Reply) (s : State) : (inEffect r s).port = s.port := rfl
@[simp] theorem inEffect_calls (r : Reply) (s : State) : (inEffect r s).calls = s.calls := rfl
@[simp] theorem inEffect_result (r : Reply) (s : State) : (inEffect r s).result = s.result := rfl
@[simp] theorem inEffect_trace (r : Reply) (s : State) :
    (inEffect r s).trace = .inp (inRequest s.cfg) r.ret r.b0 r.b1 :: s.trace := rfl
@[simp] theorem inEffect_starts (r : Reply) (s : State) : (inEffect r s).starts = s.starts := rfl
@[simp] theorem inEffect_stops (r : Reply) (s : State) : (inEffect r s).stops = s.stops := rfl
@[simp] theorem inEffect_fresh (r : Reply) (s : State) : (inEffect r s).fresh = s.fresh := rfl

/-! `delayEffect` -/

@[simp] theorem delayEffect_cfg (us : Nat) (s : State) : (delayEffect us s).cfg = s.cfg := rfl
@[simp] theorem delayEffect_latch (us : Nat) (s : State) : (delayEffect us s).latch = s.latch := rfl
@[simp] theorem delayEffect_bus (us : Nat) (s : State) : (delayEffect us s).bus = s.bus := rfl
@[simp] theorem delayEffect_idbuf (us : Nat) (s : State) : (delayEffect us s).idbuf = s.idbuf := rfl
@[simp] theorem delayEffect_status (us : Nat) (s : State) : (delayEffect us s).status = s.status := rfl
@[simp] theorem delayEffect_success (us : Nat) (s : State) : (delayEffect us s).success = s.success := rfl
@[simp] theorem delayEffect_ackf (us : Nat) (s : State) : (delayEffect us s).ackf = s.ackf := rfl
@[simp] theorem delayEffect_shift (us : Nat) (s : State) : (delayEffect us s).shift = s.shift := rfl
@[simp] theorem delayEffect_bitcnt (us : Nat) (s : State) : (delayEffect us s).bitcnt = s.bitcnt := rfl
@[simp] theorem delayEffect_addr (us : Nat) (s : State) : (delayEffect us s).addr = s.addr := rfl
@[simp] theorem delayEffect_len (us : Nat) (s : State) : (delayEffect us s).len = s.len := rfl
@[simp] theorem delayEffect_cnt (us : Nat) (s : State) : (delayEffect us s).cnt = s.cnt := rfl
@[simp] theorem delayEffect_blkbuf (us : Nat) (s : State) : (delayEffect us s).blkbuf = s.blkbuf := rfl
@[simp] theorem delayEffect_seq (us : Nat) (s : State) : (delayEffect us s).seq = s.seq := rfl
@[simp] theorem delayEffect_bridge (us : Nat) (s : State) : (delayEffect us s).bridge = s.bridge := rfl
@[simp] theorem delayEffect_world (us : Nat) (s : State) : (delayEffect us s).world = s.world := rfl
@[simp] theorem delayEffect_replies (us : Nat) (s : State) : (delayEffect us s).replies = s.replies := rfl
@[simp] theorem delayEffect_now (us : Nat) (s : State) : (delayEffect us s).now = s.now + us := rfl
@[simp] theorem delayEffect_port (us : Nat) (s : State) : (delayEffect us s).port = s.port := rfl
@[simp] theorem delayEffect_calls (us : Nat) (s : State) : (delayEffect us s).calls = s.calls := rfl
@[simp] theorem delayEffect_result (us : Nat) (s : State) : (delayEffect us s).result = s.result := rfl
@[simp] theorem delayEffect_trace (us : Nat) (s : State) : (delayEffect us s).trace = .delay us :: s.trace := rfl
@[simp] theorem delayEffect_starts (us : Nat) (s : State) : (delayEffect us s).starts = s.starts := rfl
@[simp] theorem delayEffect_stops (us : Nat) (s : State) : (delayEffect us s).stops = s.stops := rfl
@[simp] theorem delayEffect_fresh (us : Nat) (s : State) : (delayEffect us s).fresh = s.fresh := rfl

/-! `seqNext` -/

@[simp] theorem seqNext_cfg (f : Frame) (rest : List Frame) (s : State) : (seqNext f rest s).cfg = s.cfg := rfl
@[simp] theorem seqNext_latch (f : Frame) (rest : List Frame) (s : State) : (seqNext f rest s).latch = s.latch := rfl
@[simp] theorem seqNext_bus (f : Frame) (rest : List Frame) (s : State) : (seqNext f rest s).bus = s.bus := rfl
@[simp] theorem seqNext_idbuf (f : Frame) (rest : List Frame) (s : State) : (seqNext f rest s).idbuf = s.idbuf := rfl
@[simp] theorem seqNext_status (f : Frame) (rest : List Frame) (s : State) : (seqNext f rest s).status = s.status := rfl
@[simp] theorem seqNext_success (f : Frame) (rest : List Frame) (s : State) :
    (seqNext f rest s).success = s.success := rfl
@[simp] theorem seqNext_ackf (f : Frame) (rest : List Frame) (s : State) : (seqNext f rest s).ackf = s.ackf := rfl
@[simp] theorem seqNext_shift (f : Frame) (rest : List Frame) (s : State) : (seqNext f rest s).shift = s.shift := rfl
@[simp] theorem seqNext_bitcnt (f : Frame) (rest : List Frame) (s : State) : (seqNext f rest s).bitcnt = s.bitcnt := rfl
@[simp] theorem seqNext_addr (f : Frame) (rest : List Frame) (s : State) : (seqNext f rest s).addr = s.addr := rfl
@[simp] theorem seqNext_len (f : Frame) (rest : List Frame) (s : State) : (seqNext f rest s).len = s.len := rfl
@[simp] theorem seqNext_cnt (f : Frame) (rest : List Frame) (s : State) : (seqNext f rest s).cnt = s.cnt := rfl
@[simp] theorem seqNext_blkbuf (f : Frame) (rest : List Frame) (s : State) : (seqNext f rest s).blkbuf = s.blkbuf := rfl
@[simp] theorem seqNext_seq (f : Frame) (rest : List Frame) (s : State) :
    (seqNext f rest s).seq = { f with line := f.line + 1 } :: rest := rfl
@[simp] theorem seqNext_bridge (f : Frame) (rest : List Frame) (s : State) : (seqNext f rest s).bridge = s.bridge := rfl
@[simp] theorem seqNext_world (f : Frame) (rest : List Frame) (s : State) : (seqNext f rest s).world = s.world := rfl
@[simp] theorem seqNext_replies (f : Frame) (rest : List Frame) (s : State) :
    (seqNext f rest s).replies = s.replies := rfl
@[simp] theorem seqNext_now (f : Frame) (rest : List Frame) (s : State) : (seqNext f rest s).now = s.now := rfl
@[simp] theorem seqNext_port (f : Frame) (rest : List Frame) (s : State) : (seqNext f rest s).port = s.port := rfl
@[simp] theorem seqNext_calls (f : Frame) (rest : List Frame) (s : State) : (seqNext f rest s).calls = s.calls := rfl
@[simp] theorem seqNext_result (f : Frame) (rest : List Frame) (s : State) : (seqNext f rest s).result = s.result := rfl
@[simp] theorem seqNext_trace (f : Frame) (rest : List Frame) (s : State) : (seqNext f rest s).trace = s.trace := rfl
@[simp] theorem seqNext_starts (f : Frame) (rest : List Frame) (s : State) : (seqNext f rest s).starts = s.starts := rfl
@[simp] theorem seqNext_stops (f : Frame) (rest : List Frame) (s : State) : (seqNext f rest s).stops = s.stops := rfl
@[simp] theorem seqNext_fresh (f : Frame) (rest : List Frame) (s : State) : (seqNext f rest s).fresh = s.fresh := rfl

/-! `seqGoto` -/

@[simp] theorem seqGoto_cfg (f : Frame) (rest : List Frame) (l : Nat) (s : State) :
    (seqGoto f rest l s).cfg = s.cfg := rfl
@[simp] theorem seqGoto_latch (f : Frame) (rest : List Frame) (l : Nat) (s : State) :
    (seqGoto f rest l s).latch = s.latch := rfl
@[simp] theorem seqGoto_bus (f : Frame) (rest : List Frame) (l : Nat) (s : State) :
    (seqGoto f rest l s).bus = s.bus := rfl
@[simp] theorem seqGoto_idbuf (f : Frame) (rest : List Frame) (l : Nat) (s : State) :
    (seqGoto f rest l s).idbuf = s.idbuf := rfl
@[simp] theorem seqGoto_status (f : Frame) (rest : List Frame) (l : Nat) (s : State) :
    (seqGoto f rest l s).status = s.status := rfl
@[simp] theorem seqGoto_success (f : Frame) (rest : List Frame) (l : Nat) (s : State) :
    (seqGoto f rest l s).success = s.success := rfl
@[simp] theorem seqGoto_ackf (f : Frame) (rest : List Frame) (l : Nat) (s : State) :
    (seqGoto f rest l s).ackf = s.ackf := rfl
@[simp] theorem seqGoto_shift (f : Frame) (rest : List Frame) (l : Nat) (s : State) :
    (seqGoto f rest l s).shift = s.shift := rfl
@[simp] theorem seqGoto_bitcnt (f : Frame) (rest : List Frame) (l : Nat) (s : State) :
    (seqGoto f rest l s).bitcnt = s.bitcnt := rfl
@[simp] theorem seqGoto_addr (f : Frame) (rest : List Frame) (l : Nat) (s : State) :
    (seqGoto f rest l s).addr = s.addr := rfl
@[simp] theorem seqGoto_len (f : Frame) (rest : List Frame) (l : Nat) (s : State) :
    (seqGoto f rest l s).len = s.len := rfl
@[simp] theorem seqGoto_cnt (f : Frame) (rest : List Frame) (l : Nat) (s : State) :
    (seqGoto f rest l s).cnt = s.cnt := rfl
@[simp] theorem seqGoto_blkbuf (f : Frame) (rest : List Frame) (l : Nat) (s : State) :
    (seqGoto f rest l s).blkbuf = s.blkbuf := rfl
@[simp] theorem seqGoto_seq (f : Frame) (rest : List Frame) (l : Nat) (s : State) :
    (seqGoto f rest l s).seq = { f with line := l } :: rest := rfl
@[simp] theorem seqGoto_bridge (f : Frame) (rest : List Frame) (l : Nat) (s : State) :
    (seqGoto f rest l s).bridge = s.bridge := rfl
@[simp] theorem seqGoto_world (f : Frame) (rest : List Frame) (l : Nat) (s : State) :
    (seqGoto f rest l s).world = s.world := rfl
@[simp] theorem seqGoto_replies (f : Frame) (rest : List Frame) (l : Nat) (s : State) :
    (seqGoto f rest l s).replies = s.replies := rfl
@[simp] theorem seqGoto_now (f : Frame) (rest : List Frame) (l : Nat) (s : State) :
    (seqGoto f rest l s).now = s.now := rfl
@[simp] theorem seqGoto_port (f : Frame) (rest : List Frame) (l : Nat) (s : State) :
    (seqGoto f rest l s).port = s.port := rfl
@[simp] theorem seqGoto_calls (f : Frame) (rest : List Frame) (l : Nat) (s : State) :
    (seqGoto f rest l s).calls = s.calls := rfl
@[simp] theorem seqGoto_result (f : Frame) (rest : List Frame) (l : Nat) (s : State) :
    (seqGoto f rest l s).result = s.result := rfl
@[simp] theorem seqGoto_trace (f : Frame) (rest : List Frame) (l : Nat) (s : State) :
    (seqGoto f rest l s).trace = s.trace := rfl
@[simp] theorem seqGoto_starts (f : Frame) (rest : List Frame) (l : Nat) (s : State) :
    (seqGoto f rest l s).starts = s.starts := rfl
@[simp] theorem seqGoto_stops (f : Frame) (rest : List Frame) (l : Nat) (s : State) :
    (seqGoto f rest l s).stops = s.stops := rfl
@[simp] theorem seqGoto_fresh (f : Frame) (rest : List Frame) (l : Nat) (s : State) :
    (seqGoto f rest l s).fresh = s.fresh := rfl

/-! `seqCall` -/

@[simp] theorem seqCall_cfg (f : Frame) (rest : List Frame) (a : Activity) (s : State) :
    (seqCall f rest a s).cfg = s.cfg := rfl
@[simp] theorem seqCall_latch (f : Frame) (rest : List Frame) (a : Activity) (s : State) :
    (seqCall f rest a s).latch = s.latch := rfl
@[simp] theorem seqCall_bus (f : Frame) (rest : List Frame) (a : Activity) (s : State) :
    (seqCall f rest a s).bus = s.bus := rfl
@[simp] theorem seqCall_idbuf (f : Frame) (rest : List Frame) (a : Activity) (s : State) :
    (seqCall f rest a s).idbuf = s.idbuf := rfl
@[simp] theorem seqCall_status (f : Frame) (rest : List Frame) (a : Activity) (s : State) :
    (seqCall f rest a s).status = s.status := rfl
@[simp] theorem seqCall_success (f : Frame) (rest : List Frame) (a : Activity) (s : State) :
    (seqCall f rest a s).success = s.success := rfl
@[simp] theorem seqCall_ackf (f : Frame) (rest : List Frame) (a : Activity) (s : State) :
    (seqCall f rest a s).ackf = s.ackf := rfl
@[simp] theorem seqCall_shift (f : Frame) (rest : List Frame) (a : Activity) (s : State) :
    (seqCall f rest a s).shift = s.shift := rfl
@[simp] theorem seqCall_bitcnt (f : Frame) (rest : List Frame) (a : Activity) (s : State) :
    (seqCall f rest a s).bitcnt = s.bitcnt := rfl
@[simp] theorem seqCall_addr (f : Frame) (rest : List Frame) (a : Activity) (s : State) :
    (seqCall f rest a s).addr = s.addr := rfl
@[simp] theorem seqCall_len (f : Frame) (rest : List Frame) (a : Activity) (s : State) :
    (seqCall f rest a s).len = s.len := rfl
@[simp] theorem seqCall_cnt (f : Frame) (rest : List Frame) (a : Activity) (s : State) :
    (seqCall f rest a s).cnt = s.cnt := rfl
@[simp] theorem seqCall_blkbuf (f : Frame) (rest : List Frame) (a : Activity) (s : State) :
    (seqCall f rest a s).blkbuf = s.blkbuf := rfl
@[simp] theorem seqCall_seq (f : Frame) (rest : List Frame) (a : Activity) (s : State) :
    (seqCall f rest a s).seq = newFrame a :: { f with line := f.line + 1 } :: rest := rfl
@[simp] theorem seqCall_bridge (f : Frame) (rest : List Frame) (a : Activity) (s : State) :
    (seqCall f rest a s).bridge = s.bridge := rfl
@[simp] theorem seqCall_world (f : Frame) (rest : List Frame) (a : Activity) (s : State) :
    (seqCall f rest a s).world = s.world := rfl
@[simp] theorem seqCall_replies (f : Frame) (rest : List Frame) (a : Activity) (s : State) :
    (seqCall f rest a s).replies = s.replies := rfl
@[simp] theorem seqCall_now (f : Frame) (rest : List Frame) (a : Activity) (s : State) :
    (seqCall f rest a s).now = s.now := rfl
@[simp] theorem seqCall_port (f : Frame) (rest : List Frame) (a : Activity) (s : State) :
    (seqCall f rest a s).port = s.port := rfl
@[simp] theorem seqCall_calls (f : Frame) (rest : List Frame) (a : Activity) (s : State) :
    (seqCall f rest a s).calls = s.calls := rfl
@[simp] theorem seqCall_result (f : Frame) (rest : List Frame) (a : Activity) (s : State) :
    (seqCall f rest a s).result = s.result := rfl
@[simp] theorem seqCall_trace (f : Frame) (rest : List Frame) (a : Activity) (s : State) :
    (seqCall f rest a s).trace = s.trace := rfl
@[simp] theorem seqCall_starts (f : Frame) (rest : List Frame) (a : Activity) (s : State) :
    (seqCall f rest a s).starts = s.starts := rfl
@[simp] theorem seqCall_stops (f : Frame) (rest : List Frame) (a : Activity) (s : State) :
    (seqCall f rest a s).stops = s.stops := rfl
@[simp] theorem seqCall_fresh (f : Frame) (rest : List Frame) (a : Activity) (s : State) :
    (seqCall f rest a s).fresh = s.fresh := rfl

/-! `seqReturn` -/

@[simp] theorem seqReturn_cfg (rest : List Frame) (r : Result) (s : State) : (seqReturn rest r s).cfg = s.cfg := rfl
@[simp] theorem seqReturn_latch (rest : List Frame) (r : Result) (s : State) :
    (seqReturn rest r s).latch = s.latch := rfl
@[simp] theorem seqReturn_bus (rest : List Frame) (r : Result) (s : State) : (seqReturn rest r s).bus = s.bus := rfl
@[simp] theorem seqReturn_idbuf (rest : List Frame) (r : Result) (s : State) :
    (seqReturn rest r s).idbuf = s.idbuf := rfl
@[simp] theorem seqReturn_status (rest : List Frame) (r : Result) (s : State) :
    (seqReturn rest r s).status = s.status := rfl
@[simp] theorem seqReturn_success (rest : List Frame) (r : Result) (s : State) :
    (seqReturn rest r s).success = s.success := rfl
@[simp] theorem seqReturn_ackf (rest : List Frame) (r : Result) (s : State) : (seqReturn rest r s).ackf = s.ackf := rfl
@[simp] theorem seqReturn_shift (rest : List Frame) (r : Result) (s : State) :
    (seqReturn rest r s).shift = s.shift := rfl
@[simp] theorem seqReturn_bitcnt (rest : List Frame) (r : Result) (s : State) :
    (seqReturn rest r s).bitcnt = s.bitcnt := rfl
@[simp] theorem seqReturn_addr (rest : List Frame) (r : Result) (s : State) : (seqReturn rest r s).addr = s.addr := rfl
@[simp] theorem seqReturn_len (rest : List Frame) (r : Result) (s : State) : (seqReturn rest r s).len = s.len := rfl
@[simp] theorem seqReturn_cnt (rest : List Frame) (r : Result) (s : State) : (seqReturn rest r s).cnt = s.cnt := rfl
@[simp] theorem seqReturn_blkbuf (rest : List Frame) (r : Result) (s : State) :
    (seqReturn rest r s).blkbuf = s.blkbuf := rfl
@[simp] theorem seqReturn_seq (rest : List Frame) (r : Result) (s : State) : (seqReturn rest r s).seq = rest := rfl
@[simp] theorem seqReturn_bridge (rest : List Frame) (r : Result) (s : State) :
    (seqReturn rest r s).bridge = s.bridge := rfl
@[simp] theorem seqReturn_world (rest : List Frame) (r : Result) (s : State) :
    (seqReturn rest r s).world = s.world := rfl
@[simp] theorem seqReturn_replies (rest : List Frame) (r : Result) (s : State) :
    (seqReturn rest r s).replies = s.replies := rfl
@[simp] theorem seqReturn_now (rest : List Frame) (r : Result) (s : State) : (seqReturn rest r s).now = s.now := rfl
@[simp] theorem seqReturn_port (rest : List Frame) (r : Result) (s : State) : (seqReturn rest r s).port = s.port := rfl
@[simp] theorem seqReturn_calls (rest : List Frame) (r : Result) (s : State) :
    (seqReturn rest r s).calls = s.calls := rfl
@[simp] theorem seqReturn_result (rest : List Frame) (r : Result) (s : State) : (seqReturn rest r s).result = r := rfl
@[simp] theorem seqReturn_trace (rest : List Frame) (r : Result) (s : State) :
    (seqReturn rest r s).trace = s.trace := rfl
@[simp] theorem seqReturn_starts (rest : List Frame) (r : Result) (s : State) :
    (seqReturn rest r s).starts = s.starts := rfl
@[simp] theorem seqReturn_stops (rest : List Frame) (r : Result) (s : State) :
    (seqReturn rest r s).stops = s.stops := rfl
@[simp] theorem seqReturn_fresh (rest : List Frame) (r : Result) (s : State) :
    (seqReturn rest r s).fresh = s.fresh := rfl

/-! `seqSetLoc` -/

@[simp] theorem seqSetLoc_cfg (f : Frame) (rest : List Frame) (b : Bool) (s : State) :
    (seqSetLoc f rest b s).cfg = s.cfg := rfl
@[simp] theorem seqSetLoc_latch (f : Frame) (rest : List Frame) (b : Bool) (s : State) :
    (seqSetLoc f rest b s).latch = s.latch := rfl
@[simp] theorem seqSetLoc_bus (f : Frame) (rest : List Frame) (b : Bool) (s : State) :
    (seqSetLoc f rest b s).bus = s.bus := rfl
@[simp] theorem seqSetLoc_idbuf (f : Frame) (rest : List Frame) (b : Bool) (s : State) :
    (seqSetLoc f rest b s).idbuf = s.idbuf := rfl
@[simp] theorem seqSetLoc_status (f : Frame) (rest : List Frame) (b : Bool) (s : State) :
    (seqSetLoc f rest b s).status = s.status := rfl
@[simp] theorem seqSetLoc_success (f : Frame) (rest : List Frame) (b : Bool) (s : State) :
    (seqSetLoc f rest b s).success = s.success := rfl
@[simp] theorem seqSetLoc_ackf (f : Frame) (rest : List Frame) (b : Bool) (s : State) :
    (seqSetLoc f rest b s).ackf = s.ackf := rfl
@[simp] theorem seqSetLoc_shift (f : Frame) (rest : List Frame) (b : Bool) (s : State) :
    (seqSetLoc f rest b s).shift = s.shift := rfl
@[simp] theorem seqSetLoc_bitcnt (f : Frame) (rest : List Frame) (b : Bool) (s : State) :
    (seqSetLoc f rest b s).bitcnt = s.bitcnt := rfl
@[simp] theorem seqSetLoc_addr (f : Frame) (rest : List Frame) (b : Bool) (s : State) :
    (seqSetLoc f rest b s).addr = s.addr := rfl
@[simp] theorem seqSetLoc_len (f : Frame) (rest : List Frame) (b : Bool) (s : State) :
    (seqSetLoc f rest b s).len = s.len := rfl
@[simp] theorem seqSetLoc_cnt (f : Frame) (rest : List Frame) (b : Bool) (s : State) :
    (seqSetLoc f rest b s).cnt = s.cnt := rfl
@[simp] theorem seqSetLoc_blkbuf (f : Frame) (rest : List Frame) (b : Bool) (s : State) :
    (seqSetLoc f rest b s).blkbuf = s.blkbuf := rfl
@[simp] theorem seqSetLoc_seq (f : Frame) (rest : List Frame) (b : Bool) (s : State) :
    (seqSetLoc f rest b s).seq = { f with line := f.line + 1, loc := b } :: rest := rfl
@[simp] theorem seqSetLoc_bridge (f : Frame) (rest : List Frame) (b : Bool) (s : State) :
    (seqSetLoc f rest b s).bridge = s.bridge := rfl
@[simp] theorem seqSetLoc_world (f : Frame) (rest : List Frame) (b : Bool) (s : State) :
    (seqSetLoc f rest b s).world = s.world := rfl
@[simp] theorem seqSetLoc_replies (f : Frame) (rest : List Frame) (b : Bool) (s : State) :
    (seqSetLoc f rest b s).replies = s.replies := rfl
@[simp] theorem seqSetLoc_now (f : Frame) (rest : List Frame) (b : Bool) (s : State) :
    (seqSetLoc f rest b s).now = s.now := rfl
@[simp] theorem seqSetLoc_port (f : Frame) (rest : List Frame) (b : Bool) (s : State) :
    (seqSetLoc f rest b s).port = s.port := rfl
@[simp] theorem seqSetLoc_calls (f : Frame) (rest : List Frame) (b : Bool) (s : State) :
    (seqSetLoc f rest b s).calls = s.calls := rfl
@[simp] theorem seqSetLoc_result (f : Frame) (rest : List Frame) (b : Bool) (s : State) :
    (seqSetLoc f rest b s).result = s.result := rfl
@[simp] theorem seqSetLoc_trace (f : Frame) (rest : List Frame) (b : Bool) (s : State) :
    (seqSetLoc f rest b s).trace = s.trace := rfl
@[simp] theorem seqSetLoc_starts (f : Frame) (rest : List Frame) (b : Bool) (s : State) :
    (seqSetLoc f rest b s).starts = s.starts := rfl
@[simp] theorem seqSetLoc_stops (f : Frame) (rest : List Frame) (b : Bool) (s : State) :
    (seqSetLoc f rest b s).stops = s.stops := rfl
@[simp] theorem seqSetLoc_fresh (f : Frame) (rest : List Frame) (b : Bool) (s : State) :
    (seqSetLoc f rest b s).fresh = s.fresh := rfl

/-! `issue` -/

@[simp] theorem issue_cfg (i : Instr) (s : State) : (issue i s).cfg = s.cfg := rfl
@[simp] theorem issue_latch (i : Instr) (s : State) : (issue i s).latch = s.latch := rfl
@[simp] theorem issue_bus (i : Instr) (s : State) : (issue i s).bus = s.bus := rfl
@[simp] theorem issue_idbuf (i : Instr) (s : State) : (issue i s).idbuf = s.idbuf := rfl
@[simp] theorem issue_status (i : Instr) (s : State) : (issue i s).status = s.status := rfl
@[simp] theorem issue_success (i : Instr) (s : State) : (issue i s).success = s.success := rfl
@[simp] theorem issue_ackf (i : Instr) (s : State) : (issue i s).ackf = s.ackf := rfl
@[simp] theorem issue_shift (i : Instr) (s : State) : (issue i s).shift = s.shift := rfl
@[simp] theorem issue_bitcnt (i : Instr) (s : State) : (issue i s).bitcnt = s.bitcnt := rfl
@[simp] theorem issue_addr (i : Instr) (s : State) : (issue i s).addr = s.addr := rfl
@[simp] theorem issue_len (i : Instr) (s : State) : (issue i s).len = s.len := rfl
@[simp] theorem issue_cnt (i : Instr) (s : State) : (issue i s).cnt = s.cnt := rfl
@[simp] theorem issue_blkbuf (i : Instr) (s : State) : (issue i s).blkbuf = s.blkbuf := rfl
@[simp] theorem issue_seq (i : Instr) (s : State) : (issue i s).seq = [newFrame (.op i)] := rfl
@[simp] theorem issue_bridge (i : Instr) (s : State) : (issue i s).bridge = s.bridge := rfl
@[simp] theorem issue_world (i : Instr) (s : State) : (issue i s).world = s.world := rfl
@[simp] theorem issue_replies (i : Instr) (s : State) : (issue i s).replies = s.replies := rfl
@[simp] theorem issue_now (i : Instr) (s : State) : (issue i s).now = s.now := rfl
@[simp] theorem issue_port (i : Instr) (s : State) : (issue i s).port = s.port := rfl
@[simp] theorem issue_calls (i : Instr) (s : State) : (issue i s).calls = s.calls := rfl
@[simp] theorem issue_result (i : Instr) (s : State) : (issue i s).result = s.result := rfl
@[simp] theorem issue_trace (i : Instr) (s : State) : (issue i s).trace = s.trace := rfl
@[simp] theorem issue_starts (i : Instr) (s : State) : (issue i s).starts = s.starts := rfl
@[simp] theorem issue_stops (i : Instr) (s : State) : (issue i s).stops = s.stops := rfl
@[simp] theorem issue_fresh (i : Instr) (s : State) : (issue i s).fresh = s.fresh := rfl

end Sys2Proof.Machine
end

