-- ==== Sys2Proof/Laws/Ops.lean ====
section
/-! SUPPORT. One spec lemma per shared operation: how pieces of an operation compose, what a transfer does, what
each pin primitive does, with any answer and with a given one. Provers cite these and unfold nothing. -/

namespace Sys2Proof.Machine

/-! ### Composition -/

theorem op_bind_ok {α β : Type} {m : Op α} {f : α → Op β} {s t : State} {a : α} (h : m s = .ok a t) :
    (m >>= f) s = f a t := by
  show EStateM.bind m f s = _
  unfold EStateM.bind
  rw [h]

theorem op_bind_error {α β : Type} {m : Op α} {f : α → Op β} {s t : State} {e : Raise} (h : m s = .error e t) :
    (m >>= f) s = .error e t := by
  show EStateM.bind m f s = _
  unfold EStateM.bind
  rw [h]

/-- A composition ends with a value exactly when both parts do. -/
theorem op_bind_eq_ok {α β : Type} {m : Op α} {f : α → Op β} {s u : State} {b : β} :
    (m >>= f) s = .ok b u ↔ ∃ a t, m s = .ok a t ∧ f a t = .ok b u := by
  constructor
  · intro h
    cases hm : m s with
    | ok a t => rw [op_bind_ok hm] at h; exact ⟨a, t, rfl, h⟩
    | error e t => rw [op_bind_error hm] at h; cases h
  · rintro ⟨a, t, h1, h2⟩
    rw [op_bind_ok h1, h2]

/-- A composition is abandoned in its first part, or in its second after the first ended with a value. -/
theorem op_bind_eq_error {α β : Type} {m : Op α} {f : α → Op β} {s u : State} {e : Raise} :
    (m >>= f) s = .error e u ↔ m s = .error e u ∨ ∃ a t, m s = .ok a t ∧ f a t = .error e u := by
  constructor
  · intro h
    cases hm : m s with
    | ok a t => rw [op_bind_ok hm] at h; exact .inr ⟨a, t, rfl, h⟩
    | error e' t => rw [op_bind_error hm] at h; cases h; exact .inl rfl
  · rintro (h | ⟨a, t, h1, h2⟩)
    · exact op_bind_error h
    · rw [op_bind_ok h1, h2]

@[simp] theorem op_pure {α : Type} (a : α) (s : State) : (pure a : Op α) s = .ok a s := rfl
@[simp] theorem op_peek (s : State) : peek s = .ok s s := rfl
@[simp] theorem op_upd (f : State → State) (s : State) : upd f s = .ok () (f s) := rfl
@[simp] theorem op_delay (us : Nat) (s : State) : delay us s = .ok () (delayEffect us s) := rfl
@[simp] theorem op_raiseFatal {α : Type} (s : State) :
    (raiseFatal : Op α) s = .error .transportFatal (fatalEntry s) := rfl

/-- How an operation ends, by cases. -/
theorem finish_cases {α : Type} (mk : α → Result) (m : Op α) (s : State) :
    (∃ a t, m s = .ok a t ∧ finish mk m s = { t with result := mk a })
      ∨ ∃ e t, m s = .error e t ∧ finish mk m s = t := by
  unfold finish
  cases h : m s with
  | ok a t => exact .inl ⟨a, t, rfl, rfl⟩
  | error e t => exact .inr ⟨e, t, rfl, rfl⟩

theorem finish_ok {α : Type} {mk : α → Result} {m : Op α} {s t : State} {a : α} (h : m s = .ok a t) :
    finish mk m s = { t with result := mk a } := by
  unfold finish
  rw [h]

/-! ### Transfers -/

/-- The world's own answer touches the free-value counter, nothing else. -/
theorem worldReply_spec (input : Bool) (s : State) : ∃ n, (worldReply input s).2 = { s with fresh := n } := by
  cases s with
  | mk cfg latch bus idbuf status success ackf shift bitcnt addr len cnt blkbuf seq bridge world =>
    cases world <;> exact ⟨_, rfl⟩

/-- Drawing an answer touches the queue of answers and the free-value counter, nothing else. -/
theorem nextReply_spec (input : Bool) (s : State) :
    ∃ n, (nextReply input s).2 = { s with replies := s.replies.tail, fresh := n } := by
  cases s with
  | mk cfg latch bus idbuf status success ackf shift bitcnt addr len cnt blkbuf seq bridge world replies =>
    cases replies with
    | nil => exact worldReply_spec input _
    | cons o rest =>
      cases o with
      | none => exact worldReply_spec input _
      | some r => exact ⟨_, rfl⟩

/-- A given answer is the answer. -/
theorem nextReply_given (input : Bool) {s : State} {r : Reply} {rest : List (Option Reply)}
    (h : s.replies = some r :: rest) : nextReply input s = (r, { s with replies := rest }) := by
  unfold nextReply
  rw [h]

/-- An output transfer that did not fail drives the bridge. -/
theorem outEffect_ok (v : BitVec 16) {r : Reply} (h : outFails r.ret = false) (s : State) :
    outEffect v r s = drive (v.truncate 8)
      { s with now := s.now + r.dur, trace := .out (outRequest s.cfg v) r.ret :: s.trace } := by
  unfold outEffect
  simp [h]

/-- What an output transfer does to the bridge and the world: both follow, or neither. -/
theorem outEffect_drive_or (v : BitVec 16) (r : Reply) (s : State) :
    ((outEffect v r s).bridge = v.truncate 8
        ∧ (outEffect v r s).world = worldPins s.cfg (s.now + r.dur) s.bridge (v.truncate 8) s.world)
      ∨ (outFails r.ret = true ∧ r.took = false ∧ (outEffect v r s).bridge = s.bridge
        ∧ (outEffect v r s).world = s.world) := by
  unfold outEffect
  cases h1 : outFails r.ret <;> cases h2 : r.took <;> simp

@[simp] theorem outEffect_now (v : BitVec 16) (r : Reply) (s : State) : (outEffect v r s).now = s.now + r.dur := by
  unfold outEffect
  dsimp only
  split <;> rfl

@[simp] theorem outEffect_trace (v : BitVec 16) (r : Reply) (s : State) :
    (outEffect v r s).trace = .out (outRequest s.cfg v) r.ret :: s.trace := by
  unfold outEffect
  dsimp only
  split <;> rfl

@[simp] theorem outEffect_cfg (v : BitVec 16) (r : Reply) (s : State) : (outEffect v r s).cfg = s.cfg := by
  unfold outEffect
  dsimp only
  split <;> rfl

@[simp] theorem outEffect_latch (v : BitVec 16) (r : Reply) (s : State) : (outEffect v r s).latch = s.latch := by
  unfold outEffect
  dsimp only
  split <;> rfl

@[simp] theorem outEffect_bus (v : BitVec 16) (r : Reply) (s : State) : (outEffect v r s).bus = s.bus := by
  unfold outEffect
  dsimp only
  split <;> rfl

@[simp] theorem outEffect_idbuf (v : BitVec 16) (r : Reply) (s : State) : (outEffect v r s).idbuf = s.idbuf := by
  unfold outEffect
  dsimp only
  split <;> rfl

@[simp] theorem outEffect_status (v : BitVec 16) (r : Reply) (s : State) : (outEffect v r s).status = s.status := by
  unfold outEffect
  dsimp only
  split <;> rfl

@[simp] theorem outEffect_success (v : BitVec 16) (r : Reply) (s : State) : (outEffect v r s).success = s.success := by
  unfold outEffect
  dsimp only
  split <;> rfl

@[simp] theorem outEffect_ackf (v : BitVec 16) (r : Reply) (s : State) : (outEffect v r s).ackf = s.ackf := by
  unfold outEffect
  dsimp only
  split <;> rfl

@[simp] theorem outEffect_shift (v : BitVec 16) (r : Reply) (s : State) : (outEffect v r s).shift = s.shift := by
  unfold outEffect
  dsimp only
  split <;> rfl

@[simp] theorem outEffect_bitcnt (v : BitVec 16) (r : Reply) (s : State) : (outEffect v r s).bitcnt = s.bitcnt := by
  unfold outEffect
  dsimp only
  split <;> rfl

@[simp] theorem outEffect_addr (v : BitVec 16) (r : Reply) (s : State) : (outEffect v r s).addr = s.addr := by
  unfold outEffect
  dsimp only
  split <;> rfl

@[simp] theorem outEffect_len (v : BitVec 16) (r : Reply) (s : State) : (outEffect v r s).len = s.len := by
  unfold outEffect
  dsimp only
  split <;> rfl

@[simp] theorem outEffect_cnt (v : BitVec 16) (r : Reply) (s : State) : (outEffect v r s).cnt = s.cnt := by
  unfold outEffect
  dsimp only
  split <;> rfl

@[simp] theorem outEffect_blkbuf (v : BitVec 16) (r : Reply) (s : State) : (outEffect v r s).blkbuf = s.blkbuf := by
  unfold outEffect
  dsimp only
  split <;> rfl

@[simp] theorem outEffect_seq (v : BitVec 16) (r : Reply) (s : State) : (outEffect v r s).seq = s.seq := by
  unfold outEffect
  dsimp only
  split <;> rfl

@[simp] theorem outEffect_replies (v : BitVec 16) (r : Reply) (s : State) : (outEffect v r s).replies = s.replies := by
  unfold outEffect
  dsimp only
  split <;> rfl

@[simp] theorem outEffect_port (v : BitVec 16) (r : Reply) (s : State) : (outEffect v r s).port = s.port := by
  unfold outEffect
  dsimp only
  split <;> rfl

@[simp] theorem outEffect_calls (v : BitVec 16) (r : Reply) (s : State) : (outEffect v r s).calls = s.calls := by
  unfold outEffect
  dsimp only
  split <;> rfl

@[simp] theorem outEffect_result (v : BitVec 16) (r : Reply) (s : State) : (outEffect v r s).result = s.result := by
  unfold outEffect
  dsimp only
  split <;> rfl

@[simp] theorem outEffect_starts (v : BitVec 16) (r : Reply) (s : State) : (outEffect v r s).starts = s.starts := by
  unfold outEffect
  dsimp only
  split <;> rfl

@[simp] theorem outEffect_stops (v : BitVec 16) (r : Reply) (s : State) : (outEffect v r s).stops = s.stops := by
  unfold outEffect
  dsimp only
  split <;> rfl

@[simp] theorem outEffect_fresh (v : BitVec 16) (r : Reply) (s : State) : (outEffect v r s).fresh = s.fresh := by
  unfold outEffect
  dsimp only
  split <;> rfl

/-! ### Pin primitives, with any answer -/

/-- `writeOutputs`: the latch first, then one output transfer, whose failure raises TransportFatal. -/
theorem writeOutputs_run (v : Byte) (s : State) :
    writeOutputs v s =
      if outFails (nextReply false { s with latch := v }).1.ret then
        .error .transportFatal (fatalEntry (outEffect (v.zeroExtend 16) (nextReply false { s with latch := v }).1
          (nextReply false { s with latch := v }).2))
      else .ok () (outEffect (v.zeroExtend 16) (nextReply false { s with latch := v }).1
        (nextReply false { s with latch := v }).2) := by
  rcases h : nextReply false { s with latch := v } with ⟨r, s1⟩
  have hx : xferOut (v.zeroExtend 16) { s with latch := v } = .ok r.ret (outEffect (v.zeroExtend 16) r s1) := by
    unfold xferOut
    rw [h]
  unfold writeOutputs
  rw [op_bind_ok (op_upd _ s), op_bind_ok hx]
  cases outFails r.ret <;> rfl

/-- A setter: `writeOutputs` of the latch with one bit changed, then the settling delay. -/
theorem setPin_run (mask : Byte) (b : Bool) (s : State) :
    setPin mask b s =
      match writeOutputs (withBit mask s.latch b) s with
      | .ok _ t => .ok () (delayEffect Config.tSettle t)
      | .error e t => .error e t := by
  unfold setPin
  rw [op_bind_ok (op_peek s)]
  cases h : writeOutputs (withBit mask s.latch b) s with
  | ok a t => rw [op_bind_ok h]; rfl
  | error e t => rw [op_bind_error h]

/-- `readInputs`: one input transfer, whose failure raises TransportFatal. -/
theorem readInputs_run (s : State) :
    readInputs s =
      if inFails (nextReply true s).1.ret then
        .error .transportFatal (fatalEntry (inEffect (nextReply true s).1 (nextReply true s).2))
      else .ok (inputMask (nextReply true s).1.b0) (inEffect (nextReply true s).1 (nextReply true s).2) := by
  rcases h : nextReply true s with ⟨r, s1⟩
  have hx : xferIn s = .ok (r.ret, r.b0, r.b1) (inEffect r s1) := by
    unfold xferIn
    rw [h]
  unfold readInputs
  rw [op_bind_ok hx]
  dsimp only
  cases inFails r.ret <;> rfl

/-- `getSDA`: `readInputs` and the level under the CTS mask. -/
theorem getSDA_run (c : Config) (s : State) :
    getSDA c s =
      match readInputs s with
      | .ok m t => .ok (levelOfMask c m) t
      | .error e t => .error e t := by
  unfold getSDA
  cases h : readInputs s with
  | ok m t => rw [op_bind_ok h]; rfl
  | error e t => rw [op_bind_error h]

/-! ### Pin primitives, with a given answer -/

/-- The state after a setter whose transfer was answered with `r`. -/
def afterPin (mask : Byte) (b : Bool) (r : Reply) (rest : List (Option Reply)) (s : State) : State :=
  delayEffect Config.tSettle (outEffect ((withBit mask s.latch b).zeroExtend 16) r
    { s with latch := withBit mask s.latch b, replies := rest })

theorem setPin_given (mask : Byte) (b : Bool) {s : State} {r : Reply} {rest : List (Option Reply)}
    (h : s.replies = some r :: rest) (hr : outFails r.ret = false) :
    setPin mask b s = .ok () (afterPin mask b r rest s) := by
  have hn := nextReply_given false (s := { s with latch := withBit mask s.latch b }) h
  rw [setPin_run, writeOutputs_run, hn]
  simp only [hr]
  rfl

theorem setPin_given_fatal (mask : Byte) (b : Bool) {s : State} {r : Reply} {rest : List (Option Reply)}
    (h : s.replies = some r :: rest) (hr : outFails r.ret = true) :
    setPin mask b s = .error .transportFatal (fatalEntry (outEffect ((withBit mask s.latch b).zeroExtend 16) r
      { s with latch := withBit mask s.latch b, replies := rest })) := by
  have hn := nextReply_given false (s := { s with latch := withBit mask s.latch b }) h
  rw [setPin_run, writeOutputs_run, hn]
  simp only [hr]
  rfl

theorem getSDA_given (c : Config) {s : State} {r : Reply} {rest : List (Option Reply)}
    (h : s.replies = some r :: rest) (hr : inFails r.ret = false) :
    getSDA c s = .ok (levelOfMask c (inputMask r.b0)) (inEffect r { s with replies := rest }) := by
  rw [getSDA_run, readInputs_run, nextReply_given true h]
  simp only [hr]
  rfl

/-- After a setter the bridge holds the latch (10_state.md R23). -/
theorem afterPin_bridge (mask : Byte) (b : Bool) {r : Reply} (hr : outFails r.ret = false)
    (rest : List (Option Reply)) (s : State) : (afterPin mask b r rest s).bridge = (afterPin mask b r rest s).latch := by
  unfold afterPin
  rw [outEffect_ok _ hr]
  simp

end Sys2Proof.Machine
end

