-- ==== Sys2Proof/Laws/Frame.lean ====
section
/-! SUPPORT. Once and for all what a run of an operation is made of. Give a relation `R` for pieces that end with a
value and `E` for pieces that are abandoned; if the pin primitives and the local register updates obey them, every
operation does. Frames, invariants of the pins and of the trace, and the transport tier all follow from this. -/

namespace Sys2Proof.Machine

/-- Every run of `m` in parameters `c` keeps the parameters and ends in `R` with a value, in `E` abandoned. -/
def Ends (c : Config) (R E : State → State → Prop) {α : Type} (m : Op α) : Prop :=
  ∀ s : State, s.cfg = c →
    (∀ a t, m s = .ok a t → t.cfg = c ∧ R s t) ∧ ∀ e t, m s = .error e t → t.cfg = c ∧ E s t

/-- The answer to the output transfer of a setter. -/
def pinReply (mask : Byte) (b : Bool) (s : State) : Reply × State :=
  nextReply false { s with latch := withBit mask s.latch b }

/-- The effect of the output transfer of a setter. -/
def pinEffect (mask : Byte) (b : Bool) (s : State) : State :=
  outEffect ((withBit mask s.latch b).zeroExtend 16) (pinReply mask b s).1 (pinReply mask b s).2

/-- The effect of an input transfer. -/
def readEffect (s : State) : State := inEffect (nextReply true s).1 (nextReply true s).2

/-- What a pair of relations must obey at the pins. -/
structure PinClosed (c : Config) (R E : State → State → Prop) : Prop where
  refl : ∀ s, R s s
  trans : ∀ s m t, R s m → R m t → R s t
  transE : ∀ s m t, R s m → E m t → E s t
  delay : ∀ us s, R s (delayEffect us s)
  pin : ∀ mask b s, s.cfg = c → (mask = sclMask c ∨ mask = sdaMask c) →
    outFails (pinReply mask b s).1.ret = false → R s (pinEffect mask b s)
  pinFatal : ∀ mask b s, s.cfg = c → (mask = sclMask c ∨ mask = sdaMask c) →
    outFails (pinReply mask b s).1.ret = true → E s (fatalEntry (pinEffect mask b s))
  read : ∀ s, s.cfg = c → inFails (nextReply true s).1.ret = false → R s (readEffect s)
  readFatal : ∀ s, s.cfg = c → inFails (nextReply true s).1.ret = true → E s (fatalEntry (readEffect s))

/-- What the engine itself changes between its pin activities. -/
def localBus (s t : State) : Prop :=
  t = { s with bus := t.bus, ackf := t.ackf, shift := t.shift, bitcnt := t.bitcnt, starts := t.starts, stops := t.stops }

/-- What the protocol itself changes: registers of 10_state.md R20 and no pin, trace, answer, clock or port. -/
def localRegs (s t : State) : Prop :=
  t.cfg = s.cfg ∧ t.latch = s.latch ∧ t.bridge = s.bridge ∧ t.world = s.world ∧ t.replies = s.replies
    ∧ t.now = s.now ∧ t.port = s.port ∧ t.calls = s.calls ∧ t.trace = s.trace ∧ t.seq = s.seq

theorem localBus.regs {s t : State} (h : localBus s t) : localRegs s t := by
  rw [h]
  exact ⟨rfl, rfl, rfl, rfl, rfl, rfl, rfl, rfl, rfl, rfl⟩

variable {c : Config} {R E : State → State → Prop}

theorem ends_bind (hp : PinClosed c R E) {α β : Type} {m : Op α} {f : α → Op β} (hm : Ends c R E m)
    (hf : ∀ a, Ends c R E (f a)) : Ends c R E (m >>= f) := by
  intro s hs
  constructor
  · intro b u h
    obtain ⟨a, t, h1, h2⟩ := op_bind_eq_ok.1 h
    obtain ⟨hc, hR⟩ := (hm s hs).1 a t h1
    obtain ⟨hc', hR'⟩ := (hf a t hc).1 b u h2
    exact ⟨hc', hp.trans s t u hR hR'⟩
  · intro e u h
    rcases op_bind_eq_error.1 h with h1 | ⟨a, t, h1, h2⟩
    · exact (hm s hs).2 e u h1
    · obtain ⟨hc, hR⟩ := (hm s hs).1 a t h1
      obtain ⟨hc', hE⟩ := (hf a t hc).2 e u h2
      exact ⟨hc', hp.transE s t u hR hE⟩

theorem ends_pure (hp : PinClosed c R E) {α : Type} (a : α) : Ends c R E (pure a : Op α) := by
  intro s hs
  constructor
  · intro b t h
    cases h
    exact ⟨hs, hp.refl s⟩
  · intro e t h
    cases h

theorem ends_peek (hp : PinClosed c R E) : Ends c R E peek := by
  intro s hs
  constructor
  · intro b t h
    cases h
    exact ⟨hs, hp.refl s⟩
  · intro e t h
    cases h

theorem ends_upd {f : State → State} (hf : ∀ s, s.cfg = c → (f s).cfg = c ∧ R s (f s)) : Ends c R E (upd f) := by
  intro s hs
  constructor
  · intro b t h
    cases h
    exact hf s hs
  · intro e t h
    cases h

theorem ends_delay (hp : PinClosed c R E) (us : Nat) : Ends c R E (delay us) :=
  ends_upd fun s hs => ⟨hs, hp.delay us s⟩

theorem pinEffect_cfg (mask : Byte) (b : Bool) (s : State) : (pinEffect mask b s).cfg = s.cfg := by
  obtain ⟨n, h⟩ := nextReply_spec false { s with latch := withBit mask s.latch b }
  unfold pinEffect pinReply
  rw [outEffect_cfg, h]

theorem readEffect_cfg (s : State) : (readEffect s).cfg = s.cfg := by
  obtain ⟨n, h⟩ := nextReply_spec true s
  unfold readEffect
  rw [inEffect_cfg, h]

/-- Every setter, by its two ends. -/
theorem setPin_ends (hp : PinClosed c R E) {mask : Byte} (hm : mask = sclMask c ∨ mask = sdaMask c) (b : Bool) :
    Ends c R E (setPin mask b) := by
  intro s hs
  rw [setPin_run, writeOutputs_run]
  have hcfg : (pinEffect mask b s).cfg = c := by rw [pinEffect_cfg, hs]
  cases hf : outFails (pinReply mask b s).1.ret with
  | false =>
    have hf' := hf
    unfold pinReply at hf'
    rw [hf']
    constructor
    · intro a t h
      cases h
      exact ⟨hcfg, hp.trans _ _ _ (hp.pin mask b s hs hm hf) (hp.delay _ _)⟩
    · intro e t h
      cases h
  | true =>
    have hf' := hf
    unfold pinReply at hf'
    rw [hf']
    constructor
    · intro a t h
      cases h
    · intro e t h
      cases h
      exact ⟨hcfg, hp.pinFatal mask b s hs hm hf⟩

theorem setSCL_ends (hp : PinClosed c R E) (b : Bool) : Ends c R E (setSCL c b) := setPin_ends hp (.inl rfl) b

theorem setSDA_ends (hp : PinClosed c R E) (b : Bool) : Ends c R E (setSDA c b) := setPin_ends hp (.inr rfl) b

theorem readInputs_ends (hp : PinClosed c R E) : Ends c R E readInputs := by
  intro s hs
  rw [readInputs_run]
  have hcfg : (readEffect s).cfg = c := by rw [readEffect_cfg, hs]
  cases hf : inFails (nextReply true s).1.ret with
  | false =>
    constructor
    · intro a t h
      cases h
      exact ⟨hcfg, hp.read s hs hf⟩
    · intro e t h
      cases h
  | true =>
    constructor
    · intro a t h
      cases h
    · intro e t h
      cases h
      exact ⟨hcfg, hp.readFatal s hs hf⟩

theorem getSDA_ends (hp : PinClosed c R E) : Ends c R E (getSDA c) :=
  ends_bind hp (readInputs_ends hp) fun _ => ends_pure hp _

/-! ### The engine -/

theorem ends_updBus (hl : ∀ s t, localBus s t → R s t) {f : State → State} (hf : ∀ s, localBus s (f s)) :
    Ends c R E (upd f) :=
  ends_upd fun s hs => ⟨by rw [(hf s).regs.1, hs], hl _ _ (hf s)⟩

theorem busInit_ends (hp : PinClosed c R E) (hl : ∀ s t, localBus s t → R s t) : Ends c R E (busInit c) :=
  ends_bind hp (setSCL_ends hp true) fun _ =>
  ends_bind hp (setSDA_ends hp true) fun _ => ends_updBus hl fun _ => rfl

theorem start_ends (hp : PinClosed c R E) (hl : ∀ s t, localBus s t → R s t) : Ends c R E (start c) :=
  ends_bind hp (ends_updBus hl fun _ => rfl) fun _ =>
  ends_bind hp (setSDA_ends hp false) fun _ =>
  ends_bind hp (setSCL_ends hp false) fun _ => ends_updBus hl fun _ => rfl

theorem stop_ends (hp : PinClosed c R E) (hl : ∀ s t, localBus s t → R s t) : Ends c R E (stop c) :=
  ends_bind hp (ends_updBus hl fun _ => rfl) fun _ =>
  ends_bind hp (setSDA_ends hp false) fun _ =>
  ends_bind hp (setSCL_ends hp true) fun _ =>
  ends_bind hp (setSDA_ends hp true) fun _ => ends_updBus hl fun _ => rfl

theorem txBits_ends (hp : PinClosed c R E) (hl : ∀ s t, localBus s t → R s t) (n : Nat) :
    Ends c R E (txBits c n) := by
  induction n with
  | zero => exact ends_pure hp ()
  | succ n ih =>
    exact ends_bind hp (ends_peek hp) fun _ => ends_bind hp (setSDA_ends hp _) fun _ =>
      ends_bind hp (setSCL_ends hp true) fun _ => ends_bind hp (setSCL_ends hp false) fun _ =>
      ends_bind hp (ends_updBus hl fun _ => rfl) fun _ => ih

theorem txByte_ends (hp : PinClosed c R E) (hl : ∀ s t, localBus s t → R s t) (v : Byte) :
    Ends c R E (txByte c v) :=
  ends_bind hp (ends_updBus hl fun _ => rfl) fun _ =>
  ends_bind hp (txBits_ends hp hl 8) fun _ =>
  ends_bind hp (setSDA_ends hp true) fun _ =>
  ends_bind hp (setSCL_ends hp true) fun _ =>
  ends_bind hp (getSDA_ends hp) fun _ =>
  ends_bind hp (setSCL_ends hp false) fun _ =>
  ends_bind hp (ends_updBus hl fun _ => rfl) fun _ =>
  ends_bind hp (ends_updBus hl fun _ => rfl) fun _ => ends_pure hp _

theorem rxBits_ends (hp : PinClosed c R E) (hl : ∀ s t, localBus s t → R s t) (n : Nat) :
    Ends c R E (rxBits c n) := by
  induction n with
  | zero => exact ends_pure hp ()
  | succ n ih =>
    exact ends_bind hp (setSCL_ends hp true) fun _ => ends_bind hp (getSDA_ends hp) fun _ =>
      ends_bind hp (setSCL_ends hp false) fun _ => ends_bind hp (ends_updBus hl fun _ => rfl) fun _ => ih

theorem rxByte_ends (hp : PinClosed c R E) (hl : ∀ s t, localBus s t → R s t) (isLast : Bool) :
    Ends c R E (rxByte c isLast) :=
  ends_bind hp (ends_updBus hl fun _ => rfl) fun _ =>
  ends_bind hp (rxBits_ends hp hl 8) fun _ =>
  ends_bind hp (setSDA_ends hp isLast) fun _ =>
  ends_bind hp (setSCL_ends hp true) fun _ =>
  ends_bind hp (setSCL_ends hp false) fun _ =>
  ends_bind hp (setSDA_ends hp true) fun _ =>
  ends_bind hp (ends_updBus hl fun _ => rfl) fun _ =>
  ends_bind hp (ends_peek hp) fun _ => ends_pure hp _

/-! ### The protocol -/

theorem ends_ite {α : Type} {p : Prop} [Decidable p] {m n : Op α} (hm : Ends c R E m) (hn : Ends c R E n) :
    Ends c R E (if p then m else n) := by
  split
  · exact hm
  · exact hn

theorem ends_updRegs (hl : ∀ s t, localRegs s t → R s t) {f : State → State} (hf : ∀ s, localRegs s (f s)) :
    Ends c R E (upd f) :=
  ends_upd fun s hs => ⟨by rw [(hf s).1, hs], hl _ _ (hf s)⟩

theorem localRegs_refl (s : State) : localRegs s s := ⟨rfl, rfl, rfl, rfl, rfl, rfl, rfl, rfl, rfl, rfl⟩

theorem readBytes_ends (hp : PinClosed c R E) (hl : ∀ s t, localRegs s t → R s t) (n : Nat) :
    Ends c R E (readBytes c n) := by
  have hb : ∀ s t, localBus s t → R s t := fun s t h => hl s t h.regs
  induction n with
  | zero => exact ends_pure hp ()
  | succ n ih =>
    exact ends_bind hp (ends_peek hp) fun _ => ends_bind hp (rxByte_ends hp hb _) fun _ =>
      ends_bind hp (ends_updRegs hl fun s => localRegs_refl s) fun _ => ih

theorem readBody_ends (hp : PinClosed c R E) (hl : ∀ s t, localRegs s t → R s t) (addr : Addr) (n : Nibble) :
    Ends c R E (readBody c addr n) := by
  have hb : ∀ s t, localBus s t → R s t := fun s t h => hl s t h.regs
  have h3 : Ends c R E (readSelected c addr n) :=
    ends_bind hp (txByte_ends hp hb _) fun _ => ends_ite
      (ends_bind hp (ends_updRegs hl fun s => localRegs_refl s) fun _ =>
        ends_bind hp (readBytes_ends hp hl _) fun _ => ends_pure hp _)
      (ends_pure hp _)
  have h2 : Ends c R E (readAddressed c addr n) :=
    ends_bind hp (txByte_ends hp hb _) fun _ => ends_ite
      (ends_bind hp (stop_ends hp hb) fun _ => ends_bind hp (ends_delay hp _) fun _ =>
        ends_bind hp (start_ends hp hb) fun _ => h3)
      (ends_pure hp _)
  exact ends_bind hp (start_ends hp hb) fun _ => ends_bind hp (txByte_ends hp hb _) fun _ =>
    ends_ite h2 (ends_pure hp _)

theorem readBlock_ends (hp : PinClosed c R E) (hl : ∀ s t, localRegs s t → R s t) (addr : Addr) (n : Nibble) :
    Ends c R E (readBlock c addr n) := by
  have hb : ∀ s t, localBus s t → R s t := fun s t h => hl s t h.regs
  exact ends_bind hp (ends_updRegs hl fun s => localRegs_refl s) fun _ =>
    ends_bind hp (readBody_ends hp hl addr n) fun _ => ends_bind hp (stop_ends hp hb) fun _ =>
    ends_bind hp (ends_updRegs hl fun s => by split <;> exact localRegs_refl s) fun _ =>
    ends_bind hp (ends_peek hp) fun _ => ends_pure hp _

theorem writeBytes_ends (hp : PinClosed c R E) (hl : ∀ s t, localRegs s t → R s t) (n : Nat) :
    Ends c R E (writeBytes c n) := by
  have hb : ∀ s t, localBus s t → R s t := fun s t h => hl s t h.regs
  induction n with
  | zero => exact ends_pure hp _
  | succ n ih =>
    exact ends_bind hp (ends_peek hp) fun _ => ends_bind hp (txByte_ends hp hb _) fun _ =>
      ends_ite (ends_bind hp (ends_updRegs hl fun s => localRegs_refl s) fun _ => ih) (ends_pure hp _)

theorem writeBlock_ends (hp : PinClosed c R E) (hl : ∀ s t, localRegs s t → R s t) (addr : Addr)
    (data : List Byte) : Ends c R E (writeBlock c addr data) := by
  have hb : ∀ s t, localBus s t → R s t := fun s t h => hl s t h.regs
  have h2 : Ends c R E (writeAddressed c addr data.length) :=
    ends_bind hp (txByte_ends hp hb _) fun _ => ends_ite
      (ends_bind hp (ends_updRegs hl fun s => localRegs_refl s) fun _ => writeBytes_ends hp hl _)
      (ends_pure hp _)
  have h1 : Ends c R E (writeBody c addr data.length) :=
    ends_bind hp (start_ends hp hb) fun _ => ends_bind hp (txByte_ends hp hb _) fun _ => ends_ite h2 (ends_pure hp _)
  exact ends_bind hp (ends_updRegs hl fun s => localRegs_refl s) fun _ => ends_bind hp h1 fun _ =>
    ends_bind hp (stop_ends hp hb) fun _ => ends_bind hp (ends_delay hp _) fun _ => ends_pure hp _

theorem probe_ends (hp : PinClosed c R E) (hl : ∀ s t, localRegs s t → R s t) : Ends c R E (probe c) := by
  have hb : ∀ s t, localBus s t → R s t := fun s t h => hl s t h.regs
  exact ends_bind hp (busInit_ends hp hb) fun _ => ends_bind hp (readBlock_ends hp hl _ _) fun _ =>
    ends_bind hp (ends_updRegs hl fun s => localRegs_refl s) fun _ => ends_bind hp (ends_peek hp) fun _ =>
    ends_pure hp _

theorem readIdentifier_ends (hp : PinClosed c R E) (hl : ∀ s t, localRegs s t → R s t) :
    Ends c R E (readIdentifier c) :=
  ends_bind hp (readBlock_ends hp hl _ _) fun _ =>
  ends_bind hp (ends_updRegs hl fun s => by split <;> exact localRegs_refl s) fun _ =>
  ends_bind hp (ends_updRegs hl fun s => localRegs_refl s) fun _ =>
  ends_bind hp (ends_peek hp) fun _ => ends_pure hp _

theorem writeIdentifier_ends (hp : PinClosed c R E) (hl : ∀ s t, localRegs s t → R s t) (text : List Byte) :
    Ends c R E (writeIdentifier c text) :=
  ends_bind hp (writeBlock_ends hp hl _ _) fun _ =>
  ends_bind hp (show Ends c R E (writeIdField c text _) from
    ends_ite (ends_bind hp (writeBlock_ends hp hl _ _) fun _ => ends_pure hp _) (ends_pure hp _)) fun _ =>
  ends_bind hp (ends_updRegs hl fun s => localRegs_refl s) fun _ =>
  ends_bind hp (ends_peek hp) fun _ => ends_pure hp _

/-! ### Whole operations -/

/-- An operation ends in `R`, with a result that is not `fatal`, or in `E`. -/
theorem finish_ends (hp : PinClosed c R E) (hl : ∀ s t, localRegs s t → R s t) {α : Type} {mk : α → Result}
    {m : Op α} (hmk : ∀ a, mk a ≠ .fatal) (hm : Ends c R E m) (s : State) (hs : s.cfg = c) :
    (R s (finish mk m s) ∧ (finish mk m s).result ≠ .fatal) ∨ E s (finish mk m s) := by
  rcases finish_cases mk m s with ⟨a, t, h1, h2⟩ | ⟨e, t, h1, h2⟩
  · rw [h2]
    exact .inl ⟨hp.trans _ _ _ ((hm s hs).1 a t h1).2 (hl _ _ (localRegs_refl _)), hmk a⟩
  · rw [h2]
    exact .inr ((hm s hs).2 e t h1).2

/-- Every operation but a bare `writeOutputs`, from any state to any next state, ends in `R`, with a result, or in
`E`. -/
theorem exec_ends {s t : State} (hp : PinClosed s.cfg R E) (hl : ∀ s t, localRegs s t → R s t) {i : Instr}
    (hi : ∀ v, i ≠ .writeOutputs v) (h : exec i s = .next t) :
    (R s t ∧ t.result ≠ .fatal) ∨ E s t := by
  have hb : ∀ s t, localBus s t → R s t := fun s t h => hl s t h.regs
  have fin : ∀ {α : Type} {mk : α → Result} {m : Op α}, Ends s.cfg R E m → .next (finish mk m s) = exec i s →
      (∀ a, mk a ≠ .fatal) → (R s t ∧ t.result ≠ .fatal) ∨ E s t := by
    intro α mk m hm he hmk
    rw [h] at he
    injection he with he
    rw [← he]
    exact finish_ends hp hl hmk hm s rfl
  cases i with
  | readInputs => exact fin (mk := .mask) (readInputs_ends hp) rfl fun _ => by simp
  | writeOutputs v => exact absurd rfl (hi v)
  | getSDA => exact fin (mk := .level) (getSDA_ends hp) rfl fun _ => by simp
  | setSCL b => exact fin (mk := fun _ => .none) (setSCL_ends hp b) rfl fun _ => by simp
  | setSDA b => exact fin (mk := fun _ => .none) (setSDA_ends hp b) rfl fun _ => by simp
  | busInit => exact fin (mk := fun _ => .none) (busInit_ends hp hb) rfl fun _ => by simp
  | start => exact fin (mk := fun _ => .none) (start_ends hp hb) rfl fun _ => by simp
  | stop => exact fin (mk := fun _ => .none) (stop_ends hp hb) rfl fun _ => by simp
  | txByte v => exact fin (mk := .ack) (txByte_ends hp hb v) rfl fun _ => by simp
  | rxByte l => exact fin (mk := .byte) (rxByte_ends hp hb l) rfl fun _ => by simp
  | readBlock a n =>
    by_cases hw : blockLengthOk n.toNat
    · exact fin (mk := fun r => .block r.1 r.2) (readBlock_ends hp hl a n)
        (by simp [exec, execReadBlock, hw]) fun _ => by simp
    · simp [exec, execReadBlock, hw] at h
  | writeBlock a d =>
    by_cases hw : blockLengthOk d.length
    · exact fin (mk := .done) (writeBlock_ends hp hl a d) (by simp [exec, execWriteBlock, hw]) fun _ => by simp
    · simp [exec, execWriteBlock, hw] at h
  | probe => exact fin (mk := fun r => .outcome r.1 r.2) (probe_ends hp hl) rfl fun _ => by simp
  | readIdentifier => exact fin (mk := fun r => .identifier r.1 r.2.1 r.2.2) (readIdentifier_ends hp hl) rfl fun _ => by simp
  | writeIdentifier text =>
    by_cases hw : textOk text
    · exact fin (mk := fun r => .outcome r.1 r.2) (writeIdentifier_ends hp hl text)
        (by simp [exec, execWriteIdentifier, hw]) fun _ => by simp
    · simp [exec, execWriteIdentifier, hw] at h
  | reserved15 => cases h
  | devselW h' => exact fin (mk := .ack) (txByte_ends hp hb _) rfl fun _ => by simp
  | devselR h' => exact fin (mk := .ack) (txByte_ends hp hb _) rfl fun _ => by simp
  | wordAddr a => exact fin (mk := .ack) (txByte_ends hp hb a) rfl fun _ => by simp
  | dataFrame f =>
    cases f with
    | sent d => exact fin (mk := .ack) (txByte_ends hp hb d) rfl fun _ => by simp
    | received l => exact fin (mk := .byte) (rxByte_ends hp hb l) rfl fun _ => by simp

end Sys2Proof.Machine
end

