-- ==== Sys2Proof/Laws/Masks.lean ====
section
/-! SUPPORT. The masks of 00_scope.md R6 and 10_state.md R22: one bit each, never the same bit; what the setters do to
each bit of the latch; the address bytes bit by bit. -/

namespace Sys2Proof.Machine

theorem sdaBit_lt (c : Config) : sdaBit c < 8 := Nat.mod_lt _ (by decide)

/-- `SDA_MASK != SCL_MASK` (00_scope.md R6). -/
theorem sdaBit_ne_sclBit (c : Config) : sdaBit c ≠ c.sclBit.val := by
  have h1 := c.sclBit.isLt
  have h2 := c.sdaStep.isLt
  unfold sdaBit
  omega

theorem oneBit_getLsbD (n k : Nat) (hn : n < 8) : (1#8 <<< n).getLsbD k = decide (k = n) := by
  rw [BitVec.getLsbD_shiftLeft, BitVec.getLsbD_one]
  by_cases h : k = n <;> simp [h] <;> omega

@[simp] theorem sclMask_getLsbD (c : Config) (k : Nat) : (sclMask c).getLsbD k = decide (k = c.sclBit.val) :=
  oneBit_getLsbD _ _ c.sclBit.isLt

@[simp] theorem sdaMask_getLsbD (c : Config) (k : Nat) : (sdaMask c).getLsbD k = decide (k = sdaBit c) :=
  oneBit_getLsbD _ _ (sdaBit_lt c)

/-- A setter writes its bit and no other. -/
theorem withBit_getLsbD (n : Nat) (hn : n < 8) (v : Byte) (b : Bool) (k : Nat) (hk : k < 8) :
    (withBit (1#8 <<< n) v b).getLsbD k = if k = n then b else v.getLsbD k := by
  unfold withBit
  cases b
  · rw [if_neg Bool.false_ne_true, BitVec.getLsbD_and, BitVec.getLsbD_not, oneBit_getLsbD n k hn]
    by_cases h : k = n
    · simp [h]
    · simp [h, hk]
  · rw [if_pos rfl, BitVec.getLsbD_or, oneBit_getLsbD n k hn]
    by_cases h : k = n <;> simp [h]

theorem withBit_sclMask_getLsbD (c : Config) (v : Byte) (b : Bool) (k : Nat) (hk : k < 8) :
    (withBit (sclMask c) v b).getLsbD k = if k = c.sclBit.val then b else v.getLsbD k :=
  withBit_getLsbD _ c.sclBit.isLt v b k hk

theorem withBit_sdaMask_getLsbD (c : Config) (v : Byte) (b : Bool) (k : Nat) (hk : k < 8) :
    (withBit (sdaMask c) v b).getLsbD k = if k = sdaBit c then b else v.getLsbD k :=
  withBit_getLsbD _ (sdaBit_lt c) v b k hk

/-- The bit under a one-bit mask. -/
theorem bitUnder_oneBit (n : Nat) (hn : n < 8) (v : Byte) : bitUnder (1#8 <<< n) v = v.getLsbD n := by
  have h : n = 0 ∨ n = 1 ∨ n = 2 ∨ n = 3 ∨ n = 4 ∨ n = 5 ∨ n = 6 ∨ n = 7 := by omega
  revert v
  rcases h with h | h | h | h | h | h | h | h <;> subst h <;> decide

theorem sclOf_eq (c : Config) (v : Byte) : sclOf c v = v.getLsbD c.sclBit.val := bitUnder_oneBit _ c.sclBit.isLt v

theorem sdaOf_eq (c : Config) (v : Byte) : sdaOf c v = v.getLsbD (sdaBit c) := bitUnder_oneBit _ (sdaBit_lt c) v

@[simp] theorem sclOf_withBit_sclMask (c : Config) (v : Byte) (b : Bool) :
    sclOf c (withBit (sclMask c) v b) = b := by
  rw [sclOf_eq, withBit_sclMask_getLsbD c v b _ c.sclBit.isLt, if_pos rfl]

@[simp] theorem sdaOf_withBit_sdaMask (c : Config) (v : Byte) (b : Bool) :
    sdaOf c (withBit (sdaMask c) v b) = b := by
  rw [sdaOf_eq, withBit_sdaMask_getLsbD c v b _ (sdaBit_lt c), if_pos rfl]

@[simp] theorem sclOf_withBit_sdaMask (c : Config) (v : Byte) (b : Bool) :
    sclOf c (withBit (sdaMask c) v b) = sclOf c v := by
  rw [sclOf_eq, sclOf_eq, withBit_sdaMask_getLsbD c v b _ c.sclBit.isLt, if_neg (Ne.symm (sdaBit_ne_sclBit c))]

@[simp] theorem sdaOf_withBit_sclMask (c : Config) (v : Byte) (b : Bool) :
    sdaOf c (withBit (sclMask c) v b) = sdaOf c v := by
  rw [sdaOf_eq, sdaOf_eq, withBit_sclMask_getLsbD c v b _ (sdaBit_lt c), if_neg (sdaBit_ne_sclBit c)]

/-- The raw CTS bit of a status byte. -/
theorem bitUnder_ctsMask (c : Config) (v : Byte) : bitUnder (ctsMask c) v = v.getLsbD c.ctsBit.val :=
  bitUnder_oneBit _ (Nat.lt_of_lt_of_le c.ctsBit.isLt (by decide)) v

/-- The two inversions cancel: the level is the raw CTS bit (40_pin_controller.md R132). -/
theorem levelOfMask_inputMask (c : Config) (b0 : Byte) :
    levelOfMask c (inputMask b0) = b0.getLsbD c.ctsBit.val := by
  have key : ∀ (n : Fin 4) (v : Byte), ((~~~v).extractLsb' 0 4 &&& (1#4 <<< n.val) == 0) = v.getLsbD n.val := by decide
  exact key c.ctsBit b0

/-- The latch bits no setter touches. -/
theorem fixedMask_getLsbD (c : Config) (k : Nat) (hk : k < 8) :
    (fixedMask c).getLsbD k = (decide (k ≠ c.sclBit.val) && decide (k ≠ sdaBit c)) := by
  unfold fixedMask
  rw [BitVec.getLsbD_not, BitVec.getLsbD_or, sclMask_getLsbD, sdaMask_getLsbD]
  by_cases h1 : k = c.sclBit.val <;> by_cases h2 : k = sdaBit c <;> simp [h1, h2, hk]

/-- Setting SCL keeps every other fixed bit (10_state.md R22). -/
theorem withBit_sclMask_fixed (c : Config) (v : Byte) (b : Bool) :
    withBit (sclMask c) v b &&& fixedMask c = v &&& fixedMask c := by
  apply BitVec.eq_of_getLsbD_eq
  intro k hk
  rw [BitVec.getLsbD_and, BitVec.getLsbD_and, withBit_sclMask_getLsbD c v b k hk, fixedMask_getLsbD c k hk]
  by_cases h : k = c.sclBit.val <;> simp [h]

/-- Setting SDA keeps every other fixed bit (10_state.md R22). -/
theorem withBit_sdaMask_fixed (c : Config) (v : Byte) (b : Bool) :
    withBit (sdaMask c) v b &&& fixedMask c = v &&& fixedMask c := by
  apply BitVec.eq_of_getLsbD_eq
  intro k hk
  rw [BitVec.getLsbD_and, BitVec.getLsbD_and, withBit_sdaMask_getLsbD c v b k hk, fixedMask_getLsbD c k hk]
  by_cases h : k = sdaBit c <;> simp [h]

/-- `{SIG0, SIG1}` is never `{0x58, 0x59}` (00_scope.md R6). -/
theorem sig_ne_excluded (c : Config) : ¬ (sig0 c = 0x58 ∧ sig1 c = 0x59) := by
  intro h
  have hlt := c.sigCode.isLt
  have hw : sigWord c = 0x5859#16 := by
    have hj : sigWord c = (sig0 c ++ sig1 c : BitVec 16) := by
      unfold sig0 sig1
      apply BitVec.eq_of_getLsbD_eq
      intro k hk
      rw [BitVec.getLsbD_append]
      by_cases h8 : k < 8
      · simp [h8]
      · simp [h8, show 8 + (k - 8) = k by omega]; omega
    rw [hj, h.1, h.2]
    decide
  have hn := congrArg BitVec.toNat hw
  unfold sigWord at hn
  rw [BitVec.toNat_ofNat] at hn
  simp only [BitVec.toNat_ofNat] at hn
  split at hn <;> omega

/-- The word-address byte is the low byte. -/
theorem wordByte_eq (addr : Addr) : wordByte addr = addr.extractLsb' 0 8 := by
  unfold wordByte
  apply BitVec.eq_of_getLsbD_eq
  intro k hk
  have h : k = 0 ∨ k = 1 ∨ k = 2 ∨ k = 3 ∨ k = 4 ∨ k = 5 ∨ k = 6 ∨ k = 7 := by omega
  rcases h with h | h | h | h | h | h | h | h <;> subst h <;> simp

end Sys2Proof.Machine
end

