-- ==== Sys2Proof/Laws/Memory.lean ====
section
/-! SUPPORT. The laws of the EEPROM's memory: a read after a write, the canonical form kept by every write and by a
page commit, equal memories equal data. -/

namespace Sys2Proof.Machine

@[simp] theorem Memory.read_nil (a : Nat) : Memory.read [] a = blankByte := rfl

theorem Memory.read_cons (k : Nat) (v : Byte) (m : Memory) (a : Nat) :
    Memory.read ((k, v) :: m) a = if k = a then v else Memory.read m a := rfl

/-- A byte below every listed address reads blank. -/
theorem Memory.read_below {m : Memory} {lo a : Nat} (h : Memory.wfFrom lo m = true) (ha : a < lo) :
    m.read a = blankByte := by
  induction m generalizing lo with
  | nil => rfl
  | cons c rest ih =>
    obtain ⟨k, v⟩ := c
    simp only [Memory.wfFrom, Bool.and_eq_true, decide_eq_true_eq] at h
    rw [Memory.read_cons, if_neg (by omega)]
    exact ih h.2 (by omega)

theorem Memory.wfFrom_mono {m : Memory} {lo lo' : Nat} (h : Memory.wfFrom lo m = true) (hl : lo' ≤ lo) :
    Memory.wfFrom lo' m = true := by
  cases m with
  | nil => rfl
  | cons c rest =>
    obtain ⟨k, v⟩ := c
    simp only [Memory.wfFrom, Bool.and_eq_true, decide_eq_true_eq] at h ⊢
    exact ⟨⟨by omega, h.1.2⟩, h.2⟩

theorem Memory.read_consCell (a : Nat) (b : Byte) (m : Memory) (x : Nat) (h : m.read a = blankByte) :
    Memory.read (consCell a b m) x = if x = a then b else m.read x := by
  unfold consCell
  by_cases hb : b = blankByte
  · rw [if_pos hb]
    by_cases hx : x = a
    · rw [if_pos hx, hx, h, hb]
    · rw [if_neg hx]
  · rw [if_neg hb, Memory.read_cons]
    by_cases hx : x = a
    · rw [if_pos hx, if_pos hx.symm]
    · rw [if_neg hx, if_neg (Ne.symm hx)]

/-- A read after a write, in memory above `lo` in canonical form. -/
theorem Memory.read_write_from {m : Memory} {lo : Nat} (h : Memory.wfFrom lo m = true) (a : Nat) (b : Byte)
    (x : Nat) : (m.write a b).read x = if x = a then b else m.read x := by
  induction m generalizing lo with
  | nil => exact Memory.read_consCell a b [] x rfl
  | cons c rest ih =>
    obtain ⟨k, v⟩ := c
    have hw := h
    simp only [Memory.wfFrom, Bool.and_eq_true, decide_eq_true_eq] at h
    unfold Memory.write
    by_cases h1 : a < k
    · rw [if_pos h1]
      refine Memory.read_consCell a b _ x ?_
      rw [Memory.read_cons, if_neg (by omega)]
      exact Memory.read_below h.2 (by omega)
    · rw [if_neg h1]
      by_cases h2 : a = k
      · rw [if_pos h2, Memory.read_consCell a b rest x (Memory.read_below h.2 (by omega)), Memory.read_cons]
        by_cases hx : x = a
        · rw [if_pos hx, if_pos hx]
        · rw [if_neg hx, if_neg hx, if_neg (by omega)]
      · rw [if_neg h2, Memory.read_cons, Memory.read_cons, ih h.2]
        by_cases hx : k = x
        · rw [if_pos hx, if_pos hx, if_neg (by omega)]
        · rw [if_neg hx, if_neg hx]

/-- A read after a write. -/
theorem Memory.read_write {m : Memory} (h : m.wf = true) (a : Nat) (b : Byte) (x : Nat) :
    (m.write a b).read x = if x = a then b else m.read x := Memory.read_write_from h a b x

/-- A write leaves every other byte alone, in canonical form or not. -/
theorem Memory.read_write_other (m : Memory) (a : Nat) (b : Byte) (x : Nat) (h : x ≠ a) :
    (m.write a b).read x = m.read x := by
  have hc : ∀ m : Memory, Memory.read (consCell a b m) x = m.read x := by
    intro m
    unfold consCell
    by_cases hb : b = blankByte
    · rw [if_pos hb]
    · rw [if_neg hb, Memory.read_cons, if_neg (Ne.symm h)]
  induction m with
  | nil => exact hc []
  | cons c rest ih =>
    obtain ⟨k, v⟩ := c
    unfold Memory.write
    by_cases h1 : a < k
    · rw [if_pos h1, hc]
    · rw [if_neg h1]
      by_cases h2 : a = k
      · rw [if_pos h2, hc, Memory.read_cons, if_neg (by omega)]
      · rw [if_neg h2, Memory.read_cons, Memory.read_cons, ih]

theorem wfFrom_consCell {m : Memory} {a lo : Nat} (b : Byte) (ha : lo ≤ a) (h : Memory.wfFrom (a + 1) m = true) :
    Memory.wfFrom lo (consCell a b m) = true := by
  unfold consCell
  by_cases hb : b = blankByte
  · rw [if_pos hb]
    exact Memory.wfFrom_mono h (by omega)
  · rw [if_neg hb]
    simp [Memory.wfFrom, h, ha, hb]

theorem Memory.write_wfFrom {m : Memory} {lo a : Nat} (b : Byte) (ha : lo ≤ a) (h : Memory.wfFrom lo m = true) :
    Memory.wfFrom lo (m.write a b) = true := by
  induction m generalizing lo with
  | nil => exact wfFrom_consCell b ha rfl
  | cons c rest ih =>
    obtain ⟨k, v⟩ := c
    have hw := h
    simp only [Memory.wfFrom, Bool.and_eq_true, decide_eq_true_eq] at h
    unfold Memory.write
    by_cases h1 : a < k
    · rw [if_pos h1]
      refine wfFrom_consCell b ha ?_
      simp only [Memory.wfFrom, Bool.and_eq_true, decide_eq_true_eq]
      exact ⟨⟨by omega, h.1.2⟩, h.2⟩
    · rw [if_neg h1]
      by_cases h2 : a = k
      · rw [if_pos h2]
        exact wfFrom_consCell b ha (Memory.wfFrom_mono h.2 (by omega))
      · rw [if_neg h2]
        simp only [Memory.wfFrom, Bool.and_eq_true, decide_eq_true_eq]
        exact ⟨h.1, ih (by omega) h.2⟩

/-- A write keeps the canonical form. -/
theorem Memory.write_wf {m : Memory} (h : m.wf = true) (a : Nat) (b : Byte) : (m.write a b).wf = true :=
  Memory.write_wfFrom b (Nat.zero_le a) h

/-- Nothing listed is the canonical form of blank memory. -/
@[simp] theorem Memory.nil_wf : Memory.wf [] = true := rfl

theorem Memory.eq_of_read_from {m n : Memory} {lo : Nat} (hm : Memory.wfFrom lo m = true)
    (hn : Memory.wfFrom lo n = true) (h : ∀ a, m.read a = n.read a) : m = n := by
  induction m generalizing n lo with
  | nil =>
    cases n with
    | nil => rfl
    | cons c rest =>
      obtain ⟨k, v⟩ := c
      simp only [Memory.wfFrom, Bool.and_eq_true, bne_iff_ne] at hn
      have := h k
      rw [Memory.read_cons, if_pos rfl, Memory.read_nil] at this
      exact absurd this.symm hn.1.2
  | cons c rest ih =>
    obtain ⟨k, v⟩ := c
    simp only [Memory.wfFrom, Bool.and_eq_true, bne_iff_ne, decide_eq_true_eq] at hm
    cases n with
    | nil =>
      have := h k
      rw [Memory.read_cons, if_pos rfl, Memory.read_nil] at this
      exact absurd this hm.1.2
    | cons d rest' =>
      obtain ⟨l, w⟩ := d
      simp only [Memory.wfFrom, Bool.and_eq_true, bne_iff_ne, decide_eq_true_eq] at hn
      have hk := h k
      have hl := h l
      rw [Memory.read_cons, if_pos rfl, Memory.read_cons] at hk
      rw [Memory.read_cons, Memory.read_cons, if_pos (rfl : l = l)] at hl
      have hkl : k = l := by
        rcases Nat.lt_trichotomy k l with hlt | heq | hgt
        · rw [if_neg (by omega), Memory.read_below hn.2 (by omega)] at hk
          exact absurd hk hm.1.2
        · exact heq
        · rw [if_neg (by omega), Memory.read_below hm.2 (by omega)] at hl
          exact absurd hl.symm hn.1.2
      subst hkl
      rw [if_pos rfl] at hk
      subst hk
      rw [ih hm.2 hn.2]
      intro a
      have ha := h a
      rw [Memory.read_cons, Memory.read_cons] at ha
      by_cases hka : k = a
      · rw [Memory.read_below hm.2 (by omega), Memory.read_below hn.2 (by omega)]
      · rwa [if_neg hka, if_neg hka] at ha

/-- Memories in canonical form that read alike are equal data. -/
theorem Memory.eq_of_read {m n : Memory} (hm : m.wf = true) (hn : n.wf = true) (h : ∀ a, m.read a = n.read a) :
    m = n := Memory.eq_of_read_from hm hn h

/-- In a page of a power of two bytes a byte keeps its place in the device and wraps inside the page (20_memory.md
R74), however large the page is. -/
theorem commitAddr_two_pow (k : Nat) (wb : Byte) (i : Nat) :
    commitAddr (2 ^ k) wb i = wb.toNat / 2 ^ k * 2 ^ k + (wb.toNat + i) % 2 ^ k := by
  obtain ⟨m, hm⟩ : ∃ m, 2 ^ k = m + 1 := ⟨2 ^ k - 1, by have := Nat.two_pow_pos k; omega⟩
  have hmask : m = 2 ^ k - 1 := by omega
  have hlt : (wb.toNat + i) % 2 ^ k < 2 ^ k := Nat.mod_lt _ (Nat.two_pow_pos k)
  rw [show commitAddr (2 ^ k) wb i = (wb.toNat ^^^ (wb.toNat &&& m)) ||| ((wb.toNat + i) &&& m) by rw [hm]; rfl,
    hmask, Nat.and_two_pow_sub_one_eq_mod, Nat.and_two_pow_sub_one_eq_mod, Nat.mul_comm,
    Nat.two_pow_add_eq_or_of_lt hlt]
  congr 1
  refine Nat.eq_of_testBit_eq fun j => ?_
  rw [Nat.testBit_xor, Nat.testBit_mod_two_pow, Nat.testBit_two_pow_mul, Nat.testBit_div_two_pow]
  by_cases hj : j < k
  · simp [hj, Nat.not_le.mpr hj]
  · have : k ≤ j := Nat.not_lt.mp hj
    simp [hj, this, Nat.sub_add_cancel this]

/-- A page that holds the whole buffer stores it as sent: no byte wraps. -/
theorem commitAddr_of_fits (k : Nat) (wb : Byte) (i : Nat) (h : wb.toNat % 2 ^ k + i < 2 ^ k) :
    commitAddr (2 ^ k) wb i = wb.toNat + i := by
  have hd := Nat.div_add_mod' wb.toNat (2 ^ k)
  have hm : (wb.toNat + i) % 2 ^ k = wb.toNat % 2 ^ k + i := by
    rw [Nat.add_mod, Nat.mod_eq_of_lt (by omega : i < 2 ^ k), Nat.mod_eq_of_lt h]
  rw [commitAddr_two_pow, hm]
  omega

/-- A page commit keeps the canonical form. -/
theorem commitFrom_wf (page : Nat) (wb : Byte) (w : List Byte) (m : Memory) (i : Nat) (h : m.wf = true) :
    (commitFrom page wb m i w).wf = true := by
  induction w generalizing m i with
  | nil => exact h
  | cons b rest ih => exact ih _ _ (Memory.write_wf h _ _)

/-- A page commit leaves every byte alone to which no byte of the buffer goes. -/
theorem commitFrom_read_other (page : Nat) (wb : Byte) (w : List Byte) (m : Memory) (i a : Nat)
    (h : ∀ j, i ≤ j → j < i + w.length → a ≠ commitAddr page wb j) :
    (commitFrom page wb m i w).read a = m.read a := by
  induction w generalizing m i with
  | nil => rfl
  | cons b rest ih =>
    rw [commitFrom, ih _ _ (fun j h1 h2 => h j (by omega) (by rw [List.length_cons]; omega))]
    exact Memory.read_write_other m _ b a (h i (Nat.le_refl i) (by rw [List.length_cons]; omega))

/-- What the pins do to the device, by cases of the edge. -/
theorem eepromPins_cases (now : Nat) (scl sda scl' sda' : Bool) (e : Eeprom) :
    eepromPins now scl sda scl' sda' e = e ∨ eepromPins now scl sda scl' sda' e = eepromStart e
      ∨ eepromPins now scl sda scl' sda' e = eepromStop now e
      ∨ (∃ l, eepromPins now scl sda scl' sda' e = eepromRise l e)
      ∨ eepromPins now scl sda scl' sda' e = eepromFall now e := by
  cases scl <;> cases scl'
  · exact .inl rfl
  · exact .inr (.inr (.inr (.inl ⟨_, rfl⟩)))
  · exact .inr (.inr (.inr (.inr rfl)))
  · dsimp only [eepromPins]
    split
    · exact .inr (.inl rfl)
    · split
      · exact .inr (.inr (.inl rfl))
      · exact .inl rfl

theorem eepromRise_mem (l : Bool) (e : Eeprom) : (eepromRise l e).mem = e.mem := by
  unfold eepromRise
  split <;> (try split) <;> rfl

theorem eepromFall_mem (now : Nat) (e : Eeprom) : (eepromFall now e).mem = e.mem := by
  unfold eepromFall eepromByteEnd eepromLoad
  repeat' split
  all_goals rfl

/-- Pins never break the canonical form: only a STOP writes memory (20_memory.md R74). -/
theorem eepromPins_wf (now : Nat) (scl sda scl' sda' : Bool) (e : Eeprom) (h : e.mem.wf = true) :
    (eepromPins now scl sda scl' sda' e).mem.wf = true := by
  rcases eepromPins_cases now scl sda scl' sda' e with h1 | h1 | h1 | ⟨l, h1⟩ | h1 <;> rw [h1]
  · exact h
  · exact h
  · unfold eepromStop
    split
    · exact commitFrom_wf _ _ _ _ _ h
    · exact h
  · rw [eepromRise_mem]; exact h
  · rw [eepromFall_mem]; exact h

end Sys2Proof.Machine
end

