-- ==== Sys2Proof/Laws/Sequencer.lean ====
section
/-! SUPPORT. Running the sequencer in pieces, and what one line of the transport primitives does. -/

namespace Sys2Proof.Machine

@[simp] theorem seqRun_zero (s : State) : seqRun 0 s = s := rfl

theorem seqRun_succ (k : Nat) (s : State) : seqRun (k + 1) s = seqRun k (seqStep s) := rfl

/-- A run is the run of its pieces. -/
theorem seqRun_add (j k : Nat) (s : State) : seqRun (j + k) s = seqRun k (seqRun j s) := by
  induction j generalizing s with
  | zero => rw [Nat.zero_add, seqRun_zero]
  | succ j ih => rw [Nat.succ_add, seqRun_succ, ih, seqRun_succ]

/-- With SEQ empty nothing runs. -/
theorem seqRun_idle (k : Nat) {s : State} (h : s.seq = []) : seqRun k s = s := by
  induction k with
  | zero => rfl
  | succ k ih =>
    have hs : seqStep s = s := by
      unfold seqStep
      rw [h]
    rw [seqRun_succ, hs, ih]

/-- The line that runs is that of the first frame. -/
theorem seqStep_cons {f : Frame} {rest : List Frame} {s : State} (h : s.seq = f :: rest) :
    seqStep s = seqLine f rest s := by
  unfold seqStep
  rw [h]

/-- One line of an output primitive: the transfer, and back to the caller with its count. -/
theorem seqLine_xferOut (value : BitVec 16) (line : Nat) (loc : Bool) (rest : List Frame) (s : State) :
    seqLine ⟨.xferOut value, line, loc⟩ rest s =
      seqReturn rest (.xfer (nextReply false s).1.ret 0 0) (outEffect value (nextReply false s).1 (nextReply false s).2) :=
  rfl

/-- One line of an input primitive. -/
theorem seqLine_xferIn (line : Nat) (loc : Bool) (rest : List Frame) (s : State) :
    seqLine ⟨.xferIn, line, loc⟩ rest s =
      seqReturn rest (.xfer (nextReply true s).1.ret (nextReply true s).1.b0 (nextReply true s).1.b1)
        (inEffect (nextReply true s).1 (nextReply true s).2) := rfl

end Sys2Proof.Machine
end

