-- ==== Sys2Proof/Laws/Trace.lean ====
section
/-! SUPPORT. How strings of trace tokens compose, and what the pin primitives play: the base from which a statement
about the token string of a whole operation is put together. -/

namespace Sys2Proof.Machine

theorem latchAfter_append (c : Config) (xs ys : List Tok) (v : Byte) :
    latchAfter c v (xs ++ ys) = latchAfter c (latchAfter c v xs) ys := by
  induction xs generalizing v with
  | nil => rfl
  | cons x xs ih => cases x <;> exact ih _

/-- A string of answers for a composed token string splits at the seam. -/
theorem answered_append {xs ys : List Tok} {rs : List Reply} :
    answered (xs ++ ys) rs = true ↔
      ∃ r1 r2, rs = r1 ++ r2 ∧ answered xs r1 = true ∧ answered ys r2 = true := by
  induction xs generalizing rs with
  | nil =>
    constructor
    · intro h
      exact ⟨[], rs, rfl, rfl, h⟩
    · rintro ⟨r1, r2, rfl, h1, h2⟩
      cases r1 with
      | nil => exact h2
      | cons r r1 => cases h1
  | cons x xs ih =>
    cases x with
    | w | wr => exact ih
    | c | d | r =>
      constructor
      · intro h
        cases rs with
        | nil => cases h
        | cons r rs =>
          simp only [List.cons_append, answered, Bool.and_eq_true] at h
          obtain ⟨r1, r2, rfl, h1, h2⟩ := ih.1 h.2
          exact ⟨r :: r1, r2, rfl, by simp only [answered, Bool.and_eq_true]; exact ⟨h.1, h1⟩, h2⟩
      · rintro ⟨r1, r2, rfl, h1, h2⟩
        cases r1 with
        | nil => cases h1
        | cons r r1 =>
          simp only [answered, Bool.and_eq_true] at h1
          simp only [List.cons_append, answered, Bool.and_eq_true]
          exact ⟨h1.1, ih.2 ⟨r1, r2, rfl, h1.2, h2⟩⟩

theorem samples_append (c : Config) {xs : List Tok} {r1 : List Reply} (h : answered xs r1 = true) (ys : List Tok)
    (r2 : List Reply) : samples c (xs ++ ys) (r1 ++ r2) = samples c xs r1 ++ samples c ys r2 := by
  induction xs generalizing r1 with
  | nil =>
    cases r1 with
    | nil => simp [samples]
    | cons r r1 => cases h
  | cons x xs ih =>
    cases x with
    | w | wr => exact ih h
    | c | d | r =>
      cases r1 with
      | nil => cases h
      | cons r r1 =>
        simp only [answered, Bool.and_eq_true] at h
        simp only [List.cons_append, samples, ih h.2]

theorem eventsOf_append (c : Config) {xs : List Tok} {r1 : List Reply} (h : answered xs r1 = true) (ys : List Tok)
    (r2 : List Reply) (v : Byte) :
    eventsOf c v (xs ++ ys) (r1 ++ r2) = eventsOf c v xs r1 ++ eventsOf c (latchAfter c v xs) ys r2 := by
  induction xs generalizing r1 v with
  | nil =>
    cases r1 with
    | nil => simp [eventsOf, latchAfter]
    | cons r r1 => cases h
  | cons x xs ih =>
    cases x with
    | w | wr => simp only [List.cons_append, eventsOf, ih h, latchAfter]
    | c | d | r =>
      cases r1 with
      | nil => cases h
      | cons r r1 =>
        simp only [answered, Bool.and_eq_true] at h
        simp only [List.cons_append, eventsOf, ih h.2, latchAfter]

/-- Two runs, one after the other, play the two strings one after the other. -/
theorem Played.append {xs ys : List Tok} {r1 r2 : List Reply} {mid rest : List (Option Reply)} {s m t : State}
    (ha : answered xs r1 = true) (hc : m.cfg = s.cfg) (h1 : Played xs r1 mid s m) (h2 : Played ys r2 rest m t) :
    Played (xs ++ ys) (r1 ++ r2) rest s t := by
  obtain ⟨-, hl, -, ht⟩ := h1
  obtain ⟨hr', hl', hb', ht'⟩ := h2
  refine ⟨hr', ?_, hb', ?_⟩
  · rw [hl', hl, hc, latchAfter_append]
  · rw [ht', ht, hl, hc, eventsOf_append s.cfg ha, List.reverse_append, List.append_assoc]

/-- A change of state that touches neither pins nor trace nor answers is invisible to a play that follows. -/
theorem Played.of_start {toks : List Tok} {rs : List Reply} {rest : List (Option Reply)} {s s' t : State}
    (hc : s'.cfg = s.cfg) (hl : s'.latch = s.latch) (ht : s'.trace = s.trace) (h : Played toks rs rest s' t) :
    Played toks rs rest s t := by
  obtain ⟨h1, h2, h3, h4⟩ := h
  exact ⟨h1, by rw [h2, hc, hl], h3, by rw [h4, hc, hl, ht]⟩

/-- The same for one that comes before. -/
theorem Played.of_end {toks : List Tok} {rs : List Reply} {rest : List (Option Reply)} {s t t' : State}
    (hr : t'.replies = t.replies) (hl : t'.latch = t.latch) (hb : t'.bridge = t.bridge) (ht : t'.trace = t.trace)
    (h : Played toks rs rest s t) : Played toks rs rest s t' := by
  obtain ⟨h1, h2, h3, h4⟩ := h
  exact ⟨by rw [hr, h1], by rw [hl, h2], by rw [hb, hl, h3], by rw [ht, h4]⟩

/-- `setSCL` plays one `C` token. -/
theorem setSCL_played (b : Bool) {s : State} {r : Reply} {rest : List (Option Reply)} (h : s.replies = some r :: rest)
    (hr : answered [.c b] [r] = true) :
    setSCL s.cfg b s = .ok () (afterPin (sclMask s.cfg) b r rest s)
      ∧ Played [.c b] [r] rest s (afterPin (sclMask s.cfg) b r rest s) := by
  have hf : outFails r.ret = false := by simpa [answered, outFails] using hr
  refine ⟨setPin_given _ b h hf, ?_, ?_, afterPin_bridge _ b hf rest s, ?_⟩
  · simp [afterPin]
  · simp [afterPin, latchAfter]
  · simp [afterPin, eventsOf]

/-- `setSDA` plays one `D` token. -/
theorem setSDA_played (b : Bool) {s : State} {r : Reply} {rest : List (Option Reply)} (h : s.replies = some r :: rest)
    (hr : answered [.d b] [r] = true) :
    setSDA s.cfg b s = .ok () (afterPin (sdaMask s.cfg) b r rest s)
      ∧ Played [.d b] [r] rest s (afterPin (sdaMask s.cfg) b r rest s) := by
  have hf : outFails r.ret = false := by simpa [answered, outFails] using hr
  refine ⟨setPin_given _ b h hf, ?_, ?_, afterPin_bridge _ b hf rest s, ?_⟩
  · simp [afterPin]
  · simp [afterPin, latchAfter]
  · simp [afterPin, eventsOf]

/-- `getSDA` plays one `R` token where the bridge holds the latch, and returns what it samples. -/
theorem getSDA_played {s : State} {r : Reply} {rest : List (Option Reply)} (h : s.replies = some r :: rest)
    (hb : s.bridge = s.latch) (hr : answered [.r] [r] = true) :
    getSDA s.cfg s = .ok (rawLevel s.cfg r.b0) (inEffect r { s with replies := rest })
      ∧ Played [.r] [r] rest s (inEffect r { s with replies := rest }) := by
  have hf : inFails r.ret = false := by simpa [answered, inFails] using hr
  refine ⟨?_, ?_, ?_, ?_, ?_⟩
  · rw [getSDA_given s.cfg h hf, levelOfMask_inputMask, rawLevel, bitUnder_ctsMask]
  · simp
  · simp [latchAfter]
  · simpa using hb
  · simp [eventsOf]

end Sys2Proof.Machine
end

