-- ==== Sys2Proof/Tests/Slice0.lean ====
section
/-! SUPPORT. Tests: the well-formedness checks refuse ill-formed terms; words written out from the spec's encodings
decode to what they stand for; vectors of 95_test_vectors.md, with that file's example parameters; and, for every
statement with hypotheses, a concrete witness that meets them. Expected values come from the spec's tables. -/

namespace Sys2Proof.Tests
open Sys2Proof.Machine
set_option Elab.async false

/-! ### Helpers -/

/-- The example parameters of 95_test_vectors.md section 0: SCL 0x20, SDA 0x40, CTS 0x01, LATCH_INIT 0x9F, SIG 53 47. -/
def exCfg : Config := ⟨5, 0, 0, 0x9F, 0x5347, 0, 0, 0, 0, 0, 0, 0, 0⟩

/-- A block with a latch, a bus state and answers, the bridge holding the latch. -/
def st (latch : Byte) (bus : BusState) (rs : List Reply) : State :=
  { State.reset with cfg := exCfg, latch := latch, bridge := latch, bus := bus, replies := rs.map some ++ [] }

/-- The same with something attached to the bus and no given answers. -/
def dev (w : World) : State :=
  { State.reset with cfg := exCfg, latch := 0xFF, bridge := 0xFF, bus := .idle, world := w }

/-- The answers of `st` are the given ones, and nothing after them. -/
theorem st_replies (latch : Byte) (bus : BusState) (rs : List Reply) :
    (st latch bus rs).replies = rs.map some ++ [] := rfl

/-- An answer to an output transfer. -/
def outR (ret : Int) : Reply := ⟨ret, 0, 0, false, 0⟩

/-- An answer to an input transfer. -/
def inR (ret : Int) (b0 b1 : Byte) : Reply := ⟨ret, b0, b1, false, 0⟩

/-- Answers to a token string that succeed and sample the given levels. -/
def given : List Tok → List Bool → List Reply
  | [], _ => []
  | .c _ :: ts, bs | .d _ :: ts, bs => outR 0 :: given ts bs
  | .r :: ts, b :: bs => inR 2 (if b then 1 else 0) 0 :: given ts bs
  | .r :: ts, [] => inR 2 1 0 :: given ts []
  | .w :: ts, bs | .wr :: ts, bs => given ts bs

/-- The next state. -/
def after (i : Instr) (s : State) : State :=
  match exec i s with
  | .next t => t
  | _ => s

/-- The OUT bytes of a run, oldest first. -/
def outBytes (s : State) : List Nat :=
  s.trace.reverse.filterMap fun | .out req _ => some req.value.toNat | _ => none

/-- The reference EEPROM of section 0, with bytes at its first addresses. -/
def ee (bytes : List Byte) : Eeprom :=
  { blankEeprom 256 16 5000 [0xA0, 0xA1] with mem := storeAt 0 bytes }
where
  storeAt (a : Nat) : List Byte → Memory
    | [] => []
    | b :: rest => Memory.write (storeAt (a + 1) rest) a b

/-- It attached. -/
def ref (bytes : List Byte) : World := .reference ⟨0xFF, 0⟩ (ee bytes)

/-- Nothing attached. -/
def none' : World := .absent ⟨0xFF, 0⟩

/-- The first bytes of the attached EEPROM. -/
def memOf (s : State) (n : Nat) : List (Option Byte) := (List.range n).map (readMem s.world)

/-- "SENSOR1" -/
def sensor1 : List Byte := [0x53, 0x45, 0x4E, 0x53, 0x4F, 0x52, 0x31]

/-! ### Well-formedness -/

theorem test_wf_refuses_length_zero : (Instr.readBlock 0 0).wellFormed = false := by decide
theorem test_wf_refuses_length_nine : (Instr.readBlock 0 9).wellFormed = false := by decide
theorem test_wf_refuses_no_data : (Instr.writeBlock 0 []).wellFormed = false := by decide
theorem test_wf_refuses_nine_bytes : (Instr.writeBlock 0 [1, 2, 3, 4, 5, 6, 7, 8, 9]).wellFormed = false := by decide
theorem test_wf_refuses_zero_in_text : (Instr.writeIdentifier [0x41, 0, 0x42]).wellFormed = false := by decide
theorem test_wf_admits_the_ends :
    (Instr.readBlock 0xFFFF 8).wellFormed = true ∧ (Instr.writeBlock 0 [1]).wellFormed = true
      ∧ (Instr.writeIdentifier []).wellFormed = true := by decide

/-! ### Decoding: operation numbers of 30_encoding.md R91, wire bytes of R96 to R98 -/

theorem test_decode_rdin : decode ⟨.command, [0b0000]⟩ = .ok .readInputs := by decide
theorem test_decode_wrout : decode ⟨.command, [0b0001, 0x9F]⟩ = .ok (.writeOutputs 0x9F) := by decide
theorem test_decode_getsda : decode ⟨.command, [0b0010]⟩ = .ok .getSDA := by decide
theorem test_decode_setscl : decode ⟨.command, [0b0011, 1]⟩ = .ok (.setSCL true) := by decide
theorem test_decode_setsda : decode ⟨.command, [0b0100, 0]⟩ = .ok (.setSDA false) := by decide
theorem test_decode_businit : decode ⟨.command, [0b0101]⟩ = .ok .busInit := by decide
theorem test_decode_start : decode ⟨.command, [0b0110]⟩ = .ok .start := by decide
theorem test_decode_stop : decode ⟨.command, [0b0111]⟩ = .ok .stop := by decide
theorem test_decode_txbyte : decode ⟨.command, [0b1000, 0x5A]⟩ = .ok (.txByte 0x5A) := by decide
theorem test_decode_rxbyte : decode ⟨.command, [0b1001, 1]⟩ = .ok (.rxByte true) := by decide
theorem test_decode_rdblk : decode ⟨.command, [0b1010, 0x34, 0x12, 7]⟩ = .ok (.readBlock 0x1234 8) := by decide
theorem test_decode_wrblk :
    decode ⟨.command, [0b1011, 0x10, 0x00, 1, 0x53, 0x47]⟩ = .ok (.writeBlock 0x0010 [0x53, 0x47]) := by decide
theorem test_decode_probe : decode ⟨.command, [0b1100]⟩ = .ok .probe := by decide
theorem test_decode_rdid : decode ⟨.command, [0b1101]⟩ = .ok .readIdentifier := by decide
theorem test_decode_wrid : decode ⟨.command, [0b1110, 0x41, 0x42, 0]⟩ = .ok (.writeIdentifier [0x41, 0x42]) := by
  decide
theorem test_decode_reserved15 : decode ⟨.command, [0b1111]⟩ = .ok .reserved15 := by decide
theorem test_decode_devsel_w : decode ⟨.selectWrite, [0b10100010]⟩ = .ok (.devselW 2) := by decide
theorem test_decode_devsel_r : decode ⟨.selectRead, [0b10100011]⟩ = .ok (.devselR 1) := by decide
theorem test_decode_wordaddr : decode ⟨.wordAddress, [0x34]⟩ = .ok (.wordAddr 0x34) := by decide
theorem test_decode_data :
    decode ⟨.dataSent, [0x47]⟩ = .ok (.dataFrame (.sent 0x47))
      ∧ decode ⟨.dataReceived, [1]⟩ = .ok (.dataFrame (.received true)) := by decide
theorem test_decode_rejects :
    decode ⟨.command, [0x10]⟩ = .error (.notAnOperation 0x10) ∧ decode ⟨.command, []⟩ = .error .empty
      ∧ decode ⟨.command, [0b0001]⟩ = .error .operandMissing ∧ decode ⟨.command, [0b0011, 2]⟩ = .error (.notABit 2)
      ∧ decode ⟨.command, [0b1010, 0, 0, 8]⟩ = .error .lengthOutsideDomain
      ∧ decode ⟨.command, [0b1110, 0x41]⟩ = .error .textNotTerminated
      ∧ decode ⟨.selectWrite, [0x50]⟩ = .error (.notADeviceSelect 0x50)
      ∧ decode ⟨.selectRead, [0xA0]⟩ = .error (.notADeviceSelect 0xA0) := by decide

/-! ### Address bytes and identifier images (95_test_vectors.md section 2.3) -/

theorem test_devsel_bytes :
    [0x0000, 0x0100, 0x0402, 0x0F00, 0x1234, 0xFFFF].map (fun a : Addr => (devW a, devR a, wordByte a)) =
      [(0xA0, 0xA1, 0x00), (0xA1, 0xA1, 0x00), (0xA4, 0xA5, 0x02), (0xAF, 0xAF, 0x00), (0xA2, 0xA3, 0x34),
       (0xAF, 0xAF, 0xFF)] := by decide
theorem test_id8 :
    id8 sensor1 = [0x53, 0x45, 0x4E, 0x53, 0x4F, 0x52, 0x31, 0x00]
      ∧ id8 [0x41, 0x42, 0x43, 0x44, 0x45, 0x46, 0x47, 0x48, 0x49] = [0x41, 0x42, 0x43, 0x44, 0x45, 0x46, 0x47, 0x48] := by
  decide
theorem test_delivered_text :
    deliveredText #v[0x41, 0x42, 0x00, 0x00, 0x4E, 0x41, 0x4D, 0x45, 0x00] = [0x41, 0x42] := by decide

/-! ### Pin Controller (vectors A5, A7, A11, A12, A15, A17, A18, A24, A21, A23) -/

theorem test_readInputs_a5 : (after .readInputs (st 0xFF .idle [inR 2 0xF6 0xEE])).result = .mask 9 := by
  decide +kernel
theorem test_readInputs_a7 : (after .readInputs (st 0xFF .idle [inR 0 0 0])).result = .fatal := by decide +kernel
theorem test_writeOutputs_a11 :
    let t := after (.writeOutputs 0xBF) (st 0xFF .idle [outR 8])
    (t.latch, t.bridge, t.result, outBytes t) = (0xBF, 0xBF, .none, [0xBF]) := by decide +kernel
theorem test_writeOutputs_a12 :
    let t := after (.writeOutputs 0xBF) (st 0xFF .idle [outR (-1)])
    (t.latch, t.bridge, t.result, t.status) = (0xBF, 0xFF, .fatal, 6) := by decide +kernel
theorem test_getSDA_a15 : (after .getSDA (st 0xFF .idle [inR 2 0xFE 0])).result = .level false := by decide +kernel
theorem test_getSDA_a17 : (after .getSDA (st 0xFF .idle [inR 2 0xF1 0])).result = .level true := by decide +kernel
theorem test_setSCL_a18 :
    let t := after (.setSCL true) (st 0xDF .idle [outR 0])
    (t.latch, outBytes t, t.trace.head?) = (0xFF, [0xFF], some (.delay 10)) := by decide +kernel
theorem test_setSCL_a24 :
    let t := after (.setSCL true) (st 0x9F .idle [outR (-1)])
    (t.latch, outBytes t, t.result, t.trace.length) = (0xBF, [0xBF], .fatal, 1) := by decide +kernel
theorem test_setSDA_a21 : outBytes (after (.setSDA false) (st 0xFF .idle [outR 0])) = [0xBF] := by decide +kernel
theorem test_setSDA_a23 : (after (.setSDA true) (st 0x00 .idle [outR 0])).latch = 0x40 := by decide +kernel

/-! ### I2C Bus Engine (vectors B0, B1, B2, B3, B5, B7, B8) -/

theorem test_busInit_b0 :
    let t := after .busInit (st 0x9F .unknown (given initToks []))
    (outBytes t, t.latch, t.bus) = ([0xBF, 0xFF], 0xFF, .idle) := by decide +kernel
theorem test_start_b1 :
    let t := after .start (st 0xFF .idle (given startToks []))
    (outBytes t, t.latch, t.bus, t.starts) = ([0xBF, 0x9F], 0x9F, .busy, 1) := by decide +kernel
theorem test_stop_b2 :
    let t := after .stop (st 0xDF .busy (given stopToks []))
    (outBytes t, t.latch, t.bus, t.stops) = ([0x9F, 0xBF, 0xFF], 0xFF, .idle, 1) := by decide +kernel
set_option maxRecDepth 100000 in
theorem test_txByte_b3 :
    let t := after (.txByte 0xFF) (st 0x9F .busy (given (txToks 0xFF) [true]))
    (outBytes t, t.result, t.ackf, t.latch, t.bus) =
      ((List.replicate 9 [0xDF, 0xFF, 0xDF]).flatten, .ack false, false, 0xDF, .busy) := by decide +kernel
set_option maxRecDepth 100000 in
theorem test_txByte_b5 :
    let t := after (.txByte 0xA0) (st 0x9F .busy (given (txToks 0xA0) [false]))
    (outBytes t, t.result, t.ackf) =
      ([0xDF, 0xFF, 0xDF, 0x9F, 0xBF, 0x9F, 0xDF, 0xFF, 0xDF, 0x9F, 0xBF, 0x9F, 0x9F, 0xBF, 0x9F, 0x9F, 0xBF, 0x9F,
        0x9F, 0xBF, 0x9F, 0x9F, 0xBF, 0x9F, 0xDF, 0xFF, 0xDF], .ack true, true) := by decide +kernel
set_option maxRecDepth 100000 in
theorem test_rxByte_b7 :
    let t := after (.rxByte false)
      (st 0xDF .busy (given (rxToks false) [true, false, true, false, false, true, false, true]))
    (outBytes t, t.result, t.bus) =
      ((List.replicate 8 [0xFF, 0xDF]).flatten ++ [0x9F, 0xBF, 0x9F, 0xDF], .byte 0xA5, .busy) := by decide +kernel
set_option maxRecDepth 100000 in
theorem test_rxByte_b8 :
    let t := after (.rxByte true)
      (st 0xDF .busy (given (rxToks true) [false, false, true, true, true, true, false, false]))
    (outBytes t, t.result) =
      ((List.replicate 8 [0xFF, 0xDF]).flatten ++ [0xDF, 0xFF, 0xDF, 0xDF], .byte 0x3C) := by decide +kernel
theorem test_start_in_the_wrong_state : (after .start (st 0xFF .busy (given startToks []))).bus = .unknown := by
  decide +kernel

/-! ### Wire frames: a frame is the byte operation on its byte (R95 to R98) -/

set_option maxRecDepth 100000 in
theorem test_devselW_sends_a2 :
    outBytes (after (.devselW 2) (st 0x9F .busy (given (txToks 0xA2) [false]))) =
      [0xDF, 0xFF, 0xDF, 0x9F, 0xBF, 0x9F, 0xDF, 0xFF, 0xDF, 0x9F, 0xBF, 0x9F, 0x9F, 0xBF, 0x9F, 0x9F, 0xBF, 0x9F,
        0xDF, 0xFF, 0xDF, 0x9F, 0xBF, 0x9F, 0xDF, 0xFF, 0xDF] := by decide +kernel
set_option maxRecDepth 100000 in
theorem test_devselR_sends_a1 :
    outBytes (after (.devselR 0) (st 0x9F .busy (given (txToks 0xA1) [false]))) =
      [0xDF, 0xFF, 0xDF, 0x9F, 0xBF, 0x9F, 0xDF, 0xFF, 0xDF, 0x9F, 0xBF, 0x9F, 0x9F, 0xBF, 0x9F, 0x9F, 0xBF, 0x9F,
        0x9F, 0xBF, 0x9F, 0xDF, 0xFF, 0xDF, 0xDF, 0xFF, 0xDF] := by decide +kernel
set_option maxRecDepth 100000 in
theorem test_wordAddr_acknowledged :
    (after (.wordAddr 0x00) (st 0x9F .busy (given (txToks 0) [false]))).result = .ack true := by decide +kernel
set_option maxRecDepth 100000 in
theorem test_dataFrame_received :
    (after (.dataFrame (.received true))
      (st 0xDF .busy (given (rxToks true) [false, false, true, true, true, true, false, false]))).result =
      .byte 0x3C := by decide +kernel

/-! ### EEPROM Protocol (vectors P-RB1, P-RB5, P-WB1, P-WB6, P-PR1, P-PR6, P-ID1, P-ID6, P-ID7), against the
reference EEPROM or no device -/

set_option maxRecDepth 100000 in
theorem test_readBlock_rb1 :
    let t := after (.readBlock 0 2) (dev (ref [0xA5, 0x3C]))
    (t.result, outCount t.trace, inCount t.trace, t.now, t.starts, t.stops) =
      (.block true [0xA5, 0x3C], 131, 19, 1320, 2, 2) := by decide +kernel
set_option maxRecDepth 100000 in
theorem test_readBlock_rb5 :
    let t := after (.readBlock 0 2) (st 0xFF .idle (given (readNack2Toks 0) [false, true]))
    (outCount t.trace, inCount t.trace, t.now, t.starts, t.stops, t.bus) = (59, 2, 590, 1, 1, .idle) := by
  decide +kernel
set_option maxRecDepth 100000 in
theorem test_writeBlock_wb1 :
    let t := after (.writeBlock 0 [0x53, 0x47]) (dev (ref []))
    (t.result, memOf t 4, outCount t.trace, inCount t.trace, t.now) =
      (.done true, [some 0x53, some 0x47, some 0xFF, some 0xFF], 113, 4, 11130) := by decide +kernel
set_option maxRecDepth 100000 in
theorem test_writeBlock_wb6 :
    let t := after (.writeBlock 0 [0x53, 0x47]) (st 0xFF .idle (given (writeToks 0 [0x53, 0x47] 3) [false, false, true]))
    (t.result, outCount t.trace, inCount t.trace, t.now, t.trace.head?) =
      (.done false, 86, 3, 10860, some (.delay 10000)) := by decide +kernel
set_option maxRecDepth 100000 in
theorem test_probe_pr1 :
    let t := after .probe (dev (ref [0x53, 0x47]))
    (t.result, outCount t.trace, inCount t.trace, t.now, t.starts, t.stops) =
      (.outcome true 0, 133, 19, 1340, 2, 2) := by decide +kernel
set_option maxRecDepth 100000 in
theorem test_probe_pr6 :
    let t := after .probe { dev none' with latch := 0x9F, bridge := 0x9F, bus := .unknown }
    (t.result, t.bus, outBytes t) =
      (.outcome false 2, .idle,
        [0xBF, 0xFF, 0xBF, 0x9F, 0xDF, 0xFF, 0xDF, 0x9F, 0xBF, 0x9F, 0xDF, 0xFF, 0xDF, 0x9F, 0xBF, 0x9F, 0x9F, 0xBF,
         0x9F, 0x9F, 0xBF, 0x9F, 0x9F, 0xBF, 0x9F, 0x9F, 0xBF, 0x9F, 0xDF, 0xFF, 0xDF, 0x9F, 0xBF, 0xFF]) := by
  decide +kernel
set_option maxRecDepth 100000 in
theorem test_writeIdentifier_id1 :
    let t := after (.writeIdentifier sensor1) (dev (ref []))
    (t.result, memOf t 11, outCount t.trace, inCount t.trace, t.now) =
      (.outcome true 0, [some 0x53, some 0x47, some 0x53, some 0x45, some 0x4E, some 0x53, some 0x4F, some 0x52,
        some 0x31, some 0x00, some 0xFF], 388, 14, 23880) := by decide +kernel
set_option maxRecDepth 100000 in
theorem test_writeIdentifier_id7 :
    let t := after (.writeIdentifier [0x58]) (dev none')
    (t.result, outCount t.trace, inCount t.trace, t.now) = (.outcome false 4, 32, 1, 10320) := by decide +kernel
set_option maxRecDepth 100000 in
theorem test_readIdentifier_id1r :
    let t := after .readIdentifier (dev (ref [0x53, 0x47, 0x53, 0x45, 0x4E, 0x53, 0x4F, 0x52, 0x31, 0x00]))
    (t.status, t.idbuf) = (0, #v[0x53, 0x45, 0x4E, 0x53, 0x4F, 0x52, 0x31, 0x00, 0x00]) := by decide +kernel
set_option maxRecDepth 100000 in
theorem test_readIdentifier_id6 :
    let t := after .readIdentifier (dev none')
    (t.success, t.status, outCount t.trace, inCount t.trace) = (false, 1, 32, 1) := by decide +kernel

/-! ### Transport tier (vector F3) and the sequencer -/

set_option maxRecDepth 100000 in
theorem test_fatal_f3 :
    let s := { dev (ref [0x53, 0x47]) with
      latch := 0x9F, bridge := 0x9F, bus := .unknown, replies := List.replicate 39 none ++ [some (outR (-1))] }
    let t := after .probe s
    (t.latch, t.bridge, t.bus, t.status, t.success) = (0xBF, 0x9F, .unknown, 6, false)
      ∧ (outCount t.trace, inCount t.trace, t.now, t.starts, t.stops) = (39, 1, 380, 1, 0) := by decide +kernel
theorem test_sequencer_setSCL :
    let s := st 0xDF .idle [outR 0]
    seqRun 6 (issue (.setSCL true) s) = after (.setSCL true) s := by decide +kernel
theorem test_step_runs_a_fetched_word :
    step ((st 0xFF .idle []).withFetchWord 8 0xF) = .refused .reservedOperation := rfl

/-- 20_memory.md R74 by hand: eight bytes at address 2 wrap in a page of 8 (95_test_vectors.md H2) and not in one of 16. -/
theorem test_commit_addresses_wrap_in_the_page :
    (List.range 8).map (commitAddr 8 2) = [2, 3, 4, 5, 6, 7, 0, 1]
      ∧ (List.range 8).map (commitAddr 16 2) = [2, 3, 4, 5, 6, 7, 8, 9] := by decide

/-- 20_memory.md R74 by hand, in pages of 65536 bytes and more. -/
theorem test_commit_addresses_in_large_pages :
    commitAddr 65536 0xF8 8 = 0x100 ∧ commitAddr 65536 0xF8 0x10000 = 0xF8 ∧ commitAddr 131072 0xF8 0x10000 = 0x100F8 := by
  decide


/-! ### Witnesses: concrete inputs that meet all hypotheses of a statement together, clause by clause -/

/-- Rows of acknowledgements, then a level. -/
def acks (k : Nat) (last : Bool) : List Bool := List.replicate k false ++ [last]

/-- An EEPROM with two bytes in its page buffer, from address 0x10 on. -/
def eeBuffered : Eeprom := { ee [] with mode := .rxData, w := [1, 2], wb := 0x10 }

/-- A block six calls deep: a setter inside `start` inside `readBlock` inside `probe`. -/
def deep : State :=
  { dev none' with seq := [⟨.xferOut 0x00BF, 0, false⟩, ⟨.op (.writeOutputs 0xBF), 2, false⟩,
      ⟨.op (.setSDA false), 1, false⟩, ⟨.op .start, 1, false⟩, ⟨.op (.readBlock 0 2), 2, false⟩,
      ⟨.op .probe, 2, false⟩] }

/-- A ready block with one call placed below the host interface. -/
def withPacket (b : Byte) : State := { dev none' with calls := [⟨.command, [b]⟩] }

/-- A ready block with one operation issued by the host. -/
def withHostOp (h : HostOp) : State := { dev none' with port := [h] }

theorem witness_DecodeOfEncodeIsTheInstruction :
    (Instr.writeBlock 0x0FFF [1, 2, 3, 4, 5, 6, 7, 8]).wellFormed = true
      ∧ (Instr.dataFrame (.received true)).wellFormed = true := by decide
theorem witness_SelectBytesDecodeByPosition :
    ((0xAF : Byte) &&& 0xF0 = 0xA0 ∧ (0xAF : Byte) &&& 0xF1 = 0xA1)
      ∧ ((0xAE : Byte) &&& 0xF0 = 0xA0 ∧ (0xAE : Byte) &&& 0xF1 ≠ 0xA1) ∧ (0xB1 : Byte) &&& 0xF0 ≠ 0xA0 := by decide
theorem witness_DeviceSelectBytesBitByBit :
    (0xF0FF : Addr) &&& 0x0F00 = 0 ∧ (0x0100 : Addr).getLsbD 8 = true := by decide
theorem witness_IdentifierImageIsEightBytes : 7 < 8 ∧ 7 < [1, 2, 3, 4, 5, 6, 7, 8].length ∧ ¬ 7 < [1, 2].length := by
  decide
theorem witness_StepRunsThePacket :
    ((withPacket 0xC).seq = [] ∧ (withPacket 0xC).calls = ⟨.command, [0xC]⟩ :: []
      ∧ decode ⟨.command, [0xC]⟩ = .ok .probe)
    ∧ ((withPacket 0x10).seq = [] ∧ (withPacket 0x10).calls = ⟨.command, [0x10]⟩ :: []
      ∧ decode ⟨.command, [0x10]⟩ = .error (.notAnOperation 0x10))
    ∧ ((withHostOp .probe).seq = [] ∧ (withHostOp .probe).calls = [] ∧ (withHostOp .probe).port = .probe :: [])
    ∧ ((dev none').seq = [] ∧ (dev none').calls = [] ∧ (dev none').port = []) ∧ deep.seq ≠ []
    ∧ (Instr.writeIdentifier sensor1).exposed = true :=
  ⟨⟨rfl, rfl, rfl⟩, ⟨rfl, rfl, rfl⟩, ⟨rfl, rfl, rfl⟩, ⟨rfl, rfl, rfl⟩, List.cons_ne_nil _ _, rfl⟩

/-- `hostMay` admits the three operations on an idle ready block and none while an operation runs. -/
theorem test_hostMay :
    (hostMay .probe (dev none') = true ∧ hostMay (.writeIdentifier sensor1) (dev none') = true
      ∧ hostMay .readIdentifier (st 0xFF .unknown []) = false)
    ∧ (hostMay .probe deep = false ∧ hostMay .readIdentifier deep = false) := by decide
theorem witness_FetchedWordRuns : decodeTableWord 8 0xC = some .probe := by decide
theorem witness_OperandsOutsideTheirDomainAreRefused :
    ¬ (1 ≤ (0 : Nibble).toNat ∧ (0 : Nibble).toNat ≤ 8) ∧ ¬ (1 ≤ (9 : Nibble).toNat ∧ (9 : Nibble).toNat ≤ 8)
      ∧ ¬ (1 ≤ ([] : List Byte).length ∧ ([] : List Byte).length ≤ 8)
      ∧ ¬ (1 ≤ ([1, 2, 3, 4, 5, 6, 7, 8, 9] : List Byte).length ∧ ([1, 2, 3, 4, 5, 6, 7, 8, 9] : List Byte).length ≤ 8)
      ∧ (0 : Byte) ∈ ([0x41, 0] : List Byte) := by decide

/-- For the five pin operations: an answer at each end of success and one past it. -/
theorem witness_pin_answers :
    (st 0xFF .idle [inR 1 0xF6 0]).replies = some (inR 1 0xF6 0) :: [] ∧ 0 < (inR 1 0xF6 0).ret
      ∧ (st 0xFF .idle [inR 0 0xF6 0]).replies = some (inR 0 0xF6 0) :: [] ∧ (inR 0 0xF6 0).ret ≤ 0
      ∧ (st 0xFF .idle [outR 0]).replies = some (outR 0) :: [] ∧ 0 ≤ (outR 0).ret
      ∧ (st 0xFF .idle [outR (-1)]).replies = some (outR (-1)) :: [] ∧ (outR (-1)).ret < 0 :=
  ⟨rfl, by decide, rfl, by decide, rfl, by decide, rfl, by decide⟩

/-- `OtherLatchBitsAreHeld`, `OutputsChangeOnePinAtATime`, `FatalExactlyOnAFailedTransfer`, `ParametersAndPortAreKept`
and `SequencerRefinesTheOperations`. -/
theorem witness_a_next_state :
    (∀ v, Instr.probe ≠ .writeOutputs v) ∧ exec .probe (dev none') = .next (after .probe (dev none'))
      ∧ (dev none').seq = [] ∧ step (dev none') = .next (dev none') :=
  ⟨by simp, rfl, rfl, rfl⟩

/-- The scripted answers of a token string meet the first two hypotheses of every statement that plays it. -/
theorem witness_engine :
    (st 0x00 .unknown (given initToks [])).replies = (given initToks []).map some ++ []
      ∧ answered initToks (given initToks []) = true ∧ answered startToks (given startToks []) = true
      ∧ answered stopToks (given stopToks []) = true ∧ answered (txToks 0xA5) (given (txToks 0xA5) [true]) = true
      ∧ answered (rxToks false) (given (rxToks false) [true]) = true
      ∧ answered (txToks (0xA#4 ++ 0xF#4)) (given (txToks (0xA#4 ++ 0xF#4)) [false]) = true :=
  ⟨rfl, by decide, by decide, by decide, by decide, by decide, by decide⟩

set_option maxRecDepth 100000 in
/-- `NinePulsesPerByte` and `SdaMovesOnlyWhileSclIsLow`: bytes and transactions that end without TransportFatal. -/
theorem witness_NinePulsesPerByte :
    (sclOf exCfg 0x9F = false ∧ (after (.txByte 0) (st 0x9F .busy (given (txToks 0) [false]))).result ≠ .fatal
      ∧ (after (.rxByte true) (st 0x9F .busy (given (rxToks true) []))).result ≠ .fatal
      ∧ (after (.wordAddr 0) (st 0x9F .busy (given (txToks 0) [true]))).result ≠ .fatal
      ∧ (after .stop (st 0x9F .busy (given stopToks []))).result ≠ .fatal)
    ∧ (sclOf exCfg 0xFF = true ∧ sdaOf exCfg 0xFF = true
      ∧ (after (.writeBlock 0 [1]) (dev (ref []))).result = .done true
      ∧ (after (.writeBlock 0 [1]) (dev none')).result = .done false
      ∧ (after (.readBlock 0 1) (dev (ref []))).result = .block true [0xFF]
      ∧ (after .start (dev none')).result ≠ .fatal) := by decide +kernel

set_option maxRecDepth 100000 in
/-- R157's count of rises, and its reading of SDA, on one read: 19 and 9 (1 + 1) + 1 rises, two STARTs and two STOPs. -/
theorem test_rises_and_moves_of_a_read :
    let t := after (.readBlock 0 1) (dev (ref []))
    (sclRises exCfg 0xFF t.trace.reverse, sdaMovesHigh exCfg 0xFF t.trace.reverse) =
      (19 + 19, [false, true, false, true]) := by decide +kernel

set_option maxRecDepth 100000 in
theorem witness_ReadBlockReturnsTheSampledBytes :
    answered (readToks 0x0FFF 8) (given (readToks 0x0FFF 8) (acks 2 false ++ [true, false])) = true
      ∧ (samples exCfg (readToks 0x0FFF 8) (given (readToks 0x0FFF 8) (acks 2 false ++ [true, false]))).take 4 =
        [false, false, false, true]
      ∧ answered (readToks 0 1) (given (readToks 0 1) (acks 2 false)) = true
      ∧ (samples exCfg (readToks 0 1) (given (readToks 0 1) (acks 2 false))).take 3 = [false, false, false] := by
  decide +kernel

set_option maxRecDepth 100000 in
theorem witness_ReadBlockNackStillStops :
    (answered (readNack1Toks 2) (given (readNack1Toks 2) (acks 0 true)) = true
      ∧ samples exCfg (readNack1Toks 2) (given (readNack1Toks 2) (acks 0 true)) = List.replicate 0 false ++ [true])
    ∧ (answered (readNack2Toks 2) (given (readNack2Toks 2) (acks 1 true)) = true
      ∧ samples exCfg (readNack2Toks 2) (given (readNack2Toks 2) (acks 1 true)) = List.replicate 1 false ++ [true])
    ∧ (answered (readNack3Toks 2) (given (readNack3Toks 2) (acks 2 true)) = true
      ∧ samples exCfg (readNack3Toks 2) (given (readNack3Toks 2) (acks 2 true)) = List.replicate 2 false ++ [true]) := by
  decide +kernel

set_option maxRecDepth 100000 in
theorem witness_WriteBlock :
    (let d : List Byte := [1, 2, 3, 4, 5, 6, 7, 8]
      let r := given (writeToks 0xFFFF d 10) (acks 9 false)
      answered (writeToks 0xFFFF d (2 + d.length)) r = true
        ∧ samples exCfg (writeToks 0xFFFF d (2 + d.length)) r = List.replicate (2 + d.length) false)
    ∧ (answered (writeToks 0 [7] (0 + 1)) (given (writeToks 0 [7] 1) (acks 0 true)) = true
      ∧ samples exCfg (writeToks 0 [7] (0 + 1)) (given (writeToks 0 [7] 1) (acks 0 true)) =
        List.replicate 0 false ++ [true])
    ∧ (answered (writeToks 0 [7] (2 + 1)) (given (writeToks 0 [7] 3) (acks 2 true)) = true
      ∧ samples exCfg (writeToks 0 [7] (2 + 1)) (given (writeToks 0 [7] 3) (acks 2 true)) =
        List.replicate 2 false ++ [true]) := by decide +kernel

set_option maxRecDepth 100000 in
theorem witness_ProbeComparesTheSignature :
    (let toks := initToks ++ readToks 0 2
      let r := given toks (acks 2 false ++ wireBits 0x53 ++ wireBits 0x47)
      answered toks r = true ∧ samples exCfg toks r = [false, false, false] ++ (wireBits 0x53 ++ wireBits 0x47)
        ∧ bytesOfBits 2 (wireBits 0x53 ++ wireBits 0x47) = [sig0 exCfg, sig1 exCfg])
    ∧ (let toks := initToks ++ readToks 0 2
      let r := given toks (acks 2 false ++ wireBits 0x53 ++ wireBits 0x48)
      answered toks r = true ∧ samples exCfg toks r = [false, false, false] ++ (wireBits 0x53 ++ wireBits 0x48)
        ∧ bytesOfBits 2 (wireBits 0x53 ++ wireBits 0x48) ≠ [sig0 exCfg, sig1 exCfg]) := by decide +kernel

set_option maxRecDepth 100000 in
theorem witness_ProbeWithNoAcknowledgeReportsNoEeprom :
    (answered (initToks ++ readNack1Toks 0) (given (initToks ++ readNack1Toks 0) (acks 0 true)) = true
      ∧ samples exCfg (initToks ++ readNack1Toks 0) (given (initToks ++ readNack1Toks 0) (acks 0 true)) = [true])
    ∧ (answered (initToks ++ readNack2Toks 0) (given (initToks ++ readNack2Toks 0) (acks 1 true)) = true
      ∧ samples exCfg (initToks ++ readNack2Toks 0) (given (initToks ++ readNack2Toks 0) (acks 1 true)) =
        [false, true])
    ∧ (answered (initToks ++ readNack3Toks 0) (given (initToks ++ readNack3Toks 0) (acks 2 true)) = true
      ∧ samples exCfg (initToks ++ readNack3Toks 0) (given (initToks ++ readNack3Toks 0) (acks 2 true)) =
        [false, false, true]) := by decide +kernel

set_option maxRecDepth 100000 in
theorem witness_ReadIdentifierFillsTheBuffer :
    answered (readToks 2 8) (given (readToks 2 8) (acks 2 false ++ [true])) = true
      ∧ (samples exCfg (readToks 2 8) (given (readToks 2 8) (acks 2 false ++ [true]))).take 4 =
        [false, false, false, true] := by decide +kernel

set_option maxRecDepth 100000 in
theorem witness_WriteIdentifier :
    (0 : Byte) ∉ sensor1
    ∧ (let toks := writeToks 0 [sig0 exCfg, sig1 exCfg] 4 ++ writeToks 2 (id8 sensor1) 10
      answered toks (given toks (acks 13 false)) = true
        ∧ samples exCfg toks (given toks (acks 13 false)) = List.replicate 14 false)
    ∧ (let toks := writeToks 0 [sig0 exCfg, sig1 exCfg] (3 + 1)
      3 < 4 ∧ answered toks (given toks (acks 3 true)) = true
        ∧ samples exCfg toks (given toks (acks 3 true)) = List.replicate 3 false ++ [true])
    ∧ (let toks := writeToks 0 [sig0 exCfg, sig1 exCfg] 4 ++ writeToks 2 (id8 sensor1) (9 + 1)
      9 < 10 ∧ answered toks (given toks (acks 13 true)) = true
        ∧ samples exCfg toks (given toks (acks 13 true)) = List.replicate (4 + 9) false ++ [true]) := by decide +kernel

set_option maxRecDepth 100000 in
/-- `ExposedOperationsReportTheirCodes`, `StopsMatchStarts`, `ProtocolLeavesTheBusIdle`,
`ProtocolOperationsWriteOnlyTheirRegisters`: each kind of operation ends without TransportFatal somewhere. -/
theorem witness_protocol_runs :
    Instr.probe.exposed = true ∧ (dev none').bus = .idle
      ∧ (after .probe { dev none' with bus := .unknown }).result ≠ .fatal
      ∧ (after (.readBlock 0 8) (dev none')).result ≠ .fatal ∧ (after (.writeBlock 0 [1]) (dev none')).result ≠ .fatal
      ∧ (after .readIdentifier (dev none')).result ≠ .fatal
      ∧ (after (.writeIdentifier [0x41]) (dev none')).result ≠ .fatal := by decide +kernel

theorem witness_OnlyBusInitLeavesUnknown :
    (st 0xFF .unknown []).bus = .unknown ∧ Instr.stop ≠ .busInit ∧ Instr.stop ≠ .probe
      ∧ exec .stop (st 0xFF .unknown []) = .next (after .stop (st 0xFF .unknown [])) :=
  ⟨rfl, by decide, by decide, rfl⟩

theorem witness_IdleMeansReleasedForTheHost :
    Instr.readIdentifier.exposed = true ∧ (dev none').bus = .idle ∧ idleReleased (dev none')
      ∧ exec .readIdentifier (dev none') = .next (after .readIdentifier (dev none')) :=
  ⟨rfl, rfl, fun _ => ⟨by decide, by decide⟩, rfl⟩

set_option maxRecDepth 100000 in
theorem witness_SuccessfulRunsHaveTheirEventCounts :
    (after (.readBlock 0 2) (dev (ref [0xA5, 0x3C]))).result = .block true [0xA5, 0x3C]
      ∧ (after (.writeBlock 0 [1, 2]) (dev (ref []))).result = .done true
      ∧ (after .probe (dev (ref [0x53, 0x47]))).status = 0 ∧ (after .probe (dev (ref []))).status = 3
      ∧ (after .readIdentifier (dev (ref []))).status = 0
      ∧ (after (.writeIdentifier sensor1) (dev (ref []))).status = 0 := by decide +kernel

theorem witness_TransportFatalEntryState :
    (after .probe { dev none' with replies := [some (outR (-1))] }).result = .fatal := by decide +kernel

set_option maxRecDepth 100000 in
theorem witness_FailedRunIsAPrefixOfTheFaultFreeRun :
    let pre := List.replicate 7 (outR 0)
    let t := after .probe { dev none' with replies := pre.map some ++ [some (outR (-1))] }
    t.result = .fatal ∧ outCount t.trace + inCount t.trace = pre.length + 1 ∧ (dev none').trace = [] := by
  decide +kernel

set_option maxRecDepth 100000 in
theorem witness_pin_and_bus_frames :
    (after .readInputs (dev none')).result ≠ .fatal ∧ (after .getSDA (dev none')).result ≠ .fatal
      ∧ (after (.writeOutputs 0) (dev none')).result ≠ .fatal ∧ (after (.setSCL false) (dev none')).result ≠ .fatal
      ∧ (after (.setSDA false) (dev none')).result ≠ .fatal ∧ (after .busInit (dev none')).result ≠ .fatal
      ∧ (after .start (dev none')).result ≠ .fatal ∧ (after .stop (dev none')).result ≠ .fatal
      ∧ (after (.rxByte true) (dev none')).result ≠ .fatal ∧ (after (.txByte 1) (dev none')).result ≠ .fatal
      ∧ (after (.devselW 1) (dev none')).result ≠ .fatal := by decide +kernel

set_option maxRecDepth 100000 in
/-- An address outside the page buffer; one inside it does change, so the exception is not idle. -/
theorem witness_LowerOperationsStoreOnlyThePendingPage :
    let s := { dev (.reference ⟨0xFF, 0⟩ eeBuffered) with latch := 0x9F, bridge := 0x9F }
    0x13 ∉ pendingStores s.world ∧ 0x11 ∈ pendingStores s.world
      ∧ readMem (after .stop s).world 0x11 ≠ readMem s.world 0x11 := by decide +kernel

theorem witness_quiet : quiet (dev (ref [])) := ⟨⟨by decide, by decide⟩, rfl, rfl⟩

theorem witness_WritesStoreOnlyAtTheirAddresses :
    2 ∉ blockStores (ref []) 0 2 ∧ 10 ∉ blockStores (ref []) 0 2 ∧ 10 ∉ blockStores (ref []) 2 8
      ∧ 9 ∈ blockStores (ref []) 2 8 := by decide

/-- The hypotheses about the device in `MemReadReturnsTheContent`, `MemWriteStoresTheData`,
`ProbeSucceedsIffTheSignatureIsThere` and `IdentifierRoundTrip`; `witness_quiet` gives the last one. -/
theorem witness_reference_device :
    (248 + 8 ≤ 256 ∧ (248 : Addr).toNat + 8 ≤ (ee []).size)
      ∧ (0xA0 : Byte) ∈ (ee []).devsel ∧ (0xA1 : Byte) ∈ (ee []).devsel ∧ (ee []).busyUntil ≤ (dev (ref [])).now
      ∧ (dev (ref [])).replies = [] ∧ memOk (dev (ref [])).world = true ∧ (ee []).tWr ≤ 10000
      ∧ (∀ k, k < 8 → commitAddr (ee []).page (wordByte 0x18) k = (0x18 : Addr).toNat + k)
      ∧ 10 ≤ (ee []).size ∧ (∀ k, k < 2 → commitAddr (ee []).page 0 k = k)
      ∧ (∀ k, k < 8 → commitAddr (ee []).page 2 k = 2 + k) := by decide

theorem witness_AbsentDeviceNeverAcknowledges :
    (dev none').world = .absent ⟨0xFF, 0⟩ ∧ (dev none').replies = []
      ∧ 1 ≤ (8 : Nibble).toNat ∧ (8 : Nibble).toNat ≤ 8 ∧ 1 ≤ sensor1.length ∧ sensor1.length ≤ 8
      ∧ (0 : Byte) ∉ sensor1 :=
  ⟨rfl, rfl, by decide⟩

theorem witness_invariant :
    Inv deep ∧ deep.seq.length = 6 ∧ step deep = .next (seqStep deep) :=
  ⟨⟨by decide, by decide, by decide, by decide, by decide, by decide, by decide⟩, rfl, rfl⟩

end Sys2Proof.Tests
end

section
/-! The parameters and the host's side of the block are written by no operation (00_scope.md R6, 60_exceptions.md R237):
`sameHost` is a frame in the sense of Laws/Frame.lean, and a line of the sequencer keeps the parameters. -/

namespace Sys2Proof.Machine

/-! ### `sameHost` is obeyed by every piece of an operation -/

theorem sameHost_refl (s : State) : sameHost s s := ⟨rfl, rfl, rfl⟩

theorem sameHost.trans {s m t : State} (h : sameHost s m) (h' : sameHost m t) : sameHost s t := by
  obtain ⟨hcfg, hport, hcalls⟩ := h
  obtain ⟨hcfg', hport', hcalls'⟩ := h'
  exact ⟨hcfg'.trans hcfg, hport'.trans hport, hcalls'.trans hcalls⟩

theorem localRegs.sameHost {s t : State} (h : localRegs s t) : sameHost s t := by
  obtain ⟨hcfg, -, -, -, -, -, hport, hcalls, -, -⟩ := h
  exact ⟨hcfg, hport, hcalls⟩

theorem nextReply_sameHost (input : Bool) (s : State) : sameHost s (nextReply input s).2 := by
  obtain ⟨n, h⟩ := nextReply_spec input s
  rw [h]
  exact ⟨rfl, rfl, rfl⟩

/-- A whole output transfer, the drawing of its answer included. -/
theorem outTransfer_sameHost (v : BitVec 16) (s : State) :
    sameHost s (outEffect v (nextReply false s).1 (nextReply false s).2) :=
  (nextReply_sameHost false s).trans ⟨outEffect_cfg .., outEffect_port .., outEffect_calls ..⟩

/-- A whole input transfer. -/
theorem readEffect_sameHost (s : State) : sameHost s (readEffect s) :=
  (nextReply_sameHost true s).trans ⟨rfl, rfl, rfl⟩

theorem pinEffect_sameHost (mask : Byte) (b : Bool) (s : State) : sameHost s (pinEffect mask b s) :=
  outTransfer_sameHost _ { s with latch := withBit mask s.latch b }

theorem fatalEntry_sameHost {s t : State} (h : sameHost s t) : sameHost s (fatalEntry t) := h

theorem sameHost_pinClosed (c : Config) : PinClosed c sameHost sameHost where
  refl := sameHost_refl
  trans _ _ _ := sameHost.trans
  transE _ _ _ := sameHost.trans
  delay _ _ := ⟨rfl, rfl, rfl⟩
  pin mask b s _ _ _ := pinEffect_sameHost mask b s
  pinFatal mask b s _ _ _ := fatalEntry_sameHost (pinEffect_sameHost mask b s)
  read s _ _ := readEffect_sameHost s
  readFatal s _ _ := fatalEntry_sameHost (readEffect_sameHost s)

/-! ### Whole operations -/

/-- The one operation `exec_ends` leaves out. -/
theorem writeOutputs_sameHost (c : Config) (v : Byte) : Ends c sameHost sameHost (writeOutputs v) := by
  intro s hs
  have hout := outTransfer_sameHost (v.zeroExtend 16) { s with latch := v }
  have hcfg := hout.1.trans hs
  rw [writeOutputs_run]
  split
  · constructor
    · intro a t h
      cases h
    · intro e t h
      cases h
      exact ⟨hcfg, fatalEntry_sameHost hout⟩
  · constructor
    · intro a t h
      cases h
      exact ⟨hcfg, hout⟩
    · intro e t h
      cases h

/-- No operation, ended or abandoned, writes a parameter, the host port or the calls. -/
theorem exec_sameHost {i : Instr} {s t : State} (h : exec i s = .next t) : sameHost s t := by
  have hp := sameHost_pinClosed s.cfg
  have hl : ∀ s t, localRegs s t → sameHost s t := fun _ _ => localRegs.sameHost
  have hends : (sameHost s t ∧ t.result ≠ .fatal) ∨ sameHost s t := by
    by_cases hi : ∃ v, i = .writeOutputs v
    · obtain ⟨v, rfl⟩ := hi
      cases h
      exact finish_ends hp hl (by simp) (writeOutputs_sameHost s.cfg v) s rfl
    · exact exec_ends hp hl (fun v hv => hi ⟨v, hv⟩) h
  exact hends.elim And.left id

/-! ### A line of the sequencer keeps the parameters -/

@[simp] theorem lineReadInputs_cfg (f : Frame) (rest : List Frame) (s : State) :
    (lineReadInputs f rest s).cfg = s.cfg := by
  unfold lineReadInputs
  split <;> simp [apply_ite State.cfg]

@[simp] theorem lineWriteOutputs_cfg (v : Byte) (f : Frame) (rest : List Frame) (s : State) :
    (lineWriteOutputs v f rest s).cfg = s.cfg := by
  unfold lineWriteOutputs
  split <;> simp [apply_ite State.cfg]

@[simp] theorem lineGetSDA_cfg (c : Config) (f : Frame) (rest : List Frame) (s : State) :
    (lineGetSDA c f rest s).cfg = s.cfg := by
  unfold lineGetSDA
  split <;> simp

@[simp] theorem lineSetPin_cfg (mask : Byte) (b : Bool) (f : Frame) (rest : List Frame) (s : State) :
    (lineSetPin mask b f rest s).cfg = s.cfg := by
  unfold lineSetPin
  split <;> simp

@[simp] theorem lineBusInit_cfg (f : Frame) (rest : List Frame) (s : State) :
    (lineBusInit f rest s).cfg = s.cfg := by
  unfold lineBusInit
  split <;> simp

@[simp] theorem lineStart_cfg (f : Frame) (rest : List Frame) (s : State) : (lineStart f rest s).cfg = s.cfg := by
  unfold lineStart
  split <;> simp

@[simp] theorem lineStop_cfg (f : Frame) (rest : List Frame) (s : State) : (lineStop f rest s).cfg = s.cfg := by
  unfold lineStop
  split <;> simp

@[simp] theorem lineTxByte_cfg (v : Byte) (f : Frame) (rest : List Frame) (s : State) :
    (lineTxByte v f rest s).cfg = s.cfg := by
  unfold lineTxByte
  split <;> simp [apply_ite State.cfg]

@[simp] theorem lineRxByte_cfg (isLast : Bool) (f : Frame) (rest : List Frame) (s : State) :
    (lineRxByte isLast f rest s).cfg = s.cfg := by
  unfold lineRxByte
  split <;> simp [apply_ite State.cfg]

@[simp] theorem lineReadBlock_cfg (addr : Addr) (length : Nibble) (f : Frame) (rest : List Frame) (s : State) :
    (lineReadBlock addr length f rest s).cfg = s.cfg := by
  unfold lineReadBlock
  split <;> simp [apply_ite State.cfg]

@[simp] theorem lineWriteBlock_cfg (addr : Addr) (data : List Byte) (f : Frame) (rest : List Frame) (s : State) :
    (lineWriteBlock addr data f rest s).cfg = s.cfg := by
  unfold lineWriteBlock
  split <;> simp [apply_ite State.cfg]

@[simp] theorem lineProbe_cfg (c : Config) (f : Frame) (rest : List Frame) (s : State) :
    (lineProbe c f rest s).cfg = s.cfg := by
  unfold lineProbe
  split <;> simp

@[simp] theorem lineReadIdentifier_cfg (f : Frame) (rest : List Frame) (s : State) :
    (lineReadIdentifier f rest s).cfg = s.cfg := by
  unfold lineReadIdentifier
  split <;> simp [apply_ite State.cfg]

@[simp] theorem lineWriteIdentifier_cfg (c : Config) (text : List Byte) (f : Frame) (rest : List Frame) (s : State) :
    (lineWriteIdentifier c text f rest s).cfg = s.cfg := by
  unfold lineWriteIdentifier
  split <;> simp [apply_ite State.cfg]

@[simp] theorem lineFrame_cfg (i : Instr) (f : Frame) (rest : List Frame) (s : State) :
    (lineFrame i f rest s).cfg = s.cfg := by
  unfold lineFrame
  split <;> simp

@[simp] theorem lineOp_cfg (c : Config) (i : Instr) (f : Frame) (rest : List Frame) (s : State) :
    (lineOp c i f rest s).cfg = s.cfg := by
  unfold lineOp
  split <;> simp

theorem seqLine_cfg (f : Frame) (rest : List Frame) (s : State) : (seqLine f rest s).cfg = s.cfg := by
  obtain ⟨act, line, loc⟩ := f
  cases act with
  | op i => exact lineOp_cfg s.cfg i _ rest s
  | xferOut value =>
    rw [seqLine_xferOut, seqReturn_cfg]
    exact (outTransfer_sameHost value s).1
  | xferIn =>
    rw [seqLine_xferIn, seqReturn_cfg]
    exact (readEffect_sameHost s).1

theorem seqStep_cfg (s : State) : (seqStep s).cfg = s.cfg := by
  unfold seqStep
  split
  · rfl
  · exact seqLine_cfg ..

/-! ### A step keeps the parameters -/

theorem runPacket_cfg {p : Packet} {s t : State} (h : runPacket p s = .next t) : t.cfg = s.cfg := by
  unfold runPacket at h
  split at h
  · exact (exec_sameHost h).1
  · cases h

/-- A busy block runs a line, a ready one a packet, an operation of the host, or nothing. -/
theorem step_cfg {s t : State} (h : step s = .next t) : t.cfg = s.cfg := by
  unfold step at h
  split at h
  next =>
    cases h
    exact seqStep_cfg s
  next =>
    split at h
    next p rest _ => exact runPacket_cfg (s := { s with calls := rest }) h
    next =>
      split at h
      next op rest _ => exact (exec_sameHost (s := { s with port := rest }) h).1
      next =>
        cases h
        rfl

/-- Settles O44: `sameHost` is a frame of every operation, and each line of the sequencer keeps the parameters. -/
theorem parametersAndPortAreKept : Obligations.ParametersAndPortAreKept :=
  ⟨fun _ _ _ h => exec_sameHost h, fun _ _ h => step_cfg h⟩

end Sys2Proof.Machine
end

section
/-! What the pins and the engine leave unchanged, as frames in the sense of Laws/Frame.lean: the pins keep every
register of 10_state.md R20 but LATCH (`sameRegs`), the engine keeps what the block operations work with
(`sameBlock`), and no operation that ends moves SEQ (`sameSeq`). -/

namespace Sys2Proof.Machine

/-- The registers in which a block operation keeps its place, and SEQ: no byte operation writes them. -/
def sameBlock (s t : State) : Prop :=
  t.addr = s.addr ∧ t.len = s.len ∧ t.cnt = s.cnt ∧ t.blkbuf = s.blkbuf ∧ t.seq = s.seq

/-- SEQ is where it was. -/
def sameSeq (s t : State) : Prop := t.seq = s.seq

theorem sameRegs.trans {s m t : State} (h : sameRegs s m) (h' : sameRegs m t) : sameRegs s t := by
  unfold sameRegs at *
  simp_all

theorem sameBlock.trans {s m t : State} (h : sameBlock s m) (h' : sameBlock m t) : sameBlock s t := by
  unfold sameBlock at *
  simp_all

theorem sameRegs.sameBlock {s t : State} (h : sameRegs s t) : sameBlock s t := by
  obtain ⟨-, -, -, -, -, -, -, haddr, hlen, hcnt, hblkbuf, hseq⟩ := h
  exact ⟨haddr, hlen, hcnt, hblkbuf, hseq⟩

theorem sameBlock.sameSeq {s t : State} (h : sameBlock s t) : sameSeq s t := h.2.2.2.2

theorem sameRegs.bitcnt {s t : State} (h : sameRegs s t) : t.bitcnt = s.bitcnt := by
  obtain ⟨-, -, -, -, -, -, hbitcnt, -⟩ := h
  exact hbitcnt

theorem localBus.sameBlock {s t : State} (h : localBus s t) : sameBlock s t := by
  rw [show t = _ from h]
  exact ⟨rfl, rfl, rfl, rfl, rfl⟩

theorem localRegs.sameSeq {s t : State} (h : localRegs s t) : sameSeq s t := by
  obtain ⟨-, -, -, -, -, -, -, -, -, hseq⟩ := h
  exact hseq

theorem sameRegs_refl (s : State) : sameRegs s s :=
  ⟨rfl, rfl, rfl, rfl, rfl, rfl, rfl, rfl, rfl, rfl, rfl, rfl⟩

theorem nextReply_sameRegs (input : Bool) (s : State) : sameRegs s (nextReply input s).2 := by
  obtain ⟨n, h⟩ := nextReply_spec input s
  rw [h]
  exact sameRegs_refl s

theorem outTransfer_sameRegs (v : BitVec 16) (s : State) :
    sameRegs s (outEffect v (nextReply false s).1 (nextReply false s).2) :=
  (nextReply_sameRegs false s).trans (by simp [sameRegs])

theorem readEffect_sameRegs (s : State) : sameRegs s (readEffect s) :=
  (nextReply_sameRegs true s).trans (sameRegs_refl _)

theorem pinEffect_sameRegs (mask : Byte) (b : Bool) (s : State) : sameRegs s (pinEffect mask b s) :=
  outTransfer_sameRegs _ { s with latch := withBit mask s.latch b }

/-- What keeps all registers but LATCH is obeyed by the pins; of an abandoned piece nothing is said. -/
theorem pinClosed_of_sameRegs (c : Config) {R : State → State → Prop} (hR : ∀ s t, sameRegs s t → R s t)
    (ht : ∀ s m t, R s m → R m t → R s t) : PinClosed c R (fun _ _ => True) where
  refl s := hR s s (sameRegs_refl s)
  trans := ht
  transE _ _ _ _ _ := trivial
  delay _ s := hR _ _ (sameRegs_refl s)
  pin mask b s _ _ _ := hR _ _ (pinEffect_sameRegs mask b s)
  pinFatal _ _ _ _ _ _ := trivial
  read s _ _ := hR _ _ (readEffect_sameRegs s)
  readFatal _ _ _ := trivial

theorem sameRegs_pinClosed (c : Config) : PinClosed c sameRegs (fun _ _ => True) :=
  pinClosed_of_sameRegs c (fun _ _ h => h) fun _ _ _ => sameRegs.trans

theorem sameBlock_pinClosed (c : Config) : PinClosed c sameBlock (fun _ _ => True) :=
  pinClosed_of_sameRegs c (fun _ _ => sameRegs.sameBlock) fun _ _ _ => sameBlock.trans

theorem sameSeq_pinClosed (c : Config) : PinClosed c sameSeq (fun _ _ => True) :=
  pinClosed_of_sameRegs c (fun _ _ h => h.sameBlock.sameSeq) fun _ _ _ h h' => Eq.trans h' h

/-! The transfers themselves, and `writeOutputs`, which Laws/Frame.lean leaves out. -/

theorem xferOut_ends (c : Config) (v : BitVec 16) : Ends c sameRegs (fun _ _ => True) (xferOut v) := by
  intro s hs
  constructor
  · intro ret t h
    cases h
    exact ⟨(outTransfer_sameHost v s).1.trans hs, outTransfer_sameRegs v s⟩
  · intro e t h
    cases h

theorem xferIn_ends (c : Config) : Ends c sameRegs (fun _ _ => True) xferIn := by
  intro s hs
  constructor
  · intro x t h
    cases h
    exact ⟨(readEffect_cfg s).trans hs, readEffect_sameRegs s⟩
  · intro e t h
    cases h

theorem raiseFatal_ends (c : Config) (R : State → State → Prop) {α : Type} :
    Ends c R (fun _ _ => True) (raiseFatal : Op α) := by
  intro s hs
  constructor
  · intro a t h
    cases h
  · intro e t h
    cases h
    exact ⟨hs, trivial⟩

theorem writeOutputs_ends (c : Config) (v : Byte) : Ends c sameRegs (fun _ _ => True) (writeOutputs v) :=
  have hp := sameRegs_pinClosed c
  ends_bind hp (ends_upd fun s hs => ⟨hs, sameRegs_refl s⟩) fun _ =>
  ends_bind hp (xferOut_ends c _) fun _ => ends_ite (raiseFatal_ends c _) (ends_pure hp ())

end Sys2Proof.Machine
end

section
/-! The sequencer against the operations (10_state.md R25). `withFrames` sets the two fields in which the two views
differ, SEQ and the result ports; `Implements` says of an activity what one call of it does; `runs_call` and
`runs_line` are the rules for one line. Each operation is then followed line by line. -/

namespace Sys2Proof.Machine

/-! ### Reaching a state -/

/-- Running SEQ some number of lines leads from `s` to `t`. -/
def Reaches (s t : State) : Prop := ∃ k, seqRun k s = t

theorem Reaches.refl (s : State) : Reaches s s := ⟨0, rfl⟩

theorem Reaches.trans {s m t : State} (h : Reaches s m) (h' : Reaches m t) : Reaches s t := by
  obtain ⟨j, rfl⟩ := h
  obtain ⟨k, rfl⟩ := h'
  exact ⟨j + k, seqRun_add j k s⟩

theorem Reaches.step {s t : State} (h : Reaches (seqStep s) t) : Reaches s t := by
  obtain ⟨k, rfl⟩ := h
  exact ⟨k + 1, seqRun_succ k s⟩

/-- The state as the sequencer has it: the frames and what the last callee returned. -/
def withFrames (q : List Frame) (r : Result) (s : State) : State := { s with seq := q, result := r }

/-- How a call ends: back to the caller's frames with the result, or in the state that TransportFatal leaves. -/
def handBack {α : Type} (rest : List Frame) (mk : α → Result) : EStateM.Result Raise State α → State
  | .ok a t => withFrames rest (mk a) t
  | .error _ t => t

/-- Calling the activity `a`, below any frames, does what `m` does in one go; `m`, ended, keeps the parameters and
obeys `R`. -/
structure Implements (c : Config) (R : State → State → Prop) {α : Type} (a : Activity) (mk : α → Result) (m : Op α) :
    Prop where
  runs : ∀ s, s.cfg = c → ∀ rest r, Reaches (withFrames (newFrame a :: rest) r s) (handBack rest mk (m s))
  ends : Ends c R (fun _ _ => True) m

/-! ### The rules for one line of an operation -/

section Rules

variable {c : Config} {i : Instr} {n : Nat} {loc : Bool} {rest : List Frame} {r : Result} {s u : State}

/-- Any line. -/
theorem runs_line {v : State} (hc : s.cfg = c)
    (hline : lineOp c i ⟨.op i, n, loc⟩ rest (withFrames (⟨.op i, n, loc⟩ :: rest) r s) = v) (h : Reaches v u) :
    Reaches (withFrames (⟨.op i, n, loc⟩ :: rest) r s) u := by
  subst hc hline
  exact .step h

/-- The last line. -/
theorem runs_last (hc : s.cfg = c)
    (hline : lineOp c i ⟨.op i, n, loc⟩ rest (withFrames (⟨.op i, n, loc⟩ :: rest) r s) = u) :
    Reaches (withFrames (⟨.op i, n, loc⟩ :: rest) r s) u := runs_line hc hline (.refl u)

/-- A line that calls: TransportFatal in the callee ends the caller too, otherwise the next line runs with the callee's
result. What the line changes before the call leads from `s` to `s'`. -/
theorem runs_call {R : State → State → Prop} {α β : Type} {a : Activity} {mka : α → Result} {m : Op α}
    {mk : β → Result} {g : α → Op β} {s' : State} (hcall : Implements c R a mka m) (hc : s.cfg = c) (hc' : s'.cfg = c)
    (hline : lineOp c i ⟨.op i, n, loc⟩ rest (withFrames (⟨.op i, n, loc⟩ :: rest) r s)
      = withFrames (newFrame a :: ⟨.op i, n + 1, loc⟩ :: rest) r s')
    (hnext : ∀ x t, t.cfg = c → R s' t →
      Reaches (withFrames (⟨.op i, n + 1, loc⟩ :: rest) (mka x) t) (handBack rest mk (g x t))) :
    Reaches (withFrames (⟨.op i, n, loc⟩ :: rest) r s) (handBack rest mk ((m >>= g) s')) := by
  refine runs_line hc hline ((hcall.runs s' hc' _ r).trans ?_)
  cases hm : m s' with
  | ok x t =>
    obtain ⟨ht, hR⟩ := (hcall.ends s' hc').1 x t hm
    rw [op_bind_ok hm]
    exact hnext x t ht hR
  | error e t =>
    rw [op_bind_error hm]
    exact .refl t

/-- A line that changes registers, where the operation does the same. -/
theorem runs_upd {β : Type} {mk : β → Result} {f : State → State} {g : Unit → Op β} {n' : Nat} {loc' : Bool}
    {s' : State} (hc : s.cfg = c)
    (hline : lineOp c i ⟨.op i, n, loc⟩ rest (withFrames (⟨.op i, n, loc⟩ :: rest) r s)
      = withFrames (⟨.op i, n', loc'⟩ :: rest) r (f s'))
    (hnext : Reaches (withFrames (⟨.op i, n', loc'⟩ :: rest) r (f s')) (handBack rest mk (g () (f s')))) :
    Reaches (withFrames (⟨.op i, n, loc⟩ :: rest) r s) (handBack rest mk ((upd f >>= g) s')) :=
  runs_line hc hline hnext

/-- A line that only moves the step or the local boolean. -/
theorem runs_move {n' : Nat} {loc' : Bool} (hc : s.cfg = c)
    (hline : lineOp c i ⟨.op i, n, loc⟩ rest (withFrames (⟨.op i, n, loc⟩ :: rest) r s)
      = withFrames (⟨.op i, n', loc'⟩ :: rest) r s)
    (hnext : Reaches (withFrames (⟨.op i, n', loc'⟩ :: rest) r s) u) :
    Reaches (withFrames (⟨.op i, n, loc⟩ :: rest) r s) u :=
  runs_line hc hline hnext

/-- A read of the state belongs to the line that uses it. -/
theorem runs_peek {β : Type} {mk : β → Result} {g : State → Op β} {v : State}
    (h : Reaches v (handBack rest mk (g s s))) : Reaches v (handBack rest mk ((peek >>= g) s)) := h

/-- A change that shares its line with the next call. -/
theorem runs_updHere {β : Type} {mk : β → Result} {f : State → State} {g : Unit → Op β} {v : State}
    (h : Reaches v (handBack rest mk (g () (f s)))) : Reaches v (handBack rest mk ((upd f >>= g) s)) := h

end Rules

/-! ### Transport primitives and pins -/

theorem worldReply_withFrames (input : Bool) (q : List Frame) (r : Result) (s : State) :
    worldReply input (withFrames q r s) = ((worldReply input s).1, withFrames q r (worldReply input s).2) := by
  cases s with
  | mk cfg latch bus idbuf status success ackf shift bitcnt addr len cnt blkbuf seq bridge world =>
    cases world <;> rfl

/-- The environment sees neither SEQ nor the result ports. -/
theorem nextReply_withFrames (input : Bool) (q : List Frame) (r : Result) (s : State) :
    nextReply input (withFrames q r s) = ((nextReply input s).1, withFrames q r (nextReply input s).2) := by
  cases s with
  | mk cfg latch bus idbuf status success ackf shift bitcnt addr len cnt blkbuf seq bridge world replies =>
    cases replies with
    | nil => exact worldReply_withFrames input q r _
    | cons o rest =>
      cases o with
      | none =>
        exact worldReply_withFrames input q r (State.mk cfg latch bus idbuf status success ackf shift bitcnt addr len
          cnt blkbuf seq bridge world rest _ _ _ _ _ _ _ _)
      | some _ => rfl

theorem outEffect_withFrames (v : BitVec 16) (a : Reply) (q : List Frame) (r : Result) (s : State) :
    outEffect v a (withFrames q r s) = withFrames q r (outEffect v a s) := by
  unfold outEffect
  dsimp only
  split <;> rfl

theorem xferOut_implements (c : Config) (v : BitVec 16) :
    Implements c sameRegs (.xferOut v) (fun ret => .xfer ret 0 0) (xferOut v) where
  ends := xferOut_ends c v
  runs s _ rest r := by
    refine .step ?_
    rw [seqStep_cons rfl, newFrame, seqLine_xferOut, nextReply_withFrames, outEffect_withFrames]
    exact .refl _

theorem xferIn_implements (c : Config) :
    Implements c sameRegs .xferIn (fun x => .xfer x.1 x.2.1 x.2.2) xferIn where
  ends := xferIn_ends c
  runs s _ rest r := by
    refine .step ?_
    rw [seqStep_cons rfl, newFrame, seqLine_xferIn, nextReply_withFrames]
    exact .refl _


theorem readInputs_implements (c : Config) : Implements c sameRegs (.op .readInputs) .mask readInputs where
  ends := readInputs_ends (sameRegs_pinClosed c)
  runs s hs rest r := by
    refine runs_call (xferIn_implements c) hs hs rfl fun ⟨ret, b0, b1⟩ t ht _ => ?_
    dsimp only
    split
    next h => exact runs_last ht (if_pos h)
    next h => exact runs_move ht (if_neg h) (runs_last ht rfl)

theorem writeOutputs_implements (c : Config) (v : Byte) :
    Implements c sameRegs (.op (.writeOutputs v)) (fun _ => .none) (writeOutputs v) where
  ends := writeOutputs_ends c v
  runs s hs rest r := by
    refine runs_upd hs rfl (runs_call (xferOut_implements c _) hs hs rfl fun ret t ht _ => ?_)
    split
    next h => exact runs_last ht (if_pos h)
    next h => exact runs_last ht (if_neg h)

theorem getSDA_implements (c : Config) : Implements c sameRegs (.op .getSDA) .level (getSDA c) where
  ends := getSDA_ends (sameRegs_pinClosed c)
  runs _ hs _ _ := runs_call (readInputs_implements c) hs hs rfl fun _ _ ht _ => runs_last ht rfl

theorem setSCL_implements (c : Config) (b : Bool) :
    Implements c sameRegs (.op (.setSCL b)) (fun _ => .none) (setSCL c b) where
  ends := setSCL_ends (sameRegs_pinClosed c) b
  runs _ hs _ _ :=
    runs_peek (runs_call (writeOutputs_implements c _) hs hs rfl fun _ _ ht _ => runs_last ht rfl)

theorem setSDA_implements (c : Config) (b : Bool) :
    Implements c sameRegs (.op (.setSDA b)) (fun _ => .none) (setSDA c b) where
  ends := setSDA_ends (sameRegs_pinClosed c) b
  runs _ hs _ _ :=
    runs_peek (runs_call (writeOutputs_implements c _) hs hs rfl fun _ _ ht _ => runs_last ht rfl)

/-! ### The engine -/

theorem busInit_implements (c : Config) : Implements c sameBlock (.op .busInit) (fun _ => .none) (busInit c) where
  ends := busInit_ends (sameBlock_pinClosed c) fun _ _ => localBus.sameBlock
  runs _ hs _ _ :=
    runs_call (setSCL_implements c true) hs hs rfl fun _ _ hc _ =>
    runs_call (setSDA_implements c true) hc hc rfl fun _ _ hc _ => runs_last hc rfl

theorem start_implements (c : Config) : Implements c sameBlock (.op .start) (fun _ => .none) (start c) where
  ends := start_ends (sameBlock_pinClosed c) fun _ _ => localBus.sameBlock
  runs _ hs _ _ :=
    runs_updHere <| runs_call (setSDA_implements c false) hs hs rfl fun _ _ hc _ =>
    runs_call (setSCL_implements c false) hc hc rfl fun _ _ hc _ => runs_last hc rfl

theorem stop_implements (c : Config) : Implements c sameBlock (.op .stop) (fun _ => .none) (stop c) where
  ends := stop_ends (sameBlock_pinClosed c) fun _ _ => localBus.sameBlock
  runs _ hs _ _ :=
    runs_updHere <| runs_call (setSDA_implements c false) hs hs rfl fun _ _ hc _ =>
    runs_call (setSCL_implements c true) hc hc rfl fun _ _ hc _ =>
    runs_call (setSDA_implements c true) hc hc rfl fun _ _ hc _ => runs_last hc rfl

/-- The loop of `txByte`, from its test with `left` cells to clock. -/
theorem txBits_runs (c : Config) (v : Byte) (rest : List Frame) {β : Type} {mk : β → Result} {g : Unit → Op β}
    (left : Nat) (hleft : left ≤ 8) (r : Result) (s : State) (hc : s.cfg = c) (hb : s.bitcnt.toNat = left)
    (hg : ∀ r t, t.cfg = c →
      Reaches (withFrames (⟨.op (.txByte v), 6, false⟩ :: rest) r t) (handBack rest mk (g () t))) :
    Reaches (withFrames (⟨.op (.txByte v), 1, false⟩ :: rest) r s) (handBack rest mk ((txBits c left >>= g) s)) := by
  induction left generalizing r s with
  | zero => exact runs_move hc (if_pos (BitVec.eq_of_toNat_eq hb)) (hg r s hc)
  | succ left ih =>
    have hne : s.bitcnt ≠ 0 := by rintro h; simp [h] at hb
    simp only [txBits, bind_assoc]
    refine runs_move hc (if_neg hne) <| runs_peek <|
      runs_call (setSDA_implements c _) hc hc rfl fun _ m1 hc1 h1 =>
      runs_call (setSCL_implements c true) hc1 hc1 rfl fun _ m2 hc2 h2 =>
      runs_call (setSCL_implements c false) hc2 hc2 rfl fun _ m3 hc3 h3 => ?_
    have hb3 : left = m3.bitcnt.toNat - 1 := by
      rw [((h1.trans h2).trans h3).bitcnt, hb, Nat.add_sub_cancel]
    exact runs_upd hc3 (by rw [hb3]; rfl) (ih (by omega) _ _ hc3 (by simp; omega))

theorem txByte_implements (c : Config) (v : Byte) : Implements c sameBlock (.op (.txByte v)) .ack (txByte c v) where
  ends := txByte_ends (sameBlock_pinClosed c) (fun _ _ => localBus.sameBlock) v
  runs _ hs rest _ :=
    runs_upd hs rfl <| txBits_runs c v rest 8 (Nat.le_refl 8) _ _ hs rfl fun _ _ hc =>
    runs_call (setSDA_implements c true) hc hc rfl fun _ _ hc _ =>
    runs_call (setSCL_implements c true) hc hc rfl fun _ _ hc _ =>
    runs_call (getSDA_implements c) hc hc rfl fun _ _ hc _ =>
    runs_move hc rfl <| runs_call (setSCL_implements c false) hc hc rfl fun _ _ hc _ =>
    runs_upd hc rfl <| runs_last hc rfl

/-- The loop of `rxByte`, from its test with `left` cells to clock. -/
theorem rxBits_runs (c : Config) (l : Bool) (rest : List Frame) {β : Type} {mk : β → Result} {g : Unit → Op β}
    (left : Nat) (hleft : left ≤ 8) (loc : Bool) (r : Result) (s : State) (hc : s.cfg = c)
    (hb : s.bitcnt.toNat = left)
    (hg : ∀ loc r t, t.cfg = c →
      Reaches (withFrames (⟨.op (.rxByte l), 7, loc⟩ :: rest) r t) (handBack rest mk (g () t))) :
    Reaches (withFrames (⟨.op (.rxByte l), 1, loc⟩ :: rest) r s) (handBack rest mk ((rxBits c left >>= g) s)) := by
  induction left generalizing loc r s with
  | zero => exact runs_move hc (if_pos (BitVec.eq_of_toNat_eq hb)) (hg loc r s hc)
  | succ left ih =>
    have hne : s.bitcnt ≠ 0 := by rintro h; simp [h] at hb
    simp only [rxBits, bind_assoc]
    refine runs_move hc (if_neg hne) <|
      runs_call (setSCL_implements c true) hc hc rfl fun _ m1 hc1 h1 =>
      runs_call (getSDA_implements c) hc1 hc1 rfl fun sample m2 hc2 h2 => runs_move hc2 rfl <|
      runs_call (setSCL_implements c false) hc2 hc2 rfl fun _ m3 hc3 h3 => ?_
    have hb3 : left = m3.bitcnt.toNat - 1 := by
      rw [((h1.trans h2).trans h3).bitcnt, hb, Nat.add_sub_cancel]
    exact runs_upd hc3 (by rw [hb3]; rfl) (ih (by omega) _ _ _ hc3 (by simp; omega))

theorem rxByte_implements (c : Config) (l : Bool) : Implements c sameBlock (.op (.rxByte l)) .byte (rxByte c l) where
  ends := rxByte_ends (sameBlock_pinClosed c) (fun _ _ => localBus.sameBlock) l
  runs _ hs rest _ :=
    runs_upd hs rfl <| rxBits_runs c l rest 8 (Nat.le_refl 8) _ _ _ hs rfl fun _ _ _ hc =>
    runs_call (setSDA_implements c l) hc hc rfl fun _ _ hc _ =>
    runs_call (setSCL_implements c true) hc hc rfl fun _ _ hc _ =>
    runs_call (setSCL_implements c false) hc hc rfl fun _ _ hc _ =>
    runs_call (setSDA_implements c true) hc hc rfl fun _ _ hc _ => runs_last hc rfl

/-! ### readBlock -/

/-- `readBlock` from `out` on (R181). -/
def readTail (c : Config) (ok : Bool) : Op (Bool × List Byte) := do
  stop c
  upd fun s => if ok then s else freeBlkbuf s
  let s ← peek
  pure (ok, blkPrefix s.blkbuf s.len.toNat)

theorem readBlock_eq (c : Config) (addr : Addr) (length : Nibble) :
    readBlock c addr length = upd (setBlock addr length) >>= fun _ => readBody c addr length >>= readTail c := rfl

section ReadBlock

variable (c : Config) (addr : Addr) (length : Nibble) (rest : List Frame)

theorem readTail_runs (ok : Bool) (r : Result) (s : State) (hc : s.cfg = c) :
    Reaches (withFrames (⟨.op (.readBlock addr length), 16, ok⟩ :: rest) r s)
      (handBack rest (fun x => .block x.1 x.2) (readTail c ok s)) := by
  refine runs_call (stop_implements c) hc hc rfl fun _ t hc _ => ?_
  cases ok
  · exact runs_upd hc rfl <| runs_last hc rfl
  · exact runs_upd hc rfl <| runs_last hc rfl

/-- The receive loop, from its test with `left` bytes to go. -/
theorem readBytes_runs (left : Nat) (r : Result) (s : State) (hc : s.cfg = c)
    (hleft : s.cnt.toNat + left = s.len.toNat) :
    Reaches (withFrames (⟨.op (.readBlock addr length), 12, false⟩ :: rest) r s)
      (handBack rest (fun x => .block x.1 x.2) ((readBytes c left >>= fun _ => readTail c true) s)) := by
  induction left generalizing r s with
  | zero =>
    exact runs_move hc (if_pos (BitVec.eq_of_toNat_eq hleft)) <| runs_move hc rfl <|
      readTail_runs c addr length rest true r s hc
  | succ left ih =>
    have hne : s.cnt ≠ s.len := by rintro h; rw [h] at hleft; omega
    simp only [readBytes, bind_assoc]
    refine runs_move hc (if_neg hne) <| runs_peek <|
      runs_call (rxByte_implements c _) hc hc rfl fun v t hc ht => runs_upd hc rfl <| ih _ _ hc ?_
    obtain ⟨-, hlen, hcnt, -, -⟩ := ht
    simp [hlen, hcnt]
    omega

theorem readSelected_runs (r : Result) (s : State) (hc : s.cfg = c) (ha : s.addr = addr) (hl : s.len = length) :
    Reaches (withFrames (⟨.op (.readBlock addr length), 9, false⟩ :: rest) r s)
      (handBack rest (fun x => .block x.1 x.2) ((readSelected c addr length >>= readTail c) s)) := by
  subst ha hl
  simp only [readSelected, bind_assoc]
  refine runs_call (txByte_implements c _) hc hc rfl fun ack t hc ht => ?_
  obtain ⟨-, hlen, -, -, -⟩ := ht
  cases ack
  · exact runs_move hc rfl <| readTail_runs c _ _ rest false _ t hc
  · simp only [↓reduceIte, bind_assoc, pure_bind]
    exact runs_move hc rfl <| runs_upd hc rfl <| readBytes_runs c _ _ rest _ _ _ hc (by simp [hlen])

theorem readAddressed_runs (r : Result) (s : State) (hc : s.cfg = c) (ha : s.addr = addr) (hl : s.len = length) :
    Reaches (withFrames (⟨.op (.readBlock addr length), 4, false⟩ :: rest) r s)
      (handBack rest (fun x => .block x.1 x.2) ((readAddressed c addr length >>= readTail c) s)) := by
  subst ha hl
  simp only [readAddressed, bind_assoc]
  refine runs_call (txByte_implements c _) hc hc rfl fun ack t hc ht => ?_
  cases ack
  · exact runs_move hc rfl <| readTail_runs c _ _ rest false _ t hc
  · simp only [↓reduceIte, bind_assoc]
    refine runs_move hc rfl <| runs_call (stop_implements c) hc hc rfl fun _ _ hc h1 => runs_upd hc rfl <|
      runs_call (start_implements c) hc hc rfl fun _ u hc h2 => ?_
    obtain ⟨haddr, hlen, -, -, -⟩ := (ht.trans h1).trans h2
    exact readSelected_runs c _ _ rest _ u hc haddr hlen

theorem readBody_runs (r : Result) (s : State) (hc : s.cfg = c) (ha : s.addr = addr) (hl : s.len = length) :
    Reaches (withFrames (⟨.op (.readBlock addr length), 1, false⟩ :: rest) r s)
      (handBack rest (fun x => .block x.1 x.2) ((readBody c addr length >>= readTail c) s)) := by
  subst ha hl
  simp only [readBody, bind_assoc]
  refine runs_call (start_implements c) hc hc rfl fun _ m hc hm => ?_
  refine runs_call (txByte_implements c _) hc hc (by rw [← hm.1]; rfl) fun ack t hc ht => ?_
  obtain ⟨haddr, hlen, -, -, -⟩ := hm.trans ht
  cases ack
  · exact runs_move hc rfl <| readTail_runs c _ _ rest false _ t hc
  · exact runs_move hc rfl <| readAddressed_runs c _ _ rest _ t hc haddr hlen

end ReadBlock

theorem readBlock_implements (c : Config) (addr : Addr) (length : Nibble) :
    Implements c sameSeq (.op (.readBlock addr length)) (fun x => .block x.1 x.2) (readBlock c addr length) where
  ends := readBlock_ends (sameSeq_pinClosed c) (fun _ _ => localRegs.sameSeq) addr length
  runs s hs rest r := by
    rw [readBlock_eq]
    exact runs_upd hs rfl <| readBody_runs c addr length rest r (setBlock addr length s) hs rfl rfl

/-! ### writeBlock -/

/-- `writeBlock` from `out` on (R182). -/
def writeTail (c : Config) (ok : Bool) : Op Bool := do
  stop c
  delay Config.tWrite
  pure ok

theorem writeBlock_eq (c : Config) (addr : Addr) (data : List Byte) :
    writeBlock c addr data = upd (setWrite addr data) >>= fun _ => writeBody c addr data.length >>= writeTail c := rfl

section WriteBlock

variable (c : Config) (addr : Addr) (data : List Byte) (rest : List Frame)

theorem writeTail_runs (ok : Bool) (r : Result) (s : State) (hc : s.cfg = c) :
    Reaches (withFrames (⟨.op (.writeBlock addr data), 11, ok⟩ :: rest) r s)
      (handBack rest .done (writeTail c ok s)) :=
  runs_call (stop_implements c) hc hc rfl fun _ _ hc _ => runs_upd hc rfl <| runs_last hc rfl

/-- The transmit loop, from its test with `left` bytes to go. -/
theorem writeBytes_runs (left : Nat) (r : Result) (s : State) (hc : s.cfg = c)
    (hleft : s.cnt.toNat + left = s.len.toNat) :
    Reaches (withFrames (⟨.op (.writeBlock addr data), 7, false⟩ :: rest) r s)
      (handBack rest .done ((writeBytes c left >>= writeTail c) s)) := by
  induction left generalizing r s with
  | zero =>
    exact runs_move hc (if_pos (BitVec.eq_of_toNat_eq hleft)) <| runs_move hc rfl <|
      writeTail_runs c addr data rest true r s hc
  | succ left ih =>
    have hne : s.cnt ≠ s.len := by rintro h; rw [h] at hleft; omega
    simp only [writeBytes, bind_assoc]
    refine runs_move hc (if_neg hne) <| runs_peek <|
      runs_call (txByte_implements c _) hc hc rfl fun ack t hc ht => ?_
    cases ack
    · exact runs_move hc rfl <| writeTail_runs c addr data rest false _ t hc
    · simp only [↓reduceIte, bind_assoc]
      refine runs_upd hc rfl <| ih _ _ hc ?_
      obtain ⟨-, hlen, hcnt, -, -⟩ := ht
      simp [hlen, hcnt]
      omega

theorem writeAddressed_runs (r : Result) (s : State) (hc : s.cfg = c) (ha : s.addr = addr) :
    Reaches (withFrames (⟨.op (.writeBlock addr data), 4, false⟩ :: rest) r s)
      (handBack rest .done ((writeAddressed c addr s.len.toNat >>= writeTail c) s)) := by
  subst ha
  simp only [writeAddressed, bind_assoc]
  refine runs_call (txByte_implements c _) hc hc rfl fun ack t hc ht => ?_
  obtain ⟨-, hlen, -, -, -⟩ := ht
  cases ack
  · exact runs_move hc rfl <| writeTail_runs c _ _ rest false _ t hc
  · simp only [↓reduceIte, bind_assoc]
    exact runs_move hc rfl <| runs_upd hc rfl <| writeBytes_runs c _ _ rest _ _ _ hc (by simp [hlen])

theorem writeBody_runs (r : Result) (s : State) (hc : s.cfg = c) (ha : s.addr = addr) :
    Reaches (withFrames (⟨.op (.writeBlock addr data), 1, false⟩ :: rest) r s)
      (handBack rest .done ((writeBody c addr s.len.toNat >>= writeTail c) s)) := by
  subst ha
  simp only [writeBody, bind_assoc]
  refine runs_call (start_implements c) hc hc rfl fun _ m hc hm => ?_
  refine runs_call (txByte_implements c _) hc hc (by rw [← hm.1]; rfl) fun ack t hc ht => ?_
  obtain ⟨haddr, hlen, -, -, -⟩ := hm.trans ht
  cases ack
  · exact runs_move hc rfl <| writeTail_runs c _ _ rest false _ t hc
  · rw [← hlen]
    exact runs_move hc rfl <| writeAddressed_runs c _ _ rest _ t hc haddr

end WriteBlock

/-- LEN holds the length of every block that is shorter than 16 bytes (20_memory.md R57 admits 8). -/
theorem writeBlock_implements (c : Config) (addr : Addr) {data : List Byte} (h : data.length < 16) :
    Implements c sameSeq (.op (.writeBlock addr data)) .done (writeBlock c addr data) where
  ends := writeBlock_ends (sameSeq_pinClosed c) (fun _ _ => localRegs.sameSeq) addr data
  runs s hs rest r := by
    have hlen : (setWrite addr data s).len.toNat = data.length := by simp; omega
    rw [writeBlock_eq, ← hlen]
    exact runs_upd hs rfl <| writeBody_runs c addr data rest r (setWrite addr data s) hs rfl

/-! ### The exposed operations and the wire frames -/

theorem probe_implements (c : Config) :
    Implements c sameSeq (.op .probe) (fun x => .outcome x.1 x.2) (probe c) where
  ends := probe_ends (sameSeq_pinClosed c) fun _ _ => localRegs.sameSeq
  runs _ hs _ _ :=
    runs_call (busInit_implements c) hs hs rfl fun _ _ hc _ =>
    runs_call (readBlock_implements c Config.sigAddr 2) hc hc rfl fun _ _ hc _ =>
    runs_upd hc rfl <| runs_last hc rfl

theorem readIdentifier_implements (c : Config) :
    Implements c sameSeq (.op .readIdentifier) (fun x => .identifier x.1 x.2.1 x.2.2) (readIdentifier c) where
  ends := readIdentifier_ends (sameSeq_pinClosed c) fun _ _ => localRegs.sameSeq
  runs _ hs _ _ := by
    refine runs_call (readBlock_implements c Config.idAddr 8) hs hs rfl fun ⟨ok, b⟩ t hc _ => ?_
    cases ok
    · exact runs_updHere <| runs_upd hc rfl <| runs_last hc rfl
    · exact runs_updHere <| runs_upd hc rfl <| runs_last hc rfl

theorem writeIdentifier_implements (c : Config) (text : List Byte) :
    Implements c sameSeq (.op (.writeIdentifier text)) (fun x => .outcome x.1 x.2) (writeIdentifier c text) where
  ends := writeIdentifier_ends (sameSeq_pinClosed c) (fun _ _ => localRegs.sameSeq) text
  runs _ hs _ _ := by
    refine runs_call (writeBlock_implements c Config.sigAddr (by simp)) hs hs rfl fun ok t hc _ => ?_
    cases ok
    · simp only [writeIdField, Bool.false_eq_true, ↓reduceIte, pure_bind]
      exact runs_upd hc rfl <| runs_last hc rfl
    · simp only [writeIdField, ↓reduceIte, bind_assoc, pure_bind]
      exact runs_move hc rfl <|
        runs_call (writeBlock_implements c Config.idAddr (by simp [id8, Config.idLen])) hc hc rfl fun ok _ hc _ =>
        runs_upd hc rfl <| runs_last hc rfl

/-- A wire frame does what the byte operation it calls does (log 26). -/
theorem frame_implements {c : Config} {R : State → State → Prop} {α : Type} {mk : α → Result} {m : Op α} {i j : Instr}
    (hj : Implements c R (.op j) mk m) (hi : ∀ f rest s, lineOp c i f rest s = lineFrame j f rest s) :
    Implements c R (.op i) mk m where
  ends := hj.ends
  runs s hs rest r := by
    rw [← bind_pure m]
    exact runs_call hj hs hs (hi _ _ _) fun x t hc _ => runs_last hc (hi _ _ _)

/-! ### Whole operations -/

/-- What is reached with nothing below the operation is what the operation ends in. -/
theorem Implements.refines {c : Config} {R : State → State → Prop} {α : Type} {mk : α → Result} {m : Op α} {i : Instr}
    (h : Implements c R (.op i) mk m) (hR : ∀ s t, R s t → sameSeq s t) {s t : State} (hs : s.cfg = c)
    (hseq : s.seq = []) (ht : exec i s = .next t) (hm : exec i s = .next (finish mk m s)) :
    ∃ k, seqRun k (issue i s) = t := by
  have hrun := h.runs s hs [] s.result
  obtain rfl : finish mk m s = t := by rw [hm] at ht; cases ht; rfl
  rcases finish_cases mk m s with ⟨a, u, hu, hf⟩ | ⟨e, u, hu, hf⟩
  · have hnil : u.seq = [] := (hR s u ((h.ends s hs).1 a u hu).2).trans hseq
    rw [hu] at hrun
    rw [hf]
    obtain ⟨k, hk⟩ := hrun
    refine ⟨k, hk.trans ?_⟩
    unfold handBack withFrames
    rw [← hnil]
  · rw [hu] at hrun
    rw [hf]
    exact hrun

/-- An operation that answers a next state lies in its domain. -/
theorem exec_next_wellFormed {i : Instr} {s t : State} (h : exec i s = .next t) :
    i.wellFormed = true ∧ i ≠ .reserved15 := by
  cases i with
  | readBlock addr length =>
    by_cases hw : blockLengthOk length.toNat
    · exact ⟨hw, by simp⟩
    · simp [exec, execReadBlock, hw] at h
  | writeBlock addr data =>
    by_cases hw : blockLengthOk data.length
    · exact ⟨hw, by simp⟩
    · simp [exec, execWriteBlock, hw] at h
  | writeIdentifier text =>
    by_cases hw : textOk text
    · exact ⟨hw, by simp⟩
    · simp [exec, execWriteIdentifier, hw] at h
  | reserved15 => cases h
  | _ => exact ⟨rfl, by simp⟩

theorem blockLengthOk_iff (n : Nat) : blockLengthOk n = true ↔ 1 ≤ n ∧ n ≤ 8 := by
  rw [blockLengthOk, Bool.and_eq_true, decide_eq_true_eq, decide_eq_true_eq]
  rfl

/-- Settles O58: each operation's frame implements it, line by line. -/
theorem sequencerRefinesTheOperations : Obligations.SequencerRefinesTheOperations := by
  intro i s t hseq ht
  have hb : ∀ s t, sameBlock s t → sameSeq s t := fun _ _ => sameBlock.sameSeq
  have hr : ∀ s t, sameRegs s t → sameSeq s t := fun _ _ h => h.sameBlock.sameSeq
  obtain ⟨hwf, -⟩ := exec_next_wellFormed ht
  cases i with
  | readInputs => exact (readInputs_implements _).refines hr rfl hseq ht rfl
  | writeOutputs v => exact (writeOutputs_implements _ v).refines hr rfl hseq ht rfl
  | getSDA => exact (getSDA_implements _).refines hr rfl hseq ht rfl
  | setSCL b => exact (setSCL_implements _ b).refines hr rfl hseq ht rfl
  | setSDA b => exact (setSDA_implements _ b).refines hr rfl hseq ht rfl
  | busInit => exact (busInit_implements _).refines hb rfl hseq ht rfl
  | start => exact (start_implements _).refines hb rfl hseq ht rfl
  | stop => exact (stop_implements _).refines hb rfl hseq ht rfl
  | txByte v => exact (txByte_implements _ v).refines hb rfl hseq ht rfl
  | rxByte l => exact (rxByte_implements _ l).refines hb rfl hseq ht rfl
  | readBlock addr length => exact (readBlock_implements _ addr length).refines (fun _ _ => id) rfl hseq ht (if_pos hwf)
  | writeBlock addr data =>
    have hlen : data.length < 16 := by have := ((blockLengthOk_iff _).1 hwf).2; omega
    exact (writeBlock_implements _ addr hlen).refines (fun _ _ => id) rfl hseq ht (if_pos hwf)
  | probe => exact (probe_implements _).refines (fun _ _ => id) rfl hseq ht rfl
  | readIdentifier => exact (readIdentifier_implements _).refines (fun _ _ => id) rfl hseq ht rfl
  | writeIdentifier text => exact (writeIdentifier_implements _ text).refines (fun _ _ => id) rfl hseq ht (if_pos hwf)
  | reserved15 => cases ht
  | devselW h =>
    exact (frame_implements (txByte_implements _ (selectWByte h)) fun _ _ _ => rfl).refines hb rfl hseq ht rfl
  | devselR h =>
    exact (frame_implements (txByte_implements _ (selectRByte h)) fun _ _ _ => rfl).refines hb rfl hseq ht rfl
  | wordAddr a => exact (frame_implements (txByte_implements _ a) fun _ _ _ => rfl).refines hb rfl hseq ht rfl
  | dataFrame f =>
    cases f with
    | sent d => exact (frame_implements (txByte_implements _ d) fun _ _ _ => rfl).refines hb rfl hseq ht rfl
    | received l => exact (frame_implements (rxByte_implements _ l) fun _ _ _ => rfl).refines hb rfl hseq ht rfl

end Sys2Proof.Machine
end

section
/-! The invariant of Safety.lean. What it says of the registers (`regsOk`) and what it says of SEQ are kept apart; the
rules say when a move of the sequencer keeps both, and every line is one of these moves. A whole operation is a run of
lines (`sequencerRefinesTheOperations`), so it needs no proof of its own. -/

namespace Sys2Proof.Machine

/-- The part of the invariant that speaks of the registers and of the attached memory. -/
def regsOk (s : State) : Prop :=
  memOk s.world = true ∧ s.status.toNat ≤ 6 ∧ s.success = (s.status == stOk) ∧ 1 ≤ s.len.toNat ∧ s.len.toNat ≤ 8
    ∧ s.bitcnt.toNat ≤ 8

theorem inv_iff (s : State) : Inv s ↔ regsOk s ∧ stackOk s.seq = true := by
  simp only [Inv, regsOk, and_assoc]

/-! ### Call stacks -/

theorem stackOk_head {f : Frame} {rest : List Frame} (h : stackOk (f :: rest) = true) : frameOk f = true := by
  cases rest with
  | nil => exact h
  | cons g rest =>
    simp only [stackOk, Bool.and_eq_true] at h
    exact h.1.1

theorem stackOk_tail {f : Frame} {rest : List Frame} (h : stackOk (f :: rest) = true) : stackOk rest = true := by
  cases rest with
  | nil => rfl
  | cons g rest =>
    simp only [stackOk, Bool.and_eq_true] at h
    exact h.2

/-- The step and the local boolean of a frame do not matter. -/
theorem stackOk_cons_congr (f : Frame) (line : Nat) (loc : Bool) (rest : List Frame) :
    stackOk ({ f with line := line, loc := loc } :: rest) = stackOk (f :: rest) := by
  cases rest <;> rfl

/-- The rank of an operation there is. -/
theorem rank_le_of_frameOk {f : Frame} (h : frameOk f = true) : rank f.act ≤ 5 := by
  obtain ⟨act, line, loc⟩ := f
  cases act with
  | op i =>
    cases i with
    | reserved15 => simp [frameOk] at h
    | _ => simp [rank]
  | xferOut v => simp [rank]
  | xferIn => simp [rank]

/-- A stack whose running frame has rank `k` has at most `6 - k` frames: each caller is of higher rank. -/
theorem stack_length_add_rank {f : Frame} {rest : List Frame} (h : stackOk (f :: rest) = true) :
    (f :: rest).length + rank f.act ≤ 6 := by
  induction rest generalizing f with
  | nil =>
    have := rank_le_of_frameOk (stackOk_head h)
    simp only [List.length_singleton]
    omega
  | cons g rest ih =>
    have hrest := ih (stackOk_tail h)
    simp only [stackOk, Bool.and_eq_true, decide_eq_true_eq] at h
    rw [List.length_cons]
    omega

/-- Settles O57: ranks rise strictly from the running frame outwards, and none is above 5. -/
theorem callStackHasAtMostSixFrames : Obligations.CallStackHasAtMostSixFrames := by
  intro s hs
  obtain ⟨-, hstack⟩ := (inv_iff s).1 hs
  cases hq : s.seq with
  | nil => simp
  | cons f rest =>
    rw [hq] at hstack
    have := stack_length_add_rank hstack
    omega

/-! ### Moves of the sequencer -/

section Moves

variable {f : Frame} {rest : List Frame} {s : State} (hk : stackOk (f :: rest) = true)
include hk

@[simp] theorem inv_seqNext : Inv (seqNext f rest s) ↔ regsOk s := by
  rw [inv_iff, seqNext_seq, stackOk_cons_congr f _ f.loc]
  exact and_iff_left hk

@[simp] theorem inv_seqGoto (line : Nat) : Inv (seqGoto f rest line s) ↔ regsOk s := by
  rw [inv_iff, seqGoto_seq, stackOk_cons_congr f _ f.loc]
  exact and_iff_left hk

@[simp] theorem inv_seqSetLoc (b : Bool) : Inv (seqSetLoc f rest b s) ↔ regsOk s := by
  rw [inv_iff, seqSetLoc_seq, stackOk_cons_congr]
  exact and_iff_left hk

@[simp] theorem inv_seqReturn (r : Result) : Inv (seqReturn rest r s) ↔ regsOk s := by
  rw [inv_iff, seqReturn_seq]
  exact and_iff_left (stackOk_tail hk)

/-- A call keeps the invariant where the callee is an operation of lower rank with operands in their domain. -/
@[simp] theorem inv_seqCall (a : Activity) :
    Inv (seqCall f rest a s) ↔ regsOk s ∧ frameOk (newFrame a) = true ∧ rank a < rank f.act := by
  rw [inv_iff, seqCall_seq, stackOk, stackOk_cons_congr f _ f.loc, hk, Bool.and_true, Bool.and_eq_true,
    decide_eq_true_eq]
  rfl

end Moves

/-! ### Updates of the registers -/

@[simp] theorem regsOk_setBusStarted (s : State) : regsOk (setBusStarted s) ↔ regsOk s := Iff.rfl
@[simp] theorem regsOk_setBusStopped (s : State) : regsOk (setBusStopped s) ↔ regsOk s := Iff.rfl
@[simp] theorem regsOk_setBusByte (s : State) : regsOk (setBusByte s) ↔ regsOk s := Iff.rfl
@[simp] theorem regsOk_countStart (s : State) : regsOk (countStart s) ↔ regsOk s := Iff.rfl
@[simp] theorem regsOk_countStop (s : State) : regsOk (countStop s) ↔ regsOk s := Iff.rfl
@[simp] theorem regsOk_setAck (b : Bool) (s : State) : regsOk (setAck b s) ↔ regsOk s := Iff.rfl
@[simp] theorem regsOk_delayEffect (us : Nat) (s : State) : regsOk (delayEffect us s) ↔ regsOk s := Iff.rfl
@[simp] theorem regsOk_storeByte (v : Byte) (s : State) : regsOk (storeByte v s) ↔ regsOk s := Iff.rfl
@[simp] theorem regsOk_freeBlkbuf (s : State) : regsOk (freeBlkbuf s) ↔ regsOk s := Iff.rfl
@[simp] theorem regsOk_freeIdbuf (s : State) : regsOk (freeIdbuf s) ↔ regsOk s := Iff.rfl

@[simp] theorem regsOk_latch (v : Byte) (s : State) : regsOk { s with latch := v } ↔ regsOk s := Iff.rfl
@[simp] theorem regsOk_bus (b : BusState) (s : State) : regsOk { s with bus := b } ↔ regsOk s := Iff.rfl
@[simp] theorem regsOk_cnt (n : Nibble) (s : State) : regsOk { s with cnt := n } ↔ regsOk s := Iff.rfl
@[simp] theorem regsOk_idbuf (v : Vector Byte 9) (s : State) : regsOk { s with idbuf := v } ↔ regsOk s := Iff.rfl

theorem regsOk.setOutcome {s : State} (h : regsOk s) {code : Nibble} (hc : code.toNat ≤ 6) :
    regsOk (setOutcome code s) := by
  obtain ⟨hmem, -, -, hlen, hlen', hbit⟩ := h
  exact ⟨hmem, hc, rfl, hlen, hlen', hbit⟩

theorem regsOk.setBitcnt {s : State} (h : regsOk s) (v : Byte) {n : Nibble} (hn : n.toNat ≤ 8) :
    regsOk { s with shift := v, bitcnt := n } := by
  obtain ⟨hmem, hstatus, hsuccess, hlen, hlen', -⟩ := h
  exact ⟨hmem, hstatus, hsuccess, hlen, hlen', hn⟩

/-- BITCNT counts down from where it is. -/
theorem regsOk.bitcnt_pred {s : State} (h : regsOk s) :
    (BitVec.ofNat 4 (s.bitcnt.toNat - 1) : Nibble).toNat ≤ 8 := by
  obtain ⟨-, -, -, -, -, hbit⟩ := h
  simp
  omega

theorem regsOk.shiftOut {s : State} (h : regsOk s) : regsOk (shiftOut (s.bitcnt.toNat - 1) s) :=
  h.setBitcnt _ h.bitcnt_pred

theorem regsOk.shiftIn {s : State} (h : regsOk s) (b : Bool) : regsOk (shiftIn b (s.bitcnt.toNat - 1) s) :=
  h.setBitcnt _ h.bitcnt_pred

theorem regsOk.setBlock {s : State} (h : regsOk s) (addr : Addr) {n : Nibble} (hn : blockLengthOk n.toNat = true) :
    regsOk (setBlock addr n s) := by
  obtain ⟨hmem, hstatus, hsuccess, -, -, hbit⟩ := h
  obtain ⟨hn1, hn8⟩ := (blockLengthOk_iff _).1 hn
  exact ⟨hmem, hstatus, hsuccess, hn1, hn8, hbit⟩

theorem regsOk.setWrite {s : State} (h : regsOk s) (addr : Addr) {data : List Byte}
    (hd : blockLengthOk data.length = true) : regsOk (setWrite addr data s) := by
  obtain ⟨hd1, hd8⟩ := (blockLengthOk_iff _).1 hd
  have hlen : (BitVec.ofNat 4 data.length : Nibble).toNat = data.length := by simp; omega
  exact h.setBlock addr (by rw [hlen, hd])

/-- TransportFatal sets the result registers and leaves free values in the ranges of R20 (60_exceptions.md R224). -/
theorem regsOk_fatalEntry {s : State} (h : memOk s.world = true) : regsOk (fatalEntry s) := by
  have hl := (Config.freeRegs s.fresh).lenLess1.isLt
  have hb := (Config.freeRegs s.fresh).bitcnt.isLt
  refine ⟨h, Nat.le_refl 6, rfl, ?_, ?_, ?_⟩
  · simp; omega
  · simp; omega
  · simp; omega

theorem inv_fatalEntry {s : State} (h : regsOk s) : Inv (fatalEntry s) :=
  (inv_iff _).2 ⟨regsOk_fatalEntry h.1, rfl⟩

/-! ### Transfers -/

theorem memOk_worldPins (c : Config) (now : Nat) (old new : Byte) {w : World} (h : memOk w = true) :
    memOk (worldPins c now old new w) = true := by
  cases w with
  | unspecified => rfl
  | absent lines => rfl
  | reference lines e => exact eepromPins_wf _ _ _ _ _ e h

theorem regsOk_nextReply (input : Bool) {s : State} (h : regsOk s) : regsOk (nextReply input s).2 := by
  obtain ⟨n, hn⟩ := nextReply_spec input s
  rw [hn]
  exact h

theorem regsOk_outEffect (v : BitVec 16) (r : Reply) {s : State} (h : regsOk s) : regsOk (outEffect v r s) := by
  obtain ⟨hmem, hregs⟩ := h
  refine ⟨?_, by simpa using hregs⟩
  rcases outEffect_drive_or v r s with ⟨-, hw⟩ | ⟨-, -, -, hw⟩ <;> rw [hw]
  · exact memOk_worldPins _ _ _ _ hmem
  · exact hmem

/-! ### Lines

Each line of an operation is one move, so a line lemma splits on the line number and leaves three things to `simp`: the
move's rule, the update of the registers on that line, and for a call the ranks of caller and callee. -/

section Lines

variable {f : Frame} {rest : List Frame} {s : State} (hk : stackOk (f :: rest) = true) (hs : regsOk s)
include hk hs

theorem lineReadInputs_inv (hf : f.act = .op .readInputs) : Inv (lineReadInputs f rest s) := by
  unfold lineReadInputs
  split <;> simp [hk, hs, hf, inv_seqReturn hk, inv_fatalEntry hs, apply_ite Inv, frameOk, newFrame, rank]

theorem lineWriteOutputs_inv (v : Byte) (hf : f.act = .op (.writeOutputs v)) : Inv (lineWriteOutputs v f rest s) := by
  unfold lineWriteOutputs
  split <;> simp [hk, hs, hf, inv_seqReturn hk, inv_fatalEntry hs, apply_ite Inv, frameOk, newFrame, rank]

theorem lineGetSDA_inv (c : Config) (hf : f.act = .op .getSDA) : Inv (lineGetSDA c f rest s) := by
  unfold lineGetSDA
  split <;> simp [hk, hs, hf, inv_seqReturn hk, frameOk, newFrame, Instr.wellFormed, rank]

/-- Both setters have rank 2. -/
theorem lineSetPin_inv (mask : Byte) (b : Bool) (hf : rank f.act = 2) : Inv (lineSetPin mask b f rest s) := by
  unfold lineSetPin
  split
  · exact (inv_seqCall hk _).2 ⟨hs, rfl, by rw [hf]; exact Nat.lt_succ_self 1⟩
  · exact (inv_seqReturn hk _).2 hs

theorem lineBusInit_inv (hf : f.act = .op .busInit) : Inv (lineBusInit f rest s) := by
  unfold lineBusInit
  split <;> simp [hk, hs, hf, inv_seqReturn hk, frameOk, newFrame, Instr.wellFormed, rank]

theorem lineStart_inv (hf : f.act = .op .start) : Inv (lineStart f rest s) := by
  unfold lineStart
  split <;> simp [hk, hs, hf, inv_seqReturn hk, frameOk, newFrame, Instr.wellFormed, rank]

theorem lineStop_inv (hf : f.act = .op .stop) : Inv (lineStop f rest s) := by
  unfold lineStop
  split <;> simp [hk, hs, hf, inv_seqReturn hk, frameOk, newFrame, Instr.wellFormed, rank]

theorem lineTxByte_inv (v : Byte) (hf : f.act = .op (.txByte v)) : Inv (lineTxByte v f rest s) := by
  have hload : regsOk { s with shift := v, bitcnt := 8#4 } := hs.setBitcnt v (Nat.le_refl 8)
  unfold lineTxByte
  split <;> simp [hk, hs, hf, hload, hs.shiftOut, inv_seqReturn hk, apply_ite Inv, frameOk, newFrame,
    Instr.wellFormed, rank]

theorem lineRxByte_inv (l : Bool) (hf : f.act = .op (.rxByte l)) : Inv (lineRxByte l f rest s) := by
  have hload : regsOk { s with shift := 0#8, bitcnt := 8#4 } := hs.setBitcnt 0 (Nat.le_refl 8)
  unfold lineRxByte
  split <;> simp [hk, hs, hf, hload, hs.shiftIn, inv_seqReturn hk, apply_ite Inv, frameOk, newFrame,
    Instr.wellFormed, rank]

theorem lineReadBlock_inv (addr : Addr) (length : Nibble) (hf : f.act = .op (.readBlock addr length))
    (hw : blockLengthOk length.toNat = true) : Inv (lineReadBlock addr length f rest s) := by
  unfold lineReadBlock
  split <;> simp [hk, hs, hf, hs.setBlock addr hw, inv_seqReturn hk, apply_ite Inv, apply_ite regsOk, frameOk,
    newFrame, Instr.wellFormed, rank]

theorem lineWriteBlock_inv (addr : Addr) (data : List Byte) (hf : f.act = .op (.writeBlock addr data))
    (hw : blockLengthOk data.length = true) : Inv (lineWriteBlock addr data f rest s) := by
  unfold lineWriteBlock
  split <;> simp [hk, hs, hf, hs.setWrite addr hw, inv_seqReturn hk, apply_ite Inv, frameOk, newFrame,
    Instr.wellFormed, rank]

theorem lineProbe_inv (c : Config) (hf : f.act = .op .probe) : Inv (lineProbe c f rest s) := by
  have hcode : ∀ ok b, (probeCode c ok b).toNat ≤ 6 := by
    intro ok b
    unfold probeCode
    repeat' split
    all_goals decide
  unfold lineProbe
  split <;> simp [hk, hs, hf, hs.setOutcome (hcode _ _), inv_seqReturn hk, frameOk, newFrame, Instr.wellFormed,
    blockLengthOk, Config.blockMax, rank]

theorem lineReadIdentifier_inv (hf : f.act = .op .readIdentifier) : Inv (lineReadIdentifier f rest s) := by
  have hok : ∀ v, regsOk (setOutcome stOk { s with idbuf := v }) := fun v =>
    ((regsOk_idbuf v s).2 hs).setOutcome (by decide)
  have hnoAck : regsOk (setOutcome stNoAck (freeIdbuf s)) := ((regsOk_freeIdbuf s).2 hs).setOutcome (by decide)
  unfold lineReadIdentifier
  split <;> simp [hk, hs, hf, hok, hnoAck, inv_seqReturn hk, apply_ite Inv, frameOk, newFrame, Instr.wellFormed,
    blockLengthOk, Config.blockMax, rank]

theorem lineWriteIdentifier_inv (c : Config) (text : List Byte) (hf : f.act = .op (.writeIdentifier text)) :
    Inv (lineWriteIdentifier c text f rest s) := by
  have hsig : regsOk (setOutcome stWriteSigFailed s) := hs.setOutcome (by decide)
  have hid : ∀ ok : Bool, regsOk (setOutcome (if ok then stOk else stWriteIdFailed) s) := fun ok =>
    hs.setOutcome (by cases ok <;> decide)
  unfold lineWriteIdentifier
  split <;> simp [hk, hs, hf, hsig, hid, inv_seqReturn hk, apply_ite Inv, frameOk, newFrame, Instr.wellFormed,
    blockLengthOk, Config.blockMax, id8, Config.idLen, rank]

/-- The frames of the wire bytes have rank 4, the byte operation they call has rank 3. -/
theorem lineFrame_inv {i : Instr} (hi : frameOk (newFrame (.op i)) = true) (hr : rank (.op i) = 3)
    (hf : rank f.act = 4) : Inv (lineFrame i f rest s) := by
  unfold lineFrame
  split
  · exact (inv_seqCall hk _).2 ⟨hs, hi, by rw [hr, hf]; exact Nat.lt_succ_self 3⟩
  · exact (inv_seqReturn hk _).2 hs

theorem lineOp_inv (c : Config) {i : Instr} (hf : f.act = .op i) : Inv (lineOp c i f rest s) := by
  have hok := stackOk_head hk
  simp only [frameOk, hf, Bool.and_eq_true] at hok
  obtain ⟨hw, hne⟩ := hok
  cases i with
  | readInputs => exact lineReadInputs_inv hk hs hf
  | writeOutputs v => exact lineWriteOutputs_inv hk hs v hf
  | getSDA => exact lineGetSDA_inv hk hs c hf
  | setSCL b => exact lineSetPin_inv hk hs _ b (congrArg rank hf)
  | setSDA b => exact lineSetPin_inv hk hs _ b (congrArg rank hf)
  | busInit => exact lineBusInit_inv hk hs hf
  | start => exact lineStart_inv hk hs hf
  | stop => exact lineStop_inv hk hs hf
  | txByte v => exact lineTxByte_inv hk hs v hf
  | rxByte l => exact lineRxByte_inv hk hs l hf
  | readBlock addr length => exact lineReadBlock_inv hk hs addr length hf hw
  | writeBlock addr data => exact lineWriteBlock_inv hk hs addr data hf hw
  | probe => exact lineProbe_inv hk hs c hf
  | readIdentifier => exact lineReadIdentifier_inv hk hs hf
  | writeIdentifier text => exact lineWriteIdentifier_inv hk hs c text hf
  | reserved15 => simp at hne
  | devselW h => exact lineFrame_inv hk hs rfl rfl (congrArg rank hf)
  | devselR h => exact lineFrame_inv hk hs rfl rfl (congrArg rank hf)
  | wordAddr a => exact lineFrame_inv hk hs rfl rfl (congrArg rank hf)
  | dataFrame d =>
    cases d with
    | sent d => exact lineFrame_inv hk hs rfl rfl (congrArg rank hf)
    | received l => exact lineFrame_inv hk hs rfl rfl (congrArg rank hf)

theorem seqLine_inv : Inv (seqLine f rest s) := by
  obtain ⟨act, line, loc⟩ := f
  cases act with
  | op i => exact lineOp_inv hk hs s.cfg rfl
  | xferOut v =>
    rw [seqLine_xferOut, inv_seqReturn hk]
    exact regsOk_outEffect _ _ (regsOk_nextReply false hs)
  | xferIn =>
    rw [seqLine_xferIn, inv_seqReturn hk]
    exact regsOk_nextReply true hs

end Lines

/-! ### Steps -/

theorem seqStep_inv {s : State} (h : Inv s) : Inv (seqStep s) := by
  cases hq : s.seq with
  | nil => rwa [show seqStep s = s from seqRun_idle 1 hq]
  | cons f rest =>
    obtain ⟨hregs, hstack⟩ := (inv_iff s).1 h
    rw [seqStep_cons hq]
    exact seqLine_inv (hq ▸ hstack) hregs

theorem seqRun_inv (k : Nat) {s : State} (h : Inv s) : Inv (seqRun k s) := by
  induction k generalizing s with
  | zero => exact h
  | succ k ih => exact ih (seqStep_inv h)

/-- An operation taken up is a legal stack of one frame, and its lines lead to where the operation ends. -/
theorem exec_inv {i : Instr} {s t : State} (hseq : s.seq = []) (hs : regsOk s) (h : exec i s = .next t) : Inv t := by
  obtain ⟨k, rfl⟩ := sequencerRefinesTheOperations i s t hseq h
  obtain ⟨hwf, hne⟩ := exec_next_wellFormed h
  exact seqRun_inv k ((inv_iff _).2 ⟨hs, by simp [stackOk, frameOk, newFrame, hwf, hne]⟩)

/-- A step runs a line, or a whole operation taken off one of the two queues; a block with nothing to do runs the
empty line. -/
theorem step_cases {s t : State} (h : step s = .next t) :
    t = seqStep s ∨ s.seq = [] ∧ ∃ i calls port, exec i { s with calls := calls, port := port } = .next t := by
  unfold step at h
  split at h
  next => cases h; exact .inl rfl
  next hseq =>
    split at h
    next p rest _ =>
      unfold runPacket at h
      split at h
      next i _ => exact .inr ⟨hseq, i, rest, s.port, h⟩
      next => cases h
    next =>
      split at h
      next op rest _ => exact .inr ⟨hseq, op.instr, s.calls, rest, h⟩
      next => cases h; exact .inl (seqRun_idle 1 hseq).symm

/-- Settles O56: a line keeps the invariant, and an operation is a run of lines. -/
theorem everyStepKeepsTheInvariant : Obligations.EveryStepKeepsTheInvariant := by
  intro s t hs h
  rcases step_cases h with rfl | ⟨hseq, i, calls, port, hexec⟩
  · exact seqStep_inv hs
  · exact exec_inv (s := { s with calls := calls, port := port }) hseq ((inv_iff s).1 hs).1 hexec

end Sys2Proof.Machine
end

section
/-! How the exposed operations end, whatever the world answers: abandoned, in the state of 60_exceptions.md R224, or
with a code of their own (R237) and, since a block operation ends in `stop`, with both lines released. `Meets` is the
rule form: what holds before a piece, and what then holds after it if it ends. -/

namespace Sys2Proof.Machine

/-! ### Before and after a piece of an operation -/

/-- What TransportFatal leaves in BUS and in the result registers (60_exceptions.md R224). -/
def fatalMarks (t : State) : Prop :=
  t.bus = .unknown ∧ t.status = stTransportFatal ∧ t.success = false ∧ t.result = .fatal

theorem fatalMarks_fatalEntry (s : State) : fatalMarks (fatalEntry s) := ⟨rfl, rfl, rfl, rfl⟩

/-- Every abandoned piece leaves the marks; of one that ends nothing is said. -/
theorem fatalMarks_pinClosed (c : Config) : PinClosed c (fun _ _ => True) (fun _ t => fatalMarks t) where
  refl _ := trivial
  trans _ _ _ _ _ := trivial
  transE _ _ _ _ h := h
  delay _ _ := trivial
  pin _ _ _ _ _ _ := trivial
  pinFatal _ _ _ _ _ _ := fatalMarks_fatalEntry _
  read _ _ _ := trivial
  readFatal _ _ _ := fatalMarks_fatalEntry _

/-- From a state with `P`, `m` is abandoned with the marks, or ends with a value and a state for which `Q` holds. -/
def Meets (c : Config) {α : Type} (P : State → Prop) (m : Op α) (Q : α → State → Prop) : Prop :=
  ∀ s : State, s.cfg = c → P s →
    (∀ a t, m s = .ok a t → t.cfg = c ∧ Q a t) ∧ ∀ e t, m s = .error e t → fatalMarks t

section Rules

variable {c : Config} {α β : Type} {P : State → Prop}

theorem meets_bind {Q : α → State → Prop} {R : β → State → Prop} {m : Op α} {f : α → Op β} (hm : Meets c P m Q)
    (hf : ∀ a, Meets c (Q a) (f a) R) : Meets c P (m >>= f) R := by
  intro s hs hP
  constructor
  · intro b u h
    obtain ⟨a, t, h1, h2⟩ := op_bind_eq_ok.1 h
    obtain ⟨hc, hQ⟩ := (hm s hs hP).1 a t h1
    exact (hf a t hc hQ).1 b u h2
  · intro e u h
    rcases op_bind_eq_error.1 h with h1 | ⟨a, t, h1, h2⟩
    · exact (hm s hs hP).2 e u h1
    · obtain ⟨hc, hQ⟩ := (hm s hs hP).1 a t h1
      exact (hf a t hc hQ).2 e u h2

theorem meets_of_ends {m : Op α} (hm : Ends c (fun _ _ => True) (fun _ t => fatalMarks t) m) :
    Meets c P m (fun _ _ => True) :=
  fun s hs _ => ⟨(hm s hs).1, fun e t h => ((hm s hs).2 e t h).2⟩

theorem meets_upd {Q : Unit → State → Prop} {f : State → State}
    (hf : ∀ s, P s → (f s).cfg = s.cfg ∧ Q () (f s)) : Meets c P (upd f) Q := by
  intro s hs hP
  constructor
  · intro a t h
    cases h
    exact ⟨(hf s hP).1.trans hs, (hf s hP).2⟩
  · intro e t h
    cases h

theorem meets_pure {Q : α → State → Prop} (a : α) (h : ∀ s, P s → Q a s) : Meets c P (pure a : Op α) Q := by
  intro s hs hP
  constructor
  · intro b t hb
    cases hb
    exact ⟨hs, h s hP⟩
  · intro e t he
    cases he

/-- An operation that only reads its results at the end. -/
theorem meets_peek_pure (g : State → α) : Meets c P (peek >>= fun s => pure (g s)) (fun _ t => P t) := by
  intro s hs hP
  constructor
  · intro a t h
    cases h
    exact ⟨hs, hP⟩
  · intro e t h
    cases h

end Rules

/-! ### A stop releases both lines -/

theorem setPin_latch {mask : Byte} {b : Bool} {s t : State} {a : Unit} (h : setPin mask b s = .ok a t) :
    t.latch = withBit mask s.latch b := by
  obtain ⟨n, hn⟩ := nextReply_spec false { s with latch := withBit mask s.latch b }
  rw [setPin_run, writeOutputs_run, hn] at h
  split at h
  next hw =>
    split at hw
    · cases hw
    · cases h
      cases hw
      simp
  next => cases h

/-- The latch after `stop`, whatever it was (R153). -/
theorem stop_latch {c : Config} {s t : State} {a : Unit} (h : stop c s = .ok a t) :
    t.latch = withBit (sdaMask c) (withBit (sclMask c) (withBit (sdaMask c) s.latch false) true) true := by
  obtain ⟨_, s1, hlow, h⟩ := op_bind_eq_ok.1 (show (setSDA c false >>= _) (countStop s) = _ from h)
  obtain ⟨_, s2, hscl, h⟩ := op_bind_eq_ok.1 h
  obtain ⟨_, s3, hhigh, h⟩ := op_bind_eq_ok.1 h
  obtain rfl : setBusStopped s3 = t := (EStateM.Result.ok.inj h).2
  rw [setBusStopped_latch, setPin_latch hhigh, setPin_latch hscl, setPin_latch hlow, countStop_latch]

theorem stop_releases {c : Config} {P : State → Prop} : Meets c P (stop c) (fun _ t => released t) := by
  have hends := stop_ends (fatalMarks_pinClosed c) fun _ _ _ => trivial
  intro s hs hP
  refine ⟨fun a t h => ?_, (meets_of_ends hends s hs hP).2⟩
  obtain ⟨hc, -⟩ := (hends s hs).1 a t h
  exact ⟨hc, by simp [released, hc, stop_latch h]⟩

theorem readTail_releases {c : Config} {P : State → Prop} (ok : Bool) :
    Meets c P (readTail c ok) (fun _ t => released t) :=
  meets_bind stop_releases fun _ =>
  meets_bind (Q := fun _ => released) (meets_upd fun s h => by cases ok <;> exact ⟨rfl, h⟩) fun _ => meets_peek_pure _

theorem readBlock_releases {c : Config} {P : State → Prop} (addr : Addr) (length : Nibble) :
    Meets c P (readBlock c addr length) (fun _ t => released t) := by
  rw [readBlock_eq]
  exact meets_bind (Q := fun _ _ => True) (meets_upd fun _ _ => ⟨rfl, trivial⟩) fun _ =>
    meets_bind (meets_of_ends (readBody_ends (fatalMarks_pinClosed c) (fun _ _ _ => trivial) addr length))
      readTail_releases

theorem writeBody_ends {c : Config} {R E : State → State → Prop} (hp : PinClosed c R E)
    (hl : ∀ s t, localRegs s t → R s t) (addr : Addr) (n : Nat) : Ends c R E (writeBody c addr n) := by
  have hb : ∀ s t, localBus s t → R s t := fun s t h => hl s t h.regs
  have haddressed : Ends c R E (writeAddressed c addr n) :=
    ends_bind hp (txByte_ends hp hb _) fun _ => ends_ite
      (ends_bind hp (ends_updRegs hl fun s => localRegs_refl s) fun _ => writeBytes_ends hp hl _) (ends_pure hp _)
  exact ends_bind hp (start_ends hp hb) fun _ => ends_bind hp (txByte_ends hp hb _) fun _ =>
    ends_ite haddressed (ends_pure hp _)

theorem writeBlock_releases {c : Config} {P : State → Prop} (addr : Addr) (data : List Byte) :
    Meets c P (writeBlock c addr data) (fun _ t => released t) :=
  meets_bind (Q := fun _ _ => True) (meets_upd fun _ _ => ⟨rfl, trivial⟩) fun _ =>
  meets_bind (meets_of_ends (writeBody_ends (fatalMarks_pinClosed c) (fun _ _ _ => trivial) addr data.length)) fun ok =>
  meets_bind stop_releases fun _ =>
  meets_bind (Q := fun _ => released) (meets_upd fun _ h => ⟨rfl, h⟩) fun _ => meets_pure ok fun _ h => h

/-! ### Codes -/

/-- The codes an exposed operation reports when no transfer fails (60_exceptions.md R237). -/
def codesOf : Instr → List Nibble
  | .probe => [stOk, stNoEeprom, stBadSignature]
  | .readIdentifier => [stOk, stNoAck]
  | .writeIdentifier _ => [stOk, stWriteSigFailed, stWriteIdFailed]
  | _ => []

theorem codesOf_ne_fatal {i : Instr} {code : Nibble} (h : code ∈ codesOf i) : code ≠ stTransportFatal := by
  rintro rfl
  cases i <;> simp [codesOf, stTransportFatal, stOk, stNoEeprom, stBadSignature, stNoAck, stWriteSigFailed,
    stWriteIdFailed] at h

/-- An exposed operation has ended: its code is one of `codes`, SUCCESS goes with it, the lines are released. -/
def reported (codes : List Nibble) (t : State) : Prop :=
  released t ∧ t.success = (t.status == stOk) ∧ t.status ∈ codes

theorem meets_setOutcome {c : Config} {code : Nibble} {codes : List Nibble} (h : code ∈ codes) :
    Meets c released (upd (setOutcome code)) (fun _ t => reported codes t) :=
  meets_upd fun _ hr => ⟨rfl, hr, rfl, h⟩

theorem probeCode_mem (c : Config) (ok : Bool) (b : List Byte) : probeCode c ok b ∈ codesOf .probe := by
  unfold probeCode
  repeat' split
  all_goals decide

theorem probe_reports (c : Config) :
    Meets c (fun _ => True) (probe c) (fun _ t => reported (codesOf .probe) t) :=
  meets_bind (meets_of_ends (busInit_ends (fatalMarks_pinClosed c) fun _ _ _ => trivial)) fun _ =>
  meets_bind (readBlock_releases _ _) fun _ =>
  meets_bind (meets_setOutcome (probeCode_mem c _ _)) fun _ => meets_peek_pure _

theorem readIdentifier_reports (c : Config) :
    Meets c (fun _ => True) (readIdentifier c) (fun _ t => reported (codesOf .readIdentifier) t) := by
  refine meets_bind (readBlock_releases _ _) fun ⟨ok, b⟩ => ?_
  refine meets_bind (Q := fun _ => released) (meets_upd fun s h => by cases ok <;> exact ⟨rfl, h⟩) fun _ => ?_
  exact meets_bind (meets_setOutcome (by cases ok <;> decide)) fun _ => meets_peek_pure _

theorem writeIdField_reports (c : Config) (text : List Byte) (signed : Bool) :
    Meets c released (writeIdField c text signed)
      (fun code t => released t ∧ code ∈ codesOf (.writeIdentifier text)) := by
  cases signed with
  | false => exact meets_pure _ fun _ h => ⟨h, by simp [codesOf]⟩
  | true =>
    exact meets_bind (writeBlock_releases _ _) fun ok => meets_pure _ fun _ h => ⟨h, by cases ok <;> simp [codesOf]⟩

theorem writeIdentifier_reports (c : Config) (text : List Byte) :
    Meets c (fun _ => True) (writeIdentifier c text) (fun _ t => reported (codesOf (.writeIdentifier text)) t) :=
  meets_bind (writeBlock_releases _ _) fun signed =>
  meets_bind (writeIdField_reports c text signed) fun _ =>
  meets_bind (meets_upd fun _ ⟨hr, hcode⟩ => ⟨rfl, hr, rfl, hcode⟩) fun _ => meets_peek_pure _

theorem finish_reports {α : Type} {mk : α → Result} {m : Op α} {codes : List Nibble} {s : State}
    (hm : Meets s.cfg (fun _ => True) m (fun _ t => reported codes t)) (hmk : ∀ a, mk a ≠ .fatal) :
    reported codes (finish mk m s) ∧ (finish mk m s).result ≠ .fatal ∨ fatalMarks (finish mk m s) := by
  rcases finish_cases mk m s with ⟨a, t, h, hf⟩ | ⟨e, t, h, hf⟩
  · rw [hf]
    exact .inl ⟨((hm s rfl trivial).1 a t h).2, hmk a⟩
  · rw [hf]
    exact .inr ((hm s rfl trivial).2 e t h)

/-- The two ways an exposed operation ends. -/
theorem exec_exposed_cases {i : Instr} {s t : State} (hi : i.exposed = true) (h : exec i s = .next t) :
    reported (codesOf i) t ∧ t.result ≠ .fatal ∨ fatalMarks t := by
  obtain ⟨hwf, -⟩ := exec_next_wellFormed h
  cases i with
  | probe =>
    cases h
    exact finish_reports (probe_reports _) (by simp)
  | readIdentifier =>
    cases h
    exact finish_reports (readIdentifier_reports _) (by simp)
  | writeIdentifier text =>
    obtain rfl : finish _ _ s = t := Host.Outcome.next.inj ((if_pos hwf).symm.trans h)
    exact finish_reports (writeIdentifier_reports _ text) (by simp)
  | _ => cases hi

/-- Settles O35: an exposed operation ends with one of its codes or with the marks of TransportFatal. -/
theorem exposedOperationsReportTheirCodes : Obligations.ExposedOperationsReportTheirCodes := by
  intro i s t hi h
  rcases exec_exposed_cases hi h with ⟨⟨-, hsuccess, hcode⟩, hresult⟩ | ⟨-, hstatus, hsuccess, hresult⟩
  · refine ⟨hsuccess, ?_, ?_, ?_, iff_of_false (codesOf_ne_fatal hcode) hresult⟩
    · rintro rfl
      simp only [codesOf, List.mem_cons, List.not_mem_nil, or_false] at hcode
      exact hcode.imp_right (.imp_right .inl)
    · rintro rfl
      simp only [codesOf, List.mem_cons, List.not_mem_nil, or_false] at hcode
      exact hcode.imp_right .inl
    · rintro text rfl
      simp only [codesOf, List.mem_cons, List.not_mem_nil, or_false] at hcode
      exact hcode.imp_right (.imp_right .inl)
  · refine ⟨?_, ?_, ?_, ?_, iff_of_true hstatus hresult⟩
    · rw [hsuccess, hstatus]
      rfl
    · exact fun _ => .inr (.inr (.inr hstatus))
    · exact fun _ => .inr (.inr hstatus)
    · exact fun _ _ => .inr (.inr (.inr hstatus))

/-- Settles O38: an exposed operation that ends has just released both lines in a `stop`; one that TransportFatal ends
leaves BUS UNKNOWN. -/
theorem idleMeansReleasedForTheHost : Obligations.IdleMeansReleasedForTheHost := by
  intro i s t hi _ h hidle
  rcases exec_exposed_cases hi h with ⟨⟨hreleased, -⟩, -⟩ | ⟨hbus, -⟩
  · exact hreleased
  · rw [hbus] at hidle
    cases hidle

end Sys2Proof.Machine
end

section
/-! What a piece of an operation does whatever the world answers: `Spec` says what holds where it ends and what holds
where TransportFatal abandons it. After the rules of composition, the pins with all they do to bridge and world. -/

namespace Sys2Proof.Machine

/-! ### The rules -/

/-- From a state with `P`, `m` ends with a value and a state for which `Q` holds, or is abandoned in `E`. -/
def Spec (c : Config) {α : Type} (P : State → Prop) (m : Op α) (Q : α → State → Prop) (E : State → Prop) : Prop :=
  ∀ s : State, s.cfg = c → P s →
    (∀ a t, m s = .ok a t → t.cfg = c ∧ Q a t) ∧ ∀ e t, m s = .error e t → E t

section Rules

variable {c : Config} {α β : Type} {P : State → Prop} {E : State → Prop}

theorem spec_bind {Q : α → State → Prop} {R : β → State → Prop} {m : Op α} {f : α → Op β} (hm : Spec c P m Q E)
    (hf : ∀ a, Spec c (Q a) (f a) R E) : Spec c P (m >>= f) R E := by
  intro s hs hP
  constructor
  · intro b u h
    obtain ⟨a, t, h1, h2⟩ := op_bind_eq_ok.1 h
    obtain ⟨hc, hQ⟩ := (hm s hs hP).1 a t h1
    exact (hf a t hc hQ).1 b u h2
  · intro e u h
    rcases op_bind_eq_error.1 h with h1 | ⟨a, t, h1, h2⟩
    · exact (hm s hs hP).2 e u h1
    · obtain ⟨hc, hQ⟩ := (hm s hs hP).1 a t h1
      exact (hf a t hc hQ).2 e u h2

theorem spec_mono {P' : State → Prop} {Q Q' : α → State → Prop} {E' : State → Prop} {m : Op α}
    (hm : Spec c P m Q E) (hP : ∀ s, P' s → P s) (hQ : ∀ a t, Q a t → Q' a t) (hE : ∀ t, E t → E' t) :
    Spec c P' m Q' E' := fun s hs h =>
  ⟨fun a t ht => ((hm s hs (hP s h)).1 a t ht).imp_right (hQ a t), fun e t ht => hE t ((hm s hs (hP s h)).2 e t ht)⟩

theorem spec_pre {P' : State → Prop} {Q : α → State → Prop} {m : Op α} (hm : Spec c P m Q E)
    (hP : ∀ s, P' s → P s) : Spec c P' m Q E := spec_mono hm hP (fun _ _ h => h) fun _ h => h

theorem spec_post {Q Q' : α → State → Prop} {m : Op α} (hm : Spec c P m Q E) (hQ : ∀ a t, Q a t → Q' a t) :
    Spec c P m Q' E := spec_mono hm (fun _ h => h) hQ fun _ h => h

/-- A precondition that names an unknown is met for each of its values. -/
theorem spec_exists {ι : Sort*} {P : ι → State → Prop} {Q : α → State → Prop} {m : Op α}
    (h : ∀ x, Spec c (P x) m Q E) : Spec c (fun s => ∃ x, P x s) m Q E :=
  fun s hs ⟨x, hx⟩ => h x s hs hx

/-- A part of the precondition that does not speak of the state is a hypothesis. -/
theorem spec_of_fact {p : Prop} {Q : α → State → Prop} {m : Op α} (h : p → Spec c P m Q E) :
    Spec c (fun s => p ∧ P s) m Q E := fun s hs ⟨hp, hP⟩ => h hp s hs hP

theorem spec_upd {Q : Unit → State → Prop} {f : State → State} (hf : ∀ s, P s → (f s).cfg = s.cfg ∧ Q () (f s)) :
    Spec c P (upd f) Q E := by
  intro s hs hP
  constructor
  · intro a t h
    cases h
    exact ⟨(hf s hP).1.trans hs, (hf s hP).2⟩
  · intro e t h
    cases h

theorem spec_pure {Q : α → State → Prop} (a : α) (h : ∀ s, P s → Q a s) : Spec c P (pure a : Op α) Q E := by
  intro s hs hP
  constructor
  · intro b t hb
    cases hb
    exact ⟨hs, h s hP⟩
  · intro e t he
    cases he

/-- A read of the state: what follows starts there, and knows the value it read. -/
theorem spec_peek {Q : α → State → Prop} {g : State → Op α} (h : ∀ v, P v → Spec c (fun s => s = v) (g v) Q E) :
    Spec c P (peek >>= g) Q E := fun s hs hP => h s hP s hs rfl

/-- What `Ends` says of a piece, kept beside a `Spec` of it. -/
theorem spec_frame {R F : State → State → Prop} {I : State → Prop} {Q : α → State → Prop} {m : Op α}
    (hm : Spec c P m Q E) (hends : Ends c R F m) (hI : ∀ s t, R s t → I s → I t) :
    Spec c (fun s => P s ∧ I s) m (fun a t => Q a t ∧ I t) E := fun s hs ⟨hP, h⟩ =>
  ⟨fun a t ht => ⟨((hm s hs hP).1 a t ht).1, ((hm s hs hP).1 a t ht).2, hI s t ((hends s hs).1 a t ht).2 h⟩,
    (hm s hs hP).2⟩

/-- `Ends` as a `Spec`, for a property that the relation of ended pieces keeps. -/
theorem spec_of_ends {R F : State → State → Prop} {Q : State → Prop} {m : Op α} (hends : Ends c R F m)
    (hQ : ∀ s t, P s → R s t → Q t) (hE : ∀ s t, P s → F s t → E t) : Spec c P m (fun _ => Q) E := fun s hs hP =>
  ⟨fun a t ht => ⟨((hends s hs).1 a t ht).1, hQ s t hP ((hends s hs).1 a t ht).2⟩,
    fun e t ht => hE s t hP ((hends s hs).2 e t ht).2⟩

/-- A whole operation. -/
theorem finish_spec {Q : α → State → Prop} {mk : α → Result} {m : Op α} {s : State} (hm : Spec s.cfg P m Q E)
    (hP : P s) :
    (∃ a t, Q a t ∧ finish mk m s = { t with result := mk a }) ∨ E (finish mk m s) := by
  rcases finish_cases mk m s with ⟨a, t, h, hf⟩ | ⟨e, t, h, hf⟩
  · exact .inl ⟨a, t, ((hm s rfl hP).1 a t h).2, hf⟩
  · exact .inr (hf ▸ (hm s rfl hP).2 e t h)

end Rules

/-! ### The pins, with bridge and world -/

/-- A setter is one output transfer and, where it did not fail, the settling delay. -/
theorem setPin_eq (mask : Byte) (b : Bool) (s : State) :
    setPin mask b s =
      if outFails (pinReply mask b s).1.ret then .error .transportFatal (fatalEntry (pinEffect mask b s))
      else .ok () (delayEffect Config.tSettle (pinEffect mask b s)) := by
  rw [setPin_run, writeOutputs_run]
  unfold pinReply pinEffect pinReply
  split <;> rename_i h <;> split at h <;> cases h
  · rw [if_neg ‹_›]
  · rw [if_pos ‹_›]

/-- The effect of the output transfer of `writeOutputs`; a setter's is that of the value it writes. -/
def writeEffect (v : Byte) (s : State) : State :=
  outEffect (v.zeroExtend 16) (nextReply false { s with latch := v }).1 (nextReply false { s with latch := v }).2

/-- What the output transfer of `writeOutputs` does to the pins: the bridge takes the latch and the world sees the edge,
or, after a failure, neither. -/
theorem writeEffect_pins (v : Byte) (s : State) :
    (writeEffect v s).latch = v ∧ (writeEffect v s).replies = s.replies.tail
      ∧ (writeEffect v s).now = s.now + (nextReply false { s with latch := v }).1.dur
      ∧ (((writeEffect v s).bridge = v
          ∧ (writeEffect v s).world = worldPins s.cfg (s.now + (nextReply false { s with latch := v }).1.dur) s.bridge
              v s.world)
        ∨ (outFails (nextReply false { s with latch := v }).1.ret = true ∧ (writeEffect v s).world = s.world)) := by
  obtain ⟨n, hn⟩ := nextReply_spec false { s with latch := v }
  have hd := outEffect_drive_or (v.zeroExtend 16) (nextReply false { s with latch := v }).1
    (nextReply false { s with latch := v }).2
  have hv : BitVec.truncate 8 (BitVec.zeroExtend 16 v) = v := by simp
  rw [hv] at hd
  unfold writeEffect
  refine ⟨by simp [hn], by simp [hn], by simp [hn], ?_⟩
  rcases hd with ⟨hbridge, hworld⟩ | ⟨hfails, -, -, hworld⟩
  · exact .inl ⟨hbridge, by rw [hworld, hn]⟩
  · exact .inr ⟨hfails, by rw [hworld, hn]⟩

/-- A setter that ends: the latch with one bit changed, the bridge follows it and the world sees the edge, at a moment
between the beginning and the end. -/
theorem setPin_ok {mask : Byte} {b : Bool} {s t : State} {a : Unit} (h : setPin mask b s = .ok a t) :
    t.cfg = s.cfg ∧ t.latch = withBit mask s.latch b ∧ t.bridge = t.latch ∧ t.replies = s.replies.tail
      ∧ ∃ τ, s.now ≤ τ ∧ τ ≤ t.now ∧ t.world = worldPins s.cfg τ s.bridge t.latch s.world := by
  rw [setPin_eq] at h
  obtain ⟨hlatch, hreplies, hnow, hpins⟩ := writeEffect_pins (withBit mask s.latch b) s
  split at h
  next => cases h
  next hf =>
    cases h
    obtain ⟨hbridge, hworld⟩ := hpins.resolve_right fun hp => hf hp.1
    refine ⟨pinEffect_cfg mask b s, hlatch, hbridge.trans hlatch.symm, hreplies,
      s.now + (pinReply mask b s).1.dur, Nat.le_add_right _ _, ?_, ?_⟩
    · exact hnow ▸ Nat.le_add_right _ _
    · exact hworld.trans (congrArg (worldPins s.cfg _ s.bridge · s.world) hlatch.symm)

/-- A setter that is abandoned: its output failed, and the world has seen nothing, or the edge. -/
theorem setPin_error {mask : Byte} {b : Bool} {s t : State} {e : Raise} (h : setPin mask b s = .error e t) :
    outFails (pinReply mask b s).1.ret = true
      ∧ (t.world = s.world ∨ ∃ τ, t.world = worldPins s.cfg τ s.bridge (withBit mask s.latch b) s.world) := by
  rw [setPin_eq] at h
  obtain ⟨-, -, -, hpins⟩ := writeEffect_pins (withBit mask s.latch b) s
  split at h
  next hf =>
    cases h
    exact ⟨hf, hpins.elim (fun hp => .inr ⟨_, hp.2⟩) fun hp => .inl hp.2⟩
  next => cases h

/-- Reading the line leaves the pins and the world. -/
theorem readEffect_pins (s : State) :
    (readEffect s).latch = s.latch ∧ (readEffect s).bridge = s.bridge ∧ (readEffect s).world = s.world
      ∧ s.now ≤ (readEffect s).now ∧ (readEffect s).replies = s.replies.tail := by
  obtain ⟨n, hn⟩ := nextReply_spec true s
  unfold readEffect
  rw [hn]
  exact ⟨rfl, rfl, rfl, Nat.le_add_right _ _, rfl⟩

/-- `getSDA` is one input transfer, and its level the raw CTS bit. -/
theorem getSDA_eq (c : Config) (s : State) :
    getSDA c s =
      if inFails (nextReply true s).1.ret then .error .transportFatal (fatalEntry (readEffect s))
      else .ok ((nextReply true s).1.b0.getLsbD c.ctsBit.val) (readEffect s) := by
  rw [getSDA_run, readInputs_run, ← levelOfMask_inputMask]
  split <;> rename_i h <;> split at h <;> cases h
  · rw [if_neg ‹_›]
    rfl
  · rw [if_pos ‹_›]
    rfl

end Sys2Proof.Machine
end

section
/-! A bus with no EEPROM on it (20_memory.md R75): no transfer fails, and the line shows what the master drives, so that
the released line of an acknowledge cell reads as NACK. -/

namespace Sys2Proof.Machine

/-! ### What an attached world answers -/

/-- An output transfer is accepted. -/
theorem pinReply_attached {s : State} (mask : Byte) (b : Bool) (hr : s.replies = []) (hw : s.world ≠ .unspecified) :
    (pinReply mask b s).1 = outAccepted := by
  unfold pinReply nextReply worldReply
  dsimp only
  rw [hr]
  dsimp only
  cases h : s.world with
  | unspecified => exact absurd h hw
  | absent lines => rfl
  | reference lines e => rfl

/-- An input transfer brings the line. -/
theorem nextReply_attached {s : State} (hr : s.replies = []) (hw : s.world ≠ .unspecified) :
    ∃ lines, (nextReply true s).1 = deviceReply lines s := by
  unfold nextReply worldReply
  rw [hr]
  dsimp only
  cases h : s.world with
  | unspecified => exact absurd h hw
  | absent lines => exact ⟨lines, rfl⟩
  | reference lines e => exact ⟨lines, rfl⟩

theorem deviceReply_level (lines : StatusLines) (s : State) :
    (deviceReply lines s).b0.getLsbD s.cfg.ctsBit.val = lineLevel s := by
  have hlt : s.cfg.ctsBit.val < 8 := Nat.lt_of_lt_of_le s.cfg.ctsBit.isLt (by decide)
  exact (withBit_getLsbD _ hlt _ _ _ hlt).trans (if_pos rfl)

/-- `getSDA` succeeds and returns the line. -/
theorem getSDA_attached {s : State} (hr : s.replies = []) (hw : s.world ≠ .unspecified) :
    getSDA s.cfg s = .ok (lineLevel s) (readEffect s) := by
  obtain ⟨lines, h⟩ := nextReply_attached hr hw
  rw [getSDA_eq, h, deviceReply_level]
  exact if_neg Bool.false_ne_true

/-! ### Nothing attached -/

/-- No EEPROM on the bus, and no answers but its own. -/
def lonely (lines : StatusLines) (s : State) : Prop := s.world = .absent lines ∧ s.replies = []

theorem lonely.attached {lines : StatusLines} {s : State} (h : lonely lines s) : s.world ≠ .unspecified := by
  rw [h.1]
  simp

theorem pinEffect_lonely {lines : StatusLines} {s : State} (mask : Byte) (b : Bool) (h : lonely lines s) :
    lonely lines (pinEffect mask b s) := by
  obtain ⟨-, hreplies, -, hpins⟩ := writeEffect_pins (withBit mask s.latch b) s
  obtain ⟨hworld, hr⟩ := h
  refine ⟨?_, hreplies.trans (by rw [hr, List.tail_nil])⟩
  rcases hpins with ⟨-, hw⟩ | ⟨-, hw⟩ <;> refine hw.trans ?_ <;> rw [hworld]
  rfl

theorem readEffect_lonely {lines : StatusLines} {s : State} (h : lonely lines s) : lonely lines (readEffect s) := by
  obtain ⟨-, -, hworld, -, hreplies⟩ := readEffect_pins s
  exact ⟨hworld.trans h.1, by rw [hreplies, h.2, List.tail_nil]⟩

/-- No EEPROM comes onto the bus, and nothing is abandoned. -/
theorem lonely_pinClosed (c : Config) (lines : StatusLines) :
    PinClosed c (fun s t => lonely lines s → lonely lines t) (fun s _ => ¬ lonely lines s) where
  refl _ h := h
  trans _ _ _ h h' hs := h' (h hs)
  transE _ _ _ h h' hs := h' (h hs)
  delay _ _ h := h
  pin mask b _ _ _ _ h := pinEffect_lonely mask b h
  pinFatal mask b _ _ _ hf h := by
    rw [pinReply_attached mask b h.2 h.attached] at hf
    cases hf
  read _ _ _ h := readEffect_lonely h
  readFatal _ _ hf h := by
    obtain ⟨_, hr⟩ := nextReply_attached h.2 h.attached
    rw [hr] at hf
    cases hf

theorem localRegs.lonely {lines : StatusLines} {s t : State} (h : localRegs s t) (hs : lonely lines s) :
    lonely lines t := by
  obtain ⟨-, -, -, hworld, hreplies, -⟩ := h
  exact ⟨hworld.trans hs.1, hreplies.trans hs.2⟩

section Lonely

variable {c : Config} {lines : StatusLines}

theorem lonely_of_ends {α : Type} {m : Op α}
    (hm : Ends c (fun s t => lonely lines s → lonely lines t) (fun s _ => ¬ lonely lines s) m) :
    Spec c (lonely lines) m (fun _ => lonely lines) (fun _ => False) :=
  spec_of_ends hm (fun _ _ hs h => h hs) fun _ _ hs h => h hs

/-- After a setter the bridge holds the latch. -/
theorem setPin_lonely {mask : Byte} (hm : mask = sclMask c ∨ mask = sdaMask c) (b : Bool) (P : Byte → Prop) :
    Spec c (fun s => lonely lines s ∧ P (withBit mask s.latch b)) (setPin mask b)
      (fun _ t => (lonely lines t ∧ t.bridge = t.latch) ∧ P t.latch) (fun _ => False) := by
  intro s hs ⟨h, hP⟩
  have hends := setPin_ends (lonely_pinClosed c lines) hm b s hs
  refine ⟨fun a t ht => ?_, fun e t ht => (hends.2 e t ht).2 h⟩
  obtain ⟨-, hlatch, hbridge, -⟩ := setPin_ok ht
  exact ⟨(hends.1 a t ht).1, ⟨(hends.1 a t ht).2 h, hbridge⟩, hlatch ▸ hP⟩

/-- With nothing attached the line is what the master drives. -/
theorem getSDA_lonely {s : State} (h : lonely lines s) :
    getSDA s.cfg s = .ok (sdaOf s.cfg s.bridge) (readEffect s) := by
  rw [getSDA_attached h.2 h.attached, lineLevel, h.1]

/-- Every byte is answered NACK. -/
theorem txByte_lonely (v : Byte) :
    Spec c (lonely lines) (txByte c v) (fun ack t => ack = false ∧ lonely lines t ∧ t.ackf = false)
      (fun _ => False) := by
  have hp := lonely_pinClosed c lines
  have hl : ∀ s t, localBus s t → lonely lines s → lonely lines t := fun _ _ h => h.regs.lonely
  refine spec_bind (lonely_of_ends (ends_updBus hl fun _ => rfl)) fun _ => ?_
  refine spec_bind (lonely_of_ends (txBits_ends hp hl 8)) fun _ => ?_
  refine spec_bind (spec_pre (setPin_lonely (.inr rfl) true fun l => sdaOf c l = true) fun s h => ⟨h, by simp⟩)
    fun _ => ?_
  refine spec_bind (spec_pre (setPin_lonely (.inl rfl) true fun l => sdaOf c l = true)
    fun s h => ⟨h.1.1, by simpa using h.2⟩) fun _ => ?_
  refine spec_bind (Q := fun sample t => sample = true ∧ lonely lines t) ?_ fun sample => spec_of_fact ?_
  · rintro s rfl ⟨⟨h, hbridge⟩, hsda⟩
    rw [getSDA_lonely h, hbridge, hsda]
    exact ⟨fun _ _ ht => by cases ht; exact ⟨readEffect_cfg s, rfl, readEffect_lonely h⟩, fun _ _ ht => by cases ht⟩
  · rintro rfl
    refine spec_bind (lonely_of_ends (setSCL_ends hp false)) fun _ => ?_
    refine spec_bind (Q := fun _ t => lonely lines t ∧ t.ackf = false) (spec_upd fun _ h => ⟨rfl, h, rfl⟩) fun _ => ?_
    exact spec_bind (Q := fun _ t => lonely lines t ∧ t.ackf = false) (spec_upd fun _ h => ⟨rfl, h⟩) fun _ =>
      spec_pure _ fun _ h => ⟨rfl, h⟩

/-- A block operation that starts with a byte gets no further than its first. -/
theorem select_lonely (v : Byte) (m : Op Bool) :
    Spec c (lonely lines) (start c >>= fun _ => txByte c v >>= fun ack => if ack then m else pure false)
      (fun ok t => ok = false ∧ lonely lines t) (fun _ => False) := by
  refine spec_bind (lonely_of_ends (start_ends (lonely_pinClosed c lines) fun _ _ h => h.regs.lonely)) fun _ => ?_
  refine spec_bind (txByte_lonely v) fun ack => spec_of_fact ?_
  rintro rfl
  exact spec_pure false fun _ h => ⟨rfl, h.1⟩

theorem stop_lonely : Spec c (lonely lines) (stop c) (fun _ => lonely lines) (fun _ => False) :=
  lonely_of_ends (stop_ends (lonely_pinClosed c lines) fun _ _ h => h.regs.lonely)

theorem readBlock_lonely (addr : Addr) (length : Nibble) :
    Spec c (lonely lines) (readBlock c addr length) (fun r t => r.1 = false ∧ lonely lines t) (fun _ => False) := by
  rw [readBlock_eq]
  refine spec_bind (Q := fun _ => lonely lines) (spec_upd fun _ h => ⟨rfl, h⟩) fun _ => ?_
  refine spec_bind (select_lonely _ _) fun ok => spec_of_fact ?_
  rintro rfl
  refine spec_bind stop_lonely fun _ => ?_
  refine spec_bind (Q := fun _ => lonely lines) (spec_upd fun _ h => ⟨rfl, h⟩) fun _ => spec_peek fun v hv => ?_
  exact spec_pure _ fun s h => ⟨rfl, h ▸ hv⟩

theorem writeBlock_lonely (addr : Addr) (data : List Byte) :
    Spec c (lonely lines) (writeBlock c addr data) (fun ok t => ok = false ∧ lonely lines t) (fun _ => False) := by
  rw [writeBlock_eq]
  refine spec_bind (Q := fun _ => lonely lines) (spec_upd fun _ h => ⟨rfl, h⟩) fun _ => ?_
  refine spec_bind (select_lonely _ _) fun ok => spec_of_fact ?_
  rintro rfl
  refine spec_bind stop_lonely fun _ => ?_
  exact spec_bind (Q := fun _ => lonely lines) (spec_upd fun _ h => ⟨rfl, h⟩) fun _ => spec_pure _ fun _ h => ⟨rfl, h⟩

/-- An operation's last lines: the code and the result ports. -/
theorem setOutcome_spec {α : Type} {P E : State → Prop} (code : Nibble) (g : State → α) :
    Spec c P (upd (setOutcome code) >>= fun _ => peek >>= fun s => pure (g s))
      (fun _ t => t.success = (code == stOk) ∧ t.status = code) E := by
  refine spec_bind (Q := fun _ t => t.success = (code == stOk) ∧ t.status = code) (spec_upd fun _ _ => ⟨rfl, rfl, rfl⟩)
    fun _ => spec_peek fun v hv => spec_pure _ fun s h => h ▸ hv

theorem probe_lonely :
    Spec c (lonely lines) (probe c) (fun _ t => t.success = false ∧ t.status = 2) (fun _ => False) := by
  refine spec_bind (lonely_of_ends (busInit_ends (lonely_pinClosed c lines) fun _ _ h => h.regs.lonely)) fun _ => ?_
  refine spec_bind (readBlock_lonely _ _) fun ⟨ok, bytes⟩ => spec_of_fact ?_
  rintro rfl
  exact setOutcome_spec stNoEeprom _

theorem readIdentifier_lonely :
    Spec c (lonely lines) (readIdentifier c) (fun _ t => t.success = false ∧ t.status = 1) (fun _ => False) := by
  refine spec_bind (readBlock_lonely _ _) fun ⟨ok, bytes⟩ => spec_of_fact ?_
  rintro rfl
  exact spec_bind (Q := fun _ => lonely lines) (spec_upd fun _ h => ⟨rfl, h⟩) fun _ => setOutcome_spec stNoAck _

theorem writeIdentifier_lonely (text : List Byte) :
    Spec c (lonely lines) (writeIdentifier c text) (fun _ t => t.success = false ∧ t.status = 4)
      (fun _ => False) := by
  refine spec_bind (writeBlock_lonely _ _) fun ok => spec_of_fact ?_
  rintro rfl
  exact spec_bind (Q := fun code t => code = stWriteSigFailed ∧ lonely lines t) (spec_pure _ fun _ h => ⟨rfl, h⟩)
    fun code => spec_of_fact fun hcode => hcode ▸ setOutcome_spec stWriteSigFailed _

end Lonely

/-- A whole operation that cannot be abandoned. -/
theorem finish_spec_ok {α : Type} {P : State → Prop} {Q : α → State → Prop} {mk : α → Result} {m : Op α} {s : State}
    (hm : Spec s.cfg P m Q (fun _ => False)) (hP : P s) :
    ∃ a t, Q a t ∧ (.next (finish mk m s) : Host.Outcome State Fault Refusal) = .next { t with result := mk a } := by
  obtain ⟨a, t, hQ, hf⟩ := (finish_spec hm hP).resolve_right id
  exact ⟨a, t, hQ, congrArg _ hf⟩

theorem textOk_of_no_zero {text : List Byte} (h : (0 : Byte) ∉ text) : textOk text = true := by
  simpa [textOk] using fun b hb => ne_of_mem_of_not_mem hb h

/-- Settles O60: the released line of each acknowledge cell reads high, so the first byte of every transaction is the
last. -/
theorem absentDeviceNeverAcknowledges : Obligations.AbsentDeviceNeverAcknowledges := by
  intro s lines hworld hreplies
  have h : lonely lines s := ⟨hworld, hreplies⟩
  refine ⟨⟨_, rfl, ?_⟩, fun v => ?_, fun a n h1 h8 => ?_, fun a d h1 h8 => ?_, ?_, ?_, fun text htext => ?_⟩
  · rw [finish_ok (getSDA_lonely h)]
  · obtain ⟨ack, t, ⟨rfl, -, hackf⟩, hf⟩ := finish_spec_ok (mk := .ack) (txByte_lonely v) h
    exact ⟨_, hf, rfl, hackf⟩
  · obtain ⟨⟨ok, bytes⟩, t, ⟨rfl, -⟩, hf⟩ :=
      finish_spec_ok (mk := fun r => .block r.1 r.2) (readBlock_lonely a n) h
    exact ⟨_, bytes, (if_pos ((blockLengthOk_iff _).2 ⟨h1, h8⟩)).trans hf, rfl⟩
  · obtain ⟨ok, t, ⟨rfl, -⟩, hf⟩ := finish_spec_ok (mk := .done) (writeBlock_lonely a d) h
    exact ⟨_, (if_pos ((blockLengthOk_iff _).2 ⟨h1, h8⟩)).trans hf, rfl⟩
  · obtain ⟨r, t, ht, hf⟩ := finish_spec_ok (mk := fun r => .outcome r.1 r.2) probe_lonely h
    exact ⟨_, hf, ht⟩
  · obtain ⟨r, t, ht, hf⟩ := finish_spec_ok (mk := fun r => .identifier r.1 r.2.1 r.2.2) readIdentifier_lonely h
    exact ⟨_, hf, ht⟩
  · obtain ⟨r, t, ht, hf⟩ := finish_spec_ok (mk := fun r => .outcome r.1 r.2) (writeIdentifier_lonely text) h
    exact ⟨_, (if_pos (textOk_of_no_zero htext)).trans hf, ht⟩

end Sys2Proof.Machine
end

section
/-! Which bytes of the attached EEPROM the operations below the protocol can change (20_memory.md R71, R74). Memory is
written by a STOP alone, where the page buffer then goes; an operation has at most one STOP, and before it at most one
falling edge of SCL, which can end the ninth clock of one more byte. -/

namespace Sys2Proof.Machine

/-! ### The device -/

theorem eepromStop_mem (now : Nat) (e : Eeprom) :
    (eepromStop now e).mem = if e.mode = .rxData then commitFrom e.page e.wb e.mem 0 e.w else e.mem := by
  unfold eepromStop
  by_cases hm : e.mode = .rxData <;> by_cases hw : e.w = [] <;> simp [hm, hw, eepromCommit, commitFrom]

/-- A falling edge adds at most one byte to the page buffer, or opens it empty. -/
theorem eepromFall_buffer (now : Nat) (e : Eeprom) (h : (eepromFall now e).mode = .rxData) :
    (eepromFall now e).w = []
      ∨ (e.mode = .rxData ∧ (eepromFall now e).page = e.page ∧ (eepromFall now e).wb = e.wb
          ∧ (eepromFall now e).w.length ≤ e.w.length + 1) := by
  unfold eepromFall eepromByteEnd eepromLoad at *
  cases hm : e.mode <;> simp only [hm] at h ⊢ <;> repeat' split at h
  all_goals simp_all

/-- A rising edge leaves mode and page buffer. -/
theorem eepromRise_buffer (l : Bool) (e : Eeprom) :
    (eepromRise l e).mode = e.mode ∧ (eepromRise l e).page = e.page ∧ (eepromRise l e).wb = e.wb
      ∧ (eepromRise l e).w = e.w := by
  by_cases hb : e.bits < 8 <;> cases hm : e.mode <;> simp [eepromRise, hm, hb]

/-! ### Bytes out of reach of a STOP -/

/-- `a` is none of the addresses to which a STOP commits the page buffer, `j` bytes more counted. -/
def spares (j a : Nat) (w : World) : Prop :=
  match w with
  | .reference _ e => e.mode = .rxData → ∀ i, i < e.w.length + j → a ≠ commitAddr e.page e.wb i
  | .unspecified | .absent _ => True

theorem spares_of_not_pending {a : Nat} {w : World} (h : a ∉ pendingStores w) : spares 1 a w := by
  cases w with
  | unspecified => trivial
  | absent lines => trivial
  | reference lines e =>
    intro hm i hi ha
    simp only [pendingStores, if_pos hm, List.mem_map, List.mem_range] at h
    exact h ⟨i, hi, ha.symm⟩

theorem spares.less {a : Nat} {w : World} (h : spares 1 a w) : spares 0 a w := by
  cases w with
  | unspecified => trivial
  | absent lines => trivial
  | reference lines e => exact fun hm i hi => h hm i (by omega)

section Edge

variable {a : Nat} {w : World} (c : Config) (now : Nat) (old new : Byte)

/-- No edge changes such a byte. -/
theorem readMem_worldPins (h : spares 0 a w) : readMem (worldPins c now old new w) a = readMem w a := by
  cases w with
  | unspecified => rfl
  | absent lines => rfl
  | reference lines e =>
    refine congrArg some (?_ : (eepromPins _ _ _ _ _ e).mem.read a = e.mem.read a)
    rcases eepromPins_cases now (sclOf c old) (sdaOf c old) (sclOf c new) (sdaOf c new) e
      with hp | hp | hp | ⟨l, hp⟩ | hp <;> rw [hp]
    · rfl
    · rw [eepromStop_mem]
      split
      · exact commitFrom_read_other _ _ _ _ _ _ fun j _ hj => h ‹_› j (by omega)
      · rfl
    · rw [eepromRise_mem]
    · rw [eepromFall_mem]

/-- One edge takes in one byte more at most. -/
theorem spares_worldPins (h : spares 1 a w) : spares 0 a (worldPins c now old new w) := by
  cases w with
  | unspecified => trivial
  | absent lines => trivial
  | reference lines e =>
    show (eepromPins _ _ _ _ _ e).mode = _ → _
    rcases eepromPins_cases now (sclOf c old) (sdaOf c old) (sclOf c new) (sdaOf c new) e
      with hp | hp | hp | ⟨l, hp⟩ | hp <;> rw [hp]
    · exact h.less
    · exact fun hm => by cases hm
    · exact fun hm => by cases hm
    · obtain ⟨hmode, hpage, hwb, hw⟩ := eepromRise_buffer l e
      rw [hmode, hpage, hwb, hw]
      exact h.less
    · intro hm i hi
      rcases eepromFall_buffer now e hm with hw | ⟨hmode, hpage, hwb, hw⟩
      · rw [hw] at hi
        cases hi
      · rw [hpage, hwb]
        exact h hmode i (by omega)

/-- An edge that leaves SCL high takes in none. -/
theorem spares_worldPins_high (hnew : sclOf c new = true) (h : spares 0 a w) :
    spares 0 a (worldPins c now old new w) := by
  cases w with
  | unspecified => trivial
  | absent lines => trivial
  | reference lines e =>
    show (eepromPins _ _ _ _ _ e).mode = _ → _
    rw [hnew]
    cases sclOf c old
    · obtain ⟨hmode, hpage, hwb, hw⟩ := eepromRise_buffer (sdaOf c new && e.sOut) e
      show (eepromRise (sdaOf c new && e.sOut) e).mode = _ → _
      rw [show eepromPins now false (sdaOf c old) true (sdaOf c new) e = eepromRise (sdaOf c new && e.sOut) e from rfl,
        hmode, hpage, hwb, hw]
      exact h
    · unfold eepromPins
      dsimp only
      split
      · exact fun hm => by cases hm
      · split
        · exact fun hm => by cases hm
        · exact h

/-- With SDA still or SCL going low there is no STOP. -/
theorem readMem_worldPins_no_stop (h : sdaOf c new = sdaOf c old ∨ sclOf c new = false) :
    readMem (worldPins c now old new w) a = readMem w a := by
  cases w with
  | unspecified => rfl
  | absent lines => rfl
  | reference lines e =>
    refine congrArg some (?_ : (eepromPins _ _ _ _ _ e).mem.read a = e.mem.read a)
    cases hold : sclOf c old <;> cases hnew : sclOf c new
    · rfl
    · exact congrArg (Memory.read · a) (eepromRise_mem _ e)
    · exact congrArg (Memory.read · a) (eepromFall_mem now e)
    · rw [h.resolve_right (by simp [hnew])]
      cases sdaOf c old <;> cases hs : e.sOut <;> simp [eepromPins, hs]

end Edge

/-! ### The pins -/

/-- The byte at `a` is what it was. -/
def kept (a : Nat) (x : Option Byte) (s : State) : Prop := readMem s.world a = x

section Pins

variable {c : Config} {a : Nat} {x : Option Byte}

/-- A setter, by what its edge does to the byte. -/
theorem setPin_kept {mask : Byte} {b : Bool} {P : State → Prop} {Q : State → Prop}
    (hkept : ∀ s τ, s.cfg = c → P s → kept a x s
      ∧ readMem (worldPins c τ s.bridge (withBit mask s.latch b) s.world) a = x)
    (hQ : ∀ s t τ, s.cfg = c → P s → t.latch = withBit mask s.latch b → t.bridge = t.latch →
      t.world = worldPins c τ s.bridge (withBit mask s.latch b) s.world → Q t) :
    Spec c P (setPin mask b) (fun _ t => (kept a x t ∧ t.bridge = t.latch) ∧ Q t) (kept a x) := by
  rintro s rfl hP
  constructor
  · intro u t h
    obtain ⟨hcfg, hlatch, hbridge, -, τ, -, -, hworld⟩ := setPin_ok h
    rw [hlatch] at hworld
    exact ⟨hcfg, ⟨(congrArg (readMem · a) hworld).trans (hkept s τ rfl hP).2, hbridge⟩,
      hQ s t τ rfl hP hlatch hbridge hworld⟩
  · intro e t h
    obtain ⟨-, hw | ⟨τ, hw⟩⟩ := setPin_error h
    · exact (congrArg (readMem · a) hw).trans (hkept s 0 rfl hP).1
    · exact (congrArg (readMem · a) hw).trans (hkept s τ rfl hP).2

/-- The first setter of an operation, which may move both lines of a bridge that did not hold the latch. -/
theorem setPin_first (mask : Byte) (b : Bool) :
    Spec c (fun s => kept a x s ∧ spares 1 a s.world) (setPin mask b)
      (fun _ t => (kept a x t ∧ t.bridge = t.latch) ∧ spares 0 a t.world) (kept a x) :=
  setPin_kept (fun _ _ _ ⟨hk, hs⟩ => ⟨hk, (readMem_worldPins _ _ _ _ hs.less).trans hk⟩)
    fun _ _ _ _ ⟨_, hs⟩ _ _ hw => hw ▸ spares_worldPins _ _ _ _ hs

/-- `setSCL` after it. -/
theorem setSCL_kept (b : Bool) :
    Spec c (fun s => kept a x s ∧ s.bridge = s.latch) (setSCL c b)
      (fun _ t => (kept a x t ∧ t.bridge = t.latch) ∧ sclOf c t.latch = b) (kept a x) :=
  setPin_kept
    (fun _ _ _ ⟨hk, hb⟩ => ⟨hk, (readMem_worldPins_no_stop _ _ _ _ (.inl (by simp [hb]))).trans hk⟩)
    fun _ _ _ _ _ hl _ _ => by simp [hl]

/-- `setSDA` with SCL low. -/
theorem setSDA_kept (b : Bool) :
    Spec c (fun s => (kept a x s ∧ s.bridge = s.latch) ∧ sclOf c s.latch = false) (setSDA c b)
      (fun _ t => (kept a x t ∧ t.bridge = t.latch) ∧ sclOf c t.latch = false) (kept a x) :=
  setPin_kept
    (fun _ _ _ ⟨⟨hk, _⟩, hscl⟩ => ⟨hk, (readMem_worldPins_no_stop _ _ _ _ (.inr (by simp [hscl]))).trans hk⟩)
    fun _ _ _ _ ⟨_, hscl⟩ hl _ _ => by simp [hl, hscl]

theorem getSDA_kept : Spec c (fun s => kept a x s ∧ s.bridge = s.latch) (getSDA c)
    (fun _ t => kept a x t ∧ t.bridge = t.latch) (kept a x) := by
  intro s hs ⟨hk, hb⟩
  obtain ⟨hlatch, hbridge, hworld, -, -⟩ := readEffect_pins s
  have hkept : kept a x (readEffect s) := (congrArg (readMem · a) hworld).trans hk
  refine ⟨fun _ _ h => ?_, fun _ _ h => ?_⟩ <;> rw [getSDA_eq] at h <;> split at h <;> cases h
  · exact ⟨(readEffect_cfg s).trans hs, hkept, by rw [hbridge, hb, hlatch]⟩
  · exact hkept

/-! ### The engine -/

theorem start_kept :
    Spec c (fun s => kept a x s ∧ spares 1 a s.world) (start c) (fun _ => kept a x) (kept a x) :=
  spec_bind (Q := fun _ s => kept a x s ∧ spares 1 a s.world) (spec_upd fun _ h => ⟨rfl, h⟩) fun _ =>
  spec_bind (setPin_first _ false) fun _ =>
  spec_bind (spec_pre (setSCL_kept false) fun _ h => h.1) fun _ => spec_upd fun _ h => ⟨rfl, h.1.1⟩

/-- The last setter of `busInit` and `stop`, the one that can make a STOP. -/
theorem setSDA_last :
    Spec c (fun s => kept a x s ∧ spares 0 a s.world) (setSDA c true) (fun _ => kept a x) (kept a x) :=
  spec_post (setPin_kept (Q := fun _ => True)
    (fun _ _ _ ⟨hk, hs⟩ => ⟨hk, (readMem_worldPins _ _ _ _ hs).trans hk⟩) fun _ _ _ _ _ _ _ _ => trivial)
    fun _ _ h => h.1.1

theorem busInit_kept :
    Spec c (fun s => kept a x s ∧ spares 1 a s.world) (busInit c) (fun _ => kept a x) (kept a x) :=
  spec_bind (setPin_first _ true) fun _ =>
  spec_bind (spec_pre setSDA_last fun _ h => ⟨h.1.1, h.2⟩) fun _ => spec_upd fun _ h => ⟨rfl, h⟩

theorem stop_kept :
    Spec c (fun s => kept a x s ∧ spares 1 a s.world) (stop c) (fun _ => kept a x) (kept a x) := by
  refine spec_bind (Q := fun _ s => kept a x s ∧ spares 1 a s.world) (spec_upd fun _ h => ⟨rfl, h⟩) fun _ => ?_
  refine spec_bind (setPin_first _ false) fun _ => ?_
  have hscl : Spec c (fun s => (kept a x s ∧ s.bridge = s.latch) ∧ spares 0 a s.world) (setSCL c true)
      (fun _ t => (kept a x t ∧ t.bridge = t.latch) ∧ spares 0 a t.world) (kept a x) :=
    setPin_kept (fun _ _ _ ⟨⟨hk, _⟩, hs⟩ => ⟨hk, (readMem_worldPins _ _ _ _ hs).trans hk⟩)
      fun _ _ _ _ ⟨_, hs⟩ _ _ hw => hw ▸ spares_worldPins_high _ _ _ _ (by simp) hs
  exact spec_bind hscl fun _ => spec_bind (spec_pre setSDA_last fun _ h => ⟨h.1.1, h.2⟩) fun _ =>
    spec_upd fun _ h => ⟨rfl, h⟩

/-- The data cells, entered with SCL low. -/
theorem txBits_kept (n : Nat) :
    Spec c (fun s => (kept a x s ∧ s.bridge = s.latch) ∧ sclOf c s.latch = false) (txBits c n)
      (fun _ t => (kept a x t ∧ t.bridge = t.latch) ∧ sclOf c t.latch = false) (kept a x) := by
  induction n with
  | zero => exact spec_pure _ fun _ h => h
  | succ n ih =>
    refine spec_peek fun v hv => ?_
    exact spec_bind (spec_pre (setSDA_kept _) fun _ h => h ▸ hv) fun _ =>
      spec_bind (spec_pre (setSCL_kept true) fun _ h => h.1) fun _ =>
      spec_bind (spec_pre (setSCL_kept false) fun _ h => h.1) fun _ =>
      spec_bind (spec_upd fun _ h => ⟨rfl, h⟩) fun _ => ih

theorem txByte_kept (v : Byte) :
    Spec c (fun s => kept a x s ∧ spares 1 a s.world) (txByte c v) (fun _ => kept a x) (kept a x) := by
  refine spec_bind (Q := fun _ s => kept a x s ∧ spares 1 a s.world) (spec_upd fun _ h => ⟨rfl, h⟩) fun _ => ?_
  have hbits : Spec c (fun s => kept a x s ∧ spares 1 a s.world) (txBits c 8)
      (fun _ t => (kept a x t ∧ t.bridge = t.latch) ∧ sclOf c t.latch = false) (kept a x) := by
    refine spec_peek fun v hv => ?_
    exact spec_bind (spec_pre (setPin_first _ _) fun _ h => h ▸ hv) fun _ =>
      spec_bind (spec_pre (setSCL_kept true) fun _ h => h.1) fun _ =>
      spec_bind (spec_pre (setSCL_kept false) fun _ h => h.1) fun _ =>
      spec_bind (spec_upd fun _ h => ⟨rfl, h⟩) fun _ => txBits_kept 7
  refine spec_bind hbits fun _ => spec_bind (setSDA_kept true) fun _ => ?_
  refine spec_bind (spec_pre (setSCL_kept true) fun _ h => h.1) fun _ => ?_
  refine spec_bind (spec_pre getSDA_kept fun _ h => h.1) fun _ => spec_bind (setSCL_kept false) fun _ => ?_
  exact spec_bind (Q := fun _ => kept a x) (spec_upd fun _ h => ⟨rfl, h.1.1⟩) fun _ =>
    spec_bind (Q := fun _ => kept a x) (spec_upd fun _ h => ⟨rfl, h⟩) fun _ => spec_pure _ fun _ h => h

/-- A received cell after its rising edge. -/
theorem rxCell_kept {β : Type} {f : Bool → Unit → Op β} {Q : β → State → Prop}
    (hf : ∀ l u, Spec c (fun s => (kept a x s ∧ s.bridge = s.latch) ∧ sclOf c s.latch = false) (f l u) Q (kept a x)) :
    Spec c (fun s => kept a x s ∧ s.bridge = s.latch) (getSDA c >>= fun l => setSCL c false >>= f l) Q (kept a x) :=
  spec_bind getSDA_kept fun l => spec_bind (setSCL_kept false) (hf l)

theorem rxBits_kept (n : Nat) :
    Spec c (fun s => (kept a x s ∧ s.bridge = s.latch) ∧ sclOf c s.latch = false) (rxBits c n)
      (fun _ t => (kept a x t ∧ t.bridge = t.latch) ∧ sclOf c t.latch = false) (kept a x) := by
  induction n with
  | zero => exact spec_pure _ fun _ h => h
  | succ n ih =>
    refine spec_bind (spec_pre (setSCL_kept true) fun _ h => h.1) fun _ => spec_pre (rxCell_kept fun l _ => ?_)
      fun _ h => h.1
    exact spec_bind (spec_upd fun _ h => ⟨rfl, h⟩) fun _ => ih

theorem rxByte_kept (isLast : Bool) :
    Spec c (fun s => kept a x s ∧ spares 1 a s.world) (rxByte c isLast) (fun _ => kept a x) (kept a x) := by
  refine spec_bind (Q := fun _ s => kept a x s ∧ spares 1 a s.world) (spec_upd fun _ h => ⟨rfl, h⟩) fun _ => ?_
  have hbits : Spec c (fun s => kept a x s ∧ spares 1 a s.world) (rxBits c 8)
      (fun _ t => (kept a x t ∧ t.bridge = t.latch) ∧ sclOf c t.latch = false) (kept a x) := by
    refine spec_bind (setPin_first _ true) fun _ => spec_pre (rxCell_kept fun l _ => ?_) fun _ h => h.1
    exact spec_bind (spec_upd fun _ h => ⟨rfl, h⟩) fun _ => rxBits_kept 7
  refine spec_bind hbits fun _ => spec_bind (setSDA_kept isLast) fun _ => ?_
  refine spec_bind (spec_pre (setSCL_kept true) fun _ h => h.1) fun _ => ?_
  refine spec_bind (spec_pre (setSCL_kept false) fun _ h => h.1) fun _ => spec_bind (setSDA_kept true) fun _ => ?_
  exact spec_bind (Q := fun _ => kept a x) (spec_upd fun _ h => ⟨rfl, h.1.1⟩) fun _ =>
    spec_peek fun v hv => spec_pure _ fun _ h => h ▸ hv

end Pins

/-! ### Whole operations -/

section Finish

variable {a : Nat} {s : State} {α : Type} {mk : α → Result} {m : Op α}

theorem finish_kept {P : State → Prop} {x : Option Byte} (hm : Spec s.cfg P m (fun _ => kept a x) (kept a x))
    (hP : P s) : readMem (finish mk m s).world a = x := by
  rcases finish_spec (mk := mk) hm hP with ⟨_, t, ht, hf⟩ | ht
  · rw [hf]
    exact ht
  · exact ht

/-- From any state, for a byte that is not pending. -/
theorem finish_kept_of_not_pending
    (hm : ∀ x, Spec s.cfg (fun s => kept a x s ∧ spares 1 a s.world) m (fun _ => kept a x) (kept a x))
    (ha : a ∉ pendingStores s.world) : readMem (finish mk m s).world a = readMem s.world a :=
  finish_kept (hm _) ⟨rfl, spares_of_not_pending ha⟩

end Finish

theorem writeOutputs_kept {c : Config} {a : Nat} {x : Option Byte} (v : Byte) :
    Spec c (fun s => kept a x s ∧ spares 1 a s.world) (writeOutputs v) (fun _ => kept a x) (kept a x) := by
  intro s hs ⟨hk, hspares⟩
  have hw : kept a x (writeEffect v s) := by
    obtain ⟨-, -, -, ⟨-, hw⟩ | ⟨-, hw⟩⟩ := writeEffect_pins v s
    · exact (congrArg (readMem · a) hw).trans ((readMem_worldPins _ _ _ _ hspares.less).trans hk)
    · exact (congrArg (readMem · a) hw).trans hk
  refine ⟨fun u t h => ⟨((writeOutputs_ends c v s hs).1 u t h).1, ?_⟩, fun e t h => ?_⟩ <;>
    rw [writeOutputs_run] at h <;> split at h <;> cases h <;> exact hw

theorem readInputs_kept {c : Config} {a : Nat} {x : Option Byte} :
    Spec c (kept a x) readInputs (fun _ => kept a x) (kept a x) := by
  intro s hs hk
  have hr : kept a x (readEffect s) := by
    obtain ⟨-, -, hworld, -⟩ := readEffect_pins s
    exact (congrArg (readMem · a) hworld).trans hk
  refine ⟨fun u t h => ⟨((readInputs_ends (sameRegs_pinClosed c) s hs).1 u t h).1, ?_⟩, fun e t h => ?_⟩ <;>
    rw [readInputs_run] at h <;> split at h <;> cases h <;> exact hr

/-- Settles O48: each of these operations has at most one STOP, and what it commits was pending when it began, or is
the one byte whose ninth clock its first edge ends. -/
theorem lowerOperationsStoreOnlyThePendingPage : Obligations.LowerOperationsStoreOnlyThePendingPage := by
  intro i s t a h
  refine ⟨?_, ?_⟩
  · rintro (rfl | rfl) <;> cases h
    · exact finish_kept readInputs_kept rfl
    · exact finish_kept (spec_bind readInputs_kept fun _ => spec_pure _ fun _ h => h) rfl
  · rintro (⟨v, rfl⟩ | ⟨b, rfl⟩ | ⟨b, rfl⟩ | rfl | rfl | rfl | ⟨v, rfl⟩ | ⟨l, rfl⟩ | ⟨h', rfl⟩ | ⟨h', rfl⟩ | ⟨v, rfl⟩
      | ⟨_ | _, rfl⟩) ha <;> cases h
    · exact finish_kept_of_not_pending (fun _ => writeOutputs_kept v) ha
    · exact finish_kept_of_not_pending (fun _ => spec_post (setPin_first _ b) fun _ _ h => h.1.1) ha
    · exact finish_kept_of_not_pending (fun _ => spec_post (setPin_first _ b) fun _ _ h => h.1.1) ha
    · exact finish_kept_of_not_pending (fun _ => busInit_kept) ha
    · exact finish_kept_of_not_pending (fun _ => start_kept) ha
    · exact finish_kept_of_not_pending (fun _ => stop_kept) ha
    · exact finish_kept_of_not_pending (fun _ => txByte_kept v) ha
    · exact finish_kept_of_not_pending (fun _ => rxByte_kept l) ha
    · exact finish_kept_of_not_pending (fun _ => txByte_kept _) ha
    · exact finish_kept_of_not_pending (fun _ => txByte_kept _) ha
    · exact finish_kept_of_not_pending (fun _ => txByte_kept v) ha
    · exact finish_kept_of_not_pending (fun _ => txByte_kept _) ha
    · exact finish_kept_of_not_pending (fun _ => rxByte_kept _) ha

end Sys2Proof.Machine
end

section
/-! The reference EEPROM at the other end of driven lines (20_memory.md R71 to R73): the device after a clocked bit, after
a byte in each mode, after START and STOP, while the master runs its operations. `Wired` names the device exactly. `H`
says whether the world itself answers, and then no transfer fails and every sample is the line. -/

namespace Sys2Proof.Machine

/-! ### The device, bit by bit -/

/-- One pulse of SCL with the line at `line`. -/
def eepromClock (now : Nat) (line : Bool) (e : Eeprom) : Eeprom := eepromFall now (eepromRise line e)

theorem eepromClock_mem (now : Nat) (line : Bool) (e : Eeprom) : (eepromClock now line e).mem = e.mem :=
  (eepromFall_mem now _).trans (eepromRise_mem line e)

theorem eepromRise_sOut (line : Bool) (e : Eeprom) : (eepromRise line e).sOut = e.sOut := by
  by_cases hb : e.bits < 8 <;> cases hm : e.mode <;> simp [eepromRise, hm, hb]

/-- The device waits for a START, and drives nothing. -/
def Eeprom.rests (e : Eeprom) : Prop := e.mode = .idle ∧ e.sOut = true

/-- At the beginning of a byte that it receives. -/
def Eeprom.listens (m : EepromMode) (e : Eeprom) : Prop :=
  e.mode = m ∧ e.bits = 0 ∧ e.sOut = true

/-- At the beginning of a byte that it sends. -/
def Eeprom.sends (e : Eeprom) : Prop := e.mode = .tx ∧ e.bits = 0 ∧ e.sOut = e.shift.getLsbD 7

/-- The modes in which the device receives. -/
def receiving (m : EepromMode) : Prop := m = .rxDev ∨ m = .rxWord ∨ m = .rxData

theorem eepromClock_idle (now : Nat) (line : Bool) {e : Eeprom} (h : e.mode = .idle) : eepromClock now line e = e := by
  simp [eepromClock, eepromRise, eepromFall, h]

/-- The byte with one bit shifted in. -/
def shiftedIn (line : Bool) (v : Byte) : Byte := (v <<< 1) ||| (BitVec.ofBool line).zeroExtend 8

theorem eepromClock_receive (now : Nat) (line : Bool) {e : Eeprom} (hm : receiving e.mode) (hb : e.bits < 7) :
    eepromClock now line e = { e with shift := shiftedIn line e.shift, bits := e.bits + 1 } := by
  have h8 : e.bits < 8 := by omega
  have hne : e.bits ≠ 7 := by omega
  have hne' : e.bits ≠ 8 := by omega
  rcases hm with hm | hm | hm <;> simp [eepromClock, eepromRise, eepromFall, shiftedIn, hm, h8, hne, hne']

theorem eepromClock_receive_last (now : Nat) (line : Bool) {e : Eeprom} (hm : receiving e.mode) (hb : e.bits = 7) :
    eepromClock now line e = { e with
      shift := shiftedIn line e.shift, bits := 8, sOut := !eepromAcks now { e with shift := shiftedIn line e.shift } } := by
  rcases hm with hm | hm | hm <;> simp [eepromClock, eepromRise, eepromFall, shiftedIn, hm, hb] <;> rfl

theorem eepromClock_receive_ack (now : Nat) (line : Bool) {e : Eeprom} (hm : receiving e.mode) (hb : e.bits = 8) :
    eepromClock now line e = eepromByteEnd { e with bits := 9 } := by
  rcases hm with hm | hm | hm <;> simp [eepromClock, eepromRise, eepromFall, hm, hb]

theorem eepromClock_send (now : Nat) (line : Bool) {e : Eeprom} (hm : e.mode = .tx) (hb : e.bits < 8) :
    eepromClock now line e = { e with
      bits := e.bits + 1, sOut := if e.bits = 7 then true else e.shift.getLsbD (6 - e.bits) } := by
  by_cases h7 : e.bits = 7
  · simp [eepromClock, eepromRise, eepromFall, hm, h7]
  · have h8 : e.bits + 1 < 8 := by omega
    have hs : 7 - (e.bits + 1) = 6 - e.bits := by omega
    simp [eepromClock, eepromRise, eepromFall, hm, hb, h7, h8, hs]

theorem eepromClock_send_nack (now : Nat) {e : Eeprom} (hm : e.mode = .tx) (hb : e.bits = 8) :
    eepromClock now true e = { e with mode := .idle, sOut := true, bits := 0, mack := true } := by
  simp [eepromClock, eepromRise, eepromFall, hm, hb]

theorem eepromClock_send_ack (now : Nat) {e : Eeprom} (hm : e.mode = .tx) (hb : e.bits = 8) :
    eepromClock now false e = eepromLoad { e with mack := false } := by
  simp [eepromClock, eepromRise, eepromFall, eepromLoad, hm, hb]

/-! ### The device in the middle of a byte -/

/-- In the data cells of a byte that it receives, `n` of them to come, with `acc` in its shift register. -/
def receivingCells (e : Eeprom) (n : Nat) (acc : Byte) : Eeprom := { e with shift := acc, bits := 8 - n }

/-- With all of the byte `v` received and its answer, as of the moment `now`, on the line. -/
def receivedByte (now : Nat) (e : Eeprom) (v : Byte) : Eeprom :=
  { e with shift := v, bits := 8, sOut := !eepromAcks now { e with shift := v } }

section Receive

variable {e : Eeprom} (hm : receiving e.mode) (now : Nat) (line : Bool)
include hm

theorem eepromClock_receivingCells {n : Nat} (h0 : 0 < n) (hn : n + 1 ≤ 8) (acc : Byte) :
    eepromClock now line (receivingCells e (n + 1) acc) = receivingCells e n (shiftedIn line acc) := by
  rw [eepromClock_receive (e := receivingCells e (n + 1) acc) now line hm (show 8 - (n + 1) < 7 by omega)]
  simp [receivingCells, show 7 - n + 1 = 8 - n by omega]

theorem eepromClock_receivingCells_last (acc : Byte) :
    eepromClock now line (receivingCells e 1 acc) = receivedByte now e (shiftedIn line acc) :=
  eepromClock_receive_last (e := receivingCells e 1 acc) now line hm rfl

theorem eepromClock_receivedByte (v : Byte) (now' : Nat) :
    eepromClock now' line (receivedByte now e v)
      = eepromByteEnd { e with shift := v, bits := 9, sOut := !eepromAcks now { e with shift := v } } :=
  eepromClock_receive_ack (e := receivedByte now e v) now' line hm rfl

end Receive

/-- In the data cells of a byte that it sends, `n` of them to come. -/
def sendingCells (e : Eeprom) (n : Nat) : Eeprom :=
  { e with bits := 8 - n, sOut := if n = 0 then true else e.shift.getLsbD (n - 1) }

theorem sendingCells_eight {e : Eeprom} (h : e.sends) : sendingCells e 8 = e := by
  obtain ⟨-, hbits, hout⟩ := h
  cases e
  simp_all [sendingCells]

theorem eepromClock_sendingCells {e : Eeprom} (hm : e.mode = .tx) (now : Nat) (line : Bool) {n : Nat}
    (hn : n + 1 ≤ 8) :
    eepromClock now line (sendingCells e (n + 1)) = sendingCells e n := by
  have hbits : 7 - n + 1 = 8 - n := by omega
  have h6 : 6 - (7 - n) = n - 1 := by omega
  have h7 : 7 - n = 7 ↔ n = 0 := by omega
  rw [eepromClock_send (e := sendingCells e (n + 1)) now line hm (show 8 - (n + 1) < 8 by omega)]
  simp [sendingCells, hbits, h6, h7]

/-! ### Eight bits through a shift register -/

/-- `acc` after the top `n` bits of `x` have been shifted in. -/
def shiftThrough : Nat → Byte → Byte → Byte
  | 0, _, acc => acc
  | n + 1, x, acc => shiftThrough n (x <<< 1) (shiftedIn (x.getLsbD 7) acc)

theorem shiftedIn_getLsbD (b : Bool) (v : Byte) (k : Nat) (hk : k < 8) :
    (shiftedIn b v).getLsbD k = if k = 0 then b else v.getLsbD (k - 1) := by
  unfold shiftedIn
  rw [BitVec.getLsbD_or, BitVec.getLsbD_shiftLeft]
  by_cases h0 : k = 0
  · simp [h0]
  · simp [h0, hk]

theorem shiftThrough_getLsbD (n : Nat) (x acc : Byte) (k : Nat) (hk : k < 8) (hn : n ≤ 8) :
    (shiftThrough n x acc).getLsbD k = if k < n then x.getLsbD (8 - n + k) else acc.getLsbD (k - n) := by
  induction n generalizing x acc with
  | zero => simp [shiftThrough]
  | succ n ih =>
    rw [shiftThrough, ih _ _ (by omega)]
    by_cases h1 : k < n
    · rw [if_pos h1, if_pos (by omega), BitVec.getLsbD_shiftLeft,
        show 8 - (n + 1) + k = 8 - n + k - 1 by omega]
      simp [show 8 - n + k < 8 by omega, show ¬ 8 - n + k < 1 by omega]
    · rw [if_neg h1, shiftedIn_getLsbD _ _ _ (by omega)]
      by_cases h2 : k = n
      · rw [if_pos (by omega), if_pos (by omega)]
        congr 1
        omega
      · rw [if_neg (by omega), if_neg (by omega)]
        congr 1

/-- All eight of them: whatever was there is gone. -/
theorem shiftThrough_eight (x acc : Byte) : shiftThrough 8 x acc = x := by
  apply BitVec.eq_of_getLsbD_eq
  intro k hk
  rw [shiftThrough_getLsbD 8 x acc k hk (Nat.le_refl 8), if_pos hk, Nat.sub_self, Nat.zero_add]

end Sys2Proof.Machine
end

section
/-! The master's pins and bytes against the reference EEPROM: `Wired` names the levels of both lines and the device
exactly. `H` says whether the world itself answers every transfer; then none fails and every sample is the line. `K`
is what is to hold of the memory wherever a failed transfer leaves it. -/

namespace Sys2Proof.Machine

/-- The bridge holds the latch, with the lines at `scl` and `sda`, the device `e` at their other end, not before the
moment `τ`; under `H` no answers are given but the device's own. -/
structure Wired (H : Prop) (τ : Nat) (lines : StatusLines) (scl sda : Bool) (e : Eeprom) (s : State) : Prop where
  bridge : s.bridge = s.latch
  scl : sclOf s.cfg s.latch = scl
  sda : sdaOf s.cfg s.latch = sda
  world : s.world = .reference lines e
  now : τ ≤ s.now
  replies : H → s.replies = []

/-- A failed transfer ended the operation, which a world that answers itself does not bring about, with the memory in
`K`. -/
def Aborted (H : Prop) (lines : StatusLines) (K : Memory → Prop) (t : State) : Prop :=
  ¬ H ∧ ∃ e, t.world = .reference lines e ∧ K e.mem

theorem Wired.of_localRegs {H : Prop} {τ : Nat} {lines : StatusLines} {scl sda : Bool} {e : Eeprom} {s t : State}
    (h : Wired H τ lines scl sda e s) (hl : localRegs s t) : Wired H τ lines scl sda e t := by
  obtain ⟨hcfg, hlatch, hbridge, hworld, hreplies, hnow, -⟩ := hl
  exact ⟨by rw [hbridge, hlatch, h.bridge], by rw [hcfg, hlatch, h.scl], by rw [hcfg, hlatch, h.sda],
    by rw [hworld, h.world], by rw [hnow]; exact h.now, fun hH => by rw [hreplies, h.replies hH]⟩

section Wired

variable {c : Config} {H : Prop} {τ : Nat} {lines : StatusLines} {K : Memory → Prop} {scl sda d b : Bool} {e : Eeprom}

theorem Wired.attached {s : State} (h : Wired H τ lines scl sda e s) : s.world ≠ .unspecified := by
  rw [h.world]
  simp

/-! ### Pins -/

/-- A setter that takes the lines from `scl` and `sda` to `scl'` and `sda'`. -/
theorem setPin_wired {mask : Byte} {scl' sda' : Bool}
    (hbits : ∀ v, sclOf c v = scl → sdaOf c v = sda →
      sclOf c (withBit mask v b) = scl' ∧ sdaOf c (withBit mask v b) = sda')
    (hK : K e.mem) (hK' : ∀ now, K (eepromPins now scl sda scl' sda' e).mem) :
    Spec c (Wired H τ lines scl sda e) (setPin mask b)
      (fun _ t => ∃ now, τ ≤ now ∧ now ≤ t.now ∧ Wired H τ lines scl' sda' (eepromPins now scl sda scl' sda' e) t)
      (Aborted H lines K) := by
  rintro s rfl h
  obtain ⟨hscl', hsda'⟩ := hbits s.latch h.scl h.sda
  have hworld : ∀ now, worldPins s.cfg now s.bridge (withBit mask s.latch b) s.world
      = .reference lines (eepromPins now scl sda scl' sda' e) := by
    intro now
    rw [h.world, h.bridge, ← hscl', ← hsda', ← h.scl, ← h.sda]
    rfl
  constructor
  · intro u t ht
    obtain ⟨hcfg, hlatch, hbridge, hreplies, now, hnow, hnow', hw⟩ := setPin_ok ht
    refine ⟨hcfg, now, h.now.trans hnow, hnow', hbridge, ?_, ?_, ?_, (h.now.trans hnow).trans hnow', fun hH => ?_⟩
    · rw [hcfg, hlatch, hscl']
    · rw [hcfg, hlatch, hsda']
    · rw [hw, hlatch, hworld]
    · rw [hreplies, h.replies hH, List.tail_nil]
  · intro r t ht
    obtain ⟨hfails, hw⟩ := setPin_error ht
    refine ⟨fun hH => ?_, ?_⟩
    · rw [pinReply_attached mask b (h.replies hH) h.attached] at hfails
      cases hfails
    · rcases hw with hw | ⟨now, hw⟩
      · exact ⟨e, hw.trans h.world, hK⟩
      · exact ⟨_, hw.trans (hworld now), hK' now⟩

/-- With SCL low, SDA moves and the device looks away. -/
theorem setSDA_low (hK : K e.mem) :
    Spec c (Wired H τ lines false d e) (setSDA c b) (fun _ => Wired H τ lines false b e) (Aborted H lines K) :=
  spec_post (setPin_wired (scl' := false) (sda' := b) (fun v h _ => ⟨by simpa using h, by simp⟩) hK fun _ => hK)
    fun _ _ ⟨_, _, _, h⟩ => h

theorem setSCL_rise (hK : K e.mem) :
    Spec c (Wired H τ lines false d e) (setSCL c true)
      (fun _ => Wired H τ lines true d (eepromRise (d && e.sOut) e)) (Aborted H lines K) :=
  spec_post (setPin_wired (scl' := true) (sda' := d) (fun v _ h => ⟨by simp, by simpa using h⟩) hK
    fun _ => show K (eepromRise _ e).mem from (eepromRise_mem _ e).symm ▸ hK) fun _ _ ⟨_, _, _, h⟩ => h

theorem setSCL_fall (hK : K e.mem) :
    Spec c (Wired H τ lines true d e) (setSCL c false)
      (fun _ t => ∃ now, τ ≤ now ∧ Wired H τ lines false d (eepromFall now e) t) (Aborted H lines K) :=
  spec_post (setPin_wired (scl' := false) (sda' := d) (fun v _ h => ⟨by simp, by simpa using h⟩) hK
    fun now => show K (eepromFall now e).mem from (eepromFall_mem now e).symm ▸ hK)
    fun _ _ ⟨now, hnow, _, h⟩ => ⟨now, hnow, h⟩

theorem getSDA_wired (hK : K e.mem) :
    Spec c (Wired H τ lines scl d e) (getSDA c)
      (fun l t => (H → l = (d && e.sOut)) ∧ Wired H τ lines scl d e t) (Aborted H lines K) := by
  rintro s rfl h
  obtain ⟨hlatch, hbridge, hworld, hnow, hreplies⟩ := readEffect_pins s
  have hcfg := readEffect_cfg s
  have hw : Wired H τ lines scl d e (readEffect s) :=
    ⟨by rw [hbridge, hlatch, h.bridge], by rw [hcfg, hlatch, h.scl], by rw [hcfg, hlatch, h.sda],
      hworld.trans h.world, h.now.trans hnow, fun hH => by rw [hreplies, h.replies hH, List.tail_nil]⟩
  by_cases hH : H
  · have hline : lineLevel s = (d && e.sOut) := by rw [lineLevel, h.world, ← h.sda, h.bridge]
    rw [getSDA_attached (h.replies hH) h.attached, hline]
    exact ⟨fun _ _ ht => by cases ht; exact ⟨hcfg, fun _ => rfl, hw⟩, fun _ _ ht => by cases ht⟩
  · refine ⟨fun _ _ ht => ?_, fun _ _ ht => ?_⟩ <;> rw [getSDA_eq] at ht <;> split at ht <;> cases ht
    · exact ⟨hcfg, fun hH' => absurd hH' hH, hw⟩
    · exact ⟨hH, e, hworld.trans h.world, hK⟩

/-! ### Cells -/

section Cells

variable {α : Type} {Q : α → State → Prop} {I : State → Prop} (hI : ∀ s t, sameRegs s t → I s → I t)
include hI

/-- A cell that the master sends: the device is clocked with the line. -/
theorem txCell_spec {f : Unit → Op α} (hK : K e.mem)
    (hf : ∀ u, Spec c (fun s => (∃ now, τ ≤ now ∧ Wired H τ lines false b (eepromClock now (b && e.sOut) e) s) ∧ I s)
      (f u) Q (Aborted H lines K)) :
    Spec c (fun s => Wired H τ lines false d e s ∧ I s)
      (setSDA c b >>= fun _ => setSCL c true >>= fun _ => setSCL c false >>= f) Q (Aborted H lines K) := by
  have hp := sameRegs_pinClosed c
  exact spec_bind (spec_frame (setSDA_low hK) (setSDA_ends hp b) hI) fun _ =>
    spec_bind (spec_frame (setSCL_rise hK) (setSCL_ends hp true) hI) fun _ =>
    spec_bind (spec_frame (setSCL_fall ((eepromRise_mem _ e).symm ▸ hK)) (setSCL_ends hp false) hI) hf

/-- A cell that the master samples: the same, and the sample is the line. -/
theorem rxCell_spec {f : Bool → Unit → Op α} (hK : K e.mem)
    (hf : ∀ l u, (H → l = (d && e.sOut)) →
      Spec c (fun s => (∃ now, τ ≤ now ∧ Wired H τ lines false d (eepromClock now (d && e.sOut) e) s) ∧ I s)
      (f l u) Q (Aborted H lines K)) :
    Spec c (fun s => Wired H τ lines false d e s ∧ I s)
      (setSCL c true >>= fun _ => getSDA c >>= fun l => setSCL c false >>= f l) Q (Aborted H lines K) := by
  have hp := sameRegs_pinClosed c
  have hK' : K (eepromRise (d && e.sOut) e).mem := (eepromRise_mem _ e).symm ▸ hK
  refine spec_bind (spec_frame (setSCL_rise hK) (setSCL_ends hp true) hI) fun _ => ?_
  refine spec_bind (spec_frame (getSDA_wired hK') (getSDA_ends hp) hI) fun l => ?_
  refine spec_pre (P := fun s => (H → l = (d && e.sOut)) ∧ Wired H τ lines true d (eepromRise (d && e.sOut) e) s ∧ I s)
    (spec_of_fact fun hl => ?_) fun s h => ⟨by simpa [eepromRise_sOut] using h.1.1, h.1.2, h.2⟩
  exact spec_bind (spec_frame (setSCL_fall hK') (setSCL_ends hp false) hI) fun u => hf l u hl

end Cells

/-! ### Bytes -/

/-- The data cells of a byte that is sent, for a property `D` of the device, kept with the number of cells to come and
the bits still to send. -/
theorem txBits_wired {D : Nat → Byte → Eeprom → Prop} (hK : ∀ n x e, D n x e → K e.mem)
    (hD : ∀ n x e now, D (n + 1) x e → τ ≤ now → D n (x <<< 1) (eepromClock now (x.getLsbD 7 && e.sOut) e))
    (n : Nat) (x : Byte) :
    Spec c (fun s => ∃ d e, (D n x e ∧ Wired H τ lines false d e s) ∧ s.shift = x) (txBits c n)
      (fun _ t => ∃ x' d e, D 0 x' e ∧ Wired H τ lines false d e t) (Aborted H lines K) := by
  induction n generalizing x with
  | zero => exact spec_pure _ fun s ⟨d, e, h, _⟩ => ⟨x, d, e, h⟩
  | succ n ih =>
    refine spec_exists fun d => spec_exists fun e => spec_peek fun v ⟨⟨hd, hw⟩, hx⟩ => ?_
    refine spec_pre (txCell_spec (d := d) (e := e) (I := fun s => s.shift = x)
      (fun s t hr hs => ?_) (hK _ _ _ hd) fun _ => ?_) (by rintro s rfl; exact ⟨hw, hx⟩)
    · obtain ⟨-, -, -, -, -, hshift, -⟩ := hr
      exact hshift.trans hs
    · refine spec_bind (spec_upd fun s ⟨⟨now, hnow, hw⟩, hs⟩ => ⟨rfl, ?_⟩) fun _ => ih (x <<< 1)
      rw [hx] at hw
      exact ⟨_, _, ⟨hD n x e now hd hnow, hw.of_localRegs (localRegs_refl s)⟩, by rw [shiftOut_shift, hs]⟩

/-- A byte that is sent: its eight cells, then the acknowledge cell with SDA released. -/
theorem txByte_wired {D : Nat → Byte → Eeprom → Prop} (hK : ∀ n x e, D n x e → K e.mem)
    (hD : ∀ n x e now, D (n + 1) x e → τ ≤ now → D n (x <<< 1) (eepromClock now (x.getLsbD 7 && e.sOut) e))
    (v : Byte) (h0 : D 8 v e) :
    Spec c (Wired H τ lines false d e) (txByte c v)
      (fun ack t => ∃ x' e' now, D 0 x' e' ∧ τ ≤ now ∧ (H → ack = !e'.sOut)
        ∧ Wired H τ lines false true (eepromClock now e'.sOut e') t) (Aborted H lines K) := by
  refine spec_bind (spec_upd fun s hw => ⟨rfl, ?_⟩) fun _ => spec_bind (txBits_wired (τ := τ) hK hD 8 v) fun _ => ?_
  · exact ⟨d, e, ⟨h0, hw.of_localRegs (localRegs_refl s)⟩, rfl⟩
  · refine spec_exists fun x' => spec_exists fun d' => spec_exists fun e' => spec_of_fact fun hd => ?_
    refine spec_bind (setSDA_low (hK _ _ _ hd)) fun _ => ?_
    refine spec_pre (rxCell_spec (I := fun _ => True) (fun _ _ _ h => h) (hK _ _ _ hd) fun l _ hl => ?_)
      fun s hs => ⟨hs, trivial⟩
    rw [Bool.true_and] at hl ⊢
    refine spec_bind (Q := fun _ t => ∃ now, τ ≤ now ∧ Wired H τ lines false true (eepromClock now e'.sOut e') t)
      (spec_upd fun s ⟨⟨now, hnow, hw⟩, _⟩ => ⟨rfl, now, hnow, hw.of_localRegs (localRegs_refl s)⟩) fun _ => ?_
    refine spec_bind (Q := fun _ t => ∃ now, τ ≤ now ∧ Wired H τ lines false true (eepromClock now e'.sOut e') t)
      (spec_upd fun s ⟨now, hnow, hw⟩ => ⟨rfl, now, hnow, hw.of_localRegs (localRegs_refl s)⟩) fun _ => ?_
    exact spec_pure _ fun s ⟨now, hnow, hw⟩ => ⟨x', e', now, hd, hnow, fun hH => by rw [hl hH], hw⟩

/-- A device that rests does not see the byte. -/
theorem txByte_rests (hK : K e.mem) (h : e.rests) (v : Byte) :
    Spec c (Wired H τ lines false d e) (txByte c v) (fun _ => Wired H τ lines false true e) (Aborted H lines K) :=
  spec_post (txByte_wired (D := fun _ _ e' => e' = e) (fun _ _ _ h => h ▸ hK)
    (by rintro _ _ _ now rfl -; exact eepromClock_idle now _ h.1) v rfl)
    fun _ t ⟨_, e', now, he, _, _, hw⟩ => by
      subst he
      rwa [eepromClock_idle now _ h.1] at hw

/-- A device that receives takes the byte in and answers it. -/
theorem txByte_listens {m : EepromMode} (hm : receiving m) (hK : K e.mem) (h : e.listens m) (v : Byte) :
    Spec c (Wired H τ lines false d e) (txByte c v)
      (fun ack t => ∃ now k, τ ≤ now ∧ k = eepromAcks now { e with shift := v } ∧ (H → ack = k)
        ∧ Wired H τ lines false true (eepromByteEnd { e with shift := v, bits := 9, sOut := !k }) t)
      (Aborted H lines K) := by
  obtain ⟨hmode, hbits, hout⟩ := h
  have hm' : receiving e.mode := hmode ▸ hm
  refine spec_post (txByte_wired (D := fun n x e' => n ≤ 8 ∧ ∃ acc, shiftThrough n x acc = v ∧
    ((0 < n ∧ e' = receivingCells e n acc) ∨ (n = 0 ∧ ∃ now, τ ≤ now ∧ e' = receivedByte now e acc)))
    ?_ ?_ v ⟨Nat.le_refl 8, e.shift, shiftThrough_eight v _, .inl ⟨by decide, ?_⟩⟩) ?_
  · rintro n x e' ⟨-, acc, -, ⟨-, rfl⟩ | ⟨-, now, -, rfl⟩⟩ <;> exact hK
  · rintro n x e' now ⟨hn, acc, hv, ⟨-, rfl⟩ | ⟨h0, -⟩⟩ hnow
    · rw [show (receivingCells e (n + 1) acc).sOut = true from hout, Bool.and_true]
      refine ⟨by omega, shiftedIn (x.getLsbD 7) acc, hv, ?_⟩
      rcases Nat.eq_zero_or_pos n with rfl | hpos
      · exact .inr ⟨rfl, now, hnow, eepromClock_receivingCells_last hm' now _ acc⟩
      · exact .inl ⟨hpos, eepromClock_receivingCells hm' now _ hpos hn acc⟩
    · cases h0
  · rw [receivingCells, Nat.sub_self, ← hbits]
  · rintro ack t ⟨x', e', now', ⟨-, acc, rfl, ⟨h0, -⟩ | ⟨-, now, hnow, rfl⟩⟩, -, hack, hw⟩
    · cases h0
    · refine ⟨now, _, hnow, rfl, fun hH => (hack hH).trans (Bool.not_not _), ?_⟩
      rwa [eepromClock_receivedByte hm'] at hw

/-- A device that sends, and hears the master send too, finds the acknowledge cell released and rests. -/
theorem txByte_sends (hK : K e.mem) (h : e.sends) (v : Byte) :
    Spec c (Wired H τ lines false d e) (txByte c v)
      (fun _ => Wired H τ lines false true { e with mode := .idle, sOut := true, bits := 0, mack := true })
      (Aborted H lines K) := by
  refine spec_post (txByte_wired (D := fun n _ e' => n ≤ 8 ∧ e' = sendingCells e n) ?_ ?_ v
    ⟨Nat.le_refl 8, (sendingCells_eight h).symm⟩) ?_
  · rintro n x e' ⟨-, rfl⟩
    exact hK
  · rintro n x e' now ⟨hn, rfl⟩ -
    exact ⟨by omega, eepromClock_sendingCells h.1 now _ hn⟩
  · rintro ack t ⟨x', e', now, ⟨-, rfl⟩, -, -, hw⟩
    exact eepromClock_send_nack (e := sendingCells e 0) now h.1 rfl ▸ hw

/-- The data cells of a byte that is received, for a property `D` of the device and the bits sampled so far. -/
theorem rxBits_wired {D : Nat → Byte → Eeprom → Prop} (hK : ∀ n acc e, D n acc e → K e.mem)
    (hD : ∀ n acc e now, D (n + 1) acc e → D n (shiftedIn e.sOut acc) (eepromClock now e.sOut e)) (n : Nat) :
    Spec c (fun s => ∃ acc e, (D n acc e ∧ Wired H τ lines false true e s) ∧ (H → s.shift = acc)) (rxBits c n)
      (fun _ t => ∃ acc e, (D 0 acc e ∧ Wired H τ lines false true e t) ∧ (H → t.shift = acc))
      (Aborted H lines K) := by
  induction n with
  | zero => exact spec_pure _ fun _ h => h
  | succ n ih =>
    refine spec_exists fun acc => spec_exists fun e => ?_
    refine spec_pre (P := fun s => D (n + 1) acc e ∧ Wired H τ lines false true e s ∧ (H → s.shift = acc))
      (spec_of_fact fun hd => ?_) fun s h => ⟨h.1.1, h.1.2, h.2⟩
    refine rxCell_spec (I := fun s => H → s.shift = acc) (fun s t hr hs hH => ?_) (hK _ _ _ hd) fun l _ hl => ?_
    · obtain ⟨-, -, -, -, -, hshift, -⟩ := hr
      exact hshift.trans (hs hH)
    · rw [Bool.true_and] at hl ⊢
      refine spec_bind (spec_upd fun s ⟨⟨now, _, hw⟩, hs⟩ => ⟨rfl, ?_⟩) fun _ => ih
      exact ⟨_, _, ⟨hD n acc e now hd, hw.of_localRegs (localRegs_refl s)⟩,
        fun hH => by rw [shiftIn_shift, hs hH, hl hH]; rfl⟩

/-- A byte that is received: its eight cells, then the master's ACK or NACK, then SDA released. -/
theorem rxByte_wired {D : Nat → Byte → Eeprom → Prop} (hK : ∀ n acc e, D n acc e → K e.mem)
    (hD : ∀ n acc e now, D (n + 1) acc e → D n (shiftedIn e.sOut acc) (eepromClock now e.sOut e)) (isLast : Bool)
    (h0 : D 8 0 e) :
    Spec c (Wired H τ lines false true e) (rxByte c isLast)
      (fun v t => ∃ acc e' now, D 0 acc e' ∧ (H → v = acc)
        ∧ Wired H τ lines false true (eepromClock now (isLast && e'.sOut) e') t) (Aborted H lines K) := by
  have hp := sameRegs_pinClosed c
  refine spec_bind (spec_upd fun s hw => ⟨rfl, ?_⟩) fun _ => spec_bind (rxBits_wired (τ := τ) hK hD 8) fun _ => ?_
  · exact ⟨0, e, ⟨h0, hw.of_localRegs (localRegs_refl s)⟩, fun _ => rfl⟩
  · refine spec_exists fun acc => spec_exists fun e' => ?_
    refine spec_pre (P := fun s => D 0 acc e' ∧ Wired H τ lines false true e' s ∧ (H → s.shift = acc))
      (spec_of_fact fun hd => ?_) fun s h => ⟨h.1.1, h.1.2, h.2⟩
    have hI : ∀ s t, sameRegs s t → (H → s.shift = acc) → H → t.shift = acc := by
      intro s t ⟨_, _, _, _, _, hshift, _⟩ hs hH
      exact hshift.trans (hs hH)
    refine txCell_spec hI (hK _ _ _ hd) fun _ => ?_
    refine spec_pre (P := fun s => ∃ now, Wired H τ lines false isLast (eepromClock now (isLast && e'.sOut) e') s
      ∧ (H → s.shift = acc)) (spec_exists fun now => ?_) fun s ⟨⟨now, _, hw⟩, hs⟩ => ⟨now, hw, hs⟩
    refine spec_bind (spec_frame (setSDA_low ?_) (setSDA_ends hp true) hI) fun _ => ?_
    · rw [eepromClock_mem]
      exact hK _ _ _ hd
    · refine spec_bind (Q := fun _ t => Wired H τ lines false true (eepromClock now (isLast && e'.sOut) e') t
        ∧ (H → t.shift = acc)) (spec_upd fun s ⟨hw, hs⟩ => ⟨rfl, hw.of_localRegs (localRegs_refl s), hs⟩) fun _ => ?_
      exact spec_peek fun v ⟨hw, hv⟩ => spec_pure _ (by rintro s rfl; exact ⟨acc, e', now, hd, hv, hw⟩)

theorem rxByte_rests (hK : K e.mem) (h : e.rests) (isLast : Bool) :
    Spec c (Wired H τ lines false true e) (rxByte c isLast) (fun _ => Wired H τ lines false true e)
      (Aborted H lines K) :=
  spec_post (rxByte_wired (D := fun _ _ e' => e' = e) (fun _ _ _ h => h ▸ hK)
    (by rintro _ _ _ now rfl; exact eepromClock_idle now _ h.1) isLast rfl)
    fun _ t ⟨_, e', now, he, _, hw⟩ => by
      subst he
      rwa [eepromClock_idle now _ h.1] at hw

/-- A device that sends delivers its byte; after the last it rests, otherwise it goes on to the next. -/
theorem rxByte_sends (hK : K e.mem) (h : e.sends) (isLast : Bool) :
    Spec c (Wired H τ lines false true e) (rxByte c isLast)
      (fun v t => (H → v = e.shift) ∧ Wired H τ lines false true
        (if isLast then { e with mode := .idle, sOut := true, bits := 0, mack := true }
          else eepromLoad { e with mack := false }) t) (Aborted H lines K) := by
  refine spec_post (rxByte_wired
    (D := fun n acc e' => n ≤ 8 ∧ shiftThrough n (e.shift <<< (8 - n)) acc = e.shift ∧ e' = sendingCells e n) ?_ ?_
    isLast ⟨Nat.le_refl 8, ?_, (sendingCells_eight h).symm⟩) ?_
  · rintro n acc e' ⟨-, -, rfl⟩
    exact hK
  · rintro n acc e' now ⟨hn, hv, rfl⟩
    refine ⟨by omega, ?_, eepromClock_sendingCells h.1 now _ hn⟩
    have hbit : (e.shift <<< (8 - (n + 1))).getLsbD 7 = (sendingCells e (n + 1)).sOut := by
      rw [BitVec.getLsbD_shiftLeft, show 7 - (8 - (n + 1)) = n by omega]
      simp [sendingCells, show ¬ 7 < 7 - n by omega]
    rw [shiftThrough, hbit, ← BitVec.shiftLeft_add, show 8 - (n + 1) + 1 = 8 - n by omega] at hv
    exact hv
  · exact (shiftThrough_eight _ _).trans (by simp)
  · rintro v t ⟨acc, e', now, ⟨-, hv, rfl⟩, hacc, hw⟩
    refine ⟨fun hH => (hacc hH).trans hv, ?_⟩
    cases isLast
    · exact (eepromClock_send_ack (e := sendingCells e 0) now h.1 rfl).trans
        (show _ = eepromLoad { e with mack := false } from rfl) ▸ hw
    · exact eepromClock_send_nack (e := sendingCells e 0) now h.1 rfl ▸ hw

end Wired

end Sys2Proof.Machine
end

section
/-! START, STOP and the bytes of a transaction against the reference EEPROM (20_memory.md R71 to R74), as the block
operations use them. `H` now also says that the device answers: it is named by the select bytes and in no write
cycle. Without `H` it may rest instead, and the master may have read any answer. -/

namespace Sys2Proof.Machine

/-! ### The device at a STOP and after a byte -/

/-- What the device does at a STOP: SCL rises with SDA low, then SDA is released, which it sees as a STOP if it does not
hold the line. -/
def eepromRelease (now : Nat) (e : Eeprom) : Eeprom :=
  if e.sOut then eepromStop now (eepromRise false e) else eepromRise false e

/-- The same device with the same content, whatever it is about. -/
def sameChip (e e' : Eeprom) : Prop :=
  e'.size = e.size ∧ e'.page = e.page ∧ e'.tWr = e.tWr ∧ e'.devsel = e.devsel ∧ e'.mem = e.mem
    ∧ e'.busyUntil = e.busyUntil

theorem sameChip_refl (e : Eeprom) : sameChip e e := ⟨rfl, rfl, rfl, rfl, rfl, rfl⟩

theorem sameChip.trans {e m t : Eeprom} (h : sameChip e m) (h' : sameChip m t) : sameChip e t := by
  unfold sameChip at *
  simp_all

theorem sameChip.mem {e e' : Eeprom} (h : sameChip e e') : e'.mem = e.mem := h.2.2.2.2.1

theorem eepromRise_sameChip (line : Bool) (e : Eeprom) :
    sameChip e (eepromRise line e) ∧ (eepromRise line e).ptr = e.ptr := by
  by_cases hb : e.bits < 8 <;> cases hm : e.mode <;> simp [eepromRise, sameChip, hm, hb]

theorem eepromRelease_rests {now : Nat} {e : Eeprom} (h : e.sOut = true) : (eepromRelease now e).rests := by
  rw [eepromRelease, if_pos h]
  exact ⟨rfl, rfl⟩

/-- A STOP with an empty page buffer leaves the device as it is but for its place in the transaction. -/
theorem eepromRelease_sameChip (now : Nat) {e : Eeprom} (h : e.mode = .rxData → e.w = []) :
    sameChip e (eepromRelease now e) ∧ (eepromRelease now e).ptr = e.ptr := by
  obtain ⟨hmode, -, -, hw⟩ := eepromRise_buffer false e
  unfold eepromRelease
  split
  · rw [eepromStop, if_neg (by rw [hmode, hw]; exact fun hc => hc.2 (h hc.1))]
    exact eepromRise_sameChip false e
  · exact eepromRise_sameChip false e

/-- A STOP with a page buffer writes it to memory, and the write cycle begins. -/
theorem eepromRelease_commit (now : Nat) {e : Eeprom} (h : e.listens .rxData) (hw : e.w ≠ []) :
    (eepromRelease now e).mem = commitFrom e.page e.wb e.mem 0 e.w ∧ (eepromRelease now e).page = e.page
      ∧ (eepromRelease now e).busyUntil = now + e.tWr := by
  obtain ⟨hm, hb, ho⟩ := h
  simp [eepromRelease, ho, eepromRise, hm, hb, eepromStop, eepromCommit, hw]

/-- Whatever the device is about, what a STOP leaves in memory. -/
theorem eepromRelease_mem (now : Nat) (e : Eeprom) :
    (eepromRelease now e).mem = e.mem
      ∨ (e.mode = .rxData ∧ (eepromRelease now e).mem = commitFrom e.page e.wb e.mem 0 e.w) := by
  obtain ⟨hmode, hpage, hwb, hw⟩ := eepromRise_buffer false e
  unfold eepromRelease
  split
  · rw [eepromStop_mem, hmode, hpage, hwb, hw, eepromRise_mem]
    split
    · exact .inr ⟨‹_›, rfl⟩
    · exact .inl rfl
  · exact .inl (eepromRise_mem false e)

/-- A byte that was not acknowledged puts the device to rest. -/
theorem eepromByteEnd_nack (e : Eeprom) (v : Byte) :
    sameChip e (eepromByteEnd { e with shift := v, bits := 9, sOut := true })
      ∧ (eepromByteEnd { e with shift := v, bits := 9, sOut := true }).rests :=
  ⟨⟨rfl, rfl, rfl, rfl, rfl, rfl⟩, rfl, rfl⟩

/-- A select byte in write position. -/
theorem eepromByteEnd_selectWrite {e : Eeprom} (h : e.listens .rxDev) {v : Byte} (hv : v.getLsbD 0 = false) :
    sameChip e (eepromByteEnd { e with shift := v, bits := 9, sOut := false })
      ∧ (eepromByteEnd { e with shift := v, bits := 9, sOut := false }).listens .rxWord := by
  have hv' : v[0] = false := by simpa using hv
  simp [eepromByteEnd, h.1, hv', sameChip, Eeprom.listens]

/-- A select byte in read position: the byte under the pointer is loaded. -/
theorem eepromByteEnd_selectRead {e : Eeprom} (h : e.listens .rxDev) {v : Byte} (hv : v.getLsbD 0 = true) :
    sameChip e (eepromByteEnd { e with shift := v, bits := 9, sOut := false })
      ∧ eepromByteEnd { e with shift := v, bits := 9, sOut := false }
        = eepromLoad { e with shift := v, bits := 9, sOut := true } := by
  have hv' : v[0] = true := by simpa using hv
  simp [eepromByteEnd, eepromLoad, h.1, hv', sameChip]

/-- The word-address byte. -/
theorem eepromByteEnd_word {e : Eeprom} (h : e.listens .rxWord) (v : Byte) :
    eepromByteEnd { e with shift := v, bits := 9, sOut := false }
      = { e with shift := v, mode := .rxData, bits := 0, sOut := true, ptr := v.toNat % e.size, wb := v, w := [] } := by
  simp [eepromByteEnd, h.1]

/-- A data byte goes to the page buffer. -/
theorem eepromByteEnd_data {e : Eeprom} (h : e.listens .rxData) (v : Byte) :
    eepromByteEnd { e with shift := v, bits := 9, sOut := false }
      = { e with shift := v, bits := 0, sOut := true, w := e.w ++ [v] } := by
  simp [eepromByteEnd, h.1]

/-- Between bytes, loaded with the byte under the pointer. -/
theorem eepromLoad_sends (e : Eeprom) : (eepromLoad e).sends := ⟨rfl, rfl, rfl⟩

/-! ### Where the device is in a transaction -/

/-- After the select byte in write position. -/
def selected (H : Prop) (e : Eeprom) : Prop := (¬ H ∧ (e.rests ∨ e.sends)) ∨ e.listens .rxWord

theorem selected.mode_ne {H : Prop} {e : Eeprom} (h : selected H e) : e.mode ≠ .rxData := by
  rcases h with ⟨-, h | h⟩ | h <;> rw [h.1] <;> simp

/-- After the word-address byte `v` and the data bytes `w`. -/
def addressed (H : Prop) (v : Byte) (w : List Byte) (e : Eeprom) : Prop :=
  (¬ H ∧ e.rests) ∨ (e.listens .rxData ∧ e.wb = v ∧ e.w = w ∧ e.ptr = v.toNat % e.size)

theorem addressed.sOut {H : Prop} {v : Byte} {w : List Byte} {e : Eeprom} (h : addressed H v w e) : e.sOut = true := by
  rcases h with ⟨-, h⟩ | ⟨⟨-, -, h⟩, -⟩
  · exact h.2
  · exact h

section Transaction

variable {c : Config} {H : Prop} {τ : Nat} {lines : StatusLines} {K : Memory → Prop} {d : Bool} {e : Eeprom}

theorem Wired.delay {scl sda : Bool} {s : State} (h : Wired H τ lines scl sda e s) (us : Nat) :
    Wired H τ lines scl sda e (delayEffect us s) :=
  ⟨h.bridge, h.scl, h.sda, h.world, h.now.trans (Nat.le_add_right _ _), h.replies⟩

theorem start_wired (hK : K e.mem) (h : e.sOut = true) :
    Spec c (Wired H τ lines true true e) (start c) (fun _ => Wired H τ lines false false (eepromStart e))
      (Aborted H lines K) := by
  have hpins : ∀ now, eepromPins now true true true false e = eepromStart e := by
    intro now
    simp [eepromPins, h]
  have hfall : ∀ now, eepromFall now (eepromStart e) = eepromStart e := by
    intro now
    simp [eepromFall, eepromStart]
  refine spec_bind (Q := fun _ => Wired H τ lines true true e)
    (spec_upd fun s hw => ⟨rfl, hw.of_localRegs (localRegs_refl s)⟩) fun _ => ?_
  refine spec_bind (setPin_wired (scl' := true) (sda' := false) (fun v h _ => ⟨by simpa using h, by simp⟩) hK
    fun now => by rw [hpins]; exact hK) fun _ => ?_
  refine spec_bind (spec_pre (setSCL_fall (e := eepromStart e) hK) fun s ⟨now, _, _, hw⟩ => hpins now ▸ hw) fun _ => ?_
  exact spec_upd fun s ⟨now, _, hw⟩ => ⟨rfl, (hfall now ▸ hw).of_localRegs (localRegs_refl s)⟩

theorem stop_wired (hK : K e.mem) (hK' : ∀ now, K (eepromRelease now e).mem) :
    Spec c (Wired H τ lines false d e) (stop c)
      (fun _ t => ∃ now, now ≤ t.now ∧ Wired H τ lines true true (eepromRelease now e) t) (Aborted H lines K) := by
  have hpins : ∀ now, eepromPins now true false true true (eepromRise false e) = eepromRelease now e := by
    intro now
    unfold eepromRelease
    cases h : e.sOut <;> simp [eepromPins, eepromRise_sOut, h]
  refine spec_bind (Q := fun _ => Wired H τ lines false d e)
    (spec_upd fun s hw => ⟨rfl, hw.of_localRegs (localRegs_refl s)⟩) fun _ => ?_
  refine spec_bind (setSDA_low (d := d) hK) fun _ => spec_bind (setSCL_rise hK) fun _ => ?_
  rw [Bool.false_and]
  refine spec_bind (setPin_wired (scl' := true) (sda' := true) (fun v h _ => ⟨by simpa using h, by simp⟩)
    (by rw [eepromRise_mem]; exact hK) fun now => by rw [hpins]; exact hK' now) fun _ => ?_
  exact spec_upd fun s ⟨now, _, hnow, hw⟩ => ⟨rfl, now, hnow, (hpins now ▸ hw).of_localRegs (localRegs_refl s)⟩

/-- A byte to a device that listens, by its answer. -/
theorem txByte_answered {m : EepromMode} (hm : receiving m) (hK : K e.mem) (h : e.listens m) {v : Byte}
    (hH : H → m = .rxDev → v ∈ e.devsel ∧ e.busyUntil ≤ τ) :
    Spec c (Wired H τ lines false d e) (txByte c v)
      (fun ack t => (H → ack = true) ∧ ∃ e', Wired H τ lines false true e' t
        ∧ ((¬ H ∧ m = .rxDev ∧ sameChip e e' ∧ e'.rests)
          ∨ e' = eepromByteEnd { e with shift := v, bits := 9, sOut := false }))
      (Aborted H lines K) := by
  refine spec_post (txByte_listens hm hK h v) fun ack t ⟨now, k, hnow, hk, hack, hw⟩ => ?_
  have hacks : (H → k = true) ∧ (k = false → ¬ H ∧ m = .rxDev) := by
    rcases hm with rfl | rfl | rfl
    · have hyes : H → k = true := fun hh => by
        obtain ⟨hv, hbusy⟩ := hH hh rfl
        simp [hk, eepromAcks, h.1, hv, hbusy.trans hnow]
      exact ⟨hyes, fun hf => ⟨fun hh => by simp [hyes hh] at hf, rfl⟩⟩
    · simp [hk, eepromAcks, h.1]
    · simp [hk, eepromAcks, h.1]
  refine ⟨fun hh => (hack hh).trans (hacks.1 hh), _, hw, ?_⟩
  cases k
  · exact .inl ⟨(hacks.2 rfl).1, (hacks.2 rfl).2, eepromByteEnd_nack e v⟩
  · exact .inr rfl

/-- The select byte in write position, or what a device takes for one. -/
theorem txByte_selectWrite (hK : K e.mem) (h : e.listens .rxDev) {v : Byte}
    (hH : H → v ∈ e.devsel ∧ e.busyUntil ≤ τ ∧ v.getLsbD 0 = false) :
    Spec c (Wired H τ lines false d e) (txByte c v)
      (fun ack t => (H → ack = true) ∧ ∃ e', sameChip e e' ∧ selected H e' ∧ Wired H τ lines false true e' t)
      (Aborted H lines K) := by
  refine spec_post (txByte_answered (.inl rfl) hK h fun hh _ => ⟨(hH hh).1, (hH hh).2.1⟩)
    fun ack t ⟨hack, e', hw, he'⟩ => ⟨hack, e', ?_⟩
  rcases he' with ⟨hh, -, hchip, hrests⟩ | rfl
  · exact ⟨hchip, .inl ⟨hh, .inl hrests⟩, hw⟩
  · cases hv : v.getLsbD 0
    · obtain ⟨hchip, hlistens⟩ := eepromByteEnd_selectWrite h hv
      exact ⟨hchip, .inr hlistens, hw⟩
    · obtain ⟨hchip, he⟩ := eepromByteEnd_selectRead h hv
      exact ⟨hchip, .inl ⟨fun hh => absurd (hv.symm.trans (hH hh).2.2) (by simp), .inr (he ▸ eepromLoad_sends _)⟩, hw⟩

/-- The word-address byte. -/
theorem txByte_word (hK : K e.mem) (h : selected H e) (v : Byte) :
    Spec c (Wired H τ lines false d e) (txByte c v)
      (fun ack t => (H → ack = true) ∧ ∃ e', sameChip e e' ∧ addressed H v [] e' ∧ Wired H τ lines false true e' t)
      (Aborted H lines K) := by
  rcases h with ⟨hh, hrests | hsends⟩ | hlistens
  · exact spec_post (txByte_rests hK hrests v) fun _ t hw =>
      ⟨fun hh' => absurd hh' hh, e, sameChip_refl e, .inl ⟨hh, hrests⟩, hw⟩
  · exact spec_post (txByte_sends hK hsends v) fun _ t hw =>
      ⟨fun hh' => absurd hh' hh, { e with mode := .idle, sOut := true, bits := 0, mack := true },
        ⟨rfl, rfl, rfl, rfl, rfl, rfl⟩, .inl ⟨hh, rfl, rfl⟩, hw⟩
  · refine spec_post (txByte_answered (.inr (.inl rfl)) hK hlistens (by simp))
      fun ack t ⟨hack, e', hw, he'⟩ => ⟨hack, e', ?_⟩
    rcases he' with ⟨-, hm, -⟩ | rfl
    · cases hm
    · rw [eepromByteEnd_word hlistens] at hw ⊢
      exact ⟨⟨rfl, rfl, rfl, rfl, rfl, rfl⟩, .inr ⟨⟨rfl, rfl, rfl⟩, rfl, rfl, rfl⟩, hw⟩

/-- A data byte. -/
theorem txByte_data (hK : K e.mem) {v : Byte} {w : List Byte} (h : addressed H v w e) (b : Byte) :
    Spec c (Wired H τ lines false d e) (txByte c b)
      (fun ack t => (H → ack = true) ∧ ∃ e', sameChip e e' ∧ addressed H v (w ++ [b]) e'
        ∧ Wired H τ lines false true e' t)
      (Aborted H lines K) := by
  rcases h with ⟨hh, hrests⟩ | ⟨hlistens, hwb, hbuf, hptr⟩
  · exact spec_post (txByte_rests hK hrests b) fun _ t hw =>
      ⟨fun hh' => absurd hh' hh, e, sameChip_refl e, .inl ⟨hh, hrests⟩, hw⟩
  · refine spec_post (txByte_answered (.inr (.inr rfl)) hK hlistens (by simp))
      fun ack t ⟨hack, e', hw, he'⟩ => ⟨hack, e', ?_⟩
    rcases he' with ⟨-, hm, -⟩ | rfl
    · cases hm
    · rw [eepromByteEnd_data hlistens] at hw ⊢
      exact ⟨⟨rfl, rfl, rfl, rfl, rfl, rfl⟩,
        .inr ⟨⟨hlistens.1, rfl, rfl⟩, hwb, congrArg (· ++ [b]) hbuf, hptr⟩, hw⟩

/-- The select byte in read position: the device sends, or rests. -/
theorem txByte_selectRead (hK : K e.mem) (h : e.listens .rxDev) {v : Byte} (hv : v.getLsbD 0 = true)
    (hH : H → v ∈ e.devsel ∧ e.busyUntil ≤ τ) :
    Spec c (Wired H τ lines false d e) (txByte c v)
      (fun ack t => (H → ack = true) ∧ ∃ e', sameChip e e' ∧ Wired H τ lines false true e' t
        ∧ ((¬ H ∧ e'.rests)
          ∨ (e'.sends ∧ e'.shift = e.mem.read e.ptr ∧ e'.ptr = (e.ptr + 1) % e.size)))
      (Aborted H lines K) := by
  refine spec_post (txByte_answered (.inl rfl) hK h fun hh _ => hH hh)
    fun ack t ⟨hack, e', hw, he'⟩ => ⟨hack, e', ?_⟩
  rcases he' with ⟨hh, -, hchip, hrests⟩ | rfl
  · exact ⟨hchip, hw, .inl ⟨hh, hrests⟩⟩
  · obtain ⟨hchip, he⟩ := eepromByteEnd_selectRead h hv
    refine ⟨hchip, hw, .inr ?_⟩
    rw [he]
    exact ⟨eepromLoad_sends _, rfl, rfl⟩

end Transaction

end Sys2Proof.Machine
end

section
/-! `readBlock` against the reference EEPROM: it stores nothing whatever it is answered (20_memory.md R59), and where the
device answers it returns the content (R60). -/

namespace Sys2Proof.Machine

/-! ### The block buffer -/

theorem blkAt_set (buf : Vector Byte 8) {j : Nat} (hj : j < 8) (v : Byte) (i : Nat) :
    blkAt (buf.setIfInBounds j v) i = if i = j then v else blkAt buf i := by
  unfold blkAt
  by_cases h : i = j
  · subst h
    simp [List.getD_eq_getElem?_getD, hj]
  · simp [List.getD_eq_getElem?_getD, h, Ne.symm h]

theorem blkPrefix_eq {buf : Vector Byte 8} {n : Nat} {f : Nat → Byte} (hn : n ≤ 8) (h : ∀ i, i < n → blkAt buf i = f i) :
    blkPrefix buf n = (List.range n).map f := by
  refine List.ext_getElem (by simp [blkPrefix, hn]) fun i h1 h2 => ?_
  have hi : i < n := by simpa using h2
  rw [List.getElem_map, List.getElem_range, ← h i hi]
  simp [blkPrefix, blkAt, List.getD_eq_getElem?_getD, show i < 8 by omega]

/-- The select byte in read position has its read bit set (30_encoding.md R96). -/
theorem devR_getLsbD_zero (addr : Addr) : (devR addr).getLsbD 0 = true := by
  simp [devR, Config.devselRBase]

/-! ### The receive loop -/

/-- `k` of the `n` bytes of the block have been stored, and under `H` they are those of `f`. -/
def gathered (H : Prop) (f : Nat → Byte) (n k : Nat) (s : State) : Prop :=
  s.len.toNat = n ∧ s.cnt.toNat = k ∧ (H → ∀ i, i < k → blkAt s.blkbuf i = f i)

theorem gathered.frame {H : Prop} {f : Nat → Byte} {n k : Nat} (s t : State) (hr : sameBlock s t)
    (h : gathered H f n k s) : gathered H f n k t := by
  obtain ⟨-, hlen, hcnt, hbuf, -⟩ := hr
  unfold gathered
  rw [hlen, hcnt, hbuf]
  exact h

theorem gathered.store {H : Prop} {f : Nat → Byte} {n k : Nat} {s : State} (h : gathered H f n k s) (hk : k < 8)
    {v : Byte} (hv : H → v = f k) : gathered H f n (k + 1) (storeByte v s) := by
  obtain ⟨hlen, hcnt, hbuf⟩ := h
  refine ⟨hlen, ?_, fun hH i hi => ?_⟩
  · rw [storeByte_cnt, BitVec.toNat_add, hcnt]
    exact Nat.mod_eq_of_lt (by simp; omega)
  · rw [storeByte_blkbuf, hcnt, blkAt_set _ hk]
    by_cases hik : i = k
    · rw [if_pos hik, hik, hv hH]
    · rw [if_neg hik, hbuf hH i (by omega)]

/-- The device with `k` bytes from `p` on delivered and `left` to go. -/
def reading (H : Prop) (p k left : Nat) (e : Eeprom) : Prop :=
  ((left = 0 ∨ ¬ H) ∧ e.rests)
    ∨ (0 < left ∧ e.sends
        ∧ (H → e.shift = e.mem.read ((p + k) % e.size) ∧ e.ptr = (p + k + 1) % e.size))

section Read

variable {c : Config} {H : Prop} {τ : Nat} {lines : StatusLines} {K : Memory → Prop} {e : Eeprom}

/-- The test for the last byte of the block. -/
theorem isLast_eq {cnt len : Nibble} {k left : Nat} (hcnt : cnt.toNat = k) (hlen : len.toNat = k + (left + 1)) :
    (cnt == len - 1) = decide (left = 0) := by
  have hsub : (len - 1).toNat = k + left := by
    have := len.isLt
    rw [BitVec.toNat_sub_of_le (BitVec.le_def.2 (by rw [hlen]; exact Nat.le_add_left 1 _)), hlen]
    simp
  rw [Bool.eq_iff_iff, beq_iff_eq, decide_eq_true_eq, ← BitVec.toNat_inj, hsub, hcnt]
  omega

/-- One byte of the block. -/
theorem rxByte_reading {p k left : Nat} (hK : K e.mem) (h : reading H p k (left + 1) e) {isLast : Bool}
    (hlast : isLast = decide (left = 0)) :
    Spec c (Wired H τ lines false true e) (rxByte c isLast)
      (fun v t => (H → v = e.mem.read ((p + k) % e.size)) ∧ ∃ e', sameChip e e' ∧ reading H p (k + 1) left e'
        ∧ Wired H τ lines false true e' t) (Aborted H lines K) := by
  rcases h with ⟨hh, hrests⟩ | ⟨-, hsends, hpos⟩
  · have hh : ¬ H := hh.resolve_left (by omega)
    exact spec_post (rxByte_rests hK hrests isLast) fun _ _ hw =>
      ⟨fun hH => absurd hH hh, e, sameChip_refl e, .inl ⟨.inr hh, hrests⟩, hw⟩
  · refine spec_post (rxByte_sends hK hsends isLast) fun v t ⟨hv, hw⟩ => ⟨fun hH => (hv hH).trans (hpos hH).1, ?_⟩
    rcases Nat.eq_zero_or_pos left with h0 | hpos'
    · rw [hlast, decide_eq_true h0, if_pos rfl] at hw
      refine ⟨_, ?_, .inl ⟨.inl h0, ?_⟩, hw⟩
      · exact sameChip_refl e
      · exact ⟨rfl, rfl⟩
    · rw [hlast, decide_eq_false (by omega), if_neg Bool.false_ne_true] at hw
      refine ⟨_, ?_, .inr ⟨hpos', ?_, fun hH => ?_⟩, hw⟩
      · exact sameChip_refl e
      · exact eepromLoad_sends _
      · have hptr := (hpos hH).2
        refine ⟨congrArg e.mem.read hptr, ?_⟩
        show (e.ptr + 1) % e.size = (p + (k + 1) + 1) % e.size
        rw [hptr, Nat.mod_add_mod, Nat.add_assoc p k 1]

theorem readBytes_wired {p n k left : Nat} (hK : K e.mem) (hn : n ≤ 8) (hleft : k + left = n)
    (h : reading H p k left e) :
    Spec c (fun s => Wired H τ lines false true e s ∧ gathered H (fun i => e.mem.read ((p + i) % e.size)) n k s)
      (readBytes c left)
      (fun _ t => ∃ e', sameChip e e' ∧ e'.rests ∧ Wired H τ lines false true e' t
        ∧ gathered H (fun i => e.mem.read ((p + i) % e.size)) n n t) (Aborted H lines K) := by
  induction left generalizing e k with
  | zero =>
    have hrests : e.rests := by
      rcases h with ⟨-, h⟩ | ⟨h, -⟩
      · exact h
      · cases h
    obtain rfl : k = n := hleft
    exact spec_pure _ fun s ⟨hw, hg⟩ => ⟨e, sameChip_refl e, hrests, hw, hg⟩
  | succ left ih =>
    have hends : ∀ l, Ends c sameBlock (fun _ _ => True) (rxByte c l) :=
      rxByte_ends (sameBlock_pinClosed c) fun _ _ => localBus.sameBlock
    refine spec_peek fun v ⟨hw, hg⟩ => ?_
    have hlast := isLast_eq hg.2.1 (hg.1.trans hleft.symm)
    refine spec_bind (spec_pre (spec_frame (rxByte_reading hK h hlast) (hends _) gathered.frame)
      (by rintro s rfl; exact ⟨hw, hg⟩)) fun v => ?_
    refine spec_pre (P := fun s => ∃ e', (sameChip e e' ∧ reading H p (k + 1) left e')
      ∧ (H → v = e.mem.read ((p + k) % e.size)) ∧ Wired H τ lines false true e' s
      ∧ gathered H (fun i => e.mem.read ((p + i) % e.size)) n k s)
      (spec_exists fun e' => spec_of_fact fun ⟨hchip, hr⟩ => ?_)
      fun s ⟨⟨hv, e', hchip, hr, hw⟩, hg⟩ => ⟨e', ⟨hchip, hr⟩, hv, hw, hg⟩
    have hmem : (fun i => e.mem.read ((p + i) % e.size)) = fun i => e'.mem.read ((p + i) % e'.size) := by
      rw [hchip.mem, hchip.1]
    rw [hmem]
    refine spec_bind (spec_upd fun s ⟨hv, hw, hg⟩ =>
        ⟨rfl, hw.of_localRegs (localRegs_refl s), hg.store (by omega) fun hH => ?_⟩)
      fun _ => spec_post (ih (hchip.mem.symm ▸ hK) (by omega) hr) fun _ t ⟨e'', hchip', h⟩ => ⟨e'', hchip.trans hchip', h⟩
    rw [hv hH, hchip.mem, hchip.1]

/-! ### The transaction -/

/-- The body of `readBlock` has left the loop: nothing waits to be committed, and under `H` all `n` bytes are there. -/
def readDone (H : Prop) (τ : Nat) (lines : StatusLines) (e : Eeprom) (f : Nat → Byte) (n : Nat) (ok : Bool) (t : State) :
    Prop :=
  ∃ e', (sameChip e e' ∧ (e'.mode = .rxData → e'.w = [])) ∧ Wired H τ lines false true e' t ∧ t.len.toNat = n
    ∧ (H → ok = true ∧ ∀ i, i < n → blkAt t.blkbuf i = f i)

theorem readDone.of_sameChip {f f' : Nat → Byte} {n : Nat} {ok : Bool} {t : State} {e' : Eeprom} (hchip : sameChip e e')
    (hf : f' = f) (h : readDone H τ lines e' f' n ok t) : readDone H τ lines e f n ok t := by
  obtain ⟨e'', ⟨hchip', hmode⟩, h⟩ := h
  exact ⟨e'', ⟨hchip.trans hchip', hmode⟩, hf ▸ h⟩

/-- The select byte and the bytes received. -/
theorem readSelected_wired {addr : Addr} {length : Nibble} {p n : Nat} {d : Bool} (hK : K e.mem)
    (hlength : length.toNat = n) (hn : n ≤ 8) (hpos : 0 < n) (h : e.listens .rxDev)
    (hH : H → devR addr ∈ e.devsel ∧ e.busyUntil ≤ τ ∧ e.ptr = p % e.size) :
    Spec c (fun s => Wired H τ lines false d e s ∧ s.len.toNat = n) (readSelected c addr length)
      (readDone H τ lines e (fun i => e.mem.read ((p + i) % e.size)) n) (Aborted H lines K) := by
  have hends := txByte_ends (sameBlock_pinClosed c) (fun _ _ => localBus.sameBlock) (devR addr)
  refine spec_bind (spec_frame (txByte_selectRead hK h (devR_getLsbD_zero addr) fun hh => ⟨(hH hh).1, (hH hh).2.1⟩) hends
    fun s t hr hlen => hr.2.1 ▸ hlen) fun ack => ?_
  refine spec_pre (P := fun s => ∃ e', ((H → ack = true) ∧ sameChip e e' ∧ ((¬ H ∧ e'.rests) ∨ (e'.sends
    ∧ e'.shift = e.mem.read e.ptr ∧ e'.ptr = (e.ptr + 1) % e.size))) ∧ Wired H τ lines false true e' s ∧ s.len.toNat = n)
    (spec_exists fun e' => spec_of_fact fun ⟨hack, hchip, he'⟩ => ?_)
    fun s ⟨⟨hack, e', hchip, hw, he'⟩, hlen⟩ => ⟨e', ⟨hack, hchip, he'⟩, hw, hlen⟩
  have hf : (fun i => e'.mem.read ((p + i) % e'.size)) = fun i => e.mem.read ((p + i) % e.size) := by
    rw [hchip.mem, hchip.1]
  cases ack
  · refine spec_pure _ fun s ⟨hw, hlen⟩ => ⟨e', ⟨hchip, fun hm => ?_⟩, hw, hlen, fun hh => absurd (hack hh) (by simp)⟩
    rcases he' with ⟨-, hrests⟩ | ⟨hsends, -⟩
    · exact absurd (hrests.1.symm.trans hm) (by simp)
    · exact absurd (hsends.1.symm.trans hm) (by simp)
  · have hreading : reading H p 0 n e' := by
      rcases he' with ⟨hh, hrests⟩ | ⟨hsends, hshift, hptr⟩
      · exact .inl ⟨.inr hh, hrests⟩
      · refine .inr ⟨hpos, hsends, fun hh => ?_⟩
        rw [hshift, hptr, hchip.mem, hchip.1, (hH hh).2.2, Nat.mod_add_mod]
        exact ⟨rfl, rfl⟩
    refine spec_bind (Q := fun _ s => Wired H τ lines false true e' s
      ∧ gathered H (fun i => e'.mem.read ((p + i) % e'.size)) n 0 s)
      (spec_upd fun s ⟨hw, hlen⟩ =>
        ⟨rfl, hw.of_localRegs (localRegs_refl s), hlen, rfl, fun _ i hi => absurd hi (Nat.not_lt_zero i)⟩)
      fun _ => ?_
    rw [hlength]
    refine spec_bind (readBytes_wired (hchip.mem.symm ▸ hK) hn (Nat.zero_add n) hreading) fun _ => ?_
    refine spec_pure true fun s ⟨e'', hchip', hrests, hw, hlen, _, hbytes⟩ => ?_
    exact ⟨e'', ⟨hchip.trans hchip', fun hm => absurd (hrests.1.symm.trans hm) (by simp)⟩, hw, hlen,
      fun hh => ⟨rfl, hf ▸ hbytes hh⟩⟩

/-- From the word-address byte on. -/
theorem readAddressed_wired {addr : Addr} {length : Nibble} {n : Nat} {d : Bool} (hlength : length.toNat = n) (hn : n ≤ 8)
    (hpos : 0 < n) (h : selected H e) (hH : H → devR addr ∈ e.devsel ∧ e.busyUntil ≤ τ) :
    Spec c (fun s => Wired H τ lines false d e s ∧ s.len.toNat = n) (readAddressed c addr length)
      (readDone H τ lines e (fun i => e.mem.read (((wordByte addr).toNat + i) % e.size)) n)
      (Aborted H lines fun m => m = e.mem) := by
  have hp := sameBlock_pinClosed c
  have hl : ∀ s t, localBus s t → sameBlock s t := fun _ _ => localBus.sameBlock
  have hI : ∀ s t, sameBlock s t → s.len.toNat = n → t.len.toNat = n := fun s t hr hlen => hr.2.1 ▸ hlen
  refine spec_bind (spec_frame (txByte_word (K := fun m => m = e.mem) rfl h _) (txByte_ends hp hl _) hI) fun ack => ?_
  refine spec_pre (P := fun s => ∃ e', ((H → ack = true) ∧ sameChip e e' ∧ addressed H (wordByte addr) [] e')
    ∧ Wired H τ lines false true e' s ∧ s.len.toNat = n)
    (spec_exists fun e' => spec_of_fact fun ⟨hack, hchip, he'⟩ => ?_)
    fun s ⟨⟨hack, e', hchip, he', hw⟩, hlen⟩ => ⟨e', ⟨hack, hchip, he'⟩, hw, hlen⟩
  have hempty : e'.mode = .rxData → e'.w = [] := by
    rcases he' with ⟨-, hrests⟩ | ⟨-, -, hw, -⟩
    · exact fun hm => absurd (hrests.1.symm.trans hm) (by simp)
    · exact fun _ => hw
  cases ack
  · exact spec_pure _ fun s ⟨hw, hlen⟩ => ⟨e', ⟨hchip, hempty⟩, hw, hlen, fun hh => absurd (hack hh) (by simp)⟩
  · have hmem : ∀ now, (eepromRelease now e').mem = e.mem := fun now =>
      (eepromRelease_sameChip now hempty).1.mem.trans hchip.mem
    refine spec_bind (spec_frame (stop_wired hchip.mem hmem) (stop_ends hp hl) hI) fun _ => ?_
    refine spec_pre (P := fun s => ∃ now, Wired H τ lines true true (eepromRelease now e') s ∧ s.len.toNat = n)
      (spec_exists fun now => ?_) fun s ⟨⟨now, _, hw⟩, hlen⟩ => ⟨now, hw, hlen⟩
    obtain ⟨hstill, hptr⟩ := eepromRelease_sameChip now hempty
    have hchip' := hchip.trans hstill
    have hchip'' : sameChip e (eepromStart (eepromRelease now e')) := hchip'
    refine spec_bind (Q := fun _ s => Wired H τ lines true true (eepromRelease now e') s ∧ s.len.toNat = n)
      (spec_upd fun s ⟨hw, hlen⟩ => ⟨rfl, hw.delay _, hlen⟩) fun _ => ?_
    refine spec_bind (spec_frame (start_wired (hmem now) (eepromRelease_rests he'.sOut).2) (start_ends hp hl) hI)
      fun _ => ?_
    refine spec_post (readSelected_wired (e := eepromStart (eepromRelease now e')) (p := (wordByte addr).toNat)
      (K := fun m => m = e.mem) (hmem now) hlength hn hpos ⟨rfl, rfl, rfl⟩ fun hh => ?_) fun ok t hdone =>
        hdone.of_sameChip hchip'' ?_
    · obtain ⟨hsize, -, -, hdevsel, -, hbusy⟩ := hchip''
      refine ⟨hdevsel ▸ (hH hh).1, hbusy ▸ (hH hh).2, ?_⟩
      rcases he' with ⟨hh', -⟩ | ⟨-, -, -, hptr'⟩
      · exact absurd hh hh'
      · rw [hsize, ← hchip.1]
        exact hptr.trans hptr'
    · rw [hchip''.mem, hchip''.1]

theorem readBody_wired {addr : Addr} {length : Nibble} {n : Nat} (hlength : length.toNat = n) (hn : n ≤ 8) (hpos : 0 < n)
    (h : e.sOut = true) (hH : H → devW addr ∈ e.devsel ∧ devR addr ∈ e.devsel ∧ e.busyUntil ≤ τ
      ∧ (devW addr).getLsbD 0 = false) :
    Spec c (fun s => Wired H τ lines true true e s ∧ s.len.toNat = n) (readBody c addr length)
      (readDone H τ lines e (fun i => e.mem.read (((wordByte addr).toNat + i) % e.size)) n)
      (Aborted H lines fun m => m = e.mem) := by
  have hp := sameBlock_pinClosed c
  have hl : ∀ s t, localBus s t → sameBlock s t := fun _ _ => localBus.sameBlock
  have hI : ∀ s t, sameBlock s t → s.len.toNat = n → t.len.toNat = n := fun s t hr hlen => hr.2.1 ▸ hlen
  refine spec_bind (spec_frame (start_wired (K := fun m => m = e.mem) rfl h) (start_ends hp hl) hI) fun _ => ?_
  refine spec_bind (spec_frame (txByte_selectWrite (e := eepromStart e) (K := fun m => m = e.mem)
    rfl ⟨rfl, rfl, rfl⟩ fun hh =>
    ⟨(hH hh).1, (hH hh).2.2.1, (hH hh).2.2.2⟩) (txByte_ends hp hl _) hI) fun ack => ?_
  refine spec_pre (P := fun s => ∃ e', ((H → ack = true) ∧ sameChip e e' ∧ selected H e')
    ∧ Wired H τ lines false true e' s ∧ s.len.toNat = n)
    (spec_exists fun e' => spec_of_fact fun ⟨hack, hchip, he'⟩ => ?_)
    fun s ⟨⟨hack, e', hchip, he', hw⟩, hlen⟩ => ⟨e', ⟨hack, hchip, he'⟩, hw, hlen⟩
  cases ack
  · refine spec_pure _ fun s ⟨hw, hlen⟩ => ⟨e', ⟨hchip, fun hm => ?_⟩, hw, hlen, fun hh => absurd (hack hh) (by simp)⟩
    exact absurd hm he'.mode_ne
  · refine spec_mono (readAddressed_wired hlength hn hpos he' fun hh => ?_) (fun _ h => h)
      (fun ok t hdone => hdone.of_sameChip hchip ?_) fun t ⟨hh, e'', hw, hm⟩ => ⟨hh, e'', hw, hm.trans hchip.mem⟩
    · obtain ⟨-, -, -, hdevsel, -, hbusy⟩ := hchip
      exact ⟨hdevsel ▸ (hH hh).2.1, hbusy ▸ (hH hh).2.2.1⟩
    · rw [hchip.mem, hchip.1]

/-- `readBlock` leaves the memory; under `H` it returns the content from the word address on. -/
theorem readBlock_wired {addr : Addr} {length : Nibble} {n : Nat} (hlength : length.toNat = n) (hn : n ≤ 8) (hpos : 0 < n)
    (h : e.sOut = true) (hH : H → devW addr ∈ e.devsel ∧ devR addr ∈ e.devsel ∧ e.busyUntil ≤ τ
      ∧ (devW addr).getLsbD 0 = false) :
    Spec c (Wired H τ lines true true e) (readBlock c addr length)
      (fun r t => (∃ e', t.world = .reference lines e' ∧ e'.mem = e.mem)
        ∧ (H → r = (true, (List.range n).map fun i => e.mem.read (((wordByte addr).toNat + i) % e.size))))
      (Aborted H lines fun m => m = e.mem) := by
  rw [readBlock_eq]
  refine spec_bind (Q := fun _ s => Wired H τ lines true true e s ∧ s.len.toNat = n)
    (spec_upd fun s hw => ⟨rfl, hw.of_localRegs (localRegs_refl s), hlength⟩) fun _ => ?_
  refine spec_bind (readBody_wired hlength hn hpos h hH) fun ok =>
    spec_exists fun e' => spec_of_fact fun ⟨hchip, hempty⟩ => ?_
  have hmem : ∀ now, (eepromRelease now e').mem = e.mem := fun now =>
    (eepromRelease_sameChip now hempty).1.mem.trans hchip.mem
  refine spec_bind (spec_frame (stop_wired hchip.mem hmem)
    (stop_ends (sameBlock_pinClosed c) fun _ _ => localBus.sameBlock) fun s t hr hs => ?_) fun _ => ?_
  · obtain ⟨-, hlen, -, hbuf, -⟩ := hr
    rwa [hlen, hbuf]
  · refine spec_bind (Q := fun _ t => (∃ e', t.world = .reference lines e' ∧ e'.mem = e.mem) ∧ (H → t.len.toNat = n
      ∧ ok = true ∧ ∀ i, i < n → blkAt t.blkbuf i = e.mem.read (((wordByte addr).toNat + i) % e.size)))
      (spec_upd fun s ⟨⟨now, _, hw⟩, hlen, hbytes⟩ => ?_) fun _ => spec_peek fun v ⟨hv, hbytes⟩ => ?_
    · cases ok
      · exact ⟨rfl, ⟨_, hw.world, hmem now⟩, fun hh => absurd (hbytes hh).1 (by simp)⟩
      · exact ⟨rfl, ⟨_, hw.world, hmem now⟩, fun hh => ⟨hlen, hbytes hh⟩⟩
    · refine spec_pure _ fun s hs => ⟨hs ▸ hv, fun hh => ?_⟩
      obtain ⟨hlen, hok, hbytes⟩ := hbytes hh
      rw [hok, hlen, blkPrefix_eq hn hbytes]

end Read

/-! ### From a quiet bus -/

theorem quiet.wired {H : Prop} {lines : StatusLines} {e : Eeprom} {s : State} (h : quiet s)
    (hw : s.world = .reference lines e) (hr : H → s.replies = []) :
    Wired H s.now lines true true e s ∧ e.sOut = true := by
  obtain ⟨⟨hscl, hsda⟩, hbridge, hdev⟩ := h
  rw [hw] at hdev
  exact ⟨⟨hbridge, hscl, hsda, hw, Nat.le_refl _, hr⟩, hdev⟩

theorem select_of_low {addr : Addr} (h : addr.toNat < 256) :
    devW addr = 0xA0 ∧ devR addr = 0xA1 ∧ (wordByte addr).toNat = addr.toNat := by
  have hhigh : highAddrBits addr = 0 := by
    have : addr >>> 8 = 0 := by
      apply BitVec.eq_of_toNat_eq
      rw [BitVec.toNat_ushiftRight, Nat.shiftRight_eq_div_pow]
      exact Nat.div_eq_of_lt h
    simp [highAddrBits, this]
  refine ⟨by rw [devW, hhigh]; rfl, by rw [devR, hhigh]; rfl, ?_⟩
  rw [wordByte_eq, BitVec.extractLsb'_toNat]
  simpa using h

/-- Settles O51: the pointer starts at the word address and every byte goes through unchanged. -/
theorem memReadReturnsTheContent : Obligations.MemReadReturnsTheContent := by
  intro addr n s lines e h1 h8 hlow hsize hw hr hbusy hworld hreplies hquiet
  obtain ⟨hdevW, hdevR, hword⟩ := select_of_low (show addr.toNat < 256 by omega)
  obtain ⟨hwired, hout⟩ := hquiet.wired (H := True) hworld fun _ => hreplies
  have hn : (BitVec.ofNat 4 n).toNat = n := Nat.mod_eq_of_lt (by omega)
  have hspec := readBlock_wired (c := s.cfg) (H := True) (τ := s.now) (lines := lines) (addr := addr) hn h8 h1 hout
    fun _ => ⟨hdevW ▸ hw, hdevR ▸ hr, hbusy, by rw [hdevW]; rfl⟩
  rcases finish_spec (mk := fun r => .block r.1 r.2) hspec hwired with ⟨r, t, ⟨-, hres⟩, hf⟩ | ⟨hno, -⟩
  · refine ⟨_, (if_pos ((blockLengthOk_iff _).2 ⟨hn.symm ▸ h1, hn.symm ▸ h8⟩)).trans (congrArg _ hf), ?_⟩
    rw [hres trivial]
    refine congrArg (Result.block true) (List.map_congr_left fun k hk => ?_)
    rw [hword, Nat.mod_eq_of_lt (by have := List.mem_range.1 hk; omega)]
  · exact absurd trivial hno

end Sys2Proof.Machine
end

section
/-! `writeBlock` against the reference EEPROM: whatever it is answered it stores at most at the addresses of its data
(20_memory.md R74), and where the device answers it stores all of them (R60). -/

namespace Sys2Proof.Machine

/-! ### Memory and buffer -/

/-- A page commit whose bytes do not wrap, in full. -/
theorem commitFrom_read {page : Nat} {wb : Byte} {w : List Byte} {m : Memory} {i base : Nat} (hm : m.wf = true)
    (h : ∀ j, i ≤ j → j < i + w.length → commitAddr page wb j = base + j) (a : Nat) :
    (commitFrom page wb m i w).read a =
      if base + i ≤ a ∧ a < base + i + w.length then w.getD (a - (base + i)) 0 else m.read a := by
  induction w generalizing m i with
  | nil =>
    rw [if_neg (by simp)]
    rfl
  | cons b rest ih =>
    have hb := h i (Nat.le_refl i) (by simp)
    rw [commitFrom, ih (Memory.write_wf hm _ _) fun j h1 h2 => h j (by omega) (by rw [List.length_cons]; omega),
      Memory.read_write hm, hb]
    rcases Nat.lt_trichotomy a (base + i) with hlt | rfl | hgt
    · rw [if_neg (by omega), if_neg (by omega), if_neg (by omega)]
    · rw [if_neg (by omega), if_pos rfl, if_pos (by simp), Nat.sub_self]
      rfl
    · rw [if_neg (show a ≠ base + i by omega), show a - (base + i) = a - (base + (i + 1)) + 1 by omega, List.getD_cons_succ,
        List.length_cons]
      congr 1
      exact propext ⟨fun h => by omega, fun h => by omega⟩

/-- The data to send, in the block buffer. -/
theorem blkAt_storeFrom (buf : Vector Byte 8) (j : Nat) (data : List Byte) (h : j + data.length ≤ 8) (i : Nat) :
    blkAt (storeFrom buf j data) i = if j ≤ i ∧ i < j + data.length then data.getD (i - j) 0 else blkAt buf i := by
  induction data generalizing buf j with
  | nil =>
    rw [if_neg (by simp)]
    rfl
  | cons b rest ih =>
    rw [List.length_cons] at h
    rw [storeFrom, ih _ _ (by omega), blkAt_set _ (by omega), List.length_cons]
    rcases Nat.lt_trichotomy i j with hlt | rfl | hgt
    · rw [if_neg (by omega), if_neg (by omega), if_neg (by omega)]
    · rw [if_neg (by omega), if_pos rfl, if_pos (by omega), Nat.sub_self]
      rfl
    · rw [if_neg (show i ≠ j by omega), show i - j = i - (j + 1) + 1 by omega, List.getD_cons_succ]
      congr 1
      exact propext ⟨fun h => by omega, fun h => by omega⟩

theorem take_append_getD {data : List Byte} {k : Nat} (h : k < data.length) :
    data.take k ++ [data.getD k 0] = data.take (k + 1) := by
  rw [List.take_add_one, List.getD_eq_getElem?_getD, List.getElem?_eq_getElem h]
  rfl

/-! ### The transmit loop -/

/-- `k` bytes have been sent of the data that the block buffer holds. -/
def holdsData (data : List Byte) (k : Nat) (s : State) : Prop :=
  s.cnt.toNat = k ∧ ∀ i, i < data.length → blkAt s.blkbuf i = data.getD i 0

theorem holdsData.frame {data : List Byte} {k : Nat} (s t : State) (hr : sameBlock s t) (h : holdsData data k s) :
    holdsData data k t := by
  obtain ⟨-, -, hcnt, hbuf, -⟩ := hr
  unfold holdsData
  rw [hcnt, hbuf]
  exact h

section Write

variable {c : Config} {H : Prop} {τ : Nat} {lines : StatusLines} {K : Memory → Prop} {e : Eeprom} {data : List Byte}

/-- The body of `writeBlock` has got as far as `j` data bytes, under `H` all of them; or only a select byte was sent,
which was not acknowledged. -/
def writeDone (H : Prop) (τ : Nat) (lines : StatusLines) (e : Eeprom) (wb : Byte) (data : List Byte) (ok : Bool)
    (t : State) : Prop :=
  ∃ e', (sameChip e e' ∧ ((ok = false ∧ ¬ H ∧ e'.mode ≠ .rxData)
      ∨ ∃ j, j ≤ data.length ∧ addressed H wb (data.take j) e' ∧ (H → ok = true ∧ j = data.length)))
    ∧ Wired H τ lines false true e' t

theorem writeDone.of_sameChip {wb : Byte} {ok : Bool} {t : State} {e' : Eeprom} (hchip : sameChip e e')
    (h : writeDone H τ lines e' wb data ok t) : writeDone H τ lines e wb data ok t := by
  obtain ⟨e'', ⟨hchip', hj⟩, hw⟩ := h
  exact ⟨e'', ⟨hchip.trans hchip', hj⟩, hw⟩

theorem writeBytes_wired {wb : Byte} {k left : Nat} (hK : K e.mem) (hn : data.length ≤ 8) (hleft : k + left = data.length)
    (h : addressed H wb (data.take k) e) :
    Spec c (fun s => Wired H τ lines false true e s ∧ holdsData data k s) (writeBytes c left)
      (writeDone H τ lines e wb data) (Aborted H lines K) := by
  induction left generalizing e k with
  | zero =>
    exact spec_pure true fun s ⟨hw, _⟩ =>
      ⟨e, ⟨sameChip_refl e, .inr ⟨k, by omega, h, fun _ => ⟨rfl, by omega⟩⟩⟩, hw⟩
  | succ left ih =>
    have hends : ∀ b, Ends c sameBlock (fun _ _ => True) (txByte c b) :=
      txByte_ends (sameBlock_pinClosed c) fun _ _ => localBus.sameBlock
    refine spec_peek fun v ⟨hw, hv⟩ => ?_
    have hbyte : blkAt v.blkbuf v.cnt.toNat = data.getD k 0 := by rw [hv.1, hv.2 k (by omega)]
    rw [hbyte]
    refine spec_bind (spec_pre (spec_frame (txByte_data hK h _) (hends _) holdsData.frame)
      (by rintro s rfl; exact ⟨hw, hv⟩)) fun ack => ?_
    rw [take_append_getD (by omega)]
    refine spec_pre (P := fun s => ∃ e', ((H → ack = true) ∧ sameChip e e' ∧ addressed H wb (data.take (k + 1)) e')
      ∧ Wired H τ lines false true e' s ∧ holdsData data k s)
      (spec_exists fun e' => spec_of_fact fun ⟨hack, hchip, he'⟩ => ?_)
      fun s ⟨⟨hack, e', hchip, he', hw⟩, hs⟩ => ⟨e', ⟨hack, hchip, he'⟩, hw, hs⟩
    cases ack
    · exact spec_pure _ fun s ⟨hw, _⟩ =>
        ⟨e', ⟨hchip, .inr ⟨k + 1, by omega, he', fun hh => absurd (hack hh) (by simp)⟩⟩, hw⟩
    · refine spec_bind (Q := fun _ s => Wired H τ lines false true e' s ∧ holdsData data (k + 1) s)
        (spec_upd fun s ⟨hw, hcnt, hbuf⟩ => ⟨rfl, hw.of_localRegs (localRegs_refl s), ?_, hbuf⟩) fun _ =>
        spec_post (ih (hchip.mem.symm ▸ hK) (by omega) he') fun _ _ h => h.of_sameChip hchip
      show (s.cnt + 1).toNat = k + 1
      rw [BitVec.toNat_add, hcnt]
      exact Nat.mod_eq_of_lt (by simp; omega)

/-! ### The transaction -/

/-- From the word-address byte on. -/
theorem writeAddressed_wired {addr : Addr} {d : Bool} (hK : K e.mem) (hn : data.length ≤ 8) (h : selected H e) :
    Spec c (fun s => Wired H τ lines false d e s ∧ ∀ i, i < data.length → blkAt s.blkbuf i = data.getD i 0)
      (writeAddressed c addr data.length) (writeDone H τ lines e (wordByte addr) data) (Aborted H lines K) := by
  refine spec_bind (spec_frame (txByte_word hK h _)
    (txByte_ends (sameBlock_pinClosed c) (fun _ _ => localBus.sameBlock) _) fun s t hr hs => ?_) fun ack => ?_
  · obtain ⟨-, -, -, hbuf, -⟩ := hr
    rwa [hbuf]
  · refine spec_pre (P := fun s => ∃ e', ((H → ack = true) ∧ sameChip e e' ∧ addressed H (wordByte addr) [] e')
      ∧ Wired H τ lines false true e' s ∧ ∀ i, i < data.length → blkAt s.blkbuf i = data.getD i 0)
      (spec_exists fun e' => spec_of_fact fun ⟨hack, hchip, he'⟩ => ?_)
      fun s ⟨⟨hack, e', hchip, he', hw⟩, hs⟩ => ⟨e', ⟨hack, hchip, he'⟩, hw, hs⟩
    cases ack
    · exact spec_pure _ fun s ⟨hw, _⟩ =>
        ⟨e', ⟨hchip, .inr ⟨0, Nat.zero_le _, he', fun hh => absurd (hack hh) (by simp)⟩⟩, hw⟩
    · exact spec_bind (Q := fun _ s => Wired H τ lines false true e' s ∧ holdsData data 0 s)
        (spec_upd fun s ⟨hw, hs⟩ => ⟨rfl, hw.of_localRegs (localRegs_refl s), rfl, hs⟩) fun _ =>
        spec_post (writeBytes_wired (hchip.mem.symm ▸ hK) hn (Nat.zero_add _) he') fun _ _ h => h.of_sameChip hchip

theorem writeBody_wired {addr : Addr} (hK : K e.mem) (hn : data.length ≤ 8) (h : e.sOut = true)
    (hH : H → devW addr ∈ e.devsel ∧ e.busyUntil ≤ τ ∧ (devW addr).getLsbD 0 = false) :
    Spec c (fun s => Wired H τ lines true true e s ∧ ∀ i, i < data.length → blkAt s.blkbuf i = data.getD i 0)
      (writeBody c addr data.length) (writeDone H τ lines e (wordByte addr) data) (Aborted H lines K) := by
  have hp := sameBlock_pinClosed c
  have hl : ∀ s t, localBus s t → sameBlock s t := fun _ _ => localBus.sameBlock
  have hI : ∀ s t : State, sameBlock s t → (∀ i, i < data.length → blkAt s.blkbuf i = data.getD i 0) →
      ∀ i, i < data.length → blkAt t.blkbuf i = data.getD i 0 := by
    intro s t ⟨_, _, _, hbuf, _⟩ hs
    rwa [hbuf]
  refine spec_bind (spec_frame (start_wired hK h) (start_ends hp hl) hI) fun _ => ?_
  refine spec_bind (spec_frame (txByte_selectWrite (e := eepromStart e) hK ⟨rfl, rfl, rfl⟩ hH) (txByte_ends hp hl _) hI)
    fun ack => ?_
  refine spec_pre (P := fun s => ∃ e', ((H → ack = true) ∧ sameChip e e' ∧ selected H e')
    ∧ Wired H τ lines false true e' s ∧ ∀ i, i < data.length → blkAt s.blkbuf i = data.getD i 0)
    (spec_exists fun e' => spec_of_fact fun ⟨hack, hchip, he'⟩ => ?_)
    fun s ⟨⟨hack, e', hchip, he', hw⟩, hs⟩ => ⟨e', ⟨hack, hchip, he'⟩, hw, hs⟩
  cases ack
  · exact spec_pure _ fun s ⟨hw, _⟩ =>
      ⟨e', ⟨hchip, .inl ⟨rfl, fun hh => absurd (hack hh) (by simp), he'.mode_ne⟩⟩, hw⟩
  · exact spec_post (writeAddressed_wired (hchip.mem.symm ▸ hK) hn he') fun _ _ h => h.of_sameChip hchip

/-- What the first `j` data bytes make of the memory, for a `j` that the transaction can have reached. -/
def storedPrefix (e : Eeprom) (addr : Addr) (data : List Byte) (m : Memory) : Prop :=
  ∃ j, j ≤ data.length ∧ m = commitFrom e.page (wordByte addr) e.mem 0 (data.take j)

theorem storedPrefix_self (e : Eeprom) (addr : Addr) (data : List Byte) : storedPrefix e addr data e.mem :=
  ⟨0, Nat.zero_le _, rfl⟩

/-- `writeBlock` stores no more than the first bytes of its data; an acknowledged one leaves the bus as it found it;
and under `H` it stores all of the data, and the write cycle ends no later than it does. -/
theorem writeBlock_wired {addr : Addr} (hn : data.length ≤ 8) (h : e.sOut = true)
    (hH : H → data ≠ [] ∧ devW addr ∈ e.devsel ∧ e.busyUntil ≤ τ ∧ (devW addr).getLsbD 0 = false) :
    Spec c (Wired H τ lines true true e) (writeBlock c addr data)
      (fun ok t => ∃ e', Wired H τ lines true true e' t ∧ storedPrefix e addr data e'.mem
        ∧ (ok = true → e'.sOut = true ∧ e'.page = e.page)
        ∧ (H → ok = true ∧ e'.mem = commitFrom e.page (wordByte addr) e.mem 0 data
          ∧ e'.busyUntil + Config.tWrite ≤ t.now + e.tWr))
      (Aborted H lines (storedPrefix e addr data)) := by
  have hself := storedPrefix_self e addr data
  rw [writeBlock_eq]
  refine spec_bind (Q := fun _ s => Wired H τ lines true true e s
    ∧ ∀ i, i < data.length → blkAt s.blkbuf i = data.getD i 0)
    (spec_upd fun s hw => ⟨rfl, hw.of_localRegs (localRegs_refl s), fun i hi => ?_⟩) fun _ => ?_
  · rw [setWrite_blkbuf, blkAt_storeFrom _ _ _ (by omega), if_pos (by omega), Nat.sub_zero]
  refine spec_bind (writeBody_wired (K := storedPrefix e addr data) hself hn h fun hh => (hH hh).2) fun ok =>
    spec_exists fun e' => spec_of_fact fun ⟨hchip, he'⟩ => ?_
  obtain ⟨-, hpage, htWr, -, hmem, -⟩ := hchip
  have hstored : ∀ now, storedPrefix e addr data (eepromRelease now e').mem := by
    intro now
    rcases eepromRelease_mem now e' with hm | ⟨hmode, hm⟩
    · exact (hm.trans hmem) ▸ hself
    · obtain ⟨j, hj, ⟨-, hrests⟩ | ⟨-, hwb, hw, -⟩, -⟩ := he'.resolve_left fun hc => hc.2.2 hmode
      · exact absurd (hrests.1.symm.trans hmode) (by simp)
      · exact ⟨j, hj, by rw [hm, hpage, hwb, hmem, hw]⟩
  refine spec_bind (stop_wired (hmem ▸ hself) hstored) fun _ => ?_
  refine spec_bind (spec_upd (Q := fun _ t => ∃ now, now + Config.tWrite ≤ t.now
    ∧ Wired H τ lines true true (eepromRelease now e') t) fun s ⟨now, hnow, hw⟩ =>
    ⟨rfl, now, Nat.add_le_add_right hnow _, hw.delay _⟩) fun _ => ?_
  refine spec_pure ok fun t ⟨now, hnow, hw⟩ => ⟨_, hw, hstored now, fun hok => ?_, fun hh => ?_⟩
  · obtain ⟨j, hj, haddressed, -⟩ := he'.resolve_left fun hc => by simp [hok] at hc
    refine ⟨(eepromRelease_rests haddressed.sOut).2, ?_⟩
    rcases haddressed with ⟨-, hrests⟩ | ⟨hlistens, -⟩
    · have hno : e'.mode = .rxData → e'.w = [] := fun hm => absurd (hrests.1.symm.trans hm) (by simp)
      exact (eepromRelease_sameChip now hno).1.2.1.trans hpage
    · by_cases hw : e'.w = []
      · exact (eepromRelease_sameChip now fun _ => hw).1.2.1.trans hpage
      · exact (eepromRelease_commit now hlistens hw).2.1.trans hpage
  · obtain ⟨j, hj, haddressed, hall⟩ := he'.resolve_left fun hc => hc.2.1 hh
    obtain ⟨hok, rfl⟩ := hall hh
    obtain ⟨hlistens, hwb, hw, -⟩ := haddressed.resolve_left fun hc => hc.1 hh
    rw [List.take_length] at hw
    obtain ⟨hm, -, hbusy⟩ := eepromRelease_commit now hlistens (hw ▸ (hH hh).1)
    refine ⟨hok, by rw [hm, hpage, hwb, hmem, hw], ?_⟩
    rw [hbusy, htWr]
    omega

end Write

/-- Settles O52: every data byte is acknowledged, the STOP commits them all, and the wait outlasts the write cycle. -/
theorem memWriteStoresTheData : Obligations.MemWriteStoresTheData := by
  intro addr data s lines e hok h1 h8 hlow hw hcommit htWr hbusy hworld hreplies hquiet
  obtain ⟨hdevW, -, hword⟩ := select_of_low (show addr.toNat < 256 by omega)
  obtain ⟨hwired, hout⟩ := hquiet.wired (H := True) hworld fun _ => hreplies
  have hne : data ≠ [] := List.ne_nil_of_length_pos h1
  have hspec := writeBlock_wired (c := s.cfg) (H := True) (τ := s.now) (lines := lines) (addr := addr) h8 hout
    fun _ => ⟨hne, hdevW ▸ hw, hbusy, by rw [hdevW]; rfl⟩
  rcases finish_spec (mk := .done) hspec hwired with ⟨ok, t, ⟨e', hw', -, -, hall⟩, hf⟩ | ⟨hno, -⟩
  · obtain ⟨rfl, hmem, hdone⟩ := hall trivial
    refine ⟨_, e', (if_pos ((blockLengthOk_iff _).2 ⟨h1, h8⟩)).trans (congrArg _ hf), rfl, hw'.world, ?_, fun a => ?_⟩
    · show e'.busyUntil ≤ t.now
      have : Config.tWrite = 10000 := rfl
      omega
    · rw [hworld] at hok
      rw [hmem, commitFrom_read (base := addr.toNat) hok fun j _ hj => hcommit j (by omega), Nat.add_zero]
  · exact absurd trivial hno

/-! ### With no EEPROM attached -/

theorem pinEffect_world {s : State} (mask : Byte) (b : Bool) (h : ∀ lines e, s.world ≠ .reference lines e) :
    (pinEffect mask b s).world = s.world := by
  obtain ⟨-, -, -, ⟨-, hw⟩ | ⟨-, hw⟩⟩ := writeEffect_pins (withBit mask s.latch b) s
  · refine hw.trans ?_
    cases hs : s.world with
    | unspecified => rfl
    | absent lines => rfl
    | reference lines e => exact absurd hs (h lines e)
  · exact hw

/-- Then nothing changes the world. -/
theorem worldKept_pinClosed (c : Config) :
    PinClosed c (fun s t => (∀ lines e, s.world ≠ .reference lines e) → t.world = s.world)
      (fun s t => (∀ lines e, s.world ≠ .reference lines e) → t.world = s.world) where
  refl _ _ := rfl
  trans _ _ _ h h' hs := (h' (h hs ▸ hs)).trans (h hs)
  transE _ _ _ h h' hs := (h' (h hs ▸ hs)).trans (h hs)
  delay _ _ _ := rfl
  pin mask b _ _ _ _ hs := pinEffect_world mask b hs
  pinFatal mask b _ _ _ _ hs := pinEffect_world mask b hs
  read s _ _ _ := (readEffect_pins s).2.2.1
  readFatal s _ _ _ := (readEffect_pins s).2.2.1

theorem exec_world_of_no_device {i : Instr} {s t : State} (hi : ∀ v, i ≠ .writeOutputs v)
    (hs : ∀ lines e, s.world ≠ .reference lines e) (h : exec i s = .next t) : t.world = s.world :=
  (exec_ends (worldKept_pinClosed s.cfg) (fun _ _ hl _ => hl.2.2.2.1) hi h).elim (fun hr => hr.1 hs) fun he => he hs

/-! ### With an EEPROM attached, whatever the answers -/

section Kept

variable {c : Config} {τ : Nat} {lines : StatusLines} {e : Eeprom} {a : Nat} {x : Option Byte}

/-- Where a failed transfer leaves the memory in `K`, the byte is kept if `K` says so. -/
theorem Aborted.kept {K : Memory → Prop} {t : State} (h : Aborted False lines K t)
    (hK : ∀ m, K m → some (m.read a) = x) : kept a x t := by
  obtain ⟨-, e', hw, hm⟩ := h
  rw [Machine.kept, hw]
  exact hK _ hm

theorem readBlock_kept {addr : Addr} {length : Nibble} (hlen : blockLengthOk length.toNat = true) (h : e.sOut = true) :
    Spec c (Wired False τ lines true true e) (readBlock c addr length) (fun _ => kept a (some (e.mem.read a)))
      (kept a (some (e.mem.read a))) := by
  obtain ⟨h1, h8⟩ := (blockLengthOk_iff _).1 hlen
  refine spec_mono (readBlock_wired rfl h8 h1 h False.elim) (fun _ h => h) (fun _ t ⟨⟨e', hw, hm⟩, _⟩ => ?_)
    fun t ht => ht.kept fun m hm => by rw [hm]
  rw [kept, hw]
  exact congrArg (fun m => some (m.read a)) hm

/-- With both lines released `busInit` moves nothing. -/
theorem busInit_wired {H : Prop} {K : Memory → Prop} (hK : K e.mem) :
    Spec c (Wired H τ lines true true e) (busInit c) (fun _ => Wired H τ lines true true e) (Aborted H lines K) := by
  have hpins : ∀ now, eepromPins now true true true true e = e := fun now => by cases h : e.sOut <;> simp [eepromPins, h]
  have hK' : ∀ now, K (eepromPins now true true true true e).mem := fun now => by rw [hpins]; exact hK
  have hset : ∀ {mask}, (mask = sclMask c ∨ mask = sdaMask c) → Spec c (Wired H τ lines true true e) (setPin mask true)
      (fun _ => Wired H τ lines true true e) (Aborted H lines K) := by
    intro mask hm
    refine spec_post (setPin_wired (fun v hscl hsda => ?_) hK hK') fun _ _ ⟨now, _, _, hw⟩ => hpins now ▸ hw
    rcases hm with rfl | rfl
    · exact ⟨by simp, by simpa using hsda⟩
    · exact ⟨by simpa using hscl, by simp⟩
  exact spec_bind (hset (.inl rfl)) fun _ => spec_bind (hset (.inr rfl)) fun _ =>
    spec_upd fun s hw => ⟨rfl, hw.of_localRegs (localRegs_refl s)⟩

theorem probe_kept (h : e.sOut = true) :
    Spec c (Wired False τ lines true true e) (probe c) (fun _ => kept a (some (e.mem.read a)))
      (kept a (some (e.mem.read a))) := by
  refine spec_bind (spec_mono (busInit_wired (K := fun m => m = e.mem) rfl) (fun _ h => h) (fun _ _ h => h)
    fun t ht => ht.kept fun m hm => by rw [hm]) fun _ => spec_bind (readBlock_kept rfl h) fun r => ?_
  exact spec_bind (Q := fun _ => kept a (some (e.mem.read a))) (spec_upd fun _ h => ⟨rfl, h⟩) fun _ =>
    spec_peek fun v hv => spec_pure _ fun s hs => hs ▸ hv

theorem readIdentifier_kept (h : e.sOut = true) :
    Spec c (Wired False τ lines true true e) (readIdentifier c) (fun _ => kept a (some (e.mem.read a)))
      (kept a (some (e.mem.read a))) := by
  refine spec_bind (readBlock_kept rfl h) fun r => ?_
  refine spec_bind (Q := fun _ => kept a (some (e.mem.read a))) (spec_upd fun _ h => ?_) fun _ => ?_
  · split <;> exact ⟨rfl, h⟩
  · exact spec_bind (Q := fun _ => kept a (some (e.mem.read a))) (spec_upd fun _ h => ⟨rfl, h⟩) fun _ =>
      spec_peek fun v hv => spec_pure _ fun s hs => hs ▸ hv

theorem storedPrefix.read {addr : Addr} {data : List Byte} {m : Memory} (h : storedPrefix e addr data m)
    (ha : a ∉ blockStores (.reference lines e) addr data.length) : m.read a = e.mem.read a := by
  obtain ⟨j, hj, rfl⟩ := h
  refine commitFrom_read_other _ _ _ _ _ _ fun i _ hi hai => ha ?_
  have hlt : i < data.length := by
    have := List.length_take_le j data
    omega
  exact List.mem_map.2 ⟨i, List.mem_range.2 hlt, hai.symm⟩

/-- A byte that is not the data's is kept, and after an acknowledged write the bus is as before. -/
theorem writeBlock_kept {addr : Addr} {data : List Byte} (hlen : data.length ≤ 8) (h : e.sOut = true)
    (ha : a ∉ blockStores (.reference lines e) addr data.length) (hx : some (e.mem.read a) = x) :
    Spec c (Wired False τ lines true true e) (writeBlock c addr data)
      (fun ok t => kept a x t
        ∧ (ok = true → ∃ e', (e'.sOut = true ∧ e'.page = e.page ∧ some (e'.mem.read a) = x)
          ∧ Wired False τ lines true true e' t)) (kept a x) := by
  have hread : ∀ m, storedPrefix e addr data m → some (m.read a) = x := fun m hm => (congrArg some (hm.read ha)).trans hx
  refine spec_mono (writeBlock_wired hlen h False.elim) (fun _ h => h) (fun ok t ⟨e', hw, hm, hok, _⟩ =>
    ⟨?_, fun hh => ?_⟩)
    fun t ht => ht.kept hread
  · rw [kept, hw.world]
    exact hread _ hm
  · exact ⟨e', ⟨(hok hh).1, (hok hh).2, hread _ hm⟩, hw⟩

theorem writeIdentifier_kept {text : List Byte} (h : e.sOut = true) (ha : a ∉ blockStores (.reference lines e) 0 2)
    (ha' : a ∉ blockStores (.reference lines e) 2 8) (hx : some (e.mem.read a) = x) :
    Spec c (Wired False τ lines true true e) (writeIdentifier c text) (fun _ => kept a x) (kept a x) := by
  refine spec_bind (writeBlock_kept (by simp) h ha hx) fun ok => ?_
  have hfield : Spec c (fun t => kept a x t ∧ (ok = true → ∃ e', (e'.sOut = true ∧ e'.page = e.page
      ∧ some (e'.mem.read a) = x) ∧ Wired False τ lines true true e' t)) (writeIdField c text ok) (fun _ => kept a x)
      (kept a x) := by
    cases ok
    · exact spec_pure _ fun t ht => ht.1
    · refine spec_pre (spec_exists fun e' => spec_of_fact fun ⟨hout, hpage, hx'⟩ => ?_) fun t ht => ht.2 rfl
      have hlength : (id8 text).length = 8 := by simp [id8, Config.idLen]
      refine spec_bind (writeBlock_kept (Nat.le_of_eq hlength) hout ?_ hx') fun ok' => spec_pure _ fun t ht => ht.1
      rw [hlength]
      unfold blockStores at ha' ⊢
      dsimp only at ha' ⊢
      rwa [hpage]
  exact spec_bind hfield fun code => spec_bind (Q := fun _ => kept a x) (spec_upd fun _ h => ⟨rfl, h⟩) fun _ =>
    spec_peek fun v hv => spec_pure _ fun s hs => hs ▸ hv

end Kept

/-- Settles O49: in the first transaction the page buffer stays empty, in the second the device sends, or rests. -/
theorem readsLeaveTheMemory : Obligations.ReadsLeaveTheMemory := by
  intro i s t a hi hquiet h
  obtain ⟨hwf, -⟩ := exec_next_wellFormed h
  by_cases hdev : ∀ lines e, s.world ≠ .reference lines e
  · exact congrArg (readMem · a) (exec_world_of_no_device (by rintro v rfl; simp at hi) hdev h)
  · push Not at hdev
    obtain ⟨lines, e, hworld⟩ := hdev
    obtain ⟨hwired, hout⟩ := hquiet.wired (H := False) hworld False.elim
    rw [hworld]
    rcases hi with ⟨addr, n, rfl⟩ | rfl | rfl
    · obtain rfl : finish _ _ s = t := Host.Outcome.next.inj ((if_pos hwf).symm.trans h)
      exact finish_kept (readBlock_kept hwf hout) hwired
    · cases h
      exact finish_kept (probe_kept hout) hwired
    · cases h
      exact finish_kept (readIdentifier_kept hout) hwired

/-- Settles O50: the page buffer holds the first bytes of the data, and no others, and `writeIdentifier` writes a second
time only after a write that left the bus quiet. -/
theorem writesStoreOnlyAtTheirAddresses : Obligations.WritesStoreOnlyAtTheirAddresses := by
  intro s t a hquiet
  by_cases hdev : ∀ lines e, s.world ≠ .reference lines e
  · exact ⟨fun _ _ h _ => congrArg (readMem · a) (exec_world_of_no_device (by simp) hdev h),
      fun _ h _ _ => congrArg (readMem · a) (exec_world_of_no_device (by simp) hdev h)⟩
  · push Not at hdev
    obtain ⟨lines, e, hworld⟩ := hdev
    obtain ⟨hwired, hout⟩ := hquiet.wired (H := False) hworld False.elim
    rw [hworld]
    refine ⟨fun addr data h ha => ?_, fun text h ha ha' => ?_⟩
    · obtain ⟨hwf, -⟩ := exec_next_wellFormed h
      obtain rfl : finish _ _ s = t := Host.Outcome.next.inj ((if_pos hwf).symm.trans h)
      exact finish_kept (spec_post (writeBlock_kept ((blockLengthOk_iff _).1 hwf).2 hout ha rfl) fun _ _ h => h.1) hwired
    · obtain ⟨hwf, -⟩ := exec_next_wellFormed h
      obtain rfl : finish _ _ s = t := Host.Outcome.next.inj ((if_pos hwf).symm.trans h)
      exact finish_kept (writeIdentifier_kept hout ha ha' rfl) hwired

end Sys2Proof.Machine
end

section
/-! Packets and operand forms (30_encoding.md R91 to R102): the decoder reads what the encoder wrote; the address bytes
and the identifier image; the fetched word; the operand forms that are refused (R110). -/

namespace Sys2Proof.Machine

/-! ### Reading back what the encoder writes -/

/-- The length of a block operation, in its domain, survives the byte that carries it less one. -/
theorem decode_encode_readBlock (addr : Addr) {length : Nibble} (h : blockLengthOk length.toNat = true) :
    decode (encode (.readBlock addr length)) = .ok (.readBlock addr length) := by
  obtain ⟨hpos, hmax⟩ := (blockLengthOk_iff _).1 h
  have hbyte : (BitVec.ofNat 8 (length.toNat - 1)).toNat = length.toNat - 1 := by
    rw [BitVec.toNat_ofNat]
    omega
  have hlength : BitVec.ofNat 4 (length.toNat - 1 + 1) = length := by
    rw [Nat.sub_add_cancel hpos, BitVec.ofNat_toNat, BitVec.setWidth_eq]
  show decodeReadBlock [addrLo addr, addrHi addr, BitVec.ofNat 8 (length.toNat - 1)] = _
  rw [decodeReadBlock, hbyte, if_pos (by rw [Config.blockMax]; omega), joinAddr_addrLo_addrHi, hlength]

/-- The data of a block write, in their domain, are all read, and nothing after them. -/
theorem decode_encode_writeBlock (addr : Addr) {data : List Byte} (h : blockLengthOk data.length = true) :
    decode (encode (.writeBlock addr data)) = .ok (.writeBlock addr data) := by
  obtain ⟨hpos, hmax⟩ := (blockLengthOk_iff _).1 h
  have hbyte : (BitVec.ofNat 8 (data.length - 1)).toNat = data.length - 1 := by
    rw [BitVec.toNat_ofNat]
    omega
  show decodeWriteBlock (addrLo addr :: addrHi addr :: BitVec.ofNat 8 (data.length - 1) :: data) = _
  rw [decodeWriteBlock, hbyte, if_pos (by rw [Config.blockMax]; omega), if_pos (by omega), joinAddr_addrLo_addrHi,
    Nat.sub_add_cancel hpos, List.take_length]

/-- A text is read up to the zero byte that the encoder puts behind it. -/
theorem decode_encode_writeIdentifier {text : List Byte} (h : textOk text = true) :
    decode (encode (.writeIdentifier text)) = .ok (.writeIdentifier text) := by
  show (decodeText (text ++ [0])).map Instr.writeIdentifier = _
  rw [decodeText_terminated text h []]
  rfl

theorem decodeBitOperand_encodeBit (mk : Bool → Instr) (b : Bool) (rest : List Byte) :
    decodeBitOperand mk (encodeBit b :: rest) = .ok (mk b) := by
  rw [decodeBitOperand, decodeBit_encodeBit]
  rfl

theorem decodeSelectWrite_append (h : Nibble) : decodeSelectWrite (0xA#4 ++ h) = .ok (.devselW h) := by
  have hbits : ∀ h : Nibble, (0xA#4 ++ h).extractLsb' 4 4 = 0xA#4 ∧ (0xA#4 ++ h).extractLsb' 0 4 = h := by decide
  obtain ⟨hhigh, hlow⟩ := hbits h
  rw [decodeSelectWrite, if_pos hhigh, hlow]

theorem decodeSelectRead_append (h : BitVec 3) : decodeSelectRead (0xA#4 ++ (h ++ 1#1)) = .ok (.devselR h) := by
  have hbits : ∀ h : BitVec 3, ((0xA#4 ++ (h ++ 1#1) : Byte).extractLsb' 4 4 = 0xA#4
      ∧ (0xA#4 ++ (h ++ 1#1) : Byte).extractLsb' 0 1 = 1#1) ∧ (0xA#4 ++ (h ++ 1#1) : Byte).extractLsb' 1 3 = h := by
    decide
  obtain ⟨hfixed, hlow⟩ := hbits h
  rw [decodeSelectRead, if_pos hfixed, hlow]

/-- Settles O1: an operand is read from the bytes it was written to, by the lemma for its form. -/
theorem decodeOfEncodeIsTheInstruction : Obligations.DecodeOfEncodeIsTheInstruction := by
  intro i hi
  cases i with
  | setSCL b => exact decodeBitOperand_encodeBit .setSCL b []
  | setSDA b => exact decodeBitOperand_encodeBit .setSDA b []
  | rxByte isLast => exact decodeBitOperand_encodeBit .rxByte isLast []
  | readBlock addr length => exact decode_encode_readBlock addr hi
  | writeBlock addr data => exact decode_encode_writeBlock addr hi
  | writeIdentifier text => exact decode_encode_writeIdentifier hi
  | devselW h => exact decodeSelectWrite_append h
  | devselR h => exact decodeSelectRead_append h
  | dataFrame f =>
    cases f with
    | sent d => rfl
    | received isLast => exact congrArg (Except.map _) (decodeBit_encodeBit isLast)
  | readInputs | writeOutputs | getSDA | busInit | start | stop | txByte | probe | readIdentifier | reserved15
  | wordAddr => rfl

/-! ### Words and wire bytes -/

/-- Settles O2, by running the decoder on the sixteen words. -/
theorem operationNumbersDecode : Obligations.OperationNumbersDecode := by
  unfold Obligations.OperationNumbersDecode
  decide

theorem decodeSelectWrite_eq_ok_iff (b : Byte) :
    decodeSelectWrite b = .ok (.devselW (b.extractLsb' 0 4)) ↔ b.extractLsb' 4 4 = 0xA#4 := by
  rw [decodeSelectWrite]
  split <;> simp [*]

theorem decodeSelectRead_eq_ok_iff (b : Byte) :
    decodeSelectRead b = .ok (.devselR (b.extractLsb' 1 3)) ↔ b.extractLsb' 4 4 = 0xA#4 ∧ b.extractLsb' 0 1 = 1#1 := by
  rw [decodeSelectRead]
  split <;> simp [*]

/-- Settles O3: the decoder's tests of the fixed bits (30_encoding.md R96) are the two masks. -/
theorem selectBytesDecodeByPosition : Obligations.SelectBytesDecodeByPosition := by
  have hmask : ∀ b : Byte, (b.extractLsb' 4 4 = 0xA#4 ↔ b &&& 0xF0 = 0xA0)
      ∧ (b.extractLsb' 4 4 = 0xA#4 ∧ b.extractLsb' 0 1 = 1#1 ↔ b &&& 0xF1 = 0xA1) := by decide
  intro b
  obtain ⟨hwrite, hread⟩ := hmask b
  exact ⟨(decodeSelectWrite_eq_ok_iff b).trans hwrite, (decodeSelectRead_eq_ok_iff b).trans hread⟩

/-! ### Address bytes and the identifier image -/

theorem highAddrBits_eq (addr : Addr) : highAddrBits addr = (addr.extractLsb' 8 4).zeroExtend 8 := by
  unfold highAddrBits Config.devselHiMask
  ext k hk
  interval_cases k <;> simp

theorem selectWByte_eq (h : Nibble) : selectWByte h = 0xA#4 ++ h := by
  revert h
  decide

theorem selectRByte_eq (h : BitVec 3) : selectRByte h = 0xA#4 ++ (h ++ 1#1) := by
  revert h
  decide

theorem devW_eq_selectWByte (addr : Addr) : devW addr = selectWByte (addr.extractLsb' 8 4) :=
  congrArg (Config.devselWBase ||| ·) (highAddrBits_eq addr)

/-- `addr[8]` is lost in the bit that is set anyway. -/
theorem devR_eq_selectRByte (addr : Addr) : devR addr = selectRByte (addr.extractLsb' 9 3) := by
  have hlost : ∀ h : Nibble, Config.devselRBase ||| h.zeroExtend 8 = selectRByte (h.extractLsb' 1 3) := by decide
  have hfield : (addr.extractLsb' 8 4).extractLsb' 1 3 = addr.extractLsb' 9 3 := by
    ext k hk
    interval_cases k <;> simp
  rw [devR, highAddrBits_eq, hlost, hfield]

/-- A field that the mask keeps whole. -/
theorem extractLsb'_and_of_allOnes {w i n : Nat} {m : BitVec w} (h : m.extractLsb' i n = BitVec.allOnes n)
    (x : BitVec w) : (x &&& m).extractLsb' i n = x.extractLsb' i n := by
  rw [BitVec.extractLsb'_and, h, BitVec.and_allOnes]

/-- Settles O4: both bytes are functions of fields of the address, which masks and a flip of `addr[8]` keep. -/
theorem deviceSelectBytesBitByBit : Obligations.DeviceSelectBytesBitByBit := by
  intro addr
  have hfields (m : Addr) (hw : m.extractLsb' 8 4 = BitVec.allOnes 4) (hr : m.extractLsb' 9 3 = BitVec.allOnes 3) :
      devW (addr &&& m) = devW addr ∧ devR (addr &&& m) = devR addr := by
    simp only [devW_eq_selectWByte, devR_eq_selectRByte, extractLsb'_and_of_allOnes hw, extractLsb'_and_of_allOnes hr,
      and_self]
  have hW : devW addr = 0xA#4 ++ addr.extractLsb' 8 4 := (devW_eq_selectWByte addr).trans (selectWByte_eq _)
  have hR : devR addr = 0xA#4 ++ (addr.extractLsb' 9 3 ++ 1#1) := (devR_eq_selectRByte addr).trans (selectRByte_eq _)
  obtain ⟨hW12, hR12⟩ := hfields 0x0FFF (by decide) (by decide)
  refine ⟨hW, hR, fun hzero => ?_, fun hbit => ?_, ?_, hW12, hR12, ?_⟩
  · obtain ⟨hw, hr⟩ := hfields 0x0F00 (by decide) (by decide)
    rw [← hw, ← hr, hzero]
    decide
  · rw [hW, BitVec.getLsbD_append]
    simpa using hbit
  · rw [devR_eq_selectRByte, devR_eq_selectRByte, BitVec.extractLsb'_xor,
      show (0x0100 : Addr).extractLsb' 9 3 = 0#3 by decide, BitVec.xor_zero]
  · rw [wordByte_eq, wordByte_eq, extractLsb'_and_of_allOnes (by decide)]

/-- Settles O5: the image reads the text, and past its end the default, which is 0. -/
theorem identifierImageIsEightBytes : Obligations.IdentifierImageIsEightBytes := by
  intro text
  refine ⟨rfl, fun k hk => ?_⟩
  rw [id8, List.getElem?_map, List.getElem?_range (show k < Config.idLen from hk), Option.map_some]
  split
  next => rfl
  next h => exact congrArg some (List.getD_eq_default _ _ (Nat.le_of_not_lt h))

/-! ### Running a fetched word, and what is refused -/

theorem decodeTableWord_eq_some {nbits w : Nat} {i : Instr} (h : decodeTableWord nbits w = some i) :
    decode (tablePacket nbits w) = .ok i := by
  unfold decodeTableWord at h
  split at h
  next hd => rw [hd, Option.some.inj h]
  next => cases h

/-- Settles O7: with SEQ empty the step takes the first of the calls, which is the word's packet. -/
theorem fetchedWordRuns : Obligations.FetchedWordRuns := by
  intro s nbits w i h
  show runPacket (tablePacket nbits w) { s with seq := [] } = _
  rw [runPacket, decodeTableWord_eq_some h]

/-- Settles O9: the meaning of RESERVED15 is that refusal. -/
theorem reservedOperationIsRefused : Obligations.ReservedOperationIsRefused := fun _ => rfl

/-- Settles O10: each operation checks its operand before it runs. -/
theorem operandsOutsideTheirDomainAreRefused : Obligations.OperandsOutsideTheirDomainAreRefused := by
  refine ⟨fun addr n s h => ?_, fun addr data s h => ?_, fun text s h => ?_⟩
  · exact if_neg (h ∘ (blockLengthOk_iff _).1)
  · exact if_neg (h ∘ (blockLengthOk_iff _).1)
  · exact if_neg fun hok => absurd (List.all_eq_true.1 hok 0 h) (by decide)

end Sys2Proof.Machine
end

section
/-! Token strings played (30_encoding.md R92 to R95). `Plays` is the rule form: with given answers, none of them a
failure, a piece of an operation plays its string, samples the given levels and ends with a value. The registers are
carried along as those of a state that the operation's own updates make; the pins leave them alone. -/

namespace Sys2Proof.Machine

/-! ### What the pins leave alone -/

/-- `u` with what pin activity writes taken from `t`: LATCH, bridge, world, answers, clock and trace. -/
def withPins (t u : State) : State :=
  { u with latch := t.latch, bridge := t.bridge, world := t.world, replies := t.replies, now := t.now,
           trace := t.trace }

/-- `t` is `u` but for what pin activity writes. -/
def pinsOnly (u t : State) : Prop := t = withPins t u

/-- And the bridge holds the latch, as it does after every output that did not fail (10_state.md R23). -/
def settled (u t : State) : Prop := pinsOnly u t ∧ t.bridge = t.latch

theorem pinsOnly_refl (s : State) : pinsOnly s s := rfl

theorem pinsOnly.cfg {u t : State} (h : pinsOnly u t) : t.cfg = u.cfg := by
  rw [show t = _ from h]
  rfl

theorem pinsOnly.shift {u t : State} (h : pinsOnly u t) : t.shift = u.shift := by
  rw [show t = _ from h]
  rfl

theorem pinsOnly.sameHost {u t : State} (h : pinsOnly u t) : sameHost u t := by
  rw [show t = _ from h]
  exact ⟨rfl, rfl, rfl⟩

theorem pinsOnly.sameRegs {u t : State} (h : pinsOnly u t) : sameRegs u t := by
  rw [show t = _ from h]
  exact sameRegs_refl u

/-- The fields of the model's own that no pin writes. -/
theorem pinsOnly.ports {u t : State} (h : pinsOnly u t) :
    t.result = u.result ∧ t.starts = u.starts ∧ t.stops = u.stops := by
  rw [show t = _ from h]
  exact ⟨rfl, rfl, rfl⟩

theorem afterPin_pinsOnly (mask : Byte) (b : Bool) {r : Reply} (hr : outFails r.ret = false)
    (rest : List (Option Reply)) {u s : State} (h : pinsOnly u s) : pinsOnly u (afterPin mask b r rest s) := by
  rw [afterPin, outEffect_ok _ hr, show s = _ from h]
  rfl

theorem inEffect_pinsOnly (r : Reply) (rest : List (Option Reply)) {u s : State} (h : pinsOnly u s) :
    pinsOnly u (inEffect r { s with replies := rest }) := by
  rw [show s = _ from h]
  rfl

/-- A local update of an operation: it writes no pin, and reads none. -/
structure RegistersOnly (g : State → State) : Prop where
  localRegs : ∀ s, localRegs s (g s)
  withPins : ∀ t u, g (withPins t u) = withPins t (g u)

theorem RegistersOnly.pinsOnly {g : State → State} (hg : RegistersOnly g) {u t : State} (h : pinsOnly u t) :
    pinsOnly (g u) (g t) := by
  rw [show t = _ from h, hg.withPins]
  rfl

theorem RegistersOnly.settled {g : State → State} (hg : RegistersOnly g) {u t : State} (h : settled u t) :
    settled (g u) (g t) := by
  obtain ⟨-, hlatch, hbridge, -⟩ := hg.localRegs t
  exact ⟨hg.pinsOnly h.1, by rw [hbridge, h.2, hlatch]⟩

/-! ### The rules -/

/-- Every `R` token takes one sample. -/
theorem samples_length (c : Config) {toks : List Tok} {rs : List Reply} (h : answered toks rs = true) :
    (samples c toks rs).length = toks.count .r := by
  induction toks generalizing rs with
  | nil => simp [samples]
  | cons x toks ih =>
    cases x with
    | w | wr => simpa [samples] using ih h
    | c | d | r =>
      cases rs with
      | nil => cases h
      | cons r rs =>
        simp only [answered, Bool.and_eq_true] at h
        simp [samples, ih h.2]

/-- With parameters `c`, from a state with `P`, given answers none of which fails, `m` plays the string `toks`, samples
the levels `bits` and ends with `a` in a state for which `Q` holds. -/
def Plays (c : Config) {α : Type} (P : State → Prop) (toks : List Tok) (bits : List Bool) (m : Op α) (a : α)
    (Q : State → Prop) : Prop :=
  ∀ (s : State) (rs : List Reply) (rest : List (Option Reply)), s.cfg = c → P s → s.replies = rs.map some ++ rest →
    answered toks rs = true → samples c toks rs = bits →
    ∃ t, m s = .ok a t ∧ t.cfg = c ∧ Played toks rs rest s t ∧ Q t

section Rules

variable {α β : Type} {c : Config} {P Q R : State → Prop} {a : α} {b : β} {u : State} {bits : List Bool}
  {toks : List Tok}

theorem plays_bind {xs ys : List Tok} {xbits ybits : List Bool} {m : Op α} {f : α → Op β}
    (hm : Plays c P xs xbits m a Q) (hcount : xs.count .r = xbits.length) (hf : Plays c Q ys ybits (f a) b R) :
    Plays c P (xs ++ ys) (xbits ++ ybits) (m >>= f) b R := by
  intro s rs rest hs hP hreplies hanswered hsamples
  obtain ⟨r1, r2, rfl, h1, h2⟩ := answered_append.1 hanswered
  rw [samples_append c h1] at hsamples
  obtain ⟨hx, hy⟩ := List.append_inj hsamples ((samples_length c h1).trans hcount)
  rw [List.map_append, List.append_assoc] at hreplies
  obtain ⟨t, hrun, hcfg, hplayed, hQ⟩ := hm s r1 _ hs hP hreplies h1 hx
  obtain ⟨v, hrun', hcfg', hplayed', hR⟩ := hf t r2 rest hcfg hQ hplayed.1 h2 hy
  exact ⟨v, (op_bind_ok hrun).trans hrun', hcfg', hplayed.append h1 (hcfg.trans hs.symm) hplayed', hR⟩

theorem plays_pin {x : Tok} {ys : List Tok} {m : Op α} {f : α → Op β} (hm : Plays c P [x] [] m a Q)
    (hx : [x].count .r = 0) (hf : Plays c Q ys bits (f a) b R) : Plays c P (x :: ys) bits (m >>= f) b R :=
  plays_bind hm hx hf

theorem plays_read {level : Bool} {ys : List Tok} {m : Op α} {f : α → Op β} (hm : Plays c P [.r] [level] m a Q)
    (hf : Plays c Q ys bits (f a) b R) : Plays c P (.r :: ys) (level :: bits) (m >>= f) b R :=
  plays_bind hm rfl hf

/-- A local update plays nothing. -/
theorem plays_upd {g : State → State} {f : Unit → Op β} (hg : RegistersOnly g) (hPQ : ∀ s, P s → Q (g s))
    (hf : Plays c Q toks bits (f ()) b R) : Plays c P toks bits (upd g >>= f) b R := by
  intro s rs rest hs hP hreplies hanswered hsamples
  obtain ⟨hcfg, hlatch, -, -, hrs, -, -, -, htrace, -⟩ := hg.localRegs s
  obtain ⟨t, hrun, hcfg', hplayed, hR⟩ :=
    hf (g s) rs rest (hcfg.trans hs) (hPQ s hP) (hrs.trans hreplies) hanswered hsamples
  exact ⟨t, (op_bind_ok (op_upd g s)).trans hrun, hcfg', hplayed.of_start hcfg hlatch htrace, hR⟩

/-- A read of the registers: what follows knows of the value what is known of the state. -/
theorem plays_peek {f : State → Op β} (h : ∀ v, P v → Plays c P toks bits (f v) b R) :
    Plays c P toks bits (peek >>= f) b R := fun s rs rest hs hP => h s hP s rs rest hs hP

theorem plays_pure (a : α) : Plays c (settled u) [] [] (pure a : Op α) a (settled u) := by
  intro s rs rest hs hP hreplies hanswered hsamples
  cases rs with
  | nil => exact ⟨s, rfl, hs, ⟨hreplies, rfl, hP.2, rfl⟩, hP⟩
  | cons r rs => cases hanswered

theorem plays_of_settled {m : Op α} (h : Plays c (pinsOnly u) toks bits m a Q) :
    Plays c (settled u) toks bits m a Q := fun s rs rest hs hP => h s rs rest hs hP.1

/-- A token for which there is a transfer has exactly one answer. -/
theorem plays_transfer {x : Tok} {m : Op α} (hw : x ≠ .w) (hwr : x ≠ .wr)
    (h : ∀ (s : State) (r : Reply) (rest : List (Option Reply)), s.cfg = c → P s → s.replies = some r :: rest →
      answered [x] [r] = true → samples c [x] [r] = bits →
      ∃ t, m s = .ok a t ∧ t.cfg = c ∧ Played [x] [r] rest s t ∧ Q t) : Plays c P [x] bits m a Q := by
  intro s rs rest hs hP hreplies hanswered hsamples
  have hone : ∃ r, rs = [r] := by
    cases x with
    | w => exact absurd rfl hw
    | wr => exact absurd rfl hwr
    | c | d | r =>
      match rs with
      | [] => cases hanswered
      | [r] => exact ⟨r, rfl⟩
      | _ :: _ :: _ => simp [answered] at hanswered
  obtain ⟨r, rfl⟩ := hone
  exact h s r rest hs hP hreplies hanswered hsamples

theorem Played.settled {rs : List Reply} {rest : List (Option Reply)} {s t : State} (h : Played toks rs rest s t) :
    t.bridge = t.latch := by
  obtain ⟨-, -, hbridge, -⟩ := h
  exact hbridge

theorem plays_setSCL (b : Bool) : Plays c (pinsOnly u) [.c b] [] (setSCL c b) () (settled u) := by
  refine plays_transfer (by simp) (by simp) fun s r rest hs hu hreplies hanswered _ => ?_
  subst hs
  have hpins := afterPin_pinsOnly (sclMask s.cfg) b (by simpa [answered, outFails] using hanswered) rest hu
  obtain ⟨hrun, hplayed⟩ := setSCL_played b hreplies hanswered
  exact ⟨_, hrun, hpins.cfg.trans hu.cfg.symm, hplayed, hpins, hplayed.settled⟩

theorem plays_setSDA (b : Bool) : Plays c (pinsOnly u) [.d b] [] (setSDA c b) () (settled u) := by
  refine plays_transfer (by simp) (by simp) fun s r rest hs hu hreplies hanswered _ => ?_
  subst hs
  have hpins := afterPin_pinsOnly (sdaMask s.cfg) b (by simpa [answered, outFails] using hanswered) rest hu
  obtain ⟨hrun, hplayed⟩ := setSDA_played b hreplies hanswered
  exact ⟨_, hrun, hpins.cfg.trans hu.cfg.symm, hplayed, hpins, hplayed.settled⟩

theorem plays_getSDA (level : Bool) : Plays c (settled u) [.r] [level] (getSDA c) level (settled u) := by
  refine plays_transfer (by simp) (by simp) fun s r rest hs hP hreplies hanswered hsamples => ?_
  subst hs
  obtain ⟨hu, hbridge⟩ := hP
  obtain ⟨hrun, hplayed⟩ := getSDA_played hreplies hbridge hanswered
  obtain rfl : rawLevel s.cfg r.b0 = level := List.head_eq_of_cons_eq hsamples
  exact ⟨_, hrun, rfl, hplayed, inEffect_pinsOnly r rest hu, hplayed.settled⟩

/-- A whole operation: its result stands among the registers. -/
theorem finish_plays {mk : α → Result} {m : Op α} {s w : State} {rs : List Reply} {rest : List (Option Reply)}
    (h : Plays s.cfg (pinsOnly s) toks bits m a (settled w)) (hreplies : s.replies = rs.map some ++ rest)
    (hanswered : answered toks rs = true) (hsamples : samples s.cfg toks rs = bits) :
    Played toks rs rest s (finish mk m s) ∧ pinsOnly { w with result := mk a } (finish mk m s) := by
  obtain ⟨t, hrun, -, hplayed, hw, -⟩ := h s rs rest rfl (pinsOnly_refl s) hreplies hanswered hsamples
  rw [finish_ok hrun]
  refine ⟨hplayed.of_end rfl rfl rfl rfl, ?_⟩
  rw [show t = _ from hw]
  rfl

end Rules

end Sys2Proof.Machine
end

section
/-! A byte frame on the wire (30_encoding.md R95 to R98, 41_i2c_bus_engine.md R154, R155): `txByte` and `rxByte` play
their strings, and the wire rows of the opcode table are these two. -/

namespace Sys2Proof.Machine

/-! ### The cells -/

/-- The top `n` bits of a byte, bit 7 first. -/
def topBits : Nat → Byte → List Bool
  | 0, _ => []
  | n + 1, v => v.getLsbD 7 :: topBits n (v <<< 1)

theorem topBits_eight (v : Byte) : topBits 8 v = wireBits v := by
  simp [topBits, wireBits, List.range_succ]

/-- The registers after the `left` data cells that `txByte` still has to clock. -/
def clockedOut : Nat → State → State
  | 0, u => u
  | left + 1, u => clockedOut left (shiftOut left u)

/-- The registers after the data cells of `rxByte` in which `bits` are sampled, no more being left to clock. -/
def clockedIn : List Bool → State → State
  | [], u => u
  | b :: bits, u => clockedIn bits (shiftIn b bits.length u)

theorem clockedOut_eq (left : Nat) (u : State) : ∃ v n, clockedOut left u = { u with shift := v, bitcnt := n } := by
  induction left generalizing u with
  | zero => exact ⟨u.shift, u.bitcnt, rfl⟩
  | succ left ih => exact ih _

theorem clockedIn_eq (bits : List Bool) (u : State) :
    ∃ n, clockedIn bits u = { u with shift := bits.foldl (fun acc b => shiftedIn b acc) u.shift, bitcnt := n } := by
  induction bits generalizing u with
  | nil => exact ⟨u.bitcnt, rfl⟩
  | cons b bits ih => exact ih _

theorem clockedIn_shift (bits : List Bool) (u : State) :
    (clockedIn bits u).shift = bits.foldl (fun acc b => shiftedIn b acc) u.shift := by
  obtain ⟨n, h⟩ := clockedIn_eq bits u
  rw [h]

section Bytes

variable {c : Config} {R : State → Prop} {u : State}

theorem plays_txCell {left : Nat} {toks : List Tok}
    (hrest : Plays c (settled (shiftOut left u)) toks [] (txBits c left) () R) :
    Plays c (pinsOnly u) (txCell (u.shift.getLsbD 7) ++ toks) [] (txBits c (left + 1)) () R := by
  have hshift : RegistersOnly (shiftOut left) := ⟨fun s => localRegs_refl s, fun _ _ => rfl⟩
  refine plays_peek fun v hv => ?_
  rw [hv.shift]
  exact plays_pin (plays_setSDA _) rfl <|
    plays_pin (plays_of_settled (plays_setSCL true)) rfl <|
    plays_pin (plays_of_settled (plays_setSCL false)) rfl <|
    plays_upd hshift (fun _ => hshift.settled) hrest

theorem plays_txBits (left : Nat) :
    Plays c (settled u) ((topBits left u.shift).flatMap txCell) [] (txBits c left) ()
      (settled (clockedOut left u)) := by
  induction left generalizing u with
  | zero => exact plays_pure ()
  | succ left ih => exact plays_of_settled (plays_txCell ih)

theorem plays_rxCell {b : Bool} {bits : List Bool} {toks : List Tok}
    (hrest : Plays c (settled (shiftIn b bits.length u)) toks bits (rxBits c bits.length) () R) :
    Plays c (pinsOnly u) (rxCell ++ toks) (b :: bits) (rxBits c (bits.length + 1)) () R :=
  have hshift : RegistersOnly (shiftIn b bits.length) := ⟨fun s => localRegs_refl s, fun _ _ => rfl⟩
  plays_pin (plays_setSCL true) rfl <|
  plays_read (plays_getSDA b) <|
  plays_pin (plays_of_settled (plays_setSCL false)) rfl <|
  plays_upd hshift (fun _ => hshift.settled) hrest

theorem plays_rxBits (bits : List Bool) :
    Plays c (settled u) (List.replicate bits.length rxCell).flatten bits (rxBits c bits.length) ()
      (settled (clockedIn bits u)) := by
  induction bits generalizing u with
  | nil => exact plays_pure ()
  | cons b bits ih => exact plays_of_settled (plays_rxCell ih)

/-- The registers after `txByte` of `v` with the level `level` sampled in the ninth cell. -/
def afterTxByte (v : Byte) (level : Bool) (u : State) : State :=
  setBusByte (setAck level (clockedOut 8 { u with shift := v, bitcnt := 8 }))

/-- The registers after `rxByte` with the levels `bits` sampled. -/
def afterRxByte (bits : List Bool) (u : State) : State := setBusByte (clockedIn bits { u with shift := 0, bitcnt := 8 })

theorem count_r_flatMap_txCell (bs : List Bool) : (bs.flatMap txCell).count .r = 0 := by
  induction bs with
  | nil => rfl
  | cons b bs ih => rw [List.flatMap_cons, List.count_append, ih]; rfl

theorem count_r_txToks (v : Byte) : (txToks v).count .r = 1 := by
  rw [txToks, List.count_append, count_r_flatMap_txCell]
  rfl

theorem plays_txByte (v : Byte) (level : Bool) :
    Plays c (pinsOnly u) (txToks v) [level] (txByte c v) (!level) (settled (afterTxByte v level u)) := by
  have hload : RegistersOnly fun s => { s with shift := v, bitcnt := 8 } := ⟨fun s => localRegs_refl s, fun _ _ => rfl⟩
  have hack : RegistersOnly (setAck level) := ⟨fun s => localRegs_refl s, fun _ _ => rfl⟩
  have hbus : RegistersOnly setBusByte := ⟨fun s => localRegs_refl s, fun _ _ => rfl⟩
  have hcells : Plays c (pinsOnly { u with shift := v, bitcnt := 8 }) ((wireBits v).flatMap txCell) [] (txBits c 8) ()
      (settled (clockedOut 8 { u with shift := v, bitcnt := 8 })) := by
    rw [← topBits_eight]
    exact plays_txCell (plays_txBits 7)
  exact plays_upd hload (fun _ => hload.pinsOnly) <|
    plays_bind hcells (count_r_flatMap_txCell _) <|
    plays_pin (plays_of_settled (plays_setSDA true)) rfl <|
    plays_pin (plays_of_settled (plays_setSCL true)) rfl <|
    plays_read (plays_getSDA level) <|
    plays_pin (plays_of_settled (plays_setSCL false)) rfl <|
    plays_upd hack (fun _ => hack.settled) <| plays_upd hbus (fun _ => hbus.settled) <| plays_pure _

theorem plays_rxByte (isLast : Bool) {bits : List Bool} (hbits : bits.length = 8) :
    Plays c (pinsOnly u) (rxToks isLast) bits (rxByte c isLast) (byteOfBits bits) (settled (afterRxByte bits u)) := by
  have hload : RegistersOnly fun s => { s with shift := 0, bitcnt := 8 } := ⟨fun s => localRegs_refl s, fun _ _ => rfl⟩
  have hbus : RegistersOnly setBusByte := ⟨fun s => localRegs_refl s, fun _ _ => rfl⟩
  have hcells (w : State) : Plays c (pinsOnly w) (List.replicate 8 rxCell).flatten bits (rxBits c 8) ()
      (settled (clockedIn bits w)) := by
    obtain ⟨b, bits, rfl⟩ := List.exists_cons_of_length_eq_add_one hbits
    rw [← hbits]
    exact plays_rxCell (plays_rxBits bits)
  have hshift (v : State) (hv : settled (afterRxByte bits u) v) : v.shift = byteOfBits bits :=
    hv.1.shift.trans (clockedIn_shift bits _)
  have hrun : Plays c (pinsOnly u) (rxToks isLast) (bits ++ []) (rxByte c isLast) (byteOfBits bits)
      (settled (afterRxByte bits u)) :=
    plays_upd hload (fun _ => hload.pinsOnly) <|
    plays_bind (hcells { u with shift := 0, bitcnt := 8 }) (by rw [hbits]; rfl) <|
    plays_pin (plays_of_settled (plays_setSDA isLast)) rfl <|
    plays_pin (plays_of_settled (plays_setSCL true)) rfl <|
    plays_pin (plays_of_settled (plays_setSCL false)) rfl <|
    plays_pin (plays_of_settled (plays_setSDA true)) rfl <|
    plays_upd hbus (fun _ => hbus.settled) <|
    plays_peek fun v hv => hshift v hv ▸ plays_pure v.shift
  rwa [List.append_nil] at hrun

end Bytes

/-! ### The operations, whole -/

/-- After a byte the clock is low and SDA released. -/
theorem Played.pins_txToks {v : Byte} {rs : List Reply} {rest : List (Option Reply)} {s t : State}
    (h : Played (txToks v) rs rest s t) (hc : t.cfg = s.cfg) :
    sclOf t.cfg t.latch = false ∧ sdaOf t.cfg t.latch = true := by
  obtain ⟨-, hlatch, -, -⟩ := h
  rw [hc, hlatch, txToks, latchAfter_append]
  simp [latchAfter]

theorem Played.pins_rxToks {isLast : Bool} {rs : List Reply} {rest : List (Option Reply)} {s t : State}
    (h : Played (rxToks isLast) rs rest s t) (hc : t.cfg = s.cfg) :
    sclOf t.cfg t.latch = false ∧ sdaOf t.cfg t.latch = true := by
  obtain ⟨-, hlatch, -, -⟩ := h
  rw [hc, hlatch, rxToks, latchAfter_append]
  simp only [latchAfter, sclOf_withBit_sdaMask, sclOf_withBit_sclMask, sdaOf_withBit_sdaMask, and_self]

/-- 41_i2c_bus_engine.md R154: what a `txByte` of `v` that gets the answers `rs` makes of `s`. -/
def SentByte (v : Byte) (rs : List Reply) (rest : List (Option Reply)) (level : Bool) (s t : State) : Prop :=
  Played (txToks v) rs rest s t ∧ samples s.cfg (txToks v) rs = [level] ∧ t.ackf = (!level) ∧ t.result = .ack (!level)
    ∧ sclOf t.cfg t.latch = false ∧ sdaOf t.cfg t.latch = true ∧ t.bus = (if s.bus = .busy then .busy else .unknown)
    ∧ sameRegs { s with bus := t.bus, ackf := t.ackf, shift := t.shift, bitcnt := t.bitcnt } t
    ∧ sameHost s t ∧ t.starts = s.starts ∧ t.stops = s.stops

/-- 41_i2c_bus_engine.md R155: what an `rxByte` that gets the answers `rs` makes of `s`. -/
def ReceivedByte (isLast : Bool) (rs : List Reply) (rest : List (Option Reply)) (s t : State) : Prop :=
  Played (rxToks isLast) rs rest s t ∧ (samples s.cfg (rxToks isLast) rs).length = 8
    ∧ t.result = .byte (byteOfBits (samples s.cfg (rxToks isLast) rs))
    ∧ t.shift = byteOfBits (samples s.cfg (rxToks isLast) rs)
    ∧ sclOf t.cfg t.latch = false ∧ sdaOf t.cfg t.latch = true ∧ t.bus = (if s.bus = .busy then .busy else .unknown)
    ∧ sameRegs { s with bus := t.bus, shift := t.shift, bitcnt := t.bitcnt } t
    ∧ sameHost s t ∧ t.starts = s.starts ∧ t.stops = s.stops

section Whole

variable {s : State} {rs : List Reply} {rest : List (Option Reply)} (hreplies : s.replies = rs.map some ++ rest)
include hreplies

theorem finish_txByte (v : Byte) (hanswered : answered (txToks v) rs = true) :
    ∃ level, SentByte v rs rest level s (finish .ack (txByte s.cfg v) s) := by
  obtain ⟨level, hsamples⟩ := List.length_eq_one_iff.1 ((samples_length s.cfg hanswered).trans (count_r_txToks v))
  obtain ⟨hplayed, hregs⟩ := finish_plays (mk := .ack) (plays_txByte v level) hreplies hanswered hsamples
  obtain ⟨_, _, hclocked⟩ := clockedOut_eq 8 { s with shift := v, bitcnt := 8 }
  rw [afterTxByte, hclocked] at hregs
  obtain ⟨hbus, hidbuf, hstatus, hsuccess, hackf, -, -, haddr, hlen, hcnt, hblkbuf, hseq⟩ := hregs.sameRegs
  obtain ⟨hresult, hstarts, hstops⟩ := hregs.ports
  have hhost : sameHost s _ := hregs.sameHost
  obtain ⟨hscl, hsda⟩ := hplayed.pins_txToks hhost.1
  exact ⟨level, hplayed, hsamples, hackf, hresult, hscl, hsda, hbus,
    ⟨rfl, hidbuf, hstatus, hsuccess, rfl, rfl, rfl, haddr, hlen, hcnt, hblkbuf, hseq⟩, hhost, hstarts, hstops⟩

theorem finish_rxByte (isLast : Bool) (hanswered : answered (rxToks isLast) rs = true) :
    ReceivedByte isLast rs rest s (finish .byte (rxByte s.cfg isLast) s) := by
  have height : (samples s.cfg (rxToks isLast) rs).length = 8 := samples_length _ hanswered
  obtain ⟨hplayed, hregs⟩ := finish_plays (mk := .byte) (plays_rxByte isLast height) hreplies hanswered rfl
  obtain ⟨n, hclocked⟩ := clockedIn_eq (samples s.cfg (rxToks isLast) rs) { s with shift := 0, bitcnt := 8 }
  rw [afterRxByte, hclocked] at hregs
  obtain ⟨hbus, hidbuf, hstatus, hsuccess, hackf, hshift, -, haddr, hlen, hcnt, hblkbuf, hseq⟩ := hregs.sameRegs
  obtain ⟨hresult, hstarts, hstops⟩ := hregs.ports
  have hhost : sameHost s _ := hregs.sameHost
  obtain ⟨hscl, hsda⟩ := hplayed.pins_rxToks hhost.1
  exact ⟨hplayed, height, hresult, hshift, hscl, hsda, hbus,
    ⟨rfl, hidbuf, hstatus, hsuccess, hackf, rfl, rfl, haddr, hlen, hcnt, hblkbuf, hseq⟩, hhost, hstarts, hstops⟩

end Whole

/-! ### The wire frames -/

/-- The frames the master sends are `txByte` of their byte (30_encoding.md R95 to R98). -/
theorem exec_sentFrame {i : Instr} {v : Byte} (s : State)
    (h : (∃ h : Nibble, i = .devselW h ∧ v = 0xA#4 ++ h) ∨ (∃ h : BitVec 3, i = .devselR h ∧ v = 0xA#4 ++ (h ++ 1#1))
      ∨ i = .wordAddr v ∨ i = .dataFrame (.sent v)) :
    exec i s = .next (finish .ack (txByte s.cfg v) s) := by
  rcases h with ⟨high, rfl, rfl⟩ | ⟨high, rfl, rfl⟩ | rfl | rfl
  · rw [← selectWByte_eq]
    rfl
  · rw [← selectRByte_eq]
    rfl
  · rfl
  · rfl

/-- Settles O24: a frame the master sends is a `txByte`, one it receives an `rxByte`, and each plays its string. -/
theorem wireFramesAreByteFrames : Obligations.WireFramesAreByteFrames := by
  constructor
  · intro i v s rs rest hi hreplies hanswered
    obtain ⟨level, hsent⟩ := finish_txByte hreplies v hanswered
    exact ⟨_, level, exec_sentFrame s hi, hsent⟩
  · intro isLast s rs rest hreplies hanswered
    exact ⟨_, rfl, finish_rxByte hreplies isLast hanswered⟩

end Sys2Proof.Machine
end

section
/-! The latch and the outputs of a run (10_state.md R22, 40_pin_controller.md R136), as frames in the sense of
Laws/Frame.lean: `fixedKept` says that the bits of no bus pin are held, `walked` that the outputs move one bus pin at a
time. Both hold of ended and of abandoned pieces, so that a transport failure is no exception. -/

namespace Sys2Proof.Machine

/-! ### What a transfer records -/

theorem writeEffect_trace (v : Byte) (s : State) :
    (writeEffect v s).trace =
      .out (outRequest s.cfg (v.zeroExtend 16)) (nextReply false { s with latch := v }).1.ret :: s.trace := by
  obtain ⟨n, hn⟩ := nextReply_spec false { s with latch := v }
  unfold writeEffect
  rw [outEffect_trace, hn]

theorem readEffect_trace (s : State) :
    (readEffect s).trace =
      .inp (inRequest s.cfg) (nextReply true s).1.ret (nextReply true s).1.b0 (nextReply true s).1.b1 :: s.trace := by
  obtain ⟨n, hn⟩ := nextReply_spec true s
  unfold readEffect
  rw [inEffect_trace, hn]

theorem pinEffect_latch (mask : Byte) (b : Bool) (s : State) : (pinEffect mask b s).latch = withBit mask s.latch b :=
  (writeEffect_pins _ s).1

/-! ### The bits of no bus pin -/

/-- The latch bits of no bus pin are held. -/
def fixedKept (c : Config) (s t : State) : Prop := t.latch &&& fixedMask c = s.latch &&& fixedMask c

theorem withBit_fixed {c : Config} {mask : Byte} (hm : mask = sclMask c ∨ mask = sdaMask c) (v : Byte) (b : Bool) :
    withBit mask v b &&& fixedMask c = v &&& fixedMask c := by
  rcases hm with rfl | rfl
  · exact withBit_sclMask_fixed c v b
  · exact withBit_sdaMask_fixed c v b

theorem pinEffect_fixedKept {c : Config} {mask : Byte} (hm : mask = sclMask c ∨ mask = sdaMask c) (b : Bool)
    (s : State) : fixedKept c s (pinEffect mask b s) := by
  unfold fixedKept
  rw [pinEffect_latch, withBit_fixed hm]

theorem fixedKept_of_latch {c : Config} {s t : State} (h : t.latch = s.latch) : fixedKept c s t :=
  congrArg (· &&& fixedMask c) h

theorem fixedKept_pinClosed (c : Config) : PinClosed c (fixedKept c) (fixedKept c) where
  refl _ := rfl
  trans _ _ _ h h' := Eq.trans h' h
  transE _ _ _ h h' := Eq.trans h' h
  delay _ _ := rfl
  pin _ b s _ hm _ := pinEffect_fixedKept hm b s
  pinFatal _ b s _ hm _ := pinEffect_fixedKept hm b s
  read s _ _ := fixedKept_of_latch (readEffect_pins s).1
  readFatal s _ _ := fixedKept_of_latch (readEffect_pins s).1

/-- Settles O16: a setter holds the bits under the other masks, a reader and the registers all bits. -/
theorem otherLatchBitsAreHeld : Obligations.OtherLatchBitsAreHeld := by
  intro i s t hi h
  have hregs : ∀ s' t', localRegs s' t' → fixedKept s.cfg s' t' :=
    fun _ _ ⟨_, hlatch, _⟩ => fixedKept_of_latch hlatch
  exact (exec_ends (fixedKept_pinClosed s.cfg) hregs hi h).elim And.left id

/-! ### One bus pin at a time -/

/-- The events from `s` to `t` walk from the latch of `s` to that of `t`. -/
def walked (c : Config) (s t : State) : Prop :=
  ∃ evs, t.trace = evs.reverse ++ s.trace ∧ pinWalk c s.latch evs = some t.latch

/-- A walk goes on where the one before it ended. -/
theorem pinWalk_append {c : Config} {xs : List Event} {u v : Byte} (h : pinWalk c u xs = some v) (ys : List Event) :
    pinWalk c u (xs ++ ys) = pinWalk c v ys := by
  induction xs generalizing u with
  | nil => exact congrArg (pinWalk c · ys) (Option.some.inj h)
  | cons e xs ih =>
    cases e with
    | out req ret =>
      simp only [pinWalk, List.cons_append] at h ⊢
      split at h
      next hmove => rw [if_pos hmove, ih h]
      next => cases h
    | inp req ret b0 b1 => exact ih h
    | delay us => exact ih h

theorem walked.trans {c : Config} {s m t : State} (h : walked c s m) (h' : walked c m t) : walked c s t := by
  obtain ⟨xs, htrace, hwalk⟩ := h
  obtain ⟨ys, htrace', hwalk'⟩ := h'
  refine ⟨xs ++ ys, ?_, by rw [pinWalk_append hwalk, hwalk']⟩
  rw [htrace', htrace, List.reverse_append, List.append_assoc]

/-- What neither records an event nor moves the latch. -/
theorem walked_of_still {c : Config} {s t : State} (htrace : t.trace = s.trace) (hlatch : t.latch = s.latch) :
    walked c s t :=
  ⟨[], htrace, congrArg some hlatch.symm⟩

/-- What records one event. -/
theorem walked_of_event {c : Config} {s t : State} {e : Event} (htrace : t.trace = e :: s.trace)
    (hwalk : pinWalk c s.latch [e] = some t.latch) : walked c s t :=
  ⟨[e], htrace, hwalk⟩

/-- A setter moves its own bit alone. -/
theorem withBit_moves (mask v : Byte) (b : Bool) : (withBit mask v b ^^^ v) &&& ~~~mask = 0 := by
  apply BitVec.eq_of_getLsbD_eq
  intro k hk
  cases b <;> cases hm : mask.getLsbD k <;> simp [withBit, BitVec.getLsbD_and, hm, hk, -BitVec.getLsbD_eq_getElem]

theorem pinWalk_setter {c : Config} {mask : Byte} (hm : mask = sclMask c ∨ mask = sdaMask c) (v : Byte) (b : Bool)
    (ret : Int) :
    pinWalk c v [.out (outRequest c ((withBit mask v b).zeroExtend 16)) ret] = some (withBit mask v b) := by
  have hvalue : BitVec.truncate 8 (BitVec.zeroExtend 16 (withBit mask v b)) = withBit mask v b := by simp
  have hmove : (withBit mask v b ^^^ v) &&& ~~~sclMask c = 0 ∨ (withBit mask v b ^^^ v) &&& ~~~sdaMask c = 0 :=
    hm.imp (fun h => by rw [← h, withBit_moves]) fun h => by rw [← h, withBit_moves]
  simp only [pinWalk, outRequest, hvalue, true_and]
  exact if_pos hmove

theorem pinEffect_walked {c : Config} {mask : Byte} {s : State} (hs : s.cfg = c)
    (hm : mask = sclMask c ∨ mask = sdaMask c) (b : Bool) : walked c s (pinEffect mask b s) := by
  subst hs
  refine walked_of_event (writeEffect_trace _ s) ?_
  rw [pinWalk_setter hm, pinEffect_latch]

theorem readEffect_walked {c : Config} (s : State) : walked c s (readEffect s) :=
  walked_of_event (readEffect_trace s) (congrArg some (readEffect_pins s).1.symm)

theorem walked_pinClosed (c : Config) : PinClosed c (walked c) (walked c) where
  refl _ := walked_of_still rfl rfl
  trans _ _ _ := walked.trans
  transE _ _ _ := walked.trans
  delay _ _ := walked_of_event rfl rfl
  pin _ b _ hs hm _ := pinEffect_walked hs hm b
  pinFatal _ b _ hs hm _ := pinEffect_walked hs hm b
  read s _ _ := readEffect_walked s
  readFatal s _ _ := readEffect_walked s

/-- Settles O17: every output is a setter's, which moves the one bit of its mask. -/
theorem outputsChangeOnePinAtATime : Obligations.OutputsChangeOnePinAtATime := by
  intro i s t hi h
  have hregs : ∀ s' t', localRegs s' t' → walked s.cfg s' t' :=
    fun _ _ ⟨_, hlatch, _, _, _, _, _, _, htrace, _⟩ => walked_of_still htrace hlatch
  exact (exec_ends (walked_pinClosed s.cfg) hregs hi h).elim And.left id

end Sys2Proof.Machine
end

section
/-! The five pin operations, whole (40_pin_controller.md R130 to R134). Each is one transfer: `finish_transfer` says how
such an operation ends, `readEffect` and `writeEffect` what its transfer does. -/

namespace Sys2Proof.Machine

/-! ### One transfer -/

/-- An operation of one transfer ends, or is abandoned when the transfer has failed. -/
theorem finish_transfer {α : Type} {mk : α → Result} {m : Op α} {s t u : State} {a : α} {fails : Bool}
    (h : m s = if fails then .error .transportFatal (fatalEntry u) else .ok a t) :
    finish mk m s = if fails then fatalEntry u else { t with result := mk a } := by
  unfold finish
  rw [h]
  cases fails <;> rfl

/-- The results of such an operation tell that it has ended. -/
theorem finish_transfer_ended {α : Type} {mk : α → Result} {m : Op α} {s t u : State} {a : α} {fails : Bool}
    (h : m s = if fails then .error .transportFatal (fatalEntry u) else .ok a t)
    (hresult : (finish mk m s).result ≠ .fatal) : finish mk m s = { t with result := mk a } := by
  rw [finish_transfer h] at hresult ⊢
  cases fails with
  | true => exact absurd rfl hresult
  | false => rfl

theorem readInputs_eq (s : State) :
    readInputs s =
      if inFails (nextReply true s).1.ret then .error .transportFatal (fatalEntry (readEffect s))
      else .ok (inputMask (nextReply true s).1.b0) (readEffect s) := readInputs_run s

theorem writeOutputs_eq (v : Byte) (s : State) :
    writeOutputs v s =
      if outFails (nextReply false { s with latch := v }).1.ret then
        .error .transportFatal (fatalEntry (writeEffect v s))
      else .ok () (writeEffect v s) := writeOutputs_run v s

/-- A setter writes the latch with one bit changed, then lets it settle. -/
theorem setPin_eq_writeEffect (mask : Byte) (b : Bool) (s : State) :
    setPin mask b s =
      if outFails (nextReply false { s with latch := withBit mask s.latch b }).1.ret then
        .error .transportFatal (fatalEntry (writeEffect (withBit mask s.latch b) s))
      else .ok () (delayEffect Config.tSettle (writeEffect (withBit mask s.latch b) s)) := setPin_eq mask b s

/-- A reader's frame: pins, bridge and world too. -/
theorem readEffect_frame (s : State) :
    sameRegs s (readEffect s) ∧ (readEffect s).latch = s.latch ∧ (readEffect s).bridge = s.bridge
      ∧ (readEffect s).world = s.world ∧ (readEffect s).starts = s.starts ∧ (readEffect s).stops = s.stops := by
  obtain ⟨n, hn⟩ := nextReply_spec true s
  obtain ⟨hlatch, hbridge, hworld, -, -⟩ := readEffect_pins s
  refine ⟨readEffect_sameRegs s, hlatch, hbridge, hworld, ?_, ?_⟩ <;> rw [readEffect, hn] <;> rfl

/-- A writer's frame. -/
theorem writeEffect_frame (v : Byte) (s : State) :
    sameRegs s (writeEffect v s) ∧ (writeEffect v s).starts = s.starts ∧ (writeEffect v s).stops = s.stops := by
  obtain ⟨n, hn⟩ := nextReply_spec false { s with latch := v }
  refine ⟨outTransfer_sameRegs _ { s with latch := v }, ?_, ?_⟩
  · rw [writeEffect, outEffect_starts, hn]
  · rw [writeEffect, outEffect_stops, hn]

/-- The delay and the result ports are no part of the frame. -/
theorem sameRegs.delayed {s t : State} (h : sameRegs s t) (us : Nat) (result : Result) :
    sameRegs s { delayEffect us t with result := result } := h

theorem finish_setPin_frame {mask : Byte} {b : Bool} {s : State}
    (hresult : (finish (fun _ => .none) (setPin mask b) s).result ≠ .fatal) :
    sameRegs s (finish (fun _ => .none) (setPin mask b) s)
      ∧ (finish (fun _ => .none) (setPin mask b) s).starts = s.starts
      ∧ (finish (fun _ => .none) (setPin mask b) s).stops = s.stops := by
  rw [finish_transfer_ended (setPin_eq_writeEffect mask b s) hresult]
  obtain ⟨hsame, hstarts, hstops⟩ := writeEffect_frame (withBit mask s.latch b) s
  exact ⟨hsame.delayed _ _, hstarts, hstops⟩

/-- Settles O45: an operation that ended has done one transfer and nothing else to these. -/
theorem pinOperationsWriteOnlyTheLatch : Obligations.PinOperationsWriteOnlyTheLatch := by
  intro i s t h hresult
  constructor
  · rintro (rfl | rfl) <;> obtain rfl := Host.Outcome.next.inj h
    · rw [finish_transfer_ended (readInputs_eq s) hresult]
      exact readEffect_frame s
    · rw [finish_transfer_ended (getSDA_eq s.cfg s) hresult]
      exact readEffect_frame s
  · rintro (⟨v, rfl⟩ | ⟨b, rfl⟩ | ⟨b, rfl⟩) <;> obtain rfl := Host.Outcome.next.inj h
    · rw [finish_transfer_ended (writeOutputs_eq v s) hresult]
      exact writeEffect_frame v s
    · exact finish_setPin_frame hresult
    · exact finish_setPin_frame hresult

/-! ### With a given answer -/

theorem outFails_iff (ret : Int) : outFails ret = true ↔ ret < 0 := decide_eq_true_iff

theorem inFails_iff (ret : Int) : inFails ret = true ↔ ret ≤ 0 := decide_eq_true_iff

theorem inputMask_getLsbD (b0 : Byte) {k : Nat} (hk : k < 4) : (inputMask b0).getLsbD k = !b0.getLsbD k := by
  have hk8 : k < 8 := by omega
  simp [inputMask, hk, hk8]

section Given

variable {s : State} {r : Reply} {rest : List (Option Reply)}

/-- The two readers (R130, R132): one input and no delay, and whatever the answer the latch is kept. -/
theorem finish_reader {α : Type} {mk : α → Result} {m : Op α} {a : Reply → α} (hreplies : s.replies = some r :: rest)
    (h : m s = if inFails (nextReply true s).1.ret then .error .transportFatal (fatalEntry (readEffect s))
      else .ok (a (nextReply true s).1) (readEffect s)) {t : State} (ht : finish mk m s = t) :
    t.latch = s.latch ∧ t.replies = rest ∧ t.trace = .inp (inRequest s.cfg) r.ret r.b0 r.b1 :: s.trace
      ∧ (0 < r.ret → t.result = mk (a r) ∧ sameRegs s t ∧ t.bridge = s.bridge ∧ t.world = s.world)
      ∧ (r.ret ≤ 0 → t.result = .fatal) := by
  obtain ⟨hsame, hlatch, hbridge, hworld, -, -⟩ := readEffect_frame s
  obtain ⟨-, -, -, -, hrest⟩ := readEffect_pins s
  have htrace := readEffect_trace s
  rw [hreplies, List.tail_cons] at hrest
  rw [nextReply_given true hreplies] at h htrace
  rw [finish_transfer h] at ht
  by_cases hfails : inFails r.ret = true
  · obtain rfl := (if_pos hfails).symm.trans ht
    have hle := (inFails_iff _).1 hfails
    exact ⟨hlatch, hrest, htrace, fun hpos => absurd hle (not_le.2 hpos), fun _ => rfl⟩
  · obtain rfl := (if_neg hfails).symm.trans ht
    exact ⟨hlatch, hrest, htrace, fun _ => ⟨rfl, hsame, hbridge, hworld⟩,
      fun hle => absurd ((inFails_iff _).2 hle) hfails⟩

/-- The output of a writer carries the latch. -/
theorem writeEffect_given (v : Byte) (hreplies : s.replies = some r :: rest) :
    (writeEffect v s).latch = v ∧ (writeEffect v s).replies = rest
      ∧ (writeEffect v s).trace = .out (outRequest s.cfg ((writeEffect v s).latch.zeroExtend 16)) r.ret :: s.trace := by
  obtain ⟨hlatch, hrest, -, -⟩ := writeEffect_pins v s
  rw [writeEffect_trace, nextReply_given false (s := { s with latch := v }) hreplies, hlatch, hrest, hreplies]
  exact ⟨rfl, rfl, rfl⟩

/-- How a writer answered with `r` ends: in `t`, the bridge having taken the value, or abandoned after its output. -/
theorem finish_writer {m : Op Unit} {t : State} {v : Byte} (hreplies : s.replies = some r :: rest)
    (h : m s = if outFails (nextReply false { s with latch := v }).1.ret then
      .error .transportFatal (fatalEntry (writeEffect v s)) else .ok () t) :
    (¬ r.ret < 0 ∧ (writeEffect v s).bridge = v ∧ finish (fun _ => .none) m s = { t with result := .none })
      ∨ (r.ret < 0 ∧ finish (fun _ => .none) m s = fatalEntry (writeEffect v s)) := by
  obtain ⟨-, -, -, hpins⟩ := writeEffect_pins v s
  rw [nextReply_given false (s := { s with latch := v }) hreplies] at h hpins
  rw [finish_transfer h]
  by_cases hfails : outFails r.ret = true
  · exact .inr ⟨(outFails_iff _).1 hfails, if_pos hfails⟩
  · exact .inl ⟨fun hlt => hfails ((outFails_iff _).2 hlt), (hpins.resolve_right fun hp => hfails hp.1).1,
      if_neg hfails⟩

/-- The two setters (R133, R134): one output of the latch with one bit changed, then, where it did not fail, the
settling delay. -/
theorem finish_setPin {mask : Byte} {b : Bool} {t : State} (hreplies : s.replies = some r :: rest)
    (ht : finish (fun _ => .none) (setPin mask b) s = t) :
    t.replies = rest ∧ t.latch = withBit mask s.latch b
      ∧ (0 ≤ r.ret → t.result = .none ∧ t.bridge = t.latch ∧ sameRegs s t
          ∧ t.trace = .delay 10 :: .out (outRequest s.cfg (t.latch.zeroExtend 16)) r.ret :: s.trace)
      ∧ (r.ret < 0 → t.result = .fatal
          ∧ t.trace = .out (outRequest s.cfg (t.latch.zeroExtend 16)) r.ret :: s.trace) := by
  obtain ⟨hlatch, hrest, htrace⟩ := writeEffect_given (withBit mask s.latch b) hreplies
  obtain ⟨hsame, -, -⟩ := writeEffect_frame (withBit mask s.latch b) s
  rcases finish_writer hreplies (setPin_eq_writeEffect mask b s) with ⟨hret, hbridge, hfinish⟩ | ⟨hret, hfinish⟩ <;>
    obtain rfl := hfinish.symm.trans ht
  · exact ⟨hrest, hlatch, fun _ => ⟨rfl, hbridge.trans hlatch.symm, hsame.delayed _ _,
      congrArg (Event.delay 10 :: ·) htrace⟩, fun hlt => absurd hlt hret⟩
  · exact ⟨hrest, hlatch, fun hle => absurd hret (not_lt.2 hle), fun _ => ⟨rfl, htrace⟩⟩

end Given

/-- Settles O11: a reader whose value is the negated nibble. -/
theorem readInputsReturnsTheNegatedNibble : Obligations.ReadInputsReturnsTheNegatedNibble := by
  intro s r rest hreplies
  obtain ⟨hlatch, hrest, htrace, hended, hfatal⟩ :=
    finish_reader (mk := .mask) (a := fun r => inputMask r.b0) hreplies (readInputs_eq s) rfl
  refine ⟨_, rfl, hlatch, hrest, htrace, fun hpos => ?_, hfatal⟩
  obtain ⟨hresult, hsame, hbridge, hworld⟩ := hended hpos
  exact ⟨hsame, hbridge, hworld, _, hresult, fun _ => inputMask_getLsbD r.b0⟩

/-- Settles O12: the latch is written before the output is tried. -/
theorem writeOutputsMutatesThenFlushes : Obligations.WriteOutputsMutatesThenFlushes := by
  intro s v r rest hreplies
  obtain ⟨hlatch, hrest, htrace⟩ := writeEffect_given v hreplies
  obtain ⟨hsame, -, -⟩ := writeEffect_frame v s
  rw [hlatch] at htrace
  refine ⟨_, rfl, ?_⟩
  rcases finish_writer hreplies (writeOutputs_eq v s) with ⟨hret, hbridge, hfinish⟩ | ⟨hret, hfinish⟩ <;> rw [hfinish]
  · exact ⟨hlatch, hrest, htrace, fun _ => ⟨rfl, hbridge, hsame⟩, fun hlt => absurd hlt hret⟩
  · exact ⟨hlatch, hrest, htrace, fun hle => absurd hret (not_lt.2 hle), fun _ => rfl⟩

/-- Settles O13: a reader whose value is the raw CTS bit. -/
theorem getSDAReturnsTheRawCtsBit : Obligations.GetSDAReturnsTheRawCtsBit := fun s _ _ hreplies =>
  ⟨_, rfl, finish_reader (mk := .level) (a := fun r => r.b0.getLsbD s.cfg.ctsBit.val) hreplies (getSDA_eq s.cfg s) rfl⟩

/-- Settles O14: `setSCL` is the setter of the SCL bit. -/
theorem setSCLChangesOneBitThenSettles : Obligations.SetSCLChangesOneBitThenSettles := by
  intro s b r rest hreplies
  obtain ⟨hrest, hlatch, hends⟩ := finish_setPin (mask := sclMask s.cfg) (b := b) hreplies rfl
  exact ⟨_, rfl, hrest, fun k hk => hlatch ▸ withBit_sclMask_getLsbD s.cfg s.latch b k hk, hends⟩

/-- Settles O15: `setSDA` is the setter of the SDA bit. -/
theorem setSDAChangesOneBitThenSettles : Obligations.SetSDAChangesOneBitThenSettles := by
  intro s b r rest hreplies
  obtain ⟨hrest, hlatch, hends⟩ := finish_setPin (mask := sdaMask s.cfg) (b := b) hreplies rfl
  exact ⟨_, rfl, hrest, fun k hk => hlatch ▸ withBit_sdaMask_getLsbD s.cfg s.latch b k hk, hends⟩

end Sys2Proof.Machine
end

section
/-! The engine's operations with given answers (41_i2c_bus_engine.md R151 to R155): each plays its string, and what it
leaves in the registers is read off the updates between its pins. -/

namespace Sys2Proof.Machine

/-! ### The conditions -/

section Conditions

variable {c : Config} {u : State}

theorem plays_busInit :
    Plays c (pinsOnly u) initToks [] (busInit c) () (settled { u with bus := .idle }) :=
  have hidle : RegistersOnly fun s => { s with bus := .idle } := ⟨fun s => localRegs_refl s, fun _ _ => rfl⟩
  plays_pin (plays_setSCL true) rfl <|
  plays_pin (plays_of_settled (plays_setSDA true)) rfl <|
  plays_upd hidle (fun _ => hidle.settled) (plays_pure ())

theorem plays_start :
    Plays c (pinsOnly u) startToks [] (start c) () (settled (setBusStarted (countStart u))) :=
  have hcount : RegistersOnly countStart := ⟨fun s => localRegs_refl s, fun _ _ => rfl⟩
  have hbus : RegistersOnly setBusStarted := ⟨fun s => localRegs_refl s, fun _ _ => rfl⟩
  plays_upd hcount (fun _ => hcount.pinsOnly) <|
  plays_pin (plays_setSDA false) rfl <|
  plays_pin (plays_of_settled (plays_setSCL false)) rfl <|
  plays_upd hbus (fun _ => hbus.settled) (plays_pure ())

theorem plays_stop :
    Plays c (pinsOnly u) stopToks [] (stop c) () (settled (setBusStopped (countStop u))) :=
  have hcount : RegistersOnly countStop := ⟨fun s => localRegs_refl s, fun _ _ => rfl⟩
  have hbus : RegistersOnly setBusStopped := ⟨fun s => localRegs_refl s, fun _ _ => rfl⟩
  plays_upd hcount (fun _ => hcount.pinsOnly) <|
  plays_pin (plays_setSDA false) rfl <|
  plays_pin (plays_of_settled (plays_setSCL true)) rfl <|
  plays_pin (plays_of_settled (plays_setSDA true)) rfl <|
  plays_upd hbus (fun _ => hbus.settled) (plays_pure ())

end Conditions

/-- An operation that samples nothing, whole: `w` are the registers its updates make of those of `s`. -/
theorem finish_condition {toks : List Tok} {m : Op Unit} {s w : State} {rs : List Reply} {rest : List (Option Reply)}
    (h : Plays s.cfg (pinsOnly s) toks [] m () (settled w)) (hreplies : s.replies = rs.map some ++ rest)
    (hanswered : answered toks rs = true) (hcount : toks.count .r = 0) :
    Played toks rs rest s (finish (fun _ => .none) m s)
      ∧ pinsOnly { w with result := .none } (finish (fun _ => .none) m s) :=
  finish_plays h hreplies hanswered (List.length_eq_zero_iff.1 ((samples_length _ hanswered).trans hcount))

theorem Played.latch {toks : List Tok} {rs : List Reply} {rest : List (Option Reply)} {s t : State}
    (h : Played toks rs rest s t) : t.latch = latchAfter s.cfg s.latch toks := by
  obtain ⟨-, hlatch, -, -⟩ := h
  exact hlatch

/-- Settles O18: two setters, the last writes to the two pins. -/
theorem busInitReleasesTheBus : Obligations.BusInitReleasesTheBus := by
  intro s rs rest hreplies hanswered
  obtain ⟨hplayed, hregs⟩ := finish_condition plays_busInit hreplies hanswered rfl
  obtain ⟨hresult, hstarts, hstops⟩ := hregs.ports
  have hhost : sameHost s _ := hregs.sameHost
  refine ⟨_, rfl, hplayed, ?_, hresult, hregs.sameRegs, hhost, hstarts, hstops⟩
  rw [released, hhost.1, hplayed.latch]
  simp [initToks, latchAfter]

/-- Settles O19: the setters of `start`, and BUS by `busAfter`. -/
theorem startEmitsTheStartCondition : Obligations.StartEmitsTheStartCondition := by
  intro s rs rest hreplies hanswered
  obtain ⟨hplayed, hregs⟩ := finish_condition plays_start hreplies hanswered rfl
  obtain ⟨hresult, hstarts, hstops⟩ := hregs.ports
  have hhost : sameHost s _ := hregs.sameHost
  refine ⟨_, rfl, hplayed, ?_, ?_, hresult, hregs.sameRegs, hhost, hstarts, hstops⟩ <;> rw [hhost.1, hplayed.latch]
  · simp [startToks, latchAfter]
  · simp [startToks, latchAfter]

/-- Settles O20: the setters of `stop`, and BUS by `busAfter`. -/
theorem stopEmitsTheStopCondition : Obligations.StopEmitsTheStopCondition := by
  intro s rs rest hreplies hanswered
  obtain ⟨hplayed, hregs⟩ := finish_condition plays_stop hreplies hanswered rfl
  obtain ⟨hresult, hstarts, hstops⟩ := hregs.ports
  have hhost : sameHost s _ := hregs.sameHost
  refine ⟨_, rfl, hplayed, ?_, hresult, hregs.sameRegs, hhost, hstops, hstarts⟩
  rw [released, hhost.1, hplayed.latch]
  simp [stopToks, latchAfter]

/-! ### The bytes -/

/-- Settles O21: `txByte` of `v` plays the string of `v`. -/
theorem txByteClocksOutAndSamplesAck : Obligations.TxByteClocksOutAndSamplesAck := by
  intro v s rs rest hreplies hanswered
  obtain ⟨level, hsent⟩ := finish_txByte hreplies v hanswered
  exact ⟨_, level, rfl, hsent⟩

/-- Settles O22: `rxByte` plays its string and gathers the samples. -/
theorem rxByteAssemblesSamplesAndAnswers : Obligations.RxByteAssemblesSamplesAndAnswers :=
  fun isLast _ _ _ hreplies hanswered => ⟨_, rfl, finish_rxByte hreplies isLast hanswered⟩

end Sys2Proof.Machine
end

section
/-! The engine's operations as frames, update by update: Laws/Frame.lean asks a relation to bear every change the engine
makes to its registers; here it has to bear only those that the one operation makes. -/

namespace Sys2Proof.Machine

/-- Abandoned pieces leave the marks, whatever else the relation says of them. -/
theorem PinClosed.marks {c : Config} {R E : State → State → Prop} (hp : PinClosed c R E) :
    PinClosed c R fun _ t => fatalMarks t where
  refl := hp.refl
  trans := hp.trans
  transE _ _ _ _ h := h
  delay := hp.delay
  pin := hp.pin
  pinFatal _ _ _ _ _ _ := fatalMarks_fatalEntry _
  read := hp.read
  readFatal _ _ _ := fatalMarks_fatalEntry _

section Pieces

variable {c : Config} {R E : State → State → Prop} (hp : PinClosed c R E)
include hp

/-- An update of the registers and what follows it. -/
theorem ends_updThen {α : Type} {g : State → State} {f : Unit → Op α} (hcfg : ∀ s, (g s).cfg = s.cfg)
    (hg : ∀ s, R s (g s)) (hf : Ends c R E (f ())) : Ends c R E (upd g >>= f) :=
  ends_bind hp (ends_upd fun s hs => ⟨(hcfg s).trans hs, hg s⟩) fun _ => hf

theorem busInit_ends_of (hidle : ∀ s : State, R s { s with bus := .idle }) : Ends c R E (busInit c) :=
  ends_bind hp (setSCL_ends hp true) fun _ =>
  ends_bind hp (setSDA_ends hp true) fun _ => ends_upd fun s hs => ⟨hs, hidle s⟩

theorem start_ends_of (hcount : ∀ s, R s (countStart s)) (hbus : ∀ s, R s (setBusStarted s)) : Ends c R E (start c) :=
  ends_updThen hp countStart_cfg hcount <|
  ends_bind hp (setSDA_ends hp false) fun _ =>
  ends_bind hp (setSCL_ends hp false) fun _ => ends_upd fun s hs => ⟨hs, hbus s⟩

theorem stop_ends_of (hcount : ∀ s, R s (countStop s)) (hbus : ∀ s, R s (setBusStopped s)) : Ends c R E (stop c) :=
  ends_updThen hp countStop_cfg hcount <|
  ends_bind hp (setSDA_ends hp false) fun _ =>
  ends_bind hp (setSCL_ends hp true) fun _ =>
  ends_bind hp (setSDA_ends hp true) fun _ => ends_upd fun s hs => ⟨hs, hbus s⟩

section Bytes

variable (hshift : ∀ (s : State) (v : Byte) (n : Nibble), R s { s with shift := v, bitcnt := n })
  (hbus : ∀ s, R s (setBusByte s))
include hshift

theorem txBits_ends_of (left : Nat) : Ends c R E (txBits c left) := by
  induction left with
  | zero => exact ends_pure hp ()
  | succ left ih =>
    exact ends_bind hp (ends_peek hp) fun _ => ends_bind hp (setSDA_ends hp _) fun _ =>
      ends_bind hp (setSCL_ends hp true) fun _ => ends_bind hp (setSCL_ends hp false) fun _ =>
      ends_updThen hp (fun _ => rfl) (fun s => hshift s _ _) ih

theorem rxBits_ends_of (left : Nat) : Ends c R E (rxBits c left) := by
  induction left with
  | zero => exact ends_pure hp ()
  | succ left ih =>
    exact ends_bind hp (setSCL_ends hp true) fun _ => ends_bind hp (getSDA_ends hp) fun _ =>
      ends_bind hp (setSCL_ends hp false) fun _ => ends_updThen hp (fun _ => rfl) (fun s => hshift s _ _) ih

include hbus

theorem txByte_ends_of (hack : ∀ s b, R s (setAck b s)) (v : Byte) : Ends c R E (txByte c v) :=
  ends_updThen hp (fun _ => rfl) (fun s => hshift s _ _) <|
  ends_bind hp (txBits_ends_of hp hshift 8) fun _ =>
  ends_bind hp (setSDA_ends hp true) fun _ =>
  ends_bind hp (setSCL_ends hp true) fun _ =>
  ends_bind hp (getSDA_ends hp) fun sample =>
  ends_bind hp (setSCL_ends hp false) fun _ =>
  ends_updThen hp (fun _ => rfl) (fun s => hack s sample) <|
  ends_updThen hp setBusByte_cfg hbus <| ends_pure hp _

theorem rxByte_ends_of (isLast : Bool) : Ends c R E (rxByte c isLast) :=
  ends_updThen hp (fun _ => rfl) (fun s => hshift s _ _) <|
  ends_bind hp (rxBits_ends_of hp hshift 8) fun _ =>
  ends_bind hp (setSDA_ends hp isLast) fun _ =>
  ends_bind hp (setSCL_ends hp true) fun _ =>
  ends_bind hp (setSCL_ends hp false) fun _ =>
  ends_bind hp (setSDA_ends hp true) fun _ =>
  ends_updThen hp setBusByte_cfg hbus <|
  ends_bind hp (ends_peek hp) fun _ => ends_pure hp _

end Bytes

end Pieces

/-- A whole operation that has ended, for a frame that does not speak of the result ports. -/
theorem finish_ended {R : State → State → Prop} {α : Type} {mk : α → Result} {m : Op α} {s : State}
    (hm : Ends s.cfg R (fun _ t => fatalMarks t) m) (hport : ∀ t result, R s t → R s { t with result := result })
    (hresult : (finish mk m s).result ≠ .fatal) : R s (finish mk m s) := by
  rcases finish_cases mk m s with ⟨a, t, h, hf⟩ | ⟨e, t, h, hf⟩
  · exact hf ▸ hport t _ ((hm s rfl).1 a t h).2
  · obtain ⟨-, -, -, -, hfatal⟩ := (hm s rfl).2 e t h
    exact absurd (hf ▸ hfatal) hresult

/-! ### The registers an operation writes -/

/-- Every register but BUS and LATCH is kept. -/
def sameButBus (s t : State) : Prop := sameRegs { s with bus := t.bus } t

/-- Every register but BUS, SHIFT, BITCNT and LATCH is kept. -/
def sameButShift (s t : State) : Prop := sameRegs { s with bus := t.bus, shift := t.shift, bitcnt := t.bitcnt } t

/-- Every register but BUS, SHIFT, BITCNT, ACKF and LATCH is kept. -/
def sameButAck (s t : State) : Prop :=
  sameRegs { s with bus := t.bus, shift := t.shift, bitcnt := t.bitcnt, ackf := t.ackf } t

theorem sameButBus_pinClosed (c : Config) : PinClosed c sameButBus fun _ t => fatalMarks t :=
  (pinClosed_of_sameRegs c (fun s t h => by simp_all [sameButBus, sameRegs])
    fun s m t h h' => by simp_all [sameButBus, sameRegs]).marks

theorem sameButShift_pinClosed (c : Config) : PinClosed c sameButShift fun _ t => fatalMarks t :=
  (pinClosed_of_sameRegs c (fun s t h => by simp_all [sameButShift, sameRegs])
    fun s m t h h' => by simp_all [sameButShift, sameRegs]).marks

theorem sameButAck_pinClosed (c : Config) : PinClosed c sameButAck fun _ t => fatalMarks t :=
  (pinClosed_of_sameRegs c (fun s t h => by simp_all [sameButAck, sameRegs])
    fun s m t h h' => by simp_all [sameButAck, sameRegs]).marks

/-- Settles O46: the updates of each operation write no other register. -/
theorem busOperationsWriteOnlyTheirRegisters : Obligations.BusOperationsWriteOnlyTheirRegisters := by
  intro i s t h hresult
  have hbus := sameButBus_pinClosed s.cfg
  have hreceived (l : Bool) : Ends s.cfg sameButShift (fun _ t => fatalMarks t) (rxByte s.cfg l) :=
    rxByte_ends_of (sameButShift_pinClosed s.cfg) (fun s _ _ => sameRegs_refl _) (fun s => sameRegs_refl _) l
  have hsent (v : Byte) : Ends s.cfg sameButAck (fun _ t => fatalMarks t) (txByte s.cfg v) :=
    txByte_ends_of (sameButAck_pinClosed s.cfg) (fun s _ _ => sameRegs_refl _) (fun s => sameRegs_refl _)
      (fun s _ => sameRegs_refl _) v
  refine ⟨?_, ?_, ?_⟩
  · rintro (rfl | rfl | rfl) <;> obtain rfl := Host.Outcome.next.inj h
    · exact finish_ended (busInit_ends_of hbus fun s => sameRegs_refl _) (fun _ _ h => h) hresult
    · exact finish_ended (start_ends_of hbus (fun _ => sameRegs_refl _) fun _ => sameRegs_refl _) (fun _ _ h => h)
        hresult
    · exact finish_ended (stop_ends_of hbus (fun _ => sameRegs_refl _) fun _ => sameRegs_refl _) (fun _ _ h => h)
        hresult
  · rintro (⟨l, rfl⟩ | ⟨l, rfl⟩) <;> obtain rfl := Host.Outcome.next.inj h <;>
      exact finish_ended (hreceived l) (fun _ _ h => h) hresult
  · rintro (⟨v, rfl⟩ | ⟨h', rfl⟩ | ⟨h', rfl⟩ | ⟨a, rfl⟩ | ⟨d, rfl⟩) <;> obtain rfl := Host.Outcome.next.inj h <;>
      exact finish_ended (hsent _) (fun _ _ h => h) hresult

end Sys2Proof.Machine
end

section
/-! The EEPROM Protocol over the engine (42_eeprom_protocol.md R181 to R185): what every run of a protocol operation is
made of, in transactions. Give what holds between transactions and what holds inside one; if the engine's operations
lead from the one to the other, `readBlock`, `writeBlock` and the operations made of them do, whatever the world
answers. -/

namespace Sys2Proof.Machine

/-! ### Transactions and the rules of the engine -/

/-- A transaction by its bytes: those sent after its START, then those received. -/
structure Transaction where
  sent : Nat
  received : Nat

/-- What the protocol itself changes: registers, and the counter of free values. -/
def localBlock (s t : State) : Prop :=
  t = { s with idbuf := t.idbuf, status := t.status, success := t.success, addr := t.addr, len := t.len, cnt := t.cnt,
               blkbuf := t.blkbuf, fresh := t.fresh }

theorem localBlock.cfg {s t : State} (h : localBlock s t) : t.cfg = s.cfg := by
  rw [show t = _ from h]

theorem localBlock.bus {s t : State} (h : localBlock s t) : t.bus = s.bus := by
  rw [show t = _ from h]

/-- `Idle log` holds when the transactions of `log`, newest first, are over, `Open log x` when after them `x` has been
sent and received of the next; `E` where TransportFatal ends the run. -/
structure EngineRules (c : Config) (Idle : List Transaction → State → Prop)
    (Open : List Transaction → Transaction → State → Prop) (E : State → Prop) : Prop where
  onStart : ∀ log, Spec c (Idle log) (start c) (fun _ => Open log ⟨0, 0⟩) E
  onSend : ∀ log x v, Spec c (Open log x) (txByte c v) (fun _ => Open log { x with sent := x.sent + 1 }) E
  onReceive : ∀ log x isLast,
    Spec c (Open log x) (rxByte c isLast) (fun _ => Open log { x with received := x.received + 1 }) E
  onStop : ∀ log x, Spec c (Open log x) (stop c) (fun _ => Idle (x :: log)) E
  onDelay : ∀ log us, Spec c (Idle log) (delay us) (fun _ => Idle log) E
  onIdle : ∀ log s t, localBlock s t → Idle log s → Idle log t
  onOpen : ∀ log x s t, localBlock s t → Open log x s → Open log x t

/-! ### The shapes of the block operations -/

/-- A read of `n` bytes that ends with `ok`: one transaction, its first or second byte not acknowledged, or two, the
bytes being received in the second if its select byte was acknowledged. -/
def readShape (n : Nat) (ok : Bool) (earlier : List Transaction) (last : Transaction) : Prop :=
  (ok = false ∧ earlier = [] ∧ (last = ⟨1, 0⟩ ∨ last = ⟨2, 0⟩))
    ∨ (earlier = [⟨2, 0⟩] ∧ last = ⟨1, if ok then n else 0⟩)

/-- A write of `n` bytes that ends with `ok`: one transaction, of all its bytes if all were acknowledged. -/
def writeShape (n : Nat) (ok : Bool) (x : Transaction) : Prop :=
  x.received = 0 ∧ 1 ≤ x.sent ∧ x.sent ≤ 2 + n ∧ (ok = true → x.sent = 2 + n)

section Protocol

variable {c : Config} {Idle : List Transaction → State → Prop} {Open : List Transaction → Transaction → State → Prop}
  {E : State → Prop} {log : List Transaction} (h : EngineRules c Idle Open E)
include h

theorem EngineRules.updIdle {g : State → State} (hg : ∀ s, localBlock s (g s)) :
    Spec c (Idle log) (upd g) (fun _ => Idle log) E :=
  spec_upd fun s hs => ⟨(hg s).cfg, h.onIdle log s _ (hg s) hs⟩

theorem EngineRules.updOpen {x : Transaction} {g : State → State} (hg : ∀ s, localBlock s (g s)) :
    Spec c (Open log x) (upd g) (fun _ => Open log x) E :=
  spec_upd fun s hs => ⟨(hg s).cfg, h.onOpen log x s _ (hg s) hs⟩

theorem EngineRules.readBytes {k j : Nat} (left : Nat) :
    Spec c (Open log ⟨k, j⟩) (readBytes c left) (fun _ => Open log ⟨k, j + left⟩) E := by
  induction left generalizing j with
  | zero => exact spec_pure () fun _ hs => hs
  | succ left ih =>
    rw [Nat.add_comm left 1, ← Nat.add_assoc, Nat.add_comm 1 left]
    exact spec_peek fun v hv => spec_bind (spec_pre (h.onReceive log ⟨k, j⟩ _) fun s hs => hs ▸ hv) fun _ =>
      spec_bind (h.updOpen fun _ => rfl) fun _ => ih

theorem EngineRules.readSelected (addr : Addr) (length : Nibble) :
    Spec c (Open log ⟨0, 0⟩) (readSelected c addr length)
      (fun ok => Open log ⟨1, if ok then length.toNat else 0⟩) E := by
  refine spec_bind (h.onSend log ⟨0, 0⟩ _) fun ack => ?_
  cases ack with
  | false => exact spec_pure false fun _ hs => hs
  | true =>
    have hbytes := h.readBytes (log := log) (k := 1) (j := 0) length.toNat
    rw [Nat.zero_add] at hbytes
    exact spec_bind (h.updOpen fun _ => rfl) fun _ => spec_bind hbytes fun _ => spec_pure true fun _ hs => hs

theorem EngineRules.readAddressed (addr : Addr) (length : Nibble) :
    Spec c (Open log ⟨1, 0⟩) (readAddressed c addr length)
      (fun ok t => ∃ earlier last, readShape length.toNat ok earlier last ∧ Open (earlier ++ log) last t) E := by
  refine spec_bind (h.onSend log ⟨1, 0⟩ _) fun ack => ?_
  cases ack with
  | false => exact spec_pure false fun _ hs => ⟨[], ⟨2, 0⟩, .inl ⟨rfl, rfl, .inr rfl⟩, hs⟩
  | true =>
    refine spec_bind (h.onStop log ⟨2, 0⟩) fun _ => spec_bind (h.onDelay _ _) fun _ => ?_
    exact spec_bind (h.onStart _) fun _ => spec_post (h.readSelected addr length) fun ok t hs =>
      ⟨[⟨2, 0⟩], _, .inr ⟨rfl, rfl⟩, hs⟩

theorem EngineRules.readBody (addr : Addr) (length : Nibble) :
    Spec c (Idle log) (readBody c addr length)
      (fun ok t => ∃ earlier last, readShape length.toNat ok earlier last ∧ Open (earlier ++ log) last t) E := by
  refine spec_bind (h.onStart log) fun _ => spec_bind (h.onSend log ⟨0, 0⟩ _) fun ack => ?_
  cases ack with
  | false => exact spec_pure false fun _ hs => ⟨[], ⟨1, 0⟩, .inl ⟨rfl, rfl, .inl rfl⟩, hs⟩
  | true => exact h.readAddressed addr length

theorem EngineRules.readBlock (addr : Addr) (length : Nibble) :
    Spec c (Idle log) (readBlock c addr length)
      (fun r t => ∃ earlier last, readShape length.toNat r.1 earlier last ∧ Idle (last :: (earlier ++ log)) t) E := by
  rw [readBlock_eq]
  refine spec_bind (h.updIdle fun _ => rfl) fun _ => spec_bind (h.readBody addr length) fun ok => ?_
  refine spec_exists fun earlier => spec_exists fun last => spec_of_fact fun hshape => ?_
  refine spec_bind (h.onStop _ last) fun _ => spec_bind (h.updIdle fun s => by cases ok <;> rfl) fun _ => ?_
  exact spec_peek fun v hv => spec_pure _ fun s hs => ⟨earlier, last, hshape, hs ▸ hv⟩

theorem EngineRules.writeBytes {k : Nat} (left : Nat) :
    Spec c (Open log ⟨k, 0⟩) (writeBytes c left)
      (fun ok t => ∃ i, i ≤ left ∧ (ok = true → i = left) ∧ Open log ⟨k + i, 0⟩ t) E := by
  induction left generalizing k with
  | zero => exact spec_pure true fun _ hs => ⟨0, Nat.le_refl 0, fun _ => rfl, hs⟩
  | succ left ih =>
    refine spec_peek fun v hv => spec_bind (spec_pre (h.onSend log ⟨k, 0⟩ _) fun s hs => hs ▸ hv) fun ack => ?_
    cases ack with
    | false => exact spec_pure false fun _ hs => ⟨1, by omega, by simp, hs⟩
    | true =>
      refine spec_bind (h.updOpen fun _ => rfl) fun _ => spec_post ih ?_
      rintro ok t ⟨i, hi, hok, hs⟩
      exact ⟨1 + i, by omega, fun hall => by rw [hok hall, Nat.add_comm], by rwa [← Nat.add_assoc]⟩

theorem EngineRules.writeBody (addr : Addr) (n : Nat) :
    Spec c (Idle log) (writeBody c addr n) (fun ok t => ∃ x, writeShape n ok x ∧ Open log x t) E := by
  refine spec_bind (h.onStart log) fun _ => spec_bind (h.onSend log ⟨0, 0⟩ _) fun selected => ?_
  cases selected with
  | false => exact spec_pure false fun _ hs => ⟨⟨1, 0⟩, ⟨rfl, by simp, by simp; omega, by simp⟩, hs⟩
  | true =>
    refine spec_bind (h.onSend log ⟨1, 0⟩ _) fun addressed => ?_
    cases addressed with
    | false => exact spec_pure false fun _ hs => ⟨⟨2, 0⟩, ⟨rfl, by simp, by simp, by simp⟩, hs⟩
    | true =>
      refine spec_bind (h.updOpen fun _ => rfl) fun _ => spec_post (h.writeBytes n) ?_
      rintro ok t ⟨i, hi, hok, hs⟩
      exact ⟨⟨2 + i, 0⟩, ⟨rfl, by simp; omega, Nat.add_le_add_left hi 2, fun hall => congrArg (2 + ·) (hok hall)⟩, hs⟩

theorem EngineRules.writeBlock (addr : Addr) (data : List Byte) :
    Spec c (Idle log) (writeBlock c addr data)
      (fun ok t => ∃ x, writeShape data.length ok x ∧ Idle (x :: log) t) E := by
  rw [writeBlock_eq]
  refine spec_bind (h.updIdle fun _ => rfl) fun _ => spec_bind (h.writeBody addr data.length) fun ok => ?_
  refine spec_exists fun x => spec_of_fact fun hshape => ?_
  exact spec_bind (h.onStop log x) fun _ => spec_bind (h.onDelay _ _) fun _ => spec_pure ok fun _ hs => ⟨x, hshape, hs⟩

/-! ### The exposed operations -/

/-- The last lines of an operation. -/
theorem EngineRules.setOutcome {α : Type} (code : Nibble) (g : State → α) :
    Spec c (Idle log) (upd (setOutcome code) >>= fun _ => peek >>= fun s => pure (g s)) (fun _ => Idle log) E :=
  spec_bind (h.updIdle fun _ => rfl) fun _ => spec_peek fun _ hv => spec_pure _ fun _ hs => hs ▸ hv

theorem EngineRules.probe {P : State → Prop} (hinit : Spec c P (busInit c) (fun _ => Idle log) E) :
    Spec c P (probe c) (fun _ t => ∃ log', Idle log' t) E := by
  refine spec_bind hinit fun _ => spec_bind (h.readBlock _ _) fun ⟨ok, b⟩ => spec_exists fun earlier =>
    spec_exists fun last => spec_of_fact fun _ => ?_
  exact spec_post (h.setOutcome _ _) fun _ _ hs => ⟨_, hs⟩

theorem EngineRules.readIdentifier :
    Spec c (Idle log) (readIdentifier c) (fun _ t => ∃ log', Idle log' t) E := by
  refine spec_bind (h.readBlock _ _) fun ⟨ok, b⟩ => spec_exists fun earlier => spec_exists fun last =>
    spec_of_fact fun _ => ?_
  exact spec_bind (h.updIdle fun s => by cases ok <;> rfl) fun _ => spec_post (h.setOutcome _ _) fun _ _ hs => ⟨_, hs⟩

theorem EngineRules.writeIdField (text : List Byte) (signed : Bool) :
    Spec c (Idle log) (writeIdField c text signed) (fun _ t => ∃ log', Idle log' t) E := by
  cases signed with
  | false => exact spec_pure _ fun _ hs => ⟨log, hs⟩
  | true =>
    exact spec_bind (h.writeBlock _ _) fun ok => spec_pure _ fun _ ⟨_, _, hs⟩ => ⟨_, hs⟩

theorem EngineRules.writeIdentifier (text : List Byte) :
    Spec c (Idle log) (writeIdentifier c text) (fun _ t => ∃ log', Idle log' t) E := by
  refine spec_bind (h.writeBlock _ _) fun signed => spec_exists fun x => spec_of_fact fun _ => ?_
  refine spec_bind (h.writeIdField text signed) fun code => spec_exists fun log' => ?_
  exact spec_post (h.setOutcome code _) fun _ _ hs => ⟨_, hs⟩

end Protocol

end Sys2Proof.Machine
end

section
/-! BUS stays UNKNOWN (41_i2c_bus_engine.md R150): no pin writes it, `busAfter` gives UNKNOWN from UNKNOWN, and so does
TransportFatal; `EngineRules` carries it through the protocol. -/

namespace Sys2Proof.Machine

/-- BUS is UNKNOWN. -/
def busUnknown (s : State) : Prop := s.bus = .unknown

/-- BUS, once UNKNOWN, is left so. -/
def unknownKept (s t : State) : Prop := s.bus = .unknown → t.bus = .unknown

theorem unknownKept_pinClosed (c : Config) : PinClosed c unknownKept fun _ t => fatalMarks t :=
  (pinClosed_of_sameRegs c (fun _ _ ⟨hbus, _⟩ hs => hbus.trans hs) fun _ _ _ h h' hs => h' (h hs)).marks

theorem busAfter_unknown {pre : BusState} (h : pre ≠ .unknown) (post : BusState) :
    busAfter pre post .unknown = .unknown := if_neg h.symm

section Unknown

variable {c : Config}

theorem start_unknownKept : Ends c unknownKept (fun _ t => fatalMarks t) (start c) :=
  start_ends_of (unknownKept_pinClosed c) (fun _ h => h) fun s h => by
    rw [setBusStarted_bus, h, busAfter_unknown (by decide)]

theorem stop_unknownKept : Ends c unknownKept (fun _ t => fatalMarks t) (stop c) :=
  stop_ends_of (unknownKept_pinClosed c) (fun _ h => h) fun s h => by
    rw [setBusStopped_bus, h, busAfter_unknown (by decide)]

theorem setBusByte_unknownKept (s : State) : unknownKept s (setBusByte s) := fun h => by
  rw [setBusByte_bus, h, busAfter_unknown (by decide)]

theorem txByte_unknownKept (v : Byte) : Ends c unknownKept (fun _ t => fatalMarks t) (txByte c v) :=
  txByte_ends_of (unknownKept_pinClosed c) (fun _ _ _ h => h) setBusByte_unknownKept (fun _ _ h => h) v

theorem rxByte_unknownKept (isLast : Bool) : Ends c unknownKept (fun _ t => fatalMarks t) (rxByte c isLast) :=
  rxByte_ends_of (unknownKept_pinClosed c) (fun _ _ _ h => h) setBusByte_unknownKept isLast

/-- From UNKNOWN to UNKNOWN, ended or abandoned. -/
theorem spec_of_unknownKept {α : Type} {m : Op α} (hm : Ends c unknownKept (fun _ t => fatalMarks t) m) :
    Spec c busUnknown m (fun _ => busUnknown) busUnknown :=
  spec_of_ends hm (fun _ _ hs h => h hs) fun _ _ _ ⟨hbus, _⟩ => hbus

theorem busUnknown_rules : EngineRules c (fun _ => busUnknown) (fun _ _ => busUnknown) busUnknown where
  onStart _ := spec_of_unknownKept start_unknownKept
  onSend _ _ v := spec_of_unknownKept (txByte_unknownKept v)
  onReceive _ _ isLast := spec_of_unknownKept (rxByte_unknownKept isLast)
  onStop _ _ := spec_of_unknownKept stop_unknownKept
  onDelay _ us := spec_of_unknownKept (ends_delay (unknownKept_pinClosed c) us)
  onIdle _ _ _ ht hs := ht.bus.trans hs
  onOpen _ _ _ _ ht hs := ht.bus.trans hs

end Unknown

theorem finish_busUnknown {α : Type} {mk : α → Result} {m : Op α} {Q : α → State → Prop} {s : State}
    (hm : Spec s.cfg busUnknown m Q busUnknown) (hQ : ∀ a t, Q a t → busUnknown t) (hs : busUnknown s) :
    busUnknown (finish mk m s) := by
  rcases finish_spec (mk := mk) hm hs with ⟨a, t, ht, hf⟩ | ht
  · rw [hf]
    exact hQ a t ht
  · exact ht

theorem finish_busUnknown_of_ends {α : Type} {mk : α → Result} {m : Op α} {s : State}
    (hm : Ends s.cfg unknownKept (fun _ t => fatalMarks t) m) (hs : busUnknown s) : busUnknown (finish mk m s) :=
  finish_busUnknown (spec_of_unknownKept hm) (fun _ _ h => h) hs

theorem finish_writeOutputs_busUnknown {v : Byte} {s : State} (hs : busUnknown s) :
    busUnknown (finish (fun _ => .none) (writeOutputs v) s) := by
  rw [finish_transfer (writeOutputs_eq v s)]
  split
  · rfl
  · obtain ⟨⟨hbus, -⟩, -, -⟩ := writeEffect_frame v s
    exact hbus.trans hs

/-- Settles O39: an operation that writes BUS writes it by `busAfter`, but for `busInit`. -/
theorem onlyBusInitLeavesUnknown : Obligations.OnlyBusInitLeavesUnknown := by
  intro i s t hs hinit hprobe h
  obtain ⟨hwf, -⟩ := exec_next_wellFormed h
  have hp := unknownKept_pinClosed s.cfg
  have hrules : EngineRules s.cfg (fun _ => busUnknown) (fun _ _ => busUnknown) busUnknown := busUnknown_rules
  cases i with
  | readInputs => exact Host.Outcome.next.inj h ▸ finish_busUnknown_of_ends (readInputs_ends hp) hs
  | writeOutputs v => exact Host.Outcome.next.inj h ▸ finish_writeOutputs_busUnknown hs
  | getSDA => exact Host.Outcome.next.inj h ▸ finish_busUnknown_of_ends (getSDA_ends hp) hs
  | setSCL b => exact Host.Outcome.next.inj h ▸ finish_busUnknown_of_ends (setSCL_ends hp b) hs
  | setSDA b => exact Host.Outcome.next.inj h ▸ finish_busUnknown_of_ends (setSDA_ends hp b) hs
  | busInit => exact absurd rfl hinit
  | start => exact Host.Outcome.next.inj h ▸ finish_busUnknown_of_ends start_unknownKept hs
  | stop => exact Host.Outcome.next.inj h ▸ finish_busUnknown_of_ends stop_unknownKept hs
  | txByte | devselW | devselR | wordAddr =>
    exact Host.Outcome.next.inj h ▸ finish_busUnknown_of_ends (txByte_unknownKept _) hs
  | dataFrame f =>
    cases f with
    | sent v => exact Host.Outcome.next.inj h ▸ finish_busUnknown_of_ends (txByte_unknownKept v) hs
    | received l => exact Host.Outcome.next.inj h ▸ finish_busUnknown_of_ends (rxByte_unknownKept l) hs
  | rxByte l => exact Host.Outcome.next.inj h ▸ finish_busUnknown_of_ends (rxByte_unknownKept l) hs
  | readBlock addr n =>
    obtain rfl := Host.Outcome.next.inj ((if_pos hwf).symm.trans h)
    exact finish_busUnknown (hrules.readBlock (log := []) addr n) (fun _ _ ⟨_, _, _, ht⟩ => ht) hs
  | writeBlock addr data =>
    obtain rfl := Host.Outcome.next.inj ((if_pos hwf).symm.trans h)
    exact finish_busUnknown (hrules.writeBlock (log := []) addr data) (fun _ _ ⟨_, _, ht⟩ => ht) hs
  | probe => exact absurd rfl hprobe
  | readIdentifier =>
    exact Host.Outcome.next.inj h ▸ finish_busUnknown (hrules.readIdentifier (log := [])) (fun _ _ ⟨_, ht⟩ => ht) hs
  | writeIdentifier text =>
    obtain rfl := Host.Outcome.next.inj ((if_pos hwf).symm.trans h)
    exact finish_busUnknown (hrules.writeIdentifier (log := []) text) (fun _ _ ⟨_, ht⟩ => ht) hs
  | reserved15 => cases h

end Sys2Proof.Machine
end

section
/-! The two lines as an observer at the latch sees them in a run of events (41_i2c_bus_engine.md R157): `Wave` gathers
the levels, the rises of SCL, the moves of SDA under a high SCL and the transfers; then what each operation of the
engine adds to it, whatever the world answers. -/

namespace Sys2Proof.Machine

/-! ### The observer -/

/-- The levels of both lines, and what has been counted up to now. -/
structure Wave where
  scl : Bool
  sda : Bool
  rises : Nat
  outs : Nat
  ins : Nat
  moves : List Bool

/-- An output that takes the lines to `scl` and `sda`. -/
def Wave.out (scl sda : Bool) (w : Wave) : Wave where
  scl := scl
  sda := sda
  rises := w.rises + (!w.scl && scl).toNat
  outs := w.outs + 1
  ins := w.ins
  moves := bif w.scl && scl && (w.sda != sda) then w.moves ++ [sda] else w.moves

/-- An input. -/
def Wave.sample (w : Wave) : Wave := { w with ins := w.ins + 1 }

/-- One event. -/
def Wave.event (c : Config) (w : Wave) : Event → Wave
  | .out req _ => w.out (sclOf c (req.value.truncate 8)) (sdaOf c (req.value.truncate 8))
  | .inp _ _ _ _ => w.sample
  | .delay _ => w

/-- The observer's counts are those of Certificates: from a latch whose levels it knows, it counts what they count. -/
theorem foldl_event {c : Config} {v : Byte} {w : Wave} (hscl : sclOf c v = w.scl) (hsda : sdaOf c v = w.sda)
    (evs : List Event) :
    (evs.foldl (Wave.event c) w).rises = w.rises + sclRises c v evs
      ∧ (evs.foldl (Wave.event c) w).outs = w.outs + outCount evs
      ∧ (evs.foldl (Wave.event c) w).ins = w.ins + inCount evs
      ∧ (evs.foldl (Wave.event c) w).moves = w.moves ++ sdaMovesHigh c v evs := by
  induction evs generalizing v w with
  | nil => exact ⟨rfl, rfl, rfl, (List.append_nil _).symm⟩
  | cons e evs ih =>
    cases e with
    | out req ret =>
      obtain ⟨hrises, houts, hins, hmoves⟩ := ih (w := w.event c (.out req ret)) rfl rfl
      rw [List.foldl_cons, hrises, houts, hins, hmoves]
      refine ⟨?_, ?_, rfl, ?_⟩
      · rw [sclRises, hscl, ← Nat.add_assoc, Wave.event, Wave.out, Bool.toNat]
        cases !w.scl && sclOf c (req.value.truncate 8) <;> rfl
      · rw [Wave.event, Wave.out, outCount, outCount, List.countP_cons_of_pos rfl, Nat.add_right_comm, Nat.add_assoc]
      · rw [sdaMovesHigh, hscl, hsda, Wave.event, Wave.out]
        cases w.scl && sclOf c (req.value.truncate 8) && (w.sda != sdaOf c (req.value.truncate 8)) <;> simp
    | inp req ret b0 b1 =>
      obtain ⟨hrises, houts, hins, hmoves⟩ := ih (w := w.event c (.inp req ret b0 b1)) hscl hsda
      rw [List.foldl_cons, hrises, houts, hins, hmoves]
      refine ⟨rfl, rfl, ?_, rfl⟩
      rw [Wave.event, Wave.sample, inCount, inCount, List.countP_cons_of_pos rfl, Nat.add_right_comm, Nat.add_assoc]
    | delay us => exact ih hscl hsda

/-- What the observer does not see: nothing but registers has changed, and `start` has not been called. -/
def unseen (s t : State) : Prop := t.cfg = s.cfg ∧ t.latch = s.latch ∧ t.starts = s.starts ∧ t.trace = s.trace

/-- From `s₀`, where the observer had `w₀`, to `s`, where it has `w` and `start` has been called `n` times in all. -/
def Saw (c : Config) (s₀ : State) (w₀ w : Wave) (n : Nat) (s : State) : Prop :=
  sclOf c s.latch = w.scl ∧ sdaOf c s.latch = w.sda ∧ s.starts = n
    ∧ ∃ evs : List Event, s.trace = evs.reverse ++ s₀.trace ∧ evs.foldl (Wave.event c) w₀ = w

section Observed

variable {c : Config} {s₀ : State} {w₀ w : Wave} {n : Nat}

theorem saw_refl {s : State} (hscl : sclOf c s.latch = w.scl) (hsda : sdaOf c s.latch = w.sda) :
    Saw c s w w s.starts s := ⟨hscl, hsda, rfl, [], rfl, rfl⟩

theorem Saw.trans {s t : State} {v : Wave} {k : Nat} (h : Saw c s₀ w₀ w n s) (h' : Saw c s w v k t) :
    Saw c s₀ w₀ v k t := by
  obtain ⟨-, -, -, xs, htrace, rfl⟩ := h
  obtain ⟨hscl, hsda, hn, ys, htrace', rfl⟩ := h'
  refine ⟨hscl, hsda, hn, xs ++ ys, ?_, List.foldl_append⟩
  rw [htrace', htrace, List.reverse_append, List.append_assoc]

/-- What has happened is what the trace shows. -/
theorem Saw.fold {t : State} {evs : List Event} (h : Saw c s₀ w₀ w n t) (htrace : t.trace = evs.reverse ++ s₀.trace) :
    evs.foldl (Wave.event c) w₀ = w := by
  obtain ⟨-, -, -, evs', htrace', hfold⟩ := h
  rwa [List.reverse_injective (List.append_cancel_right (htrace.symm.trans htrace'))]

theorem Saw.trace {t : State} (h : Saw c s₀ w₀ w n t) : ∃ evs : List Event, t.trace = evs.reverse ++ s₀.trace := by
  obtain ⟨-, -, -, evs, htrace, -⟩ := h
  exact ⟨evs, htrace⟩

theorem Saw.scl {s : State} (h : Saw c s₀ w₀ w n s) : sclOf c s.latch = w.scl := h.1

theorem Saw.sda {s : State} (h : Saw c s₀ w₀ w n s) : sdaOf c s.latch = w.sda := by
  obtain ⟨-, hsda, -⟩ := h
  exact hsda

theorem Saw.starts {s : State} (h : Saw c s₀ w₀ w n s) : s.starts = n := by
  obtain ⟨-, -, hn, -⟩ := h
  exact hn

theorem Saw.of_unseen {s t : State} (h : Saw c s₀ w₀ w n s) (ht : unseen s t) : Saw c s₀ w₀ w n t := by
  obtain ⟨hscl, hsda, hn, hevs⟩ := h
  obtain ⟨-, hlatch, hstarts, htrace⟩ := ht
  exact ⟨hlatch ▸ hscl, hlatch ▸ hsda, hstarts.trans hn, htrace ▸ hevs⟩

/-- One event more. -/
theorem Saw.snoc {s t : State} {e : Event} (h : Saw c s₀ w₀ w n s) (htrace : t.trace = e :: s.trace)
    (hstarts : t.starts = s.starts) (hscl : sclOf c t.latch = (w.event c e).scl)
    (hsda : sdaOf c t.latch = (w.event c e).sda) : Saw c s₀ w₀ (w.event c e) n t := by
  obtain ⟨-, -, hn, evs, htrace', rfl⟩ := h
  refine ⟨hscl, hsda, hstarts.trans hn, evs ++ [e], ?_, List.foldl_append⟩
  rw [htrace, htrace', List.reverse_append]
  rfl

/-! ### The pins -/

/-- One transfer ends with the marks of TransportFatal where it failed. -/
theorem transfer_ends {α : Type} {Q : α → State → Prop} {m : Op α} {s t u : State} {a : α} {fails : Bool}
    (hrun : m s = if fails then .error .transportFatal (fatalEntry u) else .ok a t) (ht : t.cfg = c ∧ Q a t) :
    (∀ b v, m s = .ok b v → v.cfg = c ∧ Q b v) ∧ ∀ e v, m s = .error e v → fatalMarks v := by
  rw [hrun]
  cases fails with
  | true => exact ⟨fun _ _ h => (by cases h), fun _ _ h => by cases h; exact fatalMarks_fatalEntry u⟩
  | false => exact ⟨fun _ _ h => (by cases h; exact ht), fun _ _ h => by cases h⟩

theorem setPin_saw {mask : Byte} {b scl sda : Bool}
    (hpins : ∀ v, sclOf c v = w.scl → sdaOf c v = w.sda →
      sclOf c (withBit mask v b) = scl ∧ sdaOf c (withBit mask v b) = sda) :
    Spec c (Saw c s₀ w₀ w n) (setPin mask b) (fun _ => Saw c s₀ w₀ (w.out scl sda) n) fatalMarks := by
  intro s hs h
  refine transfer_ends (setPin_eq_writeEffect mask b s) ⟨(pinEffect_cfg mask b s).trans hs, ?_⟩
  obtain ⟨hscl, hsda⟩ := hpins s.latch h.scl h.sda
  have hlatch : (writeEffect (withBit mask s.latch b) s).latch = withBit mask s.latch b := pinEffect_latch mask b s
  obtain ⟨-, hstarts, -⟩ := writeEffect_frame (withBit mask s.latch b) s
  have hvalue : BitVec.truncate 8 (BitVec.zeroExtend 16 (withBit mask s.latch b)) = withBit mask s.latch b := by simp
  have hevent (ret : Int) :
      w.event c (.out (outRequest s.cfg ((withBit mask s.latch b).zeroExtend 16)) ret) = w.out scl sda := by
    rw [Wave.event, outRequest, hvalue, hscl, hsda]
  have hout := h.snoc (writeEffect_trace _ s) hstarts (by rw [hlatch, hevent, hscl, Wave.out])
    (by rw [hlatch, hevent, hsda, Wave.out])
  rw [hevent] at hout
  exact hout.snoc (e := .delay Config.tSettle) rfl rfl hout.scl hout.sda

theorem setSCL_saw (b : Bool) :
    Spec c (Saw c s₀ w₀ w n) (setSCL c b) (fun _ => Saw c s₀ w₀ (w.out b w.sda) n) fatalMarks :=
  setPin_saw fun v _ hsda => ⟨sclOf_withBit_sclMask c v b, (sdaOf_withBit_sclMask c v b).trans hsda⟩

theorem setSDA_saw (b : Bool) :
    Spec c (Saw c s₀ w₀ w n) (setSDA c b) (fun _ => Saw c s₀ w₀ (w.out w.scl b) n) fatalMarks :=
  setPin_saw fun v hscl _ => ⟨(sclOf_withBit_sdaMask c v b).trans hscl, sdaOf_withBit_sdaMask c v b⟩

theorem getSDA_saw :
    Spec c (Saw c s₀ w₀ w n) (getSDA c) (fun _ => Saw c s₀ w₀ w.sample n) fatalMarks := by
  intro s hs h
  refine transfer_ends (getSDA_eq c s) ⟨(readEffect_cfg s).trans hs, ?_⟩
  obtain ⟨-, hlatch, -, -, hstarts, -⟩ := readEffect_frame s
  exact h.snoc (readEffect_trace s) hstarts (hlatch ▸ h.scl) (hlatch ▸ h.sda)

theorem delay_saw (us : Nat) :
    Spec c (Saw c s₀ w₀ w n) (delay us) (fun _ => Saw c s₀ w₀ w n) fatalMarks :=
  spec_upd fun _ h => ⟨rfl, h.snoc (e := .delay us) rfl rfl h.scl h.sda⟩

theorem upd_saw {g : State → State} (hg : ∀ s, unseen s (g s)) :
    Spec c (Saw c s₀ w₀ w n) (upd g) (fun _ => Saw c s₀ w₀ w n) fatalMarks :=
  spec_upd fun s h => ⟨(hg s).1, h.of_unseen (hg s)⟩

/-! ### The engine -/

theorem busInit_saw (hscl : w.scl = true) (hsda : w.sda = true) :
    Spec c (Saw c s₀ w₀ w n) (busInit c) (fun _ => Saw c s₀ w₀ { w with outs := w.outs + 2 } n) fatalMarks := by
  obtain ⟨scl, sda, rises, outs, ins, moves⟩ := w
  obtain rfl : scl = true := hscl
  obtain rfl : sda = true := hsda
  exact spec_bind (setSCL_saw true) fun _ => spec_bind (setSDA_saw true) fun _ => upd_saw fun _ => ⟨rfl, rfl, rfl, rfl⟩

/-- A START. -/
def Wave.started (w : Wave) : Wave :=
  { w with scl := false, sda := false, outs := w.outs + 2, moves := w.moves ++ [false] }

/-- A STOP. -/
def Wave.stopped (w : Wave) : Wave :=
  { w with scl := true, sda := true, rises := w.rises + 1, outs := w.outs + 3, moves := w.moves ++ [true] }

/-- A byte sent. -/
def Wave.sent (w : Wave) : Wave :=
  { w with sda := true, rises := w.rises + 9, outs := w.outs + 27, ins := w.ins + 1 }

/-- A byte received. -/
def Wave.received (w : Wave) : Wave :=
  { w with sda := true, rises := w.rises + 9, outs := w.outs + 20, ins := w.ins + 8 }

theorem countStart_saw :
    Spec c (Saw c s₀ w₀ w n) (upd countStart) (fun _ => Saw c s₀ w₀ w (n + 1)) fatalMarks :=
  spec_upd fun _ ⟨hscl, hsda, hn, hevs⟩ => ⟨rfl, hscl, hsda, congrArg (· + 1) hn, hevs⟩

theorem start_saw (hscl : w.scl = true) (hsda : w.sda = true) :
    Spec c (Saw c s₀ w₀ w n) (start c) (fun _ => Saw c s₀ w₀ w.started (n + 1)) fatalMarks := by
  obtain ⟨scl, sda, rises, outs, ins, moves⟩ := w
  obtain rfl : scl = true := hscl
  obtain rfl : sda = true := hsda
  exact spec_bind countStart_saw fun _ => spec_bind (setSDA_saw false) fun _ => spec_bind (setSCL_saw false) fun _ =>
    upd_saw fun _ => ⟨rfl, rfl, rfl, rfl⟩

section Low

variable (hscl : w.scl = false)
include hscl

theorem stop_saw : Spec c (Saw c s₀ w₀ w n) (stop c) (fun _ => Saw c s₀ w₀ w.stopped n) fatalMarks := by
  obtain ⟨scl, sda, rises, outs, ins, moves⟩ := w
  obtain rfl : scl = false := hscl
  exact spec_bind (upd_saw fun _ => ⟨rfl, rfl, rfl, rfl⟩) fun _ => spec_bind (setSDA_saw false) fun _ =>
    spec_bind (setSCL_saw true) fun _ => spec_bind (setSDA_saw true) fun _ => upd_saw fun _ => ⟨rfl, rfl, rfl, rfl⟩

theorem txBits_saw (left : Nat) :
    Spec c (Saw c s₀ w₀ w n) (txBits c left)
      (fun _ t => ∃ sda, Saw c s₀ w₀ { w with sda := sda, rises := w.rises + left, outs := w.outs + 3 * left } n t)
      fatalMarks := by
  induction left generalizing w with
  | zero => exact spec_pure () fun _ h => ⟨w.sda, h⟩
  | succ left ih =>
    obtain ⟨scl, sda, rises, outs, ins, moves⟩ := w
    obtain rfl : scl = false := hscl
    refine spec_peek fun v hv => ?_
    refine spec_bind (spec_pre (setSDA_saw _) fun s hs => hs ▸ hv) fun _ => spec_bind (setSCL_saw true) fun _ => ?_
    refine spec_bind (setSCL_saw false) fun _ => spec_bind (upd_saw fun _ => ⟨rfl, rfl, rfl, rfl⟩) fun _ => ?_
    rw [show outs + 3 * (left + 1) = outs + 1 + 1 + 1 + 3 * left by omega,
      show rises + (left + 1) = rises + 1 + left by omega]
    exact ih rfl

theorem txByte_saw (v : Byte) :
    Spec c (Saw c s₀ w₀ w n) (txByte c v) (fun _ => Saw c s₀ w₀ w.sent n) fatalMarks := by
  refine spec_bind (upd_saw fun _ => ⟨rfl, rfl, rfl, rfl⟩) fun _ => spec_bind (txBits_saw hscl 8) fun _ => ?_
  obtain ⟨scl, sda, rises, outs, ins, moves⟩ := w
  obtain rfl : scl = false := hscl
  exact spec_exists fun sda => spec_bind (setSDA_saw true) fun _ => spec_bind (setSCL_saw true) fun _ =>
    spec_bind getSDA_saw fun _ => spec_bind (setSCL_saw false) fun _ =>
    spec_bind (upd_saw fun _ => ⟨rfl, rfl, rfl, rfl⟩) fun _ =>
    spec_bind (upd_saw fun _ => ⟨rfl, rfl, rfl, rfl⟩) fun _ => spec_pure _ fun _ h => h

theorem rxBits_saw (left : Nat) :
    Spec c (Saw c s₀ w₀ w n) (rxBits c left)
      (fun _ => Saw c s₀ w₀ { w with rises := w.rises + left, outs := w.outs + 2 * left, ins := w.ins + left } n)
      fatalMarks := by
  induction left generalizing w with
  | zero => exact spec_pure () fun _ h => h
  | succ left ih =>
    obtain ⟨scl, sda, rises, outs, ins, moves⟩ := w
    obtain rfl : scl = false := hscl
    refine spec_bind (setSCL_saw true) fun _ => spec_bind getSDA_saw fun _ => ?_
    refine spec_bind (setSCL_saw false) fun _ => spec_bind (upd_saw fun _ => ⟨rfl, rfl, rfl, rfl⟩) fun _ => ?_
    rw [show outs + 2 * (left + 1) = outs + 1 + 1 + 2 * left by omega, show ins + (left + 1) = ins + 1 + left by omega,
      show rises + (left + 1) = rises + 1 + left by omega]
    exact ih rfl

theorem rxByte_saw (isLast : Bool) :
    Spec c (Saw c s₀ w₀ w n) (rxByte c isLast) (fun _ => Saw c s₀ w₀ w.received n) fatalMarks := by
  refine spec_bind (upd_saw fun _ => ⟨rfl, rfl, rfl, rfl⟩) fun _ => spec_bind (rxBits_saw hscl 8) fun _ => ?_
  obtain ⟨scl, sda, rises, outs, ins, moves⟩ := w
  obtain rfl : scl = false := hscl
  exact spec_bind (setSDA_saw isLast) fun _ => spec_bind (setSCL_saw true) fun _ =>
    spec_bind (setSCL_saw false) fun _ => spec_bind (setSDA_saw true) fun _ =>
    spec_bind (upd_saw fun _ => ⟨rfl, rfl, rfl, rfl⟩) fun _ => spec_peek fun _ hv => spec_pure _ fun _ h => h ▸ hv

end Low

end Observed

end Sys2Proof.Machine
end

section
/-! The waves of whole operations (41_i2c_bus_engine.md R157): what each transaction adds, by `EngineRules`; from it the
rises of SCL and the moves of SDA under a high SCL. -/

namespace Sys2Proof.Machine

/-! ### The waves of transactions -/

/-- After a START and the bytes of `x`; where there are none, SDA is still low. -/
def Wave.opened (x : Transaction) (sda : Bool) (w : Wave) : Wave where
  scl := false
  sda := sda
  rises := w.rises + 9 * (x.sent + x.received)
  outs := w.outs + (2 + 27 * x.sent + 20 * x.received)
  ins := w.ins + (x.sent + 8 * x.received)
  moves := w.moves ++ [false]

/-- After the whole transaction `x`. -/
def Wave.closed (x : Transaction) (w : Wave) : Wave where
  scl := true
  sda := true
  rises := w.rises + (9 * (x.sent + x.received) + 1)
  outs := w.outs + (5 + 27 * x.sent + 20 * x.received)
  ins := w.ins + (x.sent + 8 * x.received)
  moves := w.moves ++ [false, true]

theorem opened_sent (x : Transaction) (sda : Bool) (w : Wave) :
    (w.opened x sda).sent = w.opened { x with sent := x.sent + 1 } true := by
  simp only [Wave.opened, Wave.sent, Wave.mk.injEq, true_and, and_true]
  omega

theorem opened_received (x : Transaction) (sda : Bool) (w : Wave) :
    (w.opened x sda).received = w.opened { x with received := x.received + 1 } true := by
  simp only [Wave.opened, Wave.received, Wave.mk.injEq, true_and, and_true]
  omega

theorem opened_stopped (x : Transaction) (sda : Bool) (w : Wave) : (w.opened x sda).stopped = w.closed x := by
  simp only [Wave.opened, Wave.stopped, Wave.closed, Wave.mk.injEq, List.append_assoc, List.cons_append,
    List.nil_append, true_and, and_true]
  omega

/-- After the transactions of `log`, newest first. -/
def Wave.total (w₀ : Wave) : List Transaction → Wave
  | [] => w₀
  | x :: log => (w₀.total log).closed x

theorem total_moves (w₀ : Wave) (log : List Transaction) :
    (w₀.total log).moves = w₀.moves ++ transactionMoves log.length := by
  induction log with
  | nil => exact (List.append_nil _).symm
  | cons x log ih =>
    rw [Wave.total, Wave.closed, ih, List.append_assoc, transactionMoves, transactionMoves, List.length_cons,
      List.replicate_succ', List.flatten_append]
    rfl

/-! ### The rules -/

/-- Both lines high and nothing counted. -/
def Wave.released : Wave := ⟨true, true, 0, 0, 0, []⟩

/-- SCL low, SDA as in `s`, and nothing counted. -/
def Wave.low (s : State) : Wave := ⟨false, sdaOf s.cfg s.latch, 0, 0, 0, []⟩

/-- Since `s₀`, from released lines, the observer has had `w₀` and then the transactions of `log`, one after the
other. -/
def idleAfter (c : Config) (s₀ : State) (w₀ : Wave) : List Transaction → State → Prop
  | [], s => Saw c s₀ .released w₀ s₀.starts s
  | x :: log, s => ∃ m, idleAfter c s₀ w₀ log m
      ∧ Saw c m (w₀.total log) (w₀.total (x :: log)) (s₀.starts + (x :: log).length) s

/-- After them one more has begun, and `x` is what there is of it. -/
def openAfter (c : Config) (s₀ : State) (w₀ : Wave) (log : List Transaction) (x : Transaction) (s : State) : Prop :=
  ∃ m sda, idleAfter c s₀ w₀ log m
    ∧ Saw c m (w₀.total log) ((w₀.total log).opened x sda) (s₀.starts + (log.length + 1)) s

section Rules

variable {c : Config} {s₀ : State} {w₀ : Wave} {log : List Transaction}

theorem idleAfter.saw {s : State} (h : idleAfter c s₀ w₀ log s) :
    Saw c s₀ .released (w₀.total log) (s₀.starts + log.length) s := by
  induction log generalizing s with
  | nil => exact h
  | cons x log ih =>
    obtain ⟨m, hm, hs⟩ := h
    exact (ih hm).trans hs

theorem total_levels (hscl : w₀.scl = true) (hsda : w₀.sda = true) (log : List Transaction) :
    (w₀.total log).scl = true ∧ (w₀.total log).sda = true := by
  cases log with
  | nil => exact ⟨hscl, hsda⟩
  | cons => exact ⟨rfl, rfl⟩

theorem localBlock.saw {v w : Wave} {n : Nat} {s t : State} (ht : localBlock s t) (h : Saw c s₀ v w n s) :
    Saw c s₀ v w n t := by
  rw [show t = _ from ht]
  exact h.of_unseen ⟨rfl, rfl, rfl, rfl⟩

theorem afterTransactions_rules (hscl : w₀.scl = true) (hsda : w₀.sda = true) :
    EngineRules c (idleAfter c s₀ w₀) (openAfter c s₀ w₀) fatalMarks where
  onStart log := by
    intro s hs hidle
    obtain ⟨hscl', hsda'⟩ := total_levels hscl hsda log
    have hnow := saw_refl hidle.saw.scl hidle.saw.sda
    rw [hidle.saw.starts] at hnow
    exact spec_post (start_saw hscl' hsda') (fun _ t ht => ⟨s, false, hidle, ht⟩) s hs hnow
  onSend log x v := spec_exists fun m => spec_exists fun sda => spec_of_fact fun hm =>
    spec_post (txByte_saw rfl v) fun _ t ht => ⟨m, true, hm, opened_sent x sda _ ▸ ht⟩
  onReceive log x isLast := spec_exists fun m => spec_exists fun sda => spec_of_fact fun hm =>
    spec_post (rxByte_saw rfl isLast) fun _ t ht => ⟨m, true, hm, opened_received x sda _ ▸ ht⟩
  onStop log x := spec_exists fun m => spec_exists fun sda => spec_of_fact fun hm =>
    spec_post (stop_saw rfl) fun _ t ht => ⟨m, hm, by rwa [opened_stopped] at ht⟩
  onDelay log us := by
    cases log with
    | nil => exact delay_saw us
    | cons x log =>
      exact spec_exists fun m => spec_of_fact fun hm => spec_post (delay_saw us) fun _ t ht => ⟨m, hm, ht⟩
  onIdle log s t ht hs := by
    cases log with
    | nil => exact ht.saw hs
    | cons x log =>
      obtain ⟨m, hm, hs⟩ := hs
      exact ⟨m, hm, ht.saw hs⟩
  onOpen log x s t ht hs := by
    obtain ⟨m, sda, hm, hs⟩ := hs
    exact ⟨m, sda, hm, ht.saw hs⟩

end Rules

/-! ### Whole operations -/

/-- What the counts of the observer say of a run, `v` being a latch whose levels it began with. -/
theorem Saw.counts {c : Config} {s₀ t : State} {w₀ w : Wave} {n : Nat} {v : Byte} {evs : List Event}
    (h : Saw c s₀ w₀ w n t) (hscl : sclOf c v = w₀.scl) (hsda : sdaOf c v = w₀.sda)
    (htrace : t.trace = evs.reverse ++ s₀.trace) :
    w.rises = w₀.rises + sclRises c v evs ∧ w.outs = w₀.outs + outCount evs ∧ w.ins = w₀.ins + inCount evs
      ∧ w.moves = w₀.moves ++ sdaMovesHigh c v evs := by
  rw [← h.fold htrace]
  exact foldl_event hscl hsda evs

section Whole

variable {s : State}

/-- A whole operation that has ended. -/
theorem finish_spec_ended {P : State → Prop} {α : Type} {Q : α → State → Prop} {mk : α → Result} {m : Op α}
    (hm : Spec s.cfg P m Q fatalMarks) (hP : P s) (hresult : (finish mk m s).result ≠ .fatal) :
    ∃ a t, Q a t ∧ finish mk m s = { t with result := mk a } :=
  (finish_spec hm hP).resolve_right fun ⟨_, _, _, hfatal⟩ => hresult hfatal

theorem finish_saw {s₀ : State} {w₀ w v : Wave} {n k : Nat} {α : Type} {mk : α → Result} {m : Op α}
    (hm : Spec s.cfg (Saw s.cfg s₀ w₀ w n) m (fun _ => Saw s.cfg s₀ w₀ v k) fatalMarks) (hs : Saw s.cfg s₀ w₀ w n s)
    (hresult : (finish mk m s).result ≠ .fatal) : Saw s.cfg s₀ w₀ v k (finish mk m s) := by
  obtain ⟨a, t, ht, hf⟩ := finish_spec_ended hm hs hresult
  exact hf ▸ ht.of_unseen ⟨rfl, rfl, rfl, rfl⟩

/-- The byte operations and the wire frames. -/
def byteOperation (i : Instr) : Prop :=
  (∃ v, i = .txByte v) ∨ (∃ l, i = .rxByte l) ∨ (∃ h, i = .devselW h) ∨ (∃ h, i = .devselR h) ∨ (∃ a, i = .wordAddr a)
    ∨ (∃ f, i = .dataFrame f)

/-- Each is a `txByte` or an `rxByte`. -/
theorem byteOperation_exec {i : Instr} (hi : byteOperation i) (s : State) :
    (∃ v, exec i s = .next (finish .ack (txByte s.cfg v) s))
      ∨ ∃ isLast, exec i s = .next (finish .byte (rxByte s.cfg isLast) s) := by
  rcases hi with ⟨v, rfl⟩ | ⟨l, rfl⟩ | ⟨h, rfl⟩ | ⟨h, rfl⟩ | ⟨a, rfl⟩ | ⟨v | l, rfl⟩
  · exact .inl ⟨v, rfl⟩
  · exact .inr ⟨l, rfl⟩
  · exact .inl ⟨selectWByte h, rfl⟩
  · exact .inl ⟨selectRByte h, rfl⟩
  · exact .inl ⟨a, rfl⟩
  · exact .inl ⟨v, rfl⟩
  · exact .inr ⟨l, rfl⟩

/-- Entered with SCL low, a byte makes nine rises and no move of SDA under a high SCL. -/
theorem byteOperation_wave {i : Instr} {t : State} {evs : List Event} (hi : byteOperation i)
    (hscl : sclOf s.cfg s.latch = false) (h : exec i s = .next t) (hresult : t.result ≠ .fatal)
    (htrace : t.trace = evs.reverse ++ s.trace) :
    sclRises s.cfg s.latch evs = 9 ∧ sdaMovesHigh s.cfg s.latch evs = [] := by
  have hs : Saw s.cfg s (.low s) (.low s) s.starts s := saw_refl hscl rfl
  obtain ⟨w, hrises, hmoves, ht⟩ :
      ∃ w : Wave, w.rises = 9 ∧ w.moves = [] ∧ Saw s.cfg s (.low s) w s.starts t := by
    rcases byteOperation_exec hi s with ⟨v, hv⟩ | ⟨isLast, hl⟩
    · obtain rfl := Host.Outcome.next.inj (hv.symm.trans h)
      exact ⟨_, rfl, rfl, finish_saw (txByte_saw rfl v) hs hresult⟩
    · obtain rfl := Host.Outcome.next.inj (hl.symm.trans h)
      exact ⟨_, rfl, rfl, finish_saw (rxByte_saw rfl isLast) hs hresult⟩
  obtain ⟨hrises', -, -, hmoves'⟩ := ht.counts hscl rfl htrace
  exact ⟨(Nat.zero_add _).symm.trans (hrises'.symm.trans hrises), hmoves'.symm.trans hmoves⟩

/-- Released lines are where a log of transactions begins. -/
theorem idleAfter_nil (h : released s) : idleAfter s.cfg s .released [] s := saw_refl h.1 h.2

theorem idleAfter.port {c : Config} {w₀ : Wave} {log : List Transaction} {t : State} (h : idleAfter c s w₀ log t)
    (result : Result) : idleAfter c s w₀ log { t with result := result } := by
  cases log with
  | nil => exact h
  | cons x log => exact h

theorem idleAfter.counts {w₀ : Wave} {log : List Transaction} {t : State} {evs : List Event}
    (h : idleAfter s.cfg s w₀ log t) (hs : released s) (htrace : t.trace = evs.reverse ++ s.trace) :
    t.starts = s.starts + log.length ∧ sclRises s.cfg s.latch evs = (w₀.total log).rises
      ∧ outCount evs = (w₀.total log).outs ∧ inCount evs = (w₀.total log).ins
      ∧ sdaMovesHigh s.cfg s.latch evs = (w₀.total log).moves := by
  obtain ⟨hscl, hsda⟩ := hs
  obtain ⟨hrises, houts, hins, hmoves⟩ := h.saw.counts hscl hsda htrace
  rw [h.saw.starts, hrises, houts, hins, hmoves]
  simp [Wave.released]

theorem writeBlock_log {addr : Addr} {data : List Byte} {t : State} (hs : released s)
    (h : exec (.writeBlock addr data) s = .next t) (hresult : t.result ≠ .fatal) :
    ∃ ok x, t.result = .done ok ∧ writeShape data.length ok x ∧ idleAfter s.cfg s .released [x] t := by
  obtain ⟨hwf, -⟩ := exec_next_wellFormed h
  obtain rfl := Host.Outcome.next.inj ((if_pos hwf).symm.trans h)
  obtain ⟨ok, t, ⟨x, hshape, hidle⟩, hf⟩ := finish_spec_ended
    ((afterTransactions_rules (w₀ := .released) rfl rfl).writeBlock addr data) (idleAfter_nil hs) hresult
  exact ⟨ok, x, congrArg State.result hf, hshape, hf ▸ hidle.port _⟩

theorem readBlock_log {addr : Addr} {length : Nibble} {t : State} (hs : released s)
    (h : exec (.readBlock addr length) s = .next t) (hresult : t.result ≠ .fatal) :
    ∃ ok bytes earlier last, t.result = .block ok bytes ∧ readShape length.toNat ok earlier last
      ∧ idleAfter s.cfg s .released (last :: earlier) t := by
  obtain ⟨hwf, -⟩ := exec_next_wellFormed h
  obtain rfl := Host.Outcome.next.inj ((if_pos hwf).symm.trans h)
  obtain ⟨⟨ok, bytes⟩, t, ⟨earlier, last, hshape, hidle⟩, hf⟩ := finish_spec_ended
    ((afterTransactions_rules (w₀ := .released) rfl rfl).readBlock addr length) (idleAfter_nil hs) hresult
  rw [List.append_nil] at hidle
  exact ⟨ok, bytes, earlier, last, congrArg State.result hf, hshape, hf ▸ hidle.port _⟩

/-- The log of a protocol operation; the two outputs of `busInit` come before that of `probe`. -/
theorem protocol_log {i : Instr} {t : State}
    (hi : i.exposed = true ∨ (∃ a n, i = .readBlock a n) ∨ (∃ a d, i = .writeBlock a d)) (hs : released s)
    (h : exec i s = .next t) (hresult : t.result ≠ .fatal) :
    ∃ w₀ log, w₀.moves = [] ∧ idleAfter s.cfg s w₀ log t := by
  obtain ⟨hwf, -⟩ := exec_next_wellFormed h
  have hrules : EngineRules s.cfg (idleAfter s.cfg s .released) (openAfter s.cfg s .released) fatalMarks :=
    afterTransactions_rules rfl rfl
  rcases hi with hi | ⟨addr, length, rfl⟩ | ⟨addr, data, rfl⟩
  · cases i with
    | probe =>
      obtain rfl := Host.Outcome.next.inj h
      have hinit : EngineRules s.cfg (idleAfter s.cfg s { Wave.released with outs := 2 })
          (openAfter s.cfg s { Wave.released with outs := 2 }) fatalMarks := afterTransactions_rules rfl rfl
      have hprobe := hinit.probe (log := []) (busInit_saw (w := .released) rfl rfl)
      obtain ⟨_, t, ⟨log, hidle⟩, hf⟩ := finish_spec_ended hprobe (idleAfter_nil hs) hresult
      exact ⟨_, log, rfl, hf ▸ hidle.port _⟩
    | readIdentifier =>
      obtain rfl := Host.Outcome.next.inj h
      obtain ⟨_, t, ⟨log, hidle⟩, hf⟩ := finish_spec_ended hrules.readIdentifier (idleAfter_nil hs) hresult
      exact ⟨_, log, rfl, hf ▸ hidle.port _⟩
    | writeIdentifier text =>
      obtain rfl := Host.Outcome.next.inj ((if_pos hwf).symm.trans h)
      obtain ⟨_, t, ⟨log, hidle⟩, hf⟩ := finish_spec_ended (hrules.writeIdentifier text) (idleAfter_nil hs) hresult
      exact ⟨_, log, rfl, hf ▸ hidle.port _⟩
    | _ => cases hi
  · obtain ⟨_, _, earlier, last, -, -, hidle⟩ := readBlock_log hs h hresult
    exact ⟨_, _, rfl, hidle⟩
  · obtain ⟨_, x, -, -, hidle⟩ := writeBlock_log hs h hresult
    exact ⟨_, _, rfl, hidle⟩

end Whole

/-- Settles O23: nine rises for each byte, one more in the STOP. -/
theorem ninePulsesPerByte : Obligations.NinePulsesPerByte := by
  refine ⟨fun i s t evs hi hscl h hresult htrace => (byteOperation_wave hi hscl h hresult htrace).1, ?_, ?_⟩
  · intro addr data s t evs hs h hresult htrace
    obtain ⟨ok, x, hok, ⟨hreceived, hpos, hle, hall⟩, hidle⟩ := writeBlock_log hs h hresult
    obtain ⟨-, hrises, -, hins, -⟩ := hidle.counts hs htrace
    simp only [Wave.total, Wave.closed, Wave.released, hreceived] at hrises hins
    refine ⟨by omega, by omega, by omega, fun hdone => ?_⟩
    have := hall (Result.done.inj (hok.symm.trans hdone))
    omega
  · intro addr length s t evs hs h hresult htrace
    obtain ⟨ok, bytes, earlier, last, hblock, hshape, hidle⟩ := readBlock_log hs h hresult
    obtain ⟨hstarts, hrises, -, hins, -⟩ := hidle.counts hs htrace
    rcases hshape with ⟨rfl, rfl, hlast⟩ | ⟨rfl, rfl⟩
    · left
      rcases hlast with rfl | rfl <;> simp only [Wave.total, Wave.closed, Wave.released] at hrises hins <;>
        exact ⟨hstarts, by omega, by omega, bytes, hblock⟩
    · right
      obtain ⟨m, hm, hsaw⟩ := hidle
      obtain ⟨evs1, htrace1⟩ := hm.saw.trace
      obtain ⟨evs2, htrace2⟩ := hsaw.trace
      have hevs : evs = evs1 ++ evs2 := by
        rw [htrace1, ← List.append_assoc, ← List.reverse_append] at htrace2
        exact List.reverse_injective (List.append_cancel_right (htrace.symm.trans htrace2))
      obtain ⟨-, hrises1, houts1, hins1, -⟩ := hm.counts hs htrace1
      obtain ⟨hrises2, -⟩ := hsaw.counts hs.1 hs.2 htrace2
      simp only [Wave.total, Wave.closed, Wave.released] at hrises1 houts1 hins1 hrises2
      refine ⟨hstarts, evs1, evs2, hevs, houts1, hins1, hrises1, ?_⟩
      cases ok with
      | true => exact .inl ⟨bytes, hblock, by simp only [if_true] at hrises2; omega⟩
      | false => exact .inr ⟨bytes, hblock, by simp only [Bool.false_eq_true, if_false] at hrises2; omega⟩

/-- Settles O59: only START and STOP move SDA under a high SCL. -/
theorem sdaMovesOnlyWhileSclIsLow : Obligations.SdaMovesOnlyWhileSclIsLow := by
  intro i s t evs h hresult htrace
  refine ⟨fun hi hscl => (byteOperation_wave hi hscl h hresult htrace).2, ?_, ?_, fun hi hs => ?_⟩
  · rintro rfl ⟨hscl, hsda⟩
    obtain rfl := Host.Outcome.next.inj h
    have hstart := finish_saw (start_saw (w := .released) rfl rfl) (saw_refl hscl hsda) hresult
    obtain ⟨-, -, -, hmoves⟩ := hstart.counts hscl hsda htrace
    exact hmoves.symm
  · rintro rfl hscl
    obtain rfl := Host.Outcome.next.inj h
    have hstop := finish_saw (stop_saw (w := .low s) rfl) (saw_refl hscl rfl) hresult
    obtain ⟨-, -, -, hmoves⟩ := hstop.counts hscl rfl htrace
    exact hmoves.symm
  · obtain ⟨w₀, log, hmoves₀, hidle⟩ := protocol_log hi hs h hresult
    obtain ⟨hstarts, -, -, -, hmoves⟩ := hidle.counts hs htrace
    rw [hmoves, total_moves, hmoves₀, hstarts, Nat.add_sub_cancel_left, List.nil_append]

end Sys2Proof.Machine
end

section
/-! The block operations with given answers (42_eeprom_protocol.md R181, R182): `Plays` for whole transactions. The
registers are carried along as those of a state that the protocol's own updates make; `engineOnly` leaves out what the
pins and the bytes of the engine write, so that START and STOP alone show in them. -/

namespace Sys2Proof.Machine

/-! ### What pins and bytes leave alone -/

/-- `u` with what the pins write, and the registers of a byte, taken from `t`. -/
def withEngine (t u : State) : State := { withPins t u with ackf := t.ackf, shift := t.shift, bitcnt := t.bitcnt }

/-- `t` is `u` but for what the pins and the bytes write. -/
def engineOnly (u t : State) : Prop := t = withEngine t u

/-- And the bridge holds the latch (10_state.md R23). -/
def rested (u t : State) : Prop := engineOnly u t ∧ t.bridge = t.latch

theorem engineOnly_refl (s : State) : engineOnly s s := rfl

/-- What an observer of the results finds as it was. -/
def resultsKept (u t : State) : Prop :=
  t.idbuf = u.idbuf ∧ t.status = u.status ∧ t.success = u.success ∧ t.seq = u.seq ∧ t.cfg = u.cfg ∧ t.port = u.port
    ∧ t.calls = u.calls

theorem engineOnly.resultsKept {u t : State} (h : engineOnly u t) : resultsKept u t := by
  rw [show t = _ from h]
  exact ⟨rfl, rfl, rfl, rfl, rfl, rfl, rfl⟩

/-- BUS, the calls counted, and the result ports show what the protocol makes of them. -/
theorem engineOnly.calls {u t : State} (h : engineOnly u t) :
    t.bus = u.bus ∧ t.starts = u.starts ∧ t.stops = u.stops ∧ t.result = u.result := by
  rw [show t = _ from h]
  exact ⟨rfl, rfl, rfl, rfl⟩

theorem engineOnly.pins {u v t : State} (h : engineOnly u v) (ht : pinsOnly v t) : engineOnly u t := by
  rw [show t = _ from ht, show v = _ from h]
  rfl

/-- An update by the protocol itself: it neither writes nor reads what the engine keeps. -/
structure ProtocolUpdate (g : State → State) : Prop extends RegistersOnly g where
  withEngine : ∀ t u, g (withEngine t u) = withEngine t (g u)

theorem ProtocolUpdate.engineOnly {g : State → State} (hg : ProtocolUpdate g) {u t : State} (h : engineOnly u t) :
    engineOnly (g u) (g t) := by
  rw [show t = _ from h, hg.withEngine]
  rfl

theorem ProtocolUpdate.rested {g : State → State} (hg : ProtocolUpdate g) {u t : State} (h : rested u t) :
    rested (g u) (g t) := by
  obtain ⟨-, hlatch, hbridge, -⟩ := hg.localRegs t
  exact ⟨hg.engineOnly h.1, by rw [hbridge, h.2, hlatch]⟩

/-! ### What a transaction leaves in the registers -/

/-- After a START. -/
def afterStart (u : State) : State := setBusStarted (countStart u)

/-- After a STOP. -/
def afterStop (u : State) : State := setBusStopped (countStop u)

/-- After `k` whole transactions, at least one. -/
def afterTransactions (k : Nat) (u : State) : State :=
  { u with bus := if u.bus = .idle then .idle else .unknown, starts := u.starts + k, stops := u.stops + k }

/-- With the byte count and the block buffer of a block operation. -/
def withBlock (count : Nibble) (buf : Vector Byte 8) (u : State) : State := { u with cnt := count, blkbuf := buf }

theorem afterStop_afterStart (u : State) : afterStop (afterStart u) = afterTransactions 1 u := by
  have hbus : busAfter .busy .idle (busAfter .idle .busy u.bus) = if u.bus = .idle then .idle else .unknown := by
    cases u.bus <;> rfl
  rw [afterTransactions, ← hbus]
  rfl

theorem afterTransactions_succ (k : Nat) (u : State) :
    afterTransactions 1 (afterTransactions k u) = afterTransactions (k + 1) u := by
  have hbus : (if (afterTransactions k u).bus = .idle then BusState.idle else .unknown)
      = if u.bus = .idle then .idle else .unknown := by
    rw [afterTransactions]
    cases u.bus <;> rfl
  rw [afterTransactions, hbus]
  rfl

theorem afterStart_bus_ne_idle (u : State) : (afterStart u).bus ≠ .idle := by
  show busAfter .idle .busy u.bus ≠ .idle
  unfold busAfter
  split <;> simp

/-- In a transaction a byte leaves BUS as it is (41_i2c_bus_engine.md R150). -/
theorem setBusByte_of_ne_idle {u : State} (h : u.bus ≠ .idle) : setBusByte u = u := by
  have hbus : busAfter .busy .busy u.bus = u.bus := by
    cases hu : u.bus with
    | idle => exact absurd hu h
    | busy | unknown => rfl
  rw [setBusByte, hbus]

/-! ### The rules -/

section Rules

variable {α β : Type} {c : Config} {P Q R : State → Prop} {a : α} {b : β} {u w : State} {bits : List Bool}
  {toks : List Tok}

theorem plays_mono {P' Q' : State → Prop} {m : Op α} (h : Plays c P toks bits m a Q) (hP : ∀ s, P' s → P s)
    (hQ : ∀ t, Q t → Q' t) : Plays c P' toks bits m a Q' := by
  intro s rs rest hs hP' hreplies hanswered hsamples
  obtain ⟨t, hrun, hcfg, hplayed, ht⟩ := h s rs rest hs (hP s hP') hreplies hanswered hsamples
  exact ⟨t, hrun, hcfg, hplayed, hQ t ht⟩

theorem plays_of_rested {m : Op α} (h : Plays c (engineOnly u) toks bits m a Q) :
    Plays c (rested u) toks bits m a Q := plays_mono h (fun _ hs => hs.1) fun _ ht => ht

theorem plays_exists {ι : Type} {P : ι → State → Prop} {m : Op α} (h : ∀ x, Plays c (P x) toks bits m a Q) :
    Plays c (fun s => ∃ x, P x s) toks bits m a Q := fun s rs rest hs ⟨x, hx⟩ => h x s rs rest hs hx

/-- What follows samples nothing. -/
theorem plays_then {xs ys : List Tok} {m : Op α} {f : α → Op β} (hm : Plays c P xs bits m a Q)
    (hcount : xs.count .r = bits.length) (hf : Plays c Q ys [] (f a) b R) :
    Plays c P (xs ++ ys) bits (m >>= f) b R := by
  have h := plays_bind hm hcount hf
  rwa [List.append_nil] at h

/-- What follows plays nothing. -/
theorem plays_last {m : Op α} {f : α → Op β} (hm : Plays c P toks bits m a Q) (hcount : toks.count .r = bits.length)
    (hf : Plays c Q [] [] (f a) b R) : Plays c P toks bits (m >>= f) b R := by
  have h := plays_then hm hcount hf
  rwa [List.append_nil] at h

/-- The last piece of an operation. -/
theorem plays_end (a : α) (hP : ∀ s, P s → s.bridge = s.latch ∧ Q s) : Plays c P [] [] (pure a : Op α) a Q := by
  intro s rs rest hs h hreplies hanswered _
  obtain ⟨hbridge, hQ⟩ := hP s h
  cases rs with
  | nil => exact ⟨s, rfl, hs, ⟨hreplies, rfl, hbridge, rfl⟩, hQ⟩
  | cons r rs => cases hanswered

/-- What an operation of the engine does to the registers, seen without its bytes. -/
theorem plays_engine {m : Op α} {f : State → State} (h : ∀ v, Plays c (pinsOnly v) toks bits m a (settled (f v)))
    (hf : ∀ v, engineOnly u v → engineOnly w (f v)) : Plays c (engineOnly u) toks bits m a (rested w) := by
  intro s rs rest hs hu hreplies hanswered hsamples
  obtain ⟨t, hrun, hcfg, hplayed, hpins, hbridge⟩ := h s s rs rest hs (pinsOnly_refl s) hreplies hanswered hsamples
  exact ⟨t, hrun, hcfg, hplayed, (hf s hu).pins hpins, hbridge⟩

theorem plays_startBlock : Plays c (engineOnly u) startToks [] (start c) () (rested (afterStart u)) :=
  plays_engine (fun _ => plays_start) fun v hv => by
    rw [show v = _ from hv]
    rfl

theorem plays_stopBlock : Plays c (engineOnly u) stopToks [] (stop c) () (rested (afterStop u)) :=
  plays_engine (fun _ => plays_stop) fun v hv => by
    rw [show v = _ from hv]
    rfl

theorem plays_initBlock :
    Plays c (engineOnly u) initToks [] (busInit c) () (rested { u with bus := .idle }) :=
  plays_engine (fun _ => plays_busInit) fun v hv => by
    rw [show v = _ from hv]
    rfl

theorem plays_send (hbus : u.bus ≠ .idle) (v : Byte) (level : Bool) :
    Plays c (engineOnly u) (txToks v) [level] (txByte c v) (!level) (rested u) :=
  plays_engine (fun _ => plays_txByte v level) fun s hs => by
    obtain ⟨_, _, hclocked⟩ := clockedOut_eq 8 { s with shift := v, bitcnt := 8 }
    rw [afterTxByte, hclocked, show s = _ from hs, setBusByte_of_ne_idle (by exact hbus)]
    rfl

theorem plays_receive (hbus : u.bus ≠ .idle) (isLast : Bool) (hbits : bits.length = 8) :
    Plays c (engineOnly u) (rxToks isLast) bits (rxByte c isLast) (byteOfBits bits) (rested u) :=
  plays_engine (fun _ => plays_rxByte isLast hbits) fun s hs => by
    obtain ⟨_, hclocked⟩ := clockedIn_eq bits { s with shift := 0, bitcnt := 8 }
    rw [afterRxByte, hclocked, show s = _ from hs, setBusByte_of_ne_idle (by exact hbus)]
    rfl

/-- The two waits of the protocol (30_encoding.md R112). -/
theorem plays_wait {x : Tok} {us : Nat} (hx : x = .w ∧ us = Config.tRestart ∨ x = .wr ∧ us = Config.tWrite) :
    Plays c (rested u) [x] [] (delay us) () (rested u) := by
  intro s rs rest hs hu hreplies hanswered _
  have hrested : rested u (delayEffect us s) := by
    obtain ⟨hu, hbridge⟩ := hu
    refine ⟨?_, hbridge⟩
    rw [show s = _ from hu]
    rfl
  rcases hx with ⟨rfl, rfl⟩ | ⟨rfl, rfl⟩ <;> cases rs with
  | nil => exact ⟨_, rfl, hs, ⟨hreplies, rfl, hu.2, rfl⟩, hrested⟩
  | cons r rs => cases hanswered

theorem plays_update {g : State → State} {f : Unit → Op β} (hg : ProtocolUpdate g)
    (hf : Plays c (rested (g u)) toks bits (f ()) b R) : Plays c (rested u) toks bits (upd g >>= f) b R :=
  plays_upd hg.toRegistersOnly (fun _ => hg.rested) hf

/-- A whole operation: its result stands among the registers. -/
theorem finish_rested {mk : α → Result} {m : Op α} {s : State} {rs : List Reply} {rest : List (Option Reply)}
    {w : Nibble → State} (h : Plays s.cfg (engineOnly s) toks bits m a (fun t => ∃ n, rested (w n) t))
    (hreplies : s.replies = rs.map some ++ rest) (hanswered : answered toks rs = true)
    (hsamples : samples s.cfg toks rs = bits) :
    Played toks rs rest s (finish mk m s) ∧ ∃ n, engineOnly { w n with result := mk a } (finish mk m s) := by
  obtain ⟨t, hrun, -, hplayed, n, hw, -⟩ := h s rs rest rfl (engineOnly_refl s) hreplies hanswered hsamples
  rw [finish_ok hrun]
  refine ⟨hplayed.of_end rfl rfl rfl rfl, n, ?_⟩
  rw [show t = _ from hw]
  rfl

end Rules

/-- A string that ends in a STOP leaves both lines released. -/
theorem Played.released_stop {toks : List Tok} {rs : List Reply} {rest : List (Option Reply)} {s t : State}
    (h : Played (toks ++ stopToks) rs rest s t) (hc : t.cfg = s.cfg) : released t := by
  rw [released, hc, h.latch, latchAfter_append]
  simp [stopToks, latchAfter]

theorem Played.released_write {addr : Addr} {data : List Byte} {k : Nat} {rs : List Reply} {rest : List (Option Reply)}
    {s t : State} (h : Played (writeToks addr data k) rs rest s t) (hc : t.cfg = s.cfg) : released t := by
  rw [released, hc, h.latch, writeToks, latchAfter_append, latchAfter_append]
  simp [stopToks, latchAfter]

/-! ### Counting samples -/

theorem count_r_sendToks (bytes : List Byte) : (sendToks bytes).count .r = bytes.length := by
  induction bytes with
  | nil => rfl
  | cons b bytes ih =>
    rw [sendToks, List.flatMap_cons, List.count_append, count_r_txToks, List.length_cons, Nat.add_comm]
    exact congrArg (· + 1) ih

/-- The frames of the received bytes from number `k` on, of `n` in all. -/
def receiveFrom (n k left : Nat) : List Tok := (List.range' k left).flatMap fun i => rxToks (i + 1 == n)

theorem receiveFrom_succ (n k left : Nat) :
    receiveFrom n k (left + 1) = rxToks (k + 1 == n) ++ receiveFrom n (k + 1) left := by
  rw [receiveFrom, List.range'_succ, List.flatMap_cons, receiveFrom]

theorem receiveToks_eq (n : Nat) : receiveToks n = receiveFrom n 0 n := by
  rw [receiveToks, receiveFrom, List.range_eq_range']

theorem count_r_receiveFrom (n k left : Nat) : (receiveFrom n k left).count .r = 8 * left := by
  induction left generalizing k with
  | zero => rfl
  | succ left ih =>
    have hbyte : (rxToks (k + 1 == n)).count .r = 8 := rfl
    rw [receiveFrom_succ, List.count_append, ih, hbyte]
    omega

end Sys2Proof.Machine
end

section
/-! The block operations with given answers, whole (42_eeprom_protocol.md R181, R182): `readBlock` acknowledged and in
its three runs that a NACK ends, `writeBlock` up to the first NACK or to the last byte. -/

namespace Sys2Proof.Machine

/-! ### Reading -/

section Read

variable {c : Config} {u : State} {addr : Addr} {length : Nibble} {bits : List Bool}

theorem bytesOfBits_length (n : Nat) (bits : List Bool) : (bytesOfBits n bits).length = n := by
  induction n generalizing bits with
  | zero => rfl
  | succ n ih => exact congrArg (· + 1) (ih _)

theorem plays_readBytes {n k left : Nat} (hn : n ≤ 8) (hleft : k + left = n) (hlen : u.len.toNat = n)
    (hcnt : u.cnt.toNat = k) (hbus : u.bus ≠ .idle) (hbits : bits.length = 8 * left) :
    Plays c (rested u) (receiveFrom n k left) bits (readBytes c left) ()
      (fun t => ∃ m, rested (withBlock m (storeFrom u.blkbuf k (bytesOfBits left bits)) u) t) := by
  induction left generalizing u k bits with
  | zero =>
    obtain rfl := List.length_eq_zero_iff.1 hbits
    exact plays_end () fun s hs => ⟨hs.2, u.cnt, hs⟩
  | succ left ih =>
    have hlast : (u.cnt == u.len - 1) = (k + 1 == n) := by
      rw [isLast_eq hcnt (hlen.trans hleft.symm), Bool.eq_iff_iff, decide_eq_true_eq, beq_iff_eq]
      omega
    have hstore : ProtocolUpdate (storeByte (byteOfBits (bits.take 8))) :=
      ⟨⟨fun s => localRegs_refl s, fun _ _ => rfl⟩, fun _ _ => rfl⟩
    have hfirst : (bits.take 8).length = 8 := by
      rw [List.length_take, hbits]
      omega
    have hcnt' : (storeByte (byteOfBits (bits.take 8)) u).cnt.toNat = k + 1 := by
      rw [storeByte_cnt, BitVec.toNat_add, hcnt]
      exact Nat.mod_eq_of_lt (by simp; omega)
    rw [receiveFrom_succ, ← hlast, ← List.take_append_drop 8 bits]
    refine plays_peek fun v hv => ?_
    rw [show v = _ from hv.1]
    refine plays_bind (plays_of_rested (plays_receive hbus _ hfirst)) (by rw [hfirst]; rfl) (plays_update hstore ?_)
    have hrest := ih (u := storeByte (byteOfBits (bits.take 8)) u) (bits := bits.drop 8) (by omega) hlen hcnt' hbus
      (by rw [List.length_drop, hbits]; omega)
    rw [storeByte_blkbuf, hcnt] at hrest
    rw [List.take_append_drop]
    exact hrest

theorem plays_readSelected_nack (hbus : u.bus ≠ .idle) :
    Plays c (rested u) (txToks (devR addr)) [true] (readSelected c addr length) false (rested u) :=
  plays_last (plays_of_rested (plays_send hbus _ true)) (count_r_txToks _) (plays_end false fun _ hs => ⟨hs.2, hs⟩)

theorem plays_readSelected_ack (hlen : u.len = length) (hlength : length.toNat ≤ 8) (hbus : u.bus ≠ .idle)
    (hbits : bits.length = 8 * length.toNat) :
    Plays c (rested u) (txToks (devR addr) ++ receiveToks length.toNat) (false :: bits)
      (readSelected c addr length) true
      (fun t => ∃ m, rested (withBlock m (storeFrom u.blkbuf 0 (bytesOfBits length.toNat bits)) u) t) := by
  have hzero : ProtocolUpdate fun s => { s with cnt := 0 } :=
    ⟨⟨fun s => localRegs_refl s, fun _ _ => rfl⟩, fun _ _ => rfl⟩
  have hbytes := plays_readBytes (c := c) (u := { u with cnt := 0 }) hlength (Nat.zero_add _) (congrArg _ hlen) rfl hbus
    hbits
  rw [receiveToks_eq]
  refine plays_bind (plays_of_rested (plays_send hbus _ false)) (count_r_txToks _) (plays_update hzero ?_)
  refine plays_last hbytes ((count_r_receiveFrom _ _ _).trans hbits.symm) (plays_end true ?_)
  exact fun s ⟨m, hs⟩ => ⟨hs.2, m, hs⟩

theorem plays_readAddressed_nack (hbus : u.bus ≠ .idle) :
    Plays c (rested u) (txToks (wordByte addr)) [true] (readAddressed c addr length) false (rested u) :=
  plays_last (plays_of_rested (plays_send hbus _ true)) (count_r_txToks _) (plays_end false fun _ hs => ⟨hs.2, hs⟩)

section Acknowledged

variable {toks : List Tok} {ok : Bool} {Q : State → Prop}

theorem plays_readAddressed_ack (hbus : u.bus ≠ .idle)
    (h : Plays c (rested (afterStart (afterStop u))) toks bits (readSelected c addr length) ok Q) :
    Plays c (rested u) (txToks (wordByte addr) ++ (stopToks ++ ([Tok.w] ++ (startToks ++ toks)))) (false :: bits)
      (readAddressed c addr length) ok Q :=
  plays_bind (plays_of_rested (plays_send hbus _ false)) (count_r_txToks _) <|
  plays_bind (plays_of_rested plays_stopBlock) rfl <|
  plays_bind (plays_wait (.inl ⟨rfl, rfl⟩)) rfl <|
  plays_bind (plays_of_rested plays_startBlock) rfl h

theorem plays_readBody_nack :
    Plays c (engineOnly u) (startToks ++ txToks (devW addr)) [true] (readBody c addr length) false
      (rested (afterStart u)) :=
  plays_bind plays_startBlock rfl <|
  plays_last (plays_of_rested (plays_send (afterStart_bus_ne_idle u) _ true)) (count_r_txToks _) <|
  plays_end false fun _ hs => ⟨hs.2, hs⟩

theorem plays_readBody_ack (h : Plays c (rested (afterStart u)) toks bits (readAddressed c addr length) ok Q) :
    Plays c (engineOnly u) (startToks ++ (txToks (devW addr) ++ toks)) (false :: bits) (readBody c addr length) ok Q :=
  plays_bind plays_startBlock rfl <|
  plays_bind (plays_of_rested (plays_send (afterStart_bus_ne_idle u) _ false)) (count_r_txToks _) h

/-- BLKBUF after an error is a free value (10_state.md R29). -/
def ended (ok : Bool) (u : State) : State := if ok then u else freeBlkbuf u

/-- `readBlock` from its body, which leaves the second or only transaction open. -/
theorem plays_readBlock {v : State} {buf : Vector Byte 8} (hlen : v.len = length)
    (h : Plays c (engineOnly (setBlock addr length u)) toks bits (readBody c addr length) ok
      (fun t => ∃ m, rested (withBlock m buf (afterStart v)) t)) (hcount : (toks ++ stopToks).count .r = bits.length) :
    Plays c (engineOnly u) (toks ++ stopToks) bits (readBlock c addr length)
      (ok, blkPrefix (ended ok (withBlock 0 buf v)).blkbuf length.toNat)
      (fun t => ∃ m, rested (ended ok (withBlock m buf (afterTransactions 1 v))) t) := by
  have hset : ProtocolUpdate (setBlock addr length) := ⟨⟨fun s => localRegs_refl s, fun _ _ => rfl⟩, fun _ _ => rfl⟩
  have hended : ProtocolUpdate (ended ok) := by
    cases ok <;> exact ⟨⟨fun s => localRegs_refl s, fun _ _ => rfl⟩, fun _ _ => rfl⟩
  rw [List.count_append] at hcount
  rw [readBlock_eq, ← afterStop_afterStart]
  refine plays_upd hset.toRegistersOnly (fun _ => hset.engineOnly) (plays_then h hcount (plays_exists fun m => ?_))
  refine plays_last (plays_of_rested plays_stopBlock) rfl (plays_update hended (plays_peek fun s hs => ?_))
  have hresult : blkPrefix (ended ok (withBlock 0 buf v)).blkbuf length.toNat = blkPrefix s.blkbuf s.len.toNat := by
    rw [show s = _ from hs.1, ← hlen]
    cases ok <;> rfl
  rw [hresult]
  exact plays_end _ fun s hs => ⟨hs.2, m, hs⟩

end Acknowledged

/-! ### The runs of `readBlock` -/

/-- 42_eeprom_protocol.md R181: the read of which byte `nack` is not acknowledged has `k` transactions. -/
def readNack (addr : Addr) (toks : List Tok) (nack k : Nat) : Prop :=
  toks = readNack1Toks addr ∧ nack = 0 ∧ k = 1 ∨ toks = readNack2Toks addr ∧ nack = 1 ∧ k = 1
    ∨ toks = readNack3Toks addr ∧ nack = 2 ∧ k = 2

theorem readNack_of_toks {addr : Addr} {toks : List Tok} {nack : Nat}
    (h : toks = readNack1Toks addr ∧ nack = 0 ∨ toks = readNack2Toks addr ∧ nack = 1
      ∨ toks = readNack3Toks addr ∧ nack = 2) : ∃ k, readNack addr toks nack k := by
  rcases h with ⟨rfl, rfl⟩ | ⟨rfl, rfl⟩ | ⟨rfl, rfl⟩
  · exact ⟨1, .inl ⟨rfl, rfl, rfl⟩⟩
  · exact ⟨1, .inr (.inl ⟨rfl, rfl, rfl⟩)⟩
  · exact ⟨2, .inr (.inr ⟨rfl, rfl, rfl⟩)⟩

theorem readNack1Toks_eq (addr : Addr) : readNack1Toks addr = (startToks ++ txToks (devW addr)) ++ stopToks := by
  simp [readNack1Toks, sendToks]

theorem readNack2Toks_eq (addr : Addr) :
    readNack2Toks addr = (startToks ++ (txToks (devW addr) ++ txToks (wordByte addr))) ++ stopToks := by
  simp [readNack2Toks, sendToks]

theorem readNack3Toks_eq (addr : Addr) :
    readNack3Toks addr = (startToks ++ (txToks (devW addr) ++ (txToks (wordByte addr) ++ (stopToks ++ ([Tok.w]
      ++ (startToks ++ txToks (devR addr))))))) ++ stopToks := by
  simp [readNack3Toks, sendToks]

theorem readToks_eq (addr : Addr) (n : Nat) :
    readToks addr n = (startToks ++ (txToks (devW addr) ++ (txToks (wordByte addr) ++ (stopToks ++ ([Tok.w]
      ++ (startToks ++ (txToks (devR addr) ++ receiveToks n))))))) ++ stopToks := by
  simp [readToks, sendToks]

/-- A transaction without its STOP, no byte having been received. -/
theorem rested.opened {v t : State} (h : rested (afterStart v) t) :
    ∃ m, rested (withBlock m v.blkbuf (afterStart v)) t := ⟨v.cnt, h⟩

theorem readNack.stops {toks : List Tok} {nack k : Nat} (h : readNack addr toks nack k) :
    ∃ earlier, toks = earlier ++ stopToks := by
  rcases h with ⟨rfl, -, -⟩ | ⟨rfl, -, -⟩ | ⟨rfl, -, -⟩
  · exact ⟨_, readNack1Toks_eq addr⟩
  · exact ⟨_, readNack2Toks_eq addr⟩
  · exact ⟨_, readNack3Toks_eq addr⟩

theorem readNack.count {toks : List Tok} {nack k : Nat} (h : readNack addr toks nack k) :
    toks.count .r = (List.replicate nack false ++ [true]).length := by
  rcases h with ⟨rfl, rfl, rfl⟩ | ⟨rfl, rfl, rfl⟩ | ⟨rfl, rfl, rfl⟩ <;>
    simp only [readNack1Toks, readNack2Toks, readNack3Toks, List.count_append, count_r_sendToks] <;> rfl

theorem count_r_readToks (addr : Addr) (n : Nat) : (readToks addr n).count .r = 3 + 8 * n := by
  simp only [readToks, List.count_append, count_r_sendToks, receiveToks_eq, count_r_receiveFrom]
  exact (Nat.add_assoc 3 _ 0)

theorem plays_readBlock_nack {toks : List Tok} {nack k : Nat} (h : readNack addr toks nack k) :
    Plays c (engineOnly u) toks (List.replicate nack false ++ [true]) (readBlock c addr length)
      (false, blkPrefix (Config.freeRegs u.fresh).blkbuf length.toNat)
      (fun t => ∃ m, rested (freeBlkbuf (withBlock m u.blkbuf (afterTransactions k (setBlock addr length u)))) t) := by
  have hbus (v : State) := afterStart_bus_ne_idle v
  have hcount := h.count
  rcases h with ⟨rfl, rfl, rfl⟩ | ⟨rfl, rfl, rfl⟩ | ⟨rfl, rfl, rfl⟩
  · rw [readNack1Toks_eq] at hcount ⊢
    exact plays_readBlock (v := setBlock addr length u) rfl
      (plays_mono plays_readBody_nack (fun _ h => h) fun _ => rested.opened) hcount
  · rw [readNack2Toks_eq] at hcount ⊢
    exact plays_readBlock (v := setBlock addr length u) rfl
      (plays_readBody_ack (plays_mono (plays_readAddressed_nack (hbus _)) (fun _ h => h) fun _ => rested.opened)) hcount
  · rw [readNack3Toks_eq] at hcount ⊢
    rw [← afterTransactions_succ]
    refine plays_readBlock (v := afterTransactions 1 (setBlock addr length u)) rfl (plays_readBody_ack
      (plays_readAddressed_ack (hbus _) ?_)) hcount
    rw [afterStop_afterStart]
    exact plays_mono (plays_readSelected_nack (hbus _)) (fun _ h => h) fun _ => rested.opened

theorem map_range_getD (data : List Byte) : ((List.range data.length).map fun i => data.getD i 0) = data :=
  List.ext_getElem (by simp) fun i _ h => by simp [h]

theorem blkPrefix_storeFrom (buf : Vector Byte 8) {data : List Byte} {n : Nat} (hn : data.length = n) (h : n ≤ 8) :
    blkPrefix (storeFrom buf 0 data) n = data := by
  subst hn
  rw [blkPrefix_eq (f := fun i => data.getD i 0) h fun i hi => by
    rw [blkAt_storeFrom _ _ _ (by omega), if_pos (by omega), Nat.sub_zero], map_range_getD]

theorem plays_readBlock_ack (hlength : length.toNat ≤ 8) (hbits : bits.length = 8 * length.toNat) :
    Plays c (engineOnly u) (readToks addr length.toNat) ([false, false, false] ++ bits) (readBlock c addr length)
      (true, bytesOfBits length.toNat bits)
      (fun t => ∃ m, rested (withBlock m (storeFrom u.blkbuf 0 (bytesOfBits length.toNat bits))
        (afterTransactions 2 (setBlock addr length u))) t) := by
  have hbus (v : State) := afterStart_bus_ne_idle v
  have hbytes : blkPrefix (storeFrom u.blkbuf 0 (bytesOfBits length.toNat bits)) length.toNat
      = bytesOfBits length.toNat bits := blkPrefix_storeFrom _ (bytesOfBits_length _ _) hlength
  have hcount : (readToks addr length.toNat).count .r = ([false, false, false] ++ bits).length := by
    rw [count_r_readToks, List.length_append, hbits]
    rfl
  have hselected := plays_readSelected_ack (c := c) (addr := addr) (length := length)
    (u := afterStart (afterTransactions 1 (setBlock addr length u))) rfl hlength (hbus _) hbits
  have hrun := plays_readBlock (length := length) (v := afterTransactions 1 (setBlock addr length u))
    (buf := storeFrom u.blkbuf 0 (bytesOfBits length.toNat bits)) rfl
    (plays_readBody_ack (plays_readAddressed_ack (hbus _) (by rw [afterStop_afterStart]; exact hselected)))
    (by rw [← readToks_eq]; exact hcount)
  rw [afterTransactions_succ, ← readToks_eq,
    show blkPrefix (ended true (withBlock _ _ _)).blkbuf length.toNat = bytesOfBits length.toNat bits
      from hbytes] at hrun
  exact hrun

end Read

/-! ### Writing -/

/-- The ninth cells of at most `n` bytes sent one after the other (R182): all low, or up to a high one, which ends the
run; `ok` tells which. -/
def ackRun : Nat → Bool → List Bool → Prop
  | 0, ok, bits => ok = true ∧ bits = []
  | n + 1, ok, bits => (ok = false ∧ bits = [true]) ∨ ∃ later, bits = false :: later ∧ ackRun n ok later

theorem ackRun_replicate (n : Nat) : ackRun n true (List.replicate n false) := by
  induction n with
  | zero => exact ⟨rfl, rfl⟩
  | succ n ih => exact .inr ⟨_, rfl, ih⟩

theorem ackRun_nack {n k : Nat} (h : k < n) : ackRun n false (List.replicate k false ++ [true]) := by
  induction k generalizing n with
  | zero =>
    obtain ⟨n, rfl⟩ := Nat.exists_eq_add_of_lt h
    exact .inl ⟨rfl, rfl⟩
  | succ k ih =>
    obtain ⟨n, rfl⟩ := Nat.exists_eq_add_of_lt h
    exact .inr ⟨_, rfl, ih (by omega)⟩

theorem ackRun.length_le {n : Nat} {ok : Bool} {bits : List Bool} (h : ackRun n ok bits) : bits.length ≤ n := by
  induction n generalizing bits with
  | zero => rw [h.2]; rfl
  | succ n ih =>
    rcases h with ⟨-, rfl⟩ | ⟨later, rfl, h⟩
    · exact Nat.succ_le_succ (Nat.zero_le n)
    · exact Nat.succ_le_succ (ih h)

section Write

variable {c : Config} {u : State} {addr : Addr} {data : List Byte} {ok : Bool} {bits : List Bool}

theorem plays_writeBytes (hcnt : u.cnt.toNat + data.length ≤ 8) (hbus : u.bus ≠ .idle)
    (hbuf : ∀ i, i < data.length → blkAt u.blkbuf (u.cnt.toNat + i) = data.getD i 0)
    (hrun : ackRun data.length ok bits) :
    Plays c (rested u) (sendToks (data.take bits.length)) bits (writeBytes c data.length) ok
      (fun t => ∃ m, rested (withBlock m u.blkbuf u) t) := by
  induction data generalizing u bits with
  | nil =>
    obtain ⟨rfl, rfl⟩ := hrun
    exact plays_end true fun s hs => ⟨hs.2, u.cnt, hs⟩
  | cons b data ih =>
    rw [List.length_cons] at hcnt
    have hbyte : blkAt u.blkbuf u.cnt.toNat = b := hbuf 0 (Nat.succ_pos _)
    have hcount : ProtocolUpdate fun s => { s with cnt := s.cnt + 1 } :=
      ⟨⟨fun s => localRegs_refl s, fun _ _ => rfl⟩, fun _ _ => rfl⟩
    have hnext : (u.cnt + 1).toNat = u.cnt.toNat + 1 := by
      rw [BitVec.toNat_add]
      exact Nat.mod_eq_of_lt (by simp; omega)
    have hsend (level : Bool) : Plays c (rested u) (txToks b) [level] (txByte c b) (!level) (rested u) :=
      plays_of_rested (plays_send hbus b level)
    rcases hrun with ⟨rfl, rfl⟩ | ⟨later, rfl, hlater⟩
    · refine plays_peek fun v hv => ?_
      rw [show v = _ from hv.1, show blkAt (withEngine v u).blkbuf (withEngine v u).cnt.toNat = b from hbyte]
      exact plays_bind (hsend true) (count_r_txToks b) (plays_end false fun s hs => ⟨hs.2, u.cnt, hs⟩)
    · refine plays_peek fun v hv => ?_
      rw [show v = _ from hv.1, show blkAt (withEngine v u).blkbuf (withEngine v u).cnt.toNat = b from hbyte]
      refine plays_bind (hsend false) (count_r_txToks b) (plays_update hcount ?_)
      refine ih (u := { u with cnt := u.cnt + 1 }) (by rw [hnext]; omega) hbus (fun i hi => ?_) hlater
      rw [hnext, Nat.add_assoc, Nat.add_comm 1]
      exact hbuf (i + 1) (Nat.succ_lt_succ hi)

theorem plays_writeBody (hlength : data.length ≤ 8)
    (hbuf : ∀ i, i < data.length → blkAt u.blkbuf i = data.getD i 0) (hrun : ackRun (2 + data.length) ok bits) :
    Plays c (engineOnly u) (startToks ++ sendToks ((devW addr :: wordByte addr :: data).take bits.length)) bits
      (writeBody c addr data.length) ok (fun t => ∃ m, rested (withBlock m u.blkbuf (afterStart u)) t) := by
  have hbus := afterStart_bus_ne_idle u
  have hzero : ProtocolUpdate fun s => { s with cnt := 0 } :=
    ⟨⟨fun s => localRegs_refl s, fun _ _ => rfl⟩, fun _ _ => rfl⟩
  have hsend (b : Byte) (level : Bool) :
      Plays c (rested (afterStart u)) (txToks b) [level] (txByte c b) (!level) (rested (afterStart u)) :=
    plays_of_rested (plays_send hbus b level)
  rw [Nat.add_comm] at hrun
  refine plays_bind plays_startBlock rfl ?_
  rcases hrun with ⟨rfl, rfl⟩ | ⟨later, rfl, ⟨rfl, rfl⟩ | ⟨later, rfl, hlater⟩⟩
  · exact plays_bind (hsend _ true) (count_r_txToks _) (plays_end false fun s hs => ⟨hs.2, rested.opened hs⟩)
  · exact plays_bind (hsend _ false) (count_r_txToks _) <|
      plays_bind (hsend _ true) (count_r_txToks _) (plays_end false fun s hs => ⟨hs.2, rested.opened hs⟩)
  · refine plays_bind (hsend _ false) (count_r_txToks _) <|
      plays_bind (hsend _ false) (count_r_txToks _) (plays_update hzero ?_)
    exact plays_writeBytes (u := { afterStart u with cnt := 0 }) (by simpa using hlength) hbus
      (fun i hi => (Nat.zero_add i).symm ▸ hbuf i hi) hlater

/-- The registers after a `writeBlock` that is done. -/
def afterWrite (count : Nibble) (addr : Addr) (data : List Byte) (u : State) : State :=
  { afterTransactions 1 (setWrite addr data u) with cnt := count }

theorem count_r_writeToks (addr : Addr) {n : Nat} (h : n ≤ 2 + data.length) : (writeToks addr data n).count .r = n := by
  have hsent : ((devW addr :: wordByte addr :: data).take n).length = n := by
    rw [List.length_take, List.length_cons, List.length_cons]
    omega
  simp only [writeToks, List.count_append, count_r_sendToks, hsent]
  exact Nat.zero_add _

theorem plays_writeBlock (hlength : data.length ≤ 8) (hrun : ackRun (2 + data.length) ok bits) :
    Plays c (engineOnly u) (writeToks addr data bits.length) bits (writeBlock c addr data) ok
      (fun t => ∃ m, rested (afterWrite m addr data u) t) := by
  have hset : ProtocolUpdate (setWrite addr data) := ⟨⟨fun s => localRegs_refl s, fun _ _ => rfl⟩, fun _ _ => rfl⟩
  have hbuf (i : Nat) (hi : i < data.length) : blkAt (setWrite addr data u).blkbuf i = data.getD i 0 := by
    rw [setWrite_blkbuf, blkAt_storeFrom _ _ _ (by omega), if_pos (by omega), Nat.sub_zero]
  have hbody := plays_writeBody (c := c) (addr := addr) hlength hbuf hrun
  have hcount := count_r_writeToks addr hrun.length_le
  rw [writeToks, List.append_assoc, List.count_append] at hcount
  rw [writeBlock_eq, writeToks, List.append_assoc]
  refine plays_upd hset.toRegistersOnly (fun _ => hset.engineOnly) (plays_then hbody hcount (plays_exists fun m => ?_))
  refine plays_then (plays_of_rested plays_stopBlock) rfl ?_
  refine plays_last (plays_wait (.inr ⟨rfl, rfl⟩)) rfl (plays_end ok fun s hs => ⟨hs.2, m, ?_⟩)
  rw [afterWrite, ← afterStop_afterStart]
  exact hs

end Write

/-! ### Settled -/

/-- Settles O25: the run with every select and address byte acknowledged. -/
theorem readBlockReturnsTheSampledBytes : Obligations.ReadBlockReturnsTheSampledBytes := by
  intro addr n s rs rest bits h1 h8 hreplies hanswered hsamples
  obtain ⟨length, rfl⟩ : ∃ length : Nibble, n = length.toNat := ⟨BitVec.ofNat 4 n, (Nat.mod_eq_of_lt (by omega)).symm⟩
  rw [BitVec.ofNat_toNat, BitVec.setWidth_eq]
  have hbits : bits.length = 8 * length.toNat := by
    have hcount := samples_length s.cfg hanswered
    rw [count_r_readToks, hsamples, List.length_append] at hcount
    exact Nat.add_left_cancel hcount
  obtain ⟨hplayed, m, ht⟩ := finish_rested (mk := fun r => .block r.1 r.2) (plays_readBlock_ack h8 hbits) hreplies
    hanswered hsamples
  obtain ⟨hbus, hstarts, hstops, hresult⟩ := ht.calls
  obtain ⟨hidbuf, hstatus, hsuccess, hseq, hhost⟩ := ht.resultsKept
  refine ⟨_, if_pos ((blockLengthOk_iff _).2 ⟨h1, h8⟩), hplayed, hresult, ?_, congrArg State.addr ht,
    congrArg State.len ht, hbus, hstarts, hstops,
    hidbuf, hstatus, hsuccess, hseq, hhost⟩
  have hbuf : State.blkbuf _ = storeFrom s.blkbuf 0 (bytesOfBits length.toNat bits) := congrArg State.blkbuf ht
  rw [hbuf]
  exact blkPrefix_storeFrom s.blkbuf (bytesOfBits_length _ _) h8

/-- Settles O26: the three runs that a NACK ends. -/
theorem readBlockNackStillStops : Obligations.ReadBlockNackStillStops := by
  intro addr n s rs rest toks nack k h1 h8 hreplies hanswered htoks hsamples
  obtain ⟨hplayed, m, ht⟩ := finish_rested (mk := fun r => .block r.1 r.2) (plays_readBlock_nack htoks) hreplies
    hanswered hsamples
  obtain ⟨hbus, hstarts, hstops, hresult⟩ := ht.calls
  obtain ⟨hidbuf, hstatus, hsuccess, hseq, hhost⟩ := ht.resultsKept
  refine ⟨_, _, if_pos ((blockLengthOk_iff _).2 ⟨h1, h8⟩), hplayed, hresult, ?_, hbus,
    hstarts, hstops, hidbuf, hstatus, hsuccess, hseq, hhost⟩
  obtain ⟨earlier, rfl⟩ := readNack.stops htoks
  exact hplayed.released_stop hhost.1

/-- Settles O27: the run with every byte acknowledged. -/
theorem writeBlockSendsEveryByte : Obligations.WriteBlockSendsEveryByte := by
  intro addr data s rs rest h1 h8 hreplies hanswered hsamples
  have hrun := plays_writeBlock (c := s.cfg) (u := s) (addr := addr) h8 (ackRun_replicate (2 + data.length))
  rw [List.length_replicate] at hrun
  obtain ⟨hplayed, m, ht⟩ := finish_rested (mk := .done) hrun hreplies hanswered hsamples
  obtain ⟨hbus, hstarts, hstops, hresult⟩ := ht.calls
  obtain ⟨hidbuf, hstatus, hsuccess, hseq, hhost⟩ := ht.resultsKept
  refine ⟨_, if_pos ((blockLengthOk_iff _).2 ⟨h1, h8⟩), hplayed, hresult,
    hplayed.released_write hhost.1, hbus, congrArg State.addr ht, congrArg State.len ht, ?_,
    hstarts, hstops, hidbuf, hstatus, hsuccess, hseq, hhost⟩
  have hbuf : State.blkbuf _ = storeFrom s.blkbuf 0 data := congrArg State.blkbuf ht
  rw [hbuf]
  exact blkPrefix_storeFrom _ rfl h8

/-- Settles O28: the run that ends at the first NACK. -/
theorem writeBlockAbortsAtTheFirstNack : Obligations.WriteBlockAbortsAtTheFirstNack := by
  intro addr data k s rs rest h1 h8 hk hreplies hanswered hsamples
  have hrun := plays_writeBlock (c := s.cfg) (u := s) (addr := addr) h8 (ackRun_nack hk)
  rw [List.length_append, List.length_replicate] at hrun
  obtain ⟨hplayed, m, ht⟩ := finish_rested (mk := .done) hrun hreplies hanswered hsamples
  obtain ⟨hbus, hstarts, hstops, hresult⟩ := ht.calls
  obtain ⟨hidbuf, hstatus, hsuccess, hseq, hhost⟩ := ht.resultsKept
  exact ⟨_, if_pos ((blockLengthOk_iff _).2 ⟨h1, h8⟩), hplayed, hresult,
    hplayed.released_write hhost.1, hbus, hstarts, hstops,
    hidbuf, hstatus, hsuccess, hseq, hhost⟩

end Sys2Proof.Machine
end

section
/-! The exposed operations with given answers (42_eeprom_protocol.md R183 to R185): each is one or two block operations,
a code and the results read back. -/

namespace Sys2Proof.Machine

/-! ### Their runs -/

section Exposed

variable {c : Config} {u : State} {w : Nibble → State} {toks : List Tok} {bits : List Bool} {ok : Bool} {b : List Byte}

/-- The last lines of an exposed operation: its code, and the results read back. -/
theorem plays_setOutcome {α : Type} (code : Nibble) {g : State → α} {a : α}
    (hg : ∀ t m, g (withEngine t (setOutcome code (w m))) = a) :
    Plays c (fun t => ∃ m, rested (w m) t) [] [] (upd (setOutcome code) >>= fun _ => peek >>= fun s => pure (g s)) a
      (fun t => ∃ m, rested (setOutcome code (w m)) t) := by
  have hcode : ProtocolUpdate (setOutcome code) := ⟨⟨fun s => localRegs_refl s, fun _ _ => rfl⟩, fun _ _ => rfl⟩
  refine plays_exists fun m => plays_update hcode (plays_peek fun v hv => ?_)
  rw [show g v = a from (congrArg g hv.1).trans (hg v m)]
  exact plays_end a fun s hs => ⟨hs.2, m, hs⟩

theorem plays_probe
    (h : Plays c (engineOnly { u with bus := .idle }) toks bits (readBlock c Config.sigAddr 2) (ok, b)
      (fun t => ∃ m, rested (w m) t)) (hcount : toks.count .r = bits.length) :
    Plays c (engineOnly u) (initToks ++ toks) bits (probe c) (probeCode c ok b == stOk, probeCode c ok b)
      (fun t => ∃ m, rested (setOutcome (probeCode c ok b) (w m)) t) :=
  plays_bind plays_initBlock rfl <| plays_last (plays_of_rested h) hcount <| plays_setOutcome _ fun _ _ => rfl

/-- IDBUF after a read that ended with `ok` (10_state.md R28). -/
def filled (ok : Bool) (b : List Byte) (u : State) : State := if ok then { u with idbuf := idbufOf b } else freeIdbuf u

theorem plays_readIdentifier {idbuf : Vector Byte 9}
    (h : Plays c (engineOnly u) toks bits (readBlock c Config.idAddr 8) (ok, b) (fun t => ∃ m, rested (w m) t))
    (hcount : toks.count .r = bits.length) (hid : ∀ m, (filled ok b (w m)).idbuf = idbuf) :
    Plays c (engineOnly u) toks bits (readIdentifier c)
      ((if ok then stOk else stNoAck) == stOk, if ok then stOk else stNoAck, idbuf)
      (fun t => ∃ m, rested (setOutcome (if ok then stOk else stNoAck) (filled ok b (w m))) t) := by
  have hfilled : ProtocolUpdate (filled ok b) := by
    cases ok <;> exact ⟨⟨fun s => localRegs_refl s, fun _ _ => rfl⟩, fun _ _ => rfl⟩
  refine plays_last h hcount (plays_exists fun m => plays_update hfilled ?_)
  refine plays_mono (plays_setOutcome (w := fun _ => filled ok b (w m)) (if ok then stOk else stNoAck)
    fun t _ => Prod.ext rfl (Prod.ext rfl (hid m))) (fun s hs => ⟨0, hs⟩) fun _ ⟨_, ht⟩ => ⟨m, ht⟩

/-- The first write cycle of `writeIdentifier` failed (R185, decision D12). -/
theorem plays_writeIdentifier_unsigned (text : List Byte) (hrun : ackRun 4 false bits) :
    Plays c (engineOnly u) (writeToks 0 [sig0 c, sig1 c] bits.length) bits (writeIdentifier c text)
      (false, stWriteSigFailed)
      (fun t => ∃ m, rested (setOutcome stWriteSigFailed (afterWrite m 0 [sig0 c, sig1 c] u)) t) :=
  plays_last (plays_writeBlock (by simp) hrun) (count_r_writeToks 0 hrun.length_le) <|
  plays_last (plays_end _ fun _ ⟨m, hs⟩ => ⟨hs.2, m, hs⟩) rfl (plays_setOutcome _ fun _ _ => rfl)

/-- The code of the second write cycle. -/
def idCode (ok : Bool) : Nibble := if ok then stOk else stWriteIdFailed

theorem id8_length (text : List Byte) : (id8 text).length = 8 := by simp [id8, Config.idLen]

theorem plays_writeIdField {text : List Byte} (hrun : ackRun 10 ok bits) :
    Plays c (engineOnly u) (writeToks 2 (id8 text) bits.length) bits (writeIdField c text true) (idCode ok)
      (fun t => ∃ m, rested (afterWrite m 2 (id8 text) u) t) := by
  have hrun' : ackRun (2 + (id8 text).length) ok bits := by rwa [id8_length]
  exact plays_last (plays_writeBlock (id8_length text).le hrun') (count_r_writeToks 2 hrun'.length_le) <|
    plays_end _ fun s ⟨m, hs⟩ => ⟨hs.2, m, hs⟩

/-- The registers after the two write cycles of `writeIdentifier`. -/
def afterWrites (count : Nibble) (c : Config) (text : List Byte) (u : State) : State :=
  { afterTransactions 2 (setWrite 2 (id8 text) (setWrite 0 [sig0 c, sig1 c] u)) with cnt := count }

theorem afterWrite_afterWrite (count count' : Nibble) (c : Config) (text : List Byte) (u : State) :
    afterWrite count 2 (id8 text) (afterWrite count' 0 [sig0 c, sig1 c] u) = afterWrites count c text u := by
  rw [afterWrites, ← afterTransactions_succ]
  rfl

theorem plays_writeIdentifier_signed {text : List Byte} (hrun : ackRun 10 ok bits) :
    Plays c (engineOnly u) (writeToks 0 [sig0 c, sig1 c] 4 ++ writeToks 2 (id8 text) bits.length)
      (List.replicate 4 false ++ bits) (writeIdentifier c text) (idCode ok == stOk, idCode ok)
      (fun t => ∃ m, rested (setOutcome (idCode ok) (afterWrites m c text u)) t) := by
  have hsigned :=
    plays_writeBlock (c := c) (u := u) (addr := 0) (data := [sig0 c, sig1 c]) (by simp) (ackRun_replicate 4)
  have hcount : (writeToks 2 (id8 text) bits.length).count .r = bits.length :=
    count_r_writeToks 2 (by rw [id8_length]; exact hrun.length_le)
  refine plays_bind hsigned (count_r_writeToks 0 (by simp)) (plays_exists fun m => ?_)
  have hid := plays_of_rested (plays_writeIdField (c := c) (u := afterWrite m 0 [sig0 c, sig1 c] u) (text := text) hrun)
  simp only [afterWrite_afterWrite] at hid
  exact plays_last hid hcount (plays_setOutcome _ fun _ _ => rfl)

end Exposed

/-! ### Settled -/

theorem count_r_initToks_append {toks : List Tok} : (initToks ++ toks).count .r = toks.count .r := by
  rw [List.count_append]
  exact Nat.zero_add _

theorem probeCode_two (c : Config) (x y : Byte) :
    probeCode c true [x, y] = if [x, y] = [sig0 c, sig1 c] then stOk else stBadSignature := by
  by_cases hx : x = sig0 c <;> by_cases hy : y = sig1 c <;> simp [probeCode, hx, hy]

theorem idbufOf_toList {b : List Byte} (h : b.length = 8) : (idbufOf b).toList = b ++ [0] := by
  conv_rhs => rw [← map_range_getD b, h]
  rfl

/-- The text delivered ends before the first zero byte, where there is one (30_encoding.md R102). -/
theorem deliveredText_spec {idbuf : Vector Byte 9} {b : List Byte} (h : idbuf.toList = b ++ [0]) (hb : b.length = 8) :
    ∃ n, n ≤ 8 ∧ deliveredText idbuf = idbuf.toList.take n ∧ idbuf.toList[n]? = some 0
      ∧ ∀ k, k < n → idbuf.toList[k]? ≠ some 0 := by
  have hzero : idbuf.toList.findIdx (fun x => !(x != 0)) < idbuf.toList.length :=
    List.findIdx_lt_length_of_exists ⟨0, by simp [h], rfl⟩
  refine ⟨idbuf.toList.findIdx fun x => !(x != 0), ?_, List.takeWhile_eq_take_findIdx_not, ?_, fun k hk => ?_⟩
  · simpa [h, hb, Nat.lt_succ_iff] using hzero
  · have hfound := List.findIdx_getElem (w := hzero)
    rw [List.getElem?_eq_getElem hzero]
    simpa using hfound
  · have hbefore := List.not_of_lt_findIdx hk
    rw [List.getElem?_eq_getElem (hk.trans hzero)]
    simpa using hbefore

/-- Settles O29: the acknowledged read, and the two bytes compared. -/
theorem probeComparesTheSignature : Obligations.ProbeComparesTheSignature := by
  intro s rs rest bits hreplies hanswered hsamples
  have hbits : bits.length = 8 * 2 := by
    have hcount := samples_length s.cfg hanswered
    rw [count_r_initToks_append, count_r_readToks, hsamples, List.length_append] at hcount
    exact Nat.add_left_cancel hcount
  have hread := plays_readBlock_ack (c := s.cfg) (u := { s with bus := .idle }) (addr := Config.sigAddr) (length := 2)
    (by decide) hbits
  obtain ⟨hplayed, m, ht⟩ := finish_rested (mk := fun r => .outcome r.1 r.2)
    (plays_probe hread ((count_r_readToks _ _).trans (by simp [hbits]))) hreplies hanswered hsamples
  obtain ⟨hbus, hstarts, hstops, hresult⟩ := ht.calls
  obtain ⟨hidbuf, hstatus, hsuccess, hseq, hhost⟩ := ht.resultsKept
  refine ⟨_, rfl, hplayed, hbus, ?_, ?_, ?_, hidbuf, hseq, hhost⟩
  · exact hstatus.trans (probeCode_two s.cfg _ _)
  · rw [hsuccess, hstatus]
    rfl
  · rw [hsuccess, hstatus]
    exact hresult

/-- Settles O30: whichever byte is not acknowledged, the read reports a failure. -/
theorem probeWithNoAcknowledgeReportsNoEeprom : Obligations.ProbeWithNoAcknowledgeReportsNoEeprom := by
  intro s rs rest toks nack hreplies hanswered htoks hsamples
  obtain ⟨k, hnack⟩ : ∃ k, readNack 0 toks nack k := readNack_of_toks htoks
  obtain ⟨hplayed, m, ht⟩ := finish_rested (mk := fun r => .outcome r.1 r.2)
    (plays_probe (plays_readBlock_nack hnack) hnack.count) hreplies hanswered hsamples
  obtain ⟨hbus, hstarts, hstops, hresult⟩ := ht.calls
  obtain ⟨hidbuf, hstatus, hsuccess, hseq, hhost⟩ := ht.resultsKept
  exact ⟨_, rfl, hplayed, hbus, hstatus, hsuccess, hresult, hidbuf, hseq, hhost⟩

/-- Settles O31: the acknowledged read, and IDBUF filled. -/
theorem readIdentifierFillsTheBuffer : Obligations.ReadIdentifierFillsTheBuffer := by
  intro s rs rest bits hreplies hanswered hsamples
  have hbits : bits.length = 8 * 8 := by
    have hcount := samples_length s.cfg hanswered
    rw [count_r_readToks, hsamples, List.length_append] at hcount
    exact Nat.add_left_cancel hcount
  have hread := plays_readBlock_ack (c := s.cfg) (u := s) (addr := Config.idAddr) (length := 8) (by decide) hbits
  obtain ⟨hplayed, m, ht⟩ := finish_rested (mk := fun r => .identifier r.1 r.2.1 r.2.2)
    (plays_readIdentifier hread ((count_r_readToks _ _).trans (by simp [hbits])) fun _ => rfl)
    hreplies hanswered hsamples
  obtain ⟨hbus, hstarts, hstops, hresult⟩ := ht.calls
  obtain ⟨hidbuf, hstatus, hsuccess, hseq, hhost⟩ := ht.resultsKept
  have hlist : (idbufOf (bytesOfBits 8 bits)).toList = bytesOfBits 8 bits ++ [0] :=
    idbufOf_toList (bytesOfBits_length 8 bits)
  refine ⟨_, rfl, hplayed, ?_, hstatus, hsuccess, ?_, ?_, hbus, hseq, hhost⟩
  · rw [hidbuf]
    exact hlist
  · exact deliveredText_spec (hidbuf ▸ hlist) (bytesOfBits_length 8 bits)
  · rw [hidbuf]
    exact hresult

/-- Settles O32: whichever byte is not acknowledged, the read reports a failure. -/
theorem readIdentifierWithNoAcknowledgeReportsNoAck : Obligations.ReadIdentifierWithNoAcknowledgeReportsNoAck := by
  intro s rs rest toks nack hreplies hanswered htoks hsamples
  obtain ⟨k, hnack⟩ : ∃ k, readNack 2 toks nack k := readNack_of_toks htoks
  obtain ⟨hplayed, m, ht⟩ := finish_rested (mk := fun r => .identifier r.1 r.2.1 r.2.2)
    (plays_readIdentifier (idbuf := (Config.freeRegs (s.fresh + 1)).idbuf) (plays_readBlock_nack hnack) hnack.count
      fun _ => rfl) hreplies hanswered hsamples
  obtain ⟨hbus, hstarts, hstops, hresult⟩ := ht.calls
  obtain ⟨-, hstatus, hsuccess, hseq, hhost⟩ := ht.resultsKept
  exact ⟨_, rfl, hplayed, hstatus, hsuccess, hbus, hseq, hhost⟩

theorem exec_text {text : List Byte} (h : (0 : Byte) ∉ text) (s : State) :
    exec (.writeIdentifier text) s = .next (finish (fun r => .outcome r.1 r.2) (writeIdentifier s.cfg text) s) :=
  if_pos (textOk_of_no_zero h)

/-- Settles O33: two write cycles, every byte acknowledged. -/
theorem writeIdentifierRunsTwoWriteCycles : Obligations.WriteIdentifierRunsTwoWriteCycles := by
  intro text s rs rest toks htext htoks hreplies hanswered hsamples
  subst htoks
  have hrun := plays_writeIdentifier_signed (c := s.cfg) (u := s) (text := text) (ackRun_replicate 10)
  obtain ⟨hplayed, m, ht⟩ := finish_rested (mk := fun r => .outcome r.1 r.2) hrun hreplies hanswered hsamples
  obtain ⟨hbus, hstarts, hstops, hresult⟩ := ht.calls
  obtain ⟨hidbuf, hstatus, hsuccess, hseq, hhost⟩ := ht.resultsKept
  exact ⟨_, exec_text htext s, hplayed, hstatus, hsuccess, hresult, hbus, hstarts, hstops, hidbuf, hseq, hhost⟩

/-- Settles O34: a NACK in the first write cycle, or in the second. -/
theorem writeIdentifierFailuresAreTold : Obligations.WriteIdentifierFailuresAreTold := by
  intro text k s rs rest toks htext hreplies hanswered
  constructor
  · rintro hk rfl hsamples
    have hrun := plays_writeIdentifier_unsigned (c := s.cfg) (u := s) text (ackRun_nack hk)
    rw [List.length_append, List.length_replicate] at hrun
    obtain ⟨hplayed, m, ht⟩ := finish_rested (mk := fun r => .outcome r.1 r.2) hrun hreplies hanswered hsamples
    obtain ⟨hbus, hstarts, hstops, hresult⟩ := ht.calls
    obtain ⟨hidbuf, hstatus, hsuccess, -, hhost⟩ := ht.resultsKept
    exact ⟨_, exec_text htext s, hplayed, hstatus, hsuccess, hbus, hresult,
      hstarts, hstops, hidbuf, hhost⟩
  · rintro hk rfl hsamples
    have hrun := plays_writeIdentifier_signed (c := s.cfg) (u := s) (text := text) (ackRun_nack hk)
    rw [List.length_append, List.length_replicate] at hrun
    rw [List.replicate_add, List.append_assoc] at hsamples
    obtain ⟨hplayed, m, ht⟩ := finish_rested (mk := fun r => .outcome r.1 r.2) hrun hreplies hanswered hsamples
    obtain ⟨hbus, hstarts, hstops, hresult⟩ := ht.calls
    obtain ⟨hidbuf, hstatus, hsuccess, -, hhost⟩ := ht.resultsKept
    exact ⟨_, exec_text htext s, hplayed, hstatus, hsuccess, hbus, hresult,
      hstarts, hstops, hidbuf, hhost⟩

end Sys2Proof.Machine
end

section
/-! What a protocol operation costs and leaves, whatever the world answers (42_eeprom_protocol.md R180 to R187):
`ledger` counts the events of a run and follows BUS, the calls and the results beside them. -/

namespace Sys2Proof.Machine

/-! ### The ledger -/

/-- From `u` to `t`: the registers shown are those of `u`, and the events since number `o` outputs, `i` inputs and
delays of `d` microseconds. -/
def ledger (o i d : Nat) (u t : State) : Prop :=
  t.bus = u.bus ∧ t.starts = u.starts ∧ t.stops = u.stops ∧ resultsKept u t
    ∧ ∃ evs, t.trace = evs ++ u.trace ∧ outCount evs = o ∧ inCount evs = i ∧ delaySum evs = d

/-- A piece that ended with `ok` has, if `ok`, cost this much. -/
def costs (o i d : Nat) (u : State) (ok : Bool) (t : State) : Prop :=
  ∃ o' i' d', ledger o' i' d' u t ∧ (ok = true → o' = o ∧ i' = i ∧ d' = d)

/-- Both lines released, the bridge holding the latch. -/
def atRest (t : State) : Prop := released t ∧ t.bridge = t.latch

theorem ledger_refl (s : State) : ledger 0 0 0 s s :=
  ⟨rfl, rfl, rfl, ⟨rfl, rfl, rfl, rfl, rfl, rfl, rfl⟩, [], rfl, rfl, rfl, rfl⟩

section Ledger

variable {c : Config} {o i d : Nat} {u s t : State}

theorem ledger.costs (h : ledger o i d u t) (ok : Bool) : costs o i d u ok t := ⟨o, i, d, h, fun _ => ⟨rfl, rfl, rfl⟩⟩

theorem ledger.failed (h : ledger o i d u t) {o' i' d' : Nat} : Machine.costs o' i' d' u false t :=
  ⟨o, i, d, h, fun hok => by cases hok⟩

theorem ledger.event {e : Event} (h : ledger o i d u s) (hregs : sameRegs s t) (hhost : sameHost s t)
    (hstarts : t.starts = s.starts) (hstops : t.stops = s.stops) (htrace : t.trace = e :: s.trace) :
    ledger (o + outCount [e]) (i + inCount [e]) (d + delaySum [e]) u t := by
  obtain ⟨hbus, hstarts', hstops', hkept, evs, htrace', rfl, rfl, rfl⟩ := h
  obtain ⟨hidbuf, hstatus, hsuccess, hseq, hcfg, hport, hcalls⟩ := hkept
  obtain ⟨hbus', hidbuf', hstatus', hsuccess', -, -, -, -, -, -, -, hseq'⟩ := hregs
  obtain ⟨hcfg', hport', hcalls'⟩ := hhost
  refine ⟨hbus'.trans hbus, hstarts.trans hstarts', hstops.trans hstops',
    ⟨hidbuf'.trans hidbuf, hstatus'.trans hstatus, hsuccess'.trans hsuccess, hseq'.trans hseq, hcfg'.trans hcfg,
      hport'.trans hport, hcalls'.trans hcalls⟩, e :: evs, by rw [htrace, htrace']; rfl, ?_, ?_, ?_⟩
  · exact (List.countP_append (l₁ := [e])).trans (Nat.add_comm _ _)
  · exact (List.countP_append (l₁ := [e])).trans (Nat.add_comm _ _)
  · cases e with
    | delay us => exact Nat.add_comm _ _
    | out req ret => rfl
    | inp req ret b0 b1 => rfl

/-! ### The pins -/

theorem setPin_ledger (mask : Byte) (b : Bool) :
    Spec c (ledger o i d u) (setPin mask b) (fun _ => ledger (o + 1) i (d + 10) u) fatalMarks := by
  intro s hs h
  refine transfer_ends (setPin_eq_writeEffect mask b s) ⟨(pinEffect_cfg mask b s).trans hs, ?_⟩
  obtain ⟨hregs, hstarts, hstops⟩ := writeEffect_frame (withBit mask s.latch b) s
  have hout := h.event hregs (pinEffect_sameHost mask b s) hstarts hstops (writeEffect_trace _ s)
  exact hout.event (e := .delay Config.tSettle) (sameRegs_refl _) (sameHost_refl _) rfl rfl rfl

theorem getSDA_ledger : Spec c (ledger o i d u) (getSDA c) (fun _ => ledger o (i + 1) d u) fatalMarks := by
  intro s hs h
  refine transfer_ends (getSDA_eq c s) ⟨(readEffect_cfg s).trans hs, ?_⟩
  obtain ⟨hregs, -, -, -, hstarts, hstops⟩ := readEffect_frame s
  exact h.event hregs (readEffect_sameHost s) hstarts hstops (readEffect_trace s)

theorem delay_ledger (us : Nat) :
    Spec c (ledger o i d u) (delay us) (fun _ => ledger o i (d + us) u) fatalMarks :=
  spec_upd fun _ h => ⟨rfl, h.event (e := .delay us) (sameRegs_refl _) (sameHost_refl _) rfl rfl rfl⟩

/-! ### The engine -/

theorem countStart_ledger (h : ledger o i d u s) : ledger o i d (countStart u) (countStart s) := by
  obtain ⟨hbus, hstarts, h⟩ := h
  exact ⟨hbus, congrArg (· + 1) hstarts, h⟩

theorem countStop_ledger (h : ledger o i d u s) : ledger o i d (countStop u) (countStop s) := by
  obtain ⟨hbus, hstarts, hstops, h⟩ := h
  exact ⟨hbus, hstarts, congrArg (· + 1) hstops, h⟩

theorem setBusStarted_ledger (h : ledger o i d u s) : ledger o i d (setBusStarted u) (setBusStarted s) :=
  ⟨congrArg (busAfter .idle .busy) h.1, h.2⟩

theorem setBusStopped_ledger (h : ledger o i d u s) : ledger o i d (setBusStopped u) (setBusStopped s) :=
  ⟨congrArg (busAfter .busy .idle) h.1, h.2⟩

theorem setBusByte_ledger (hbus : u.bus ≠ .idle) (h : ledger o i d u s) : ledger o i d u (setBusByte s) := by
  rwa [setBusByte_of_ne_idle (h.1 ▸ hbus)]

theorem setOutcome_ledger (code : Nibble) (h : ledger o i d u s) :
    ledger o i d (setOutcome code u) (setOutcome code s) := by
  obtain ⟨hbus, hstarts, hstops, ⟨hidbuf, -, -, hkept⟩, hevs⟩ := h
  exact ⟨hbus, hstarts, hstops, ⟨hidbuf, rfl, rfl, hkept⟩, hevs⟩

theorem busInit_ledger :
    Spec c (ledger o i d u) (busInit c) (fun _ => ledger (o + 2) i (d + 20) { u with bus := .idle }) fatalMarks :=
  spec_bind (setPin_ledger _ true) fun _ => spec_bind (setPin_ledger _ true) fun _ =>
  spec_upd fun _ h => ⟨rfl, rfl, h.2⟩

theorem start_ledger :
    Spec c (ledger o i d u) (start c) (fun _ => ledger (o + 2) i (d + 20) (afterStart u)) fatalMarks :=
  spec_bind (spec_upd fun _ h => ⟨rfl, countStart_ledger h⟩) fun _ => spec_bind (setPin_ledger _ false) fun _ =>
  spec_bind (setPin_ledger _ false) fun _ => spec_upd fun _ h => ⟨rfl, setBusStarted_ledger h⟩

theorem stop_ok_bridge {s t : State} {a : Unit} (h : stop c s = .ok a t) : t.bridge = t.latch := by
  obtain ⟨_, s1, -, h⟩ := op_bind_eq_ok.1 (show (setSDA c false >>= _) (countStop s) = _ from h)
  obtain ⟨_, s2, -, h⟩ := op_bind_eq_ok.1 h
  obtain ⟨_, s3, hhigh, h⟩ := op_bind_eq_ok.1 h
  obtain rfl : setBusStopped s3 = t := (EStateM.Result.ok.inj h).2
  obtain ⟨-, -, hbridge, -⟩ := setPin_ok hhigh
  exact hbridge

theorem stop_ledger :
    Spec c (ledger o i d u) (stop c) (fun _ t => ledger (o + 3) i (d + 30) (afterStop u) t ∧ atRest t) fatalMarks := by
  have hstop : Spec c (ledger o i d u) (stop c) (fun _ => ledger (o + 3) i (d + 30) (afterStop u)) fatalMarks :=
    spec_bind (spec_upd fun _ h => ⟨rfl, countStop_ledger h⟩) fun _ => spec_bind (setPin_ledger _ false) fun _ =>
    spec_bind (setPin_ledger _ true) fun _ => spec_bind (setPin_ledger _ true) fun _ =>
    spec_upd fun _ h => ⟨rfl, setBusStopped_ledger h⟩
  intro s hs h
  refine ⟨fun a t ht => ?_, (hstop s hs h).2⟩
  obtain ⟨hcfg, hledger⟩ := (hstop s hs h).1 a t ht
  exact ⟨hcfg, hledger, ((stop_releases (P := fun _ => True) s hs trivial).1 a t ht).2, stop_ok_bridge ht⟩

theorem txBits_ledger (left : Nat) :
    Spec c (ledger o i d u) (txBits c left) (fun _ => ledger (o + 3 * left) i (d + 30 * left) u) fatalMarks := by
  induction left generalizing o d with
  | zero => exact spec_pure () fun _ h => h
  | succ left ih =>
    refine spec_peek fun v hv => spec_bind (spec_pre (setPin_ledger _ _) fun s hs => hs ▸ hv) fun _ => ?_
    refine spec_bind (setPin_ledger _ true) fun _ => spec_bind (setPin_ledger _ false) fun _ => ?_
    rw [show o + 3 * (left + 1) = o + 1 + 1 + 1 + 3 * left by omega,
      show d + 30 * (left + 1) = d + 10 + 10 + 10 + 30 * left by omega]
    exact spec_bind (spec_upd fun _ h => ⟨rfl, h⟩) fun _ => ih

theorem rxBits_ledger (left : Nat) :
    Spec c (ledger o i d u) (rxBits c left) (fun _ => ledger (o + 2 * left) (i + left) (d + 20 * left) u)
      fatalMarks := by
  induction left generalizing o i d with
  | zero => exact spec_pure () fun _ h => h
  | succ left ih =>
    refine spec_bind (setPin_ledger _ true) fun _ => spec_bind getSDA_ledger fun _ => ?_
    refine spec_bind (setPin_ledger _ false) fun _ => ?_
    rw [show o + 2 * (left + 1) = o + 1 + 1 + 2 * left by omega, show i + (left + 1) = i + 1 + left by omega,
      show d + 20 * (left + 1) = d + 10 + 10 + 20 * left by omega]
    exact spec_bind (spec_upd fun _ h => ⟨rfl, h⟩) fun _ => ih

section Open

variable (hbus : u.bus ≠ .idle)
include hbus

theorem txByte_ledger (v : Byte) :
    Spec c (ledger o i d u) (txByte c v) (fun _ => ledger (o + 27) (i + 1) (d + 270) u) fatalMarks :=
  spec_bind (spec_upd fun _ h => ⟨rfl, h⟩) fun _ => spec_bind (txBits_ledger 8) fun _ =>
  spec_bind (setPin_ledger _ true) fun _ => spec_bind (setPin_ledger _ true) fun _ =>
  spec_bind getSDA_ledger fun _ => spec_bind (setPin_ledger _ false) fun _ =>
  spec_bind (spec_upd fun _ h => ⟨rfl, h⟩) fun _ =>
  spec_bind (spec_upd fun _ h => ⟨rfl, setBusByte_ledger hbus h⟩) fun _ => spec_pure _ fun _ h => h

theorem rxByte_ledger (isLast : Bool) :
    Spec c (ledger o i d u) (rxByte c isLast) (fun _ => ledger (o + 20) (i + 8) (d + 200) u) fatalMarks :=
  spec_bind (spec_upd fun _ h => ⟨rfl, h⟩) fun _ => spec_bind (rxBits_ledger 8) fun _ =>
  spec_bind (setPin_ledger _ isLast) fun _ => spec_bind (setPin_ledger _ true) fun _ =>
  spec_bind (setPin_ledger _ false) fun _ => spec_bind (setPin_ledger _ true) fun _ =>
  spec_bind (spec_upd fun _ h => ⟨rfl, setBusByte_ledger hbus h⟩) fun _ =>
  spec_peek fun _ hv => spec_pure _ fun _ h => h ▸ hv

/-! ### The protocol -/

theorem readBytes_ledger (left : Nat) :
    Spec c (ledger o i d u) (readBytes c left) (fun _ => ledger (o + 20 * left) (i + 8 * left) (d + 200 * left) u)
      fatalMarks := by
  induction left generalizing o i d with
  | zero => exact spec_pure () fun _ h => h
  | succ left ih =>
    refine spec_peek fun v hv => spec_bind (spec_pre (rxByte_ledger hbus _) fun s hs => hs ▸ hv) fun _ => ?_
    rw [show o + 20 * (left + 1) = o + 20 + 20 * left by omega, show i + 8 * (left + 1) = i + 8 + 8 * left by omega,
      show d + 200 * (left + 1) = d + 200 + 200 * left by omega]
    exact spec_bind (spec_upd fun _ h => ⟨rfl, h⟩) fun _ => ih

theorem readSelected_ledger (addr : Addr) (length : Nibble) :
    Spec c (ledger o i d u) (readSelected c addr length)
      (costs (o + 27 + 20 * length.toNat) (i + 1 + 8 * length.toNat) (d + 270 + 200 * length.toNat) u) fatalMarks := by
  refine spec_bind (txByte_ledger hbus _) fun ack => ?_
  cases ack with
  | false => exact spec_pure false fun _ h => h.failed
  | true =>
    exact spec_bind (spec_upd fun _ h => ⟨rfl, h⟩) fun _ => spec_bind (readBytes_ledger hbus _) fun _ =>
      spec_pure true fun _ h => h.costs true

theorem writeBytes_ledger (left : Nat) :
    Spec c (ledger o i d u) (writeBytes c left) (costs (o + 27 * left) (i + left) (d + 270 * left) u) fatalMarks := by
  induction left generalizing o i d with
  | zero => exact spec_pure true fun _ h => h.costs true
  | succ left ih =>
    refine spec_peek fun v hv => spec_bind (spec_pre (txByte_ledger hbus _) fun s hs => hs ▸ hv) fun ack => ?_
    cases ack with
    | false => exact spec_pure false fun _ h => h.failed
    | true =>
      rw [show o + 27 * (left + 1) = o + 27 + 27 * left by omega, show i + (left + 1) = i + 1 + left by omega,
        show d + 270 * (left + 1) = d + 270 + 270 * left by omega]
      exact spec_bind (spec_upd fun _ h => ⟨rfl, h⟩) fun _ => ih

end Open

theorem readAddressed_ledger (addr : Addr) (length : Nibble) :
    Spec c (ledger o i d (afterStart u)) (readAddressed c addr length)
      (fun ok t => ∃ v, (v = u ∨ v = afterTransactions 1 u)
        ∧ costs (o + 59 + 20 * length.toNat) (i + 2 + 8 * length.toNat) (d + 600 + 200 * length.toNat)
          (afterStart v) ok t)
      fatalMarks := by
  refine spec_bind (txByte_ledger (afterStart_bus_ne_idle u) _) fun ack => ?_
  cases ack with
  | false => exact spec_pure false fun _ h => ⟨u, .inl rfl, h.failed⟩
  | true =>
    refine spec_bind (spec_post stop_ledger fun _ _ h => h.1) fun _ => ?_
    rw [afterStop_afterStart]
    refine spec_bind (delay_ledger _) fun _ => spec_bind start_ledger fun _ => ?_
    exact spec_post (readSelected_ledger (afterStart_bus_ne_idle _) addr length) fun ok t h => ⟨_, .inr rfl, h⟩

theorem readBody_ledger (addr : Addr) (length : Nibble) :
    Spec c (ledger o i d u) (readBody c addr length)
      (fun ok t => ∃ v, (v = u ∨ v = afterTransactions 1 u)
        ∧ costs (o + 88 + 20 * length.toNat) (i + 3 + 8 * length.toNat) (d + 890 + 200 * length.toNat)
          (afterStart v) ok t)
      fatalMarks := by
  refine spec_bind start_ledger fun _ => spec_bind (txByte_ledger (afterStart_bus_ne_idle u) _) fun ack => ?_
  cases ack with
  | false => exact spec_pure false fun _ h => ⟨u, .inl rfl, h.failed⟩
  | true => exact readAddressed_ledger addr length

/-- A block operation ends in a STOP. -/
theorem stop_costs {ok : Bool} :
    Spec c (costs o i d u ok) (stop c)
      (fun _ t => costs (o + 3) i (d + 30) (afterStop u) ok t ∧ atRest t) fatalMarks :=
  spec_exists fun o' => spec_exists fun i' => spec_exists fun d' => fun s hs ⟨h, hok⟩ =>
    spec_post stop_ledger (fun _ _ ⟨ht, hrest⟩ => ⟨⟨_, _, _, ht, fun h => by
      obtain ⟨rfl, rfl, rfl⟩ := hok h
      exact ⟨rfl, rfl, rfl⟩⟩, hrest⟩) s hs h

theorem delay_costs {ok : Bool} {us : Nat} :
    Spec c (fun s => costs o i d u ok s ∧ atRest s) (delay us) (fun _ t => costs o i (d + us) u ok t ∧ atRest t)
      fatalMarks :=
  spec_upd fun s ⟨⟨o', i', d', h, hok⟩, hrest⟩ => ⟨rfl, ⟨o', i', d' + us,
    h.event (e := .delay us) (sameRegs_refl _) (sameHost_refl _) rfl rfl rfl, fun hk => by
      obtain ⟨rfl, rfl, rfl⟩ := hok hk
      exact ⟨rfl, rfl, rfl⟩⟩, hrest⟩

/-- A block operation of one or two transactions has ended with `ok`. -/
def blockEnded (o i d : Nat) (u : State) (ok : Bool) (t : State) : Prop :=
  ∃ k, (1 ≤ k ∧ k ≤ 2) ∧ costs o i d (afterTransactions k u) ok t ∧ atRest t

theorem readBlock_ledger (addr : Addr) (length : Nibble) :
    Spec c (ledger o i d u) (readBlock c addr length)
      (fun r => blockEnded (o + 91 + 20 * length.toNat) (i + 3 + 8 * length.toNat) (d + 920 + 200 * length.toNat) u r.1)
      fatalMarks := by
  rw [readBlock_eq]
  refine spec_bind (spec_upd (Q := fun _ => ledger o i d u) fun _ h => ⟨rfl, h⟩) fun _ => ?_
  refine spec_bind (readBody_ledger addr length) fun ok => spec_exists fun v => spec_of_fact fun hv => ?_
  have htransactions : ∃ k, (1 ≤ k ∧ k ≤ 2) ∧ afterStop (afterStart v) = afterTransactions k u := by
    rcases hv with rfl | rfl <;> rw [afterStop_afterStart]
    · exact ⟨1, by omega, rfl⟩
    · exact ⟨2, by omega, afterTransactions_succ 1 u⟩
  obtain ⟨k, hk, htransactions⟩ := htransactions
  refine spec_bind stop_costs fun _ => ?_
  rw [htransactions]
  rw [show o + 88 + 20 * length.toNat + 3 = o + 91 + 20 * length.toNat by omega,
    show d + 890 + 200 * length.toNat + 30 = d + 920 + 200 * length.toNat by omega]
  refine spec_bind (Q := fun _ => blockEnded (o + 91 + 20 * length.toNat) (i + 3 + 8 * length.toNat)
    (d + 920 + 200 * length.toNat) u ok) (spec_upd fun s h => ?_) fun _ =>
      spec_peek fun v hv => spec_pure _ fun _ h => h ▸ hv
  cases ok <;> exact ⟨rfl, k, hk, h⟩

theorem writeBody_ledger (addr : Addr) (n : Nat) :
    Spec c (ledger o i d u) (writeBody c addr n)
      (costs (o + 56 + 27 * n) (i + 2 + n) (d + 560 + 270 * n) (afterStart u)) fatalMarks := by
  have hbus := afterStart_bus_ne_idle u
  refine spec_bind start_ledger fun _ => spec_bind (txByte_ledger hbus _) fun selected => ?_
  cases selected with
  | false => exact spec_pure false fun _ h => h.failed
  | true =>
    refine spec_bind (txByte_ledger hbus _) fun addressed => ?_
    cases addressed with
    | false => exact spec_pure false fun _ h => h.failed
    | true => exact spec_bind (spec_upd fun _ h => ⟨rfl, h⟩) fun _ => writeBytes_ledger hbus n

theorem writeBlock_ledger (addr : Addr) (data : List Byte) :
    Spec c (ledger o i d u) (writeBlock c addr data)
      (fun ok t => costs (o + 59 + 27 * data.length) (i + 2 + data.length) (d + 10590 + 270 * data.length)
        (afterTransactions 1 u) ok t ∧ atRest t) fatalMarks := by
  rw [writeBlock_eq]
  refine spec_bind (spec_upd (Q := fun _ => ledger o i d u) fun _ h => ⟨rfl, h⟩) fun _ => ?_
  refine spec_bind (writeBody_ledger addr data.length) fun ok => spec_bind stop_costs fun _ => ?_
  rw [afterStop_afterStart]
  rw [show o + 56 + 27 * data.length + 3 = o + 59 + 27 * data.length by omega]
  refine spec_bind delay_costs fun _ => ?_
  rw [show d + 560 + 270 * data.length + 30 + Config.tWrite = d + 10590 + 270 * data.length by
    rw [show Config.tWrite = 10000 from rfl]; omega]
  exact spec_pure ok fun _ h => h

/-! ### The exposed operations -/

theorem setOutcome_costs {ok : Bool} (code : Nibble) (h : costs o i d u ok s) :
    costs o i d (setOutcome code u) ok (setOutcome code s) := by
  obtain ⟨o', i', d', h, hok⟩ := h
  exact ⟨o', i', d', setOutcome_ledger code h, hok⟩

/-- An exposed operation made of block operations has ended with a code. -/
def exposedEnded (o i d : Nat) (u : State) (ok : Bool) (code : Nibble) (t : State) : Prop :=
  ∃ k, (1 ≤ k ∧ k ≤ 2) ∧ costs o i d (setOutcome code (afterTransactions k u)) ok t ∧ atRest t

/-- The last lines of an exposed operation. -/
theorem blockEnded_setOutcome {α : Type} {ok : Bool} (code : Nibble) (g : State → α) :
    Spec c (blockEnded o i d u ok) (upd (setOutcome code) >>= fun _ => peek >>= fun s => pure (g s))
      (fun _ => exposedEnded o i d u ok code) fatalMarks :=
  spec_bind (spec_upd (Q := fun _ => exposedEnded o i d u ok code) fun _ ⟨k, hk, h, hrest⟩ =>
    ⟨rfl, k, hk, setOutcome_costs code h, hrest⟩) fun _ => spec_peek fun _ hv => spec_pure _ fun _ h => h ▸ hv

theorem probeCode_read {ok : Bool} {b : List Byte}
    (h : probeCode c ok b = stOk ∨ probeCode c ok b = stBadSignature) : ok = true := by
  cases ok with
  | true => rfl
  | false => exact absurd h (by simp [probeCode, stNoEeprom, stOk, stBadSignature])

theorem probe_ledger :
    Spec c (ledger o i d u) (probe c)
      (fun _ t => ∃ ok code, (code = stOk ∨ code = stBadSignature → ok = true)
        ∧ exposedEnded (o + 133) (i + 19) (d + 1340) { u with bus := .idle } ok code t) fatalMarks :=
  spec_bind busInit_ledger fun _ => spec_bind (readBlock_ledger _ _) fun ⟨ok, b⟩ =>
  spec_post (blockEnded_setOutcome (probeCode c ok b) _) fun _ _ h => ⟨ok, _, probeCode_read, h⟩

theorem readIdentifier_ledger :
    Spec c (ledger o i d u) (readIdentifier c)
      (fun _ t => ∃ idbuf ok code, (code = stOk → ok = true)
        ∧ exposedEnded (o + 251) (i + 67) (d + 2520) { u with idbuf := idbuf } ok code t) fatalMarks := by
  refine spec_bind (readBlock_ledger _ _) fun ⟨ok, b⟩ => ?_
  refine spec_bind (Q := fun _ s => ∃ idbuf, blockEnded (o + 251) (i + 67) (d + 2520) { u with idbuf := idbuf } ok s)
    (spec_upd fun s ⟨k, hk, ⟨o', i', d', h, hok⟩, hrest⟩ => ?_) fun _ => spec_exists fun idbuf =>
      spec_post (blockEnded_setOutcome (if ok then stOk else stNoAck) _) fun _ _ h => ⟨idbuf, ok, _, fun hcode => ?_, h⟩
  · obtain ⟨hbus, hstarts, hstops, ⟨-, hkept⟩, hevs⟩ := h
    cases ok with
    | true => exact ⟨rfl, idbufOf b, k, hk, ⟨o', i', d', ⟨hbus, hstarts, hstops, ⟨rfl, hkept⟩, hevs⟩, hok⟩, hrest⟩
    | false =>
      exact ⟨rfl, (freeIdbuf s).idbuf, k, hk, ⟨o', i', d', ⟨hbus, hstarts, hstops, ⟨rfl, hkept⟩, hevs⟩, hok⟩, hrest⟩
  · cases ok with
    | true => rfl
    | false => cases hcode

theorem costs.ledger (h : costs o i d u true t) : ledger o i d u t := by
  obtain ⟨o', i', d', h, hok⟩ := h
  obtain ⟨rfl, rfl, rfl⟩ := hok rfl
  exact h

theorem writeIdField_ledger (text : List Byte) (signed : Bool) :
    Spec c (fun s => costs (o + 113) (i + 4) (d + 11130) (afterTransactions 1 u) signed s ∧ atRest s)
      (writeIdField c text signed)
      (fun code => blockEnded (o + 388) (i + 14) (d + 23880) u (code == stOk)) fatalMarks := by
  cases signed with
  | false =>
    exact spec_pure _ fun s ⟨⟨o', i', d', h, _⟩, hrest⟩ =>
      ⟨1, by omega, ⟨o', i', d', h, fun hcode => by cases hcode⟩, hrest⟩
  | true =>
    refine spec_bind (spec_pre (writeBlock_ledger _ _) fun s h => h.1.ledger) fun ok =>
      spec_pure _ fun s ⟨h, hrest⟩ => ?_
    rw [id8_length, afterTransactions_succ, show o + 113 + 59 + 27 * 8 = o + 388 by omega,
      show i + 4 + 2 + 8 = i + 14 by omega, show d + 11130 + 10590 + 270 * 8 = d + 23880 by omega] at h
    have hok : ((if ok then stOk else stWriteIdFailed) == stOk) = ok := by cases ok <;> rfl
    rw [hok]
    exact ⟨2, by omega, h, hrest⟩

theorem writeSignature_ledger :
    Spec c (ledger o i d u) (writeBlock c Config.sigAddr [sig0 c, sig1 c])
      (fun signed s => costs (o + 113) (i + 4) (d + 11130) (afterTransactions 1 u) signed s ∧ atRest s) fatalMarks := by
  have h := writeBlock_ledger (c := c) (o := o) (i := i) (d := d) (u := u) Config.sigAddr [sig0 c, sig1 c]
  rwa [show [sig0 c, sig1 c].length = 2 from rfl, show o + 59 + 27 * 2 = o + 113 by omega,
    show i + 2 + 2 = i + 4 by omega, show d + 10590 + 270 * 2 = d + 11130 by omega] at h

theorem writeIdentifier_ledger (text : List Byte) :
    Spec c (ledger o i d u) (writeIdentifier c text)
      (fun _ t => ∃ code, exposedEnded (o + 388) (i + 14) (d + 23880) u (code == stOk) code t) fatalMarks :=
  spec_bind writeSignature_ledger fun signed => spec_bind (writeIdField_ledger text signed) fun code =>
  spec_post (blockEnded_setOutcome code _) fun _ _ h => ⟨code, h⟩

/-! ### What the ends say -/

/-- One or two transactions have run, and the bus is at rest. -/
def transacted (u t : State) : Prop :=
  (∃ k, 1 ≤ k ∧ k ≤ 2 ∧ t.starts = u.starts + k ∧ t.stops = u.stops + k)
    ∧ t.bus = (if u.bus = .idle then .idle else .unknown) ∧ atRest t

theorem blockEnded.transacted {ok : Bool} (h : blockEnded o i d u ok t) : transacted u t := by
  obtain ⟨k, ⟨h1, h2⟩, ⟨_, _, _, ⟨hbus, hstarts, hstops, -⟩, -⟩, hrest⟩ := h
  exact ⟨⟨k, h1, h2, hstarts, hstops⟩, hbus, hrest⟩

theorem blockEnded.kept {ok : Bool} (h : blockEnded o i d u ok t) :
    t.idbuf = u.idbuf ∧ t.status = u.status ∧ t.success = u.success ∧ t.seq = u.seq := by
  obtain ⟨k, -, ⟨_, _, _, ⟨-, -, -, ⟨hidbuf, hstatus, hsuccess, hseq, -⟩, -⟩, -⟩, -⟩ := h
  exact ⟨hidbuf, hstatus, hsuccess, hseq⟩

theorem exposedEnded.transacted {ok : Bool} {code : Nibble} (h : exposedEnded o i d u ok code t) : transacted u t := by
  obtain ⟨k, ⟨h1, h2⟩, ⟨_, _, _, ⟨hbus, hstarts, hstops, -⟩, -⟩, hrest⟩ := h
  exact ⟨⟨k, h1, h2, hstarts, hstops⟩, hbus, hrest⟩

theorem exposedEnded.kept {ok : Bool} {code : Nibble} (h : exposedEnded o i d u ok code t) :
    t.status = code ∧ t.idbuf = u.idbuf ∧ t.seq = u.seq := by
  obtain ⟨k, -, ⟨_, _, _, ⟨-, -, -, ⟨hidbuf, hstatus, -, hseq, -⟩, -⟩, -⟩, -⟩ := h
  exact ⟨hstatus, hidbuf, hseq⟩

theorem costs.counts (h : costs o i d u true t) {evs : List Event} (htrace : t.trace = evs ++ u.trace) :
    outCount evs = o ∧ inCount evs = i ∧ delaySum evs = d := by
  obtain ⟨-, -, -, -, evs', htrace', hcounts⟩ := h.ledger
  rwa [List.append_cancel_right (htrace.symm.trans htrace')]

theorem blockEnded.counts (h : blockEnded o i d u true t) {evs : List Event} (htrace : t.trace = evs ++ u.trace) :
    outCount evs = o ∧ inCount evs = i ∧ delaySum evs = d := by
  obtain ⟨k, -, h, -⟩ := h
  exact h.counts htrace

theorem exposedEnded.counts {code : Nibble} (h : exposedEnded o i d u true code t) {evs : List Event}
    (htrace : t.trace = evs ++ u.trace) : outCount evs = o ∧ inCount evs = i ∧ delaySum evs = d := by
  obtain ⟨k, -, h, -⟩ := h
  exact h.counts htrace

end Ledger

/-! ### Whole operations -/

section Whole

variable {s t : State}

theorem exec_readBlock_cases {addr : Addr} {n : Nibble} (h : exec (.readBlock addr n) s = .next t) :
    (∃ ok bytes, t.result = .block ok bytes
      ∧ blockEnded (91 + 20 * n.toNat) (3 + 8 * n.toNat) (920 + 200 * n.toNat) s ok t) ∨ fatalMarks t := by
  obtain ⟨hwf, -⟩ := exec_next_wellFormed h
  obtain rfl := Host.Outcome.next.inj ((if_pos hwf).symm.trans h)
  have hspec := readBlock_ledger (c := s.cfg) (o := 0) (i := 0) (d := 0) (u := s) addr n
  simp only [Nat.zero_add] at hspec
  exact (finish_spec hspec (ledger_refl s)).imp_left fun ⟨r, v, hv, hf⟩ => hf ▸ ⟨r.1, r.2, rfl, hv⟩

theorem exec_writeBlock_cases {addr : Addr} {data : List Byte} (h : exec (.writeBlock addr data) s = .next t) :
    (∃ ok, t.result = .done ok
      ∧ blockEnded (59 + 27 * data.length) (2 + data.length) (10590 + 270 * data.length) s ok t) ∨ fatalMarks t := by
  obtain ⟨hwf, -⟩ := exec_next_wellFormed h
  obtain rfl := Host.Outcome.next.inj ((if_pos hwf).symm.trans h)
  have hspec := writeBlock_ledger (c := s.cfg) (o := 0) (i := 0) (d := 0) (u := s) addr data
  simp only [Nat.zero_add] at hspec
  exact (finish_spec hspec (ledger_refl s)).imp_left fun ⟨ok, v, hv, hf⟩ => hf ▸ ⟨ok, rfl, 1, by omega, hv⟩

theorem exec_probe_cases (h : exec .probe s = .next t) :
    (∃ ok code, (code = stOk ∨ code = stBadSignature → ok = true)
      ∧ exposedEnded 133 19 1340 { s with bus := .idle } ok code t) ∨ fatalMarks t := by
  obtain rfl := Host.Outcome.next.inj h
  have hspec := probe_ledger (c := s.cfg) (o := 0) (i := 0) (d := 0) (u := s)
  simp only [Nat.zero_add] at hspec
  exact (finish_spec hspec (ledger_refl s)).imp_left fun ⟨r, v, hv, hf⟩ => hf ▸ hv

theorem exec_readIdentifier_cases (h : exec .readIdentifier s = .next t) :
    (∃ idbuf ok code, (code = stOk → ok = true)
      ∧ exposedEnded 251 67 2520 { s with idbuf := idbuf } ok code t) ∨ fatalMarks t := by
  obtain rfl := Host.Outcome.next.inj h
  have hspec := readIdentifier_ledger (c := s.cfg) (o := 0) (i := 0) (d := 0) (u := s)
  simp only [Nat.zero_add] at hspec
  exact (finish_spec hspec (ledger_refl s)).imp_left fun ⟨r, v, hv, hf⟩ => hf ▸ hv

theorem exec_writeIdentifier_cases {text : List Byte} (h : exec (.writeIdentifier text) s = .next t) :
    (∃ code, exposedEnded 388 14 23880 s (code == stOk) code t) ∨ fatalMarks t := by
  obtain ⟨hwf, -⟩ := exec_next_wellFormed h
  obtain rfl := Host.Outcome.next.inj ((if_pos hwf).symm.trans h)
  have hspec := writeIdentifier_ledger (c := s.cfg) (o := 0) (i := 0) (d := 0) (u := s) text
  simp only [Nat.zero_add] at hspec
  exact (finish_spec hspec (ledger_refl s)).imp_left fun ⟨r, v, hv, hf⟩ => hf ▸ hv

theorem not_fatalMarks (hresult : t.result ≠ .fatal) : ¬ fatalMarks t := fun ⟨_, _, _, h⟩ => hresult h

/-- The operations of 42_eeprom_protocol.md. -/
def protocolInstr (i : Instr) : Prop :=
  i.exposed = true ∨ (∃ a n, i = .readBlock a n) ∨ ∃ a d, i = .writeBlock a d

theorem exec_transacted {i : Instr} (hi : protocolInstr i) (h : exec i s = .next t) (hresult : t.result ≠ .fatal) :
    ∃ bus, (bus = .idle ∨ i ≠ .probe ∧ bus = s.bus) ∧ transacted { s with bus := bus } t := by
  have hmarks := not_fatalMarks hresult
  rcases hi with hi | ⟨a, n, rfl⟩ | ⟨a, d, rfl⟩
  · cases i with
    | probe =>
      obtain ⟨ok, code, -, hend⟩ := (exec_probe_cases h).resolve_right hmarks
      exact ⟨.idle, .inl rfl, hend.transacted⟩
    | readIdentifier =>
      obtain ⟨idbuf, ok, code, -, hend⟩ := (exec_readIdentifier_cases h).resolve_right hmarks
      exact ⟨s.bus, .inr ⟨by simp, rfl⟩, hend.transacted⟩
    | writeIdentifier text =>
      obtain ⟨code, hend⟩ := (exec_writeIdentifier_cases h).resolve_right hmarks
      exact ⟨s.bus, .inr ⟨by simp, rfl⟩, hend.transacted⟩
    | _ => cases hi
  · obtain ⟨ok, bytes, -, hend⟩ := (exec_readBlock_cases h).resolve_right hmarks
    exact ⟨s.bus, .inr ⟨by simp, rfl⟩, hend.transacted⟩
  · obtain ⟨ok, -, hend⟩ := (exec_writeBlock_cases h).resolve_right hmarks
    exact ⟨s.bus, .inr ⟨by simp, rfl⟩, hend.transacted⟩

end Whole

/-- Settles O36: each transaction of a protocol operation has one START that counts and one STOP. -/
theorem stopsMatchStarts : Obligations.StopsMatchStarts := by
  intro i s t hi h hresult
  obtain ⟨bus, -, hcounts, -⟩ := exec_transacted hi h hresult
  exact hcounts

/-- Settles O37: every protocol operation ends with a STOP, entered in the right bus state. -/
theorem protocolLeavesTheBusIdle : Obligations.ProtocolLeavesTheBusIdle := by
  intro i s t hi h hresult
  have hprotocol : protocolInstr i := by
    rcases hi with rfl | ⟨-, hi⟩
    · exact .inl rfl
    · exact hi
  obtain ⟨bus, hbus, -, hafter, hrest⟩ := exec_transacted hprotocol h hresult
  refine ⟨hafter.trans (if_pos ?_), hrest⟩
  rcases hbus with rfl | ⟨hprobe, rfl⟩
  · rfl
  · exact (hi.resolve_left hprobe).1

/-- Settles O40: the events of an operation are those of its block operations, counted by `ledger`. -/
theorem successfulRunsHaveTheirEventCounts : Obligations.SuccessfulRunsHaveTheirEventCounts := by
  intro i s t evs h htrace
  refine ⟨?_, ?_, ?_, ?_, ?_⟩
  · rintro a n bytes rfl hresult
    have hmarks := not_fatalMarks (t := t) (by simp [hresult])
    obtain ⟨ok, bytes', hblock, hend⟩ := (exec_readBlock_cases h).resolve_right hmarks
    obtain ⟨rfl, -⟩ := Result.block.inj (hresult.symm.trans hblock)
    obtain ⟨hout, hin, hdelay⟩ := hend.counts htrace
    exact ⟨hout, hin, by omega⟩
  · rintro a d rfl hresult
    have hmarks := not_fatalMarks (t := t) (by simp [hresult])
    obtain ⟨ok, hdone, hend⟩ := (exec_writeBlock_cases h).resolve_right hmarks
    obtain rfl := Result.done.inj (hresult.symm.trans hdone)
    obtain ⟨hout, hin, hdelay⟩ := hend.counts htrace
    exact ⟨hout, hin, by omega⟩
  · rintro rfl hstatus
    rcases exec_probe_cases h with ⟨ok, code, hok, hend⟩ | ⟨-, hfatal, -⟩
    · obtain ⟨rfl, -⟩ := hend.kept
      obtain rfl := hok hstatus
      exact hend.counts htrace
    · exact absurd hstatus (by simp [hfatal, stTransportFatal])
  · rintro rfl hstatus
    rcases exec_readIdentifier_cases h with ⟨idbuf, ok, code, hok, hend⟩ | ⟨-, hfatal, -⟩
    · obtain ⟨rfl, -⟩ := hend.kept
      obtain rfl := hok hstatus
      exact hend.counts htrace
    · exact absurd hstatus (by simp [hfatal, stTransportFatal])
  · rintro text rfl hstatus
    rcases exec_writeIdentifier_cases h with ⟨code, hend⟩ | ⟨-, hfatal, -⟩
    · obtain ⟨rfl, -⟩ := hend.kept
      rw [hstatus] at hend
      exact hend.counts htrace
    · exact absurd hstatus (by simp [hfatal, stTransportFatal])

/-- Settles O47: `ledger` keeps the registers that a protocol operation does not write. -/
theorem protocolOperationsWriteOnlyTheirRegisters : Obligations.ProtocolOperationsWriteOnlyTheirRegisters := by
  intro i s t h hresult
  have hmarks := not_fatalMarks hresult
  refine ⟨?_, ?_, ?_⟩
  · rintro (⟨a, n, rfl⟩ | ⟨a, d, rfl⟩)
    · obtain ⟨ok, bytes, -, hend⟩ := (exec_readBlock_cases h).resolve_right hmarks
      exact hend.kept
    · obtain ⟨ok, -, hend⟩ := (exec_writeBlock_cases h).resolve_right hmarks
      exact hend.kept
  · rintro (rfl | ⟨text, rfl⟩)
    · obtain ⟨ok, code, -, hend⟩ := (exec_probe_cases h).resolve_right hmarks
      exact hend.kept.2
    · obtain ⟨code, hend⟩ := (exec_writeIdentifier_cases h).resolve_right hmarks
      exact hend.kept.2
  · rintro rfl
    obtain ⟨idbuf, ok, code, -, hend⟩ := (exec_readIdentifier_cases h).resolve_right hmarks
    obtain ⟨-, -, hseq⟩ := hend.kept
    exact hseq

end Sys2Proof.Machine
end

section
/-! The exposed operations against the reference EEPROM (42_eeprom_protocol.md R188, 20_memory.md R60): `ready` is the
bus between two operations, and each operation has its rule over it. -/

namespace Sys2Proof.Machine

/-! ### The parameters of the device -/

/-- The same parameters (00_scope.md R6). -/
def sameMake (e e' : Eeprom) : Prop :=
  e'.size = e.size ∧ e'.page = e.page ∧ e'.tWr = e.tWr ∧ e'.devsel = e.devsel

theorem sameMake_refl (e : Eeprom) : sameMake e e := ⟨rfl, rfl, rfl, rfl⟩

theorem sameMake.trans {e m t : Eeprom} (h : sameMake e m) (h' : sameMake m t) : sameMake e t := by
  obtain ⟨hsize, hpage, htWr, hdevsel⟩ := h
  obtain ⟨hsize', hpage', htWr', hdevsel'⟩ := h'
  exact ⟨hsize'.trans hsize, hpage'.trans hpage, htWr'.trans htWr, hdevsel'.trans hdevsel⟩

theorem eepromStop_sameMake (now : Nat) (e : Eeprom) : sameMake e (eepromStop now e) := by
  unfold eepromStop
  split
  · exact sameMake_refl e
  · exact sameMake_refl e

theorem eepromFall_sameMake (now : Nat) (e : Eeprom) : sameMake e (eepromFall now e) := by
  unfold eepromFall eepromByteEnd eepromLoad
  repeat' split
  all_goals exact sameMake_refl e

theorem eepromPins_sameMake (now : Nat) (scl sda scl' sda' : Bool) (e : Eeprom) :
    sameMake e (eepromPins now scl sda scl' sda' e) := by
  rcases eepromPins_cases now scl sda scl' sda' e with hp | hp | hp | ⟨l, hp⟩ | hp <;> rw [hp]
  · exact sameMake_refl e
  · exact sameMake_refl e
  · exact eepromStop_sameMake now e
  · obtain ⟨⟨hsize, hpage, htWr, hdevsel, -⟩, -⟩ := eepromRise_sameChip l e
    exact ⟨hsize, hpage, htWr, hdevsel⟩
  · exact eepromFall_sameMake now e

/-- A device with the parameters of `e` is attached. -/
def madeAs (lines : StatusLines) (e : Eeprom) (s : State) : Prop :=
  ∃ e', s.world = .reference lines e' ∧ sameMake e e'

theorem pinEffect_madeAs {lines : StatusLines} {e : Eeprom} {s : State} (mask : Byte) (b : Bool)
    (h : madeAs lines e s) : madeAs lines e (pinEffect mask b s) := by
  obtain ⟨e', hworld, hmake⟩ := h
  obtain ⟨-, -, -, ⟨-, hw⟩ | ⟨-, hw⟩⟩ := writeEffect_pins (withBit mask s.latch b) s
  · exact ⟨_, hw.trans (by rw [hworld]; rfl), hmake.trans (eepromPins_sameMake _ _ _ _ _ e')⟩
  · exact ⟨e', hw.trans hworld, hmake⟩

theorem madeAs_of_world {lines : StatusLines} {e : Eeprom} {s t : State} (h : t.world = s.world)
    (hs : madeAs lines e s) : madeAs lines e t := by
  obtain ⟨e', hworld, hmake⟩ := hs
  exact ⟨e', h.trans hworld, hmake⟩

theorem localRegs.madeAs {lines : StatusLines} {e : Eeprom} {s t : State} (h : localRegs s t) :
    madeAs lines e s → madeAs lines e t := by
  obtain ⟨-, -, -, hworld, -⟩ := h
  exact madeAs_of_world hworld

theorem readEffect_madeAs {lines : StatusLines} {e : Eeprom} {s : State} :
    madeAs lines e s → madeAs lines e (readEffect s) := by
  obtain ⟨-, -, hworld, -⟩ := readEffect_pins s
  exact madeAs_of_world hworld

/-- The pins do not change the parameters. -/
theorem madeAs_pinClosed (c : Config) (lines : StatusLines) (e : Eeprom) :
    PinClosed c (fun s t => madeAs lines e s → madeAs lines e t) (fun _ _ => True) where
  refl _ h := h
  trans _ _ _ h h' hs := h' (h hs)
  transE _ _ _ _ h := h
  delay _ _ h := h
  pin mask b _ _ _ _ h := pinEffect_madeAs mask b h
  pinFatal _ _ _ _ _ _ := trivial
  read _ _ _ := readEffect_madeAs
  readFatal _ _ _ := trivial

/-! ### Ready for an operation -/

/-- No answers are given, the lines are released, and the device `e` at their other end is idle and in no write
cycle. -/
def ready (lines : StatusLines) (e : Eeprom) (s : State) : Prop :=
  Wired True e.busyUntil lines true true e s ∧ e.sOut = true

theorem quiet.ready {lines : StatusLines} {e : Eeprom} {s : State} (h : quiet s) (hw : s.world = .reference lines e)
    (hr : s.replies = []) (hbusy : e.busyUntil ≤ s.now) : ready lines e s := by
  obtain ⟨hwired, hout⟩ := h.wired (H := True) hw fun _ => hr
  exact ⟨{ hwired with now := hbusy }, hout⟩

theorem ready.of_localRegs {lines : StatusLines} {e : Eeprom} {s t : State} (h : ready lines e s)
    (hl : localRegs s t) : ready lines e t := ⟨h.1.of_localRegs hl, h.2⟩

section Ready

variable {c : Config} {lines : StatusLines} {e : Eeprom}

/-- Where nothing but the device answers, no transfer fails. -/
theorem Aborted.elim {K : Memory → Prop} {t : State} (h : Aborted True lines K t) : False := h.1 trivial

theorem busInit_ready : Spec c (ready lines e) (busInit c) (fun _ => ready lines e) (fun _ => False) := fun s hs h =>
  spec_mono (busInit_wired (K := fun _ => True) trivial) (fun _ h => h) (fun _ _ hw => ⟨hw, h.2⟩)
    (fun _ => Aborted.elim) s hs h.1

theorem readBlock_ready {addr : Addr} {length : Nibble} {n : Nat} (hlength : length.toNat = n) (hn : n ≤ 8)
    (hpos : 0 < n) (haddr : addr.toNat < 256) (hdevW : (0xA0 : Byte) ∈ e.devsel) (hdevR : (0xA1 : Byte) ∈ e.devsel) :
    Spec c (ready lines e) (readBlock c addr length)
      (fun r _ => r = (true, (List.range n).map fun i => e.mem.read ((addr.toNat + i) % e.size)))
      (fun _ => False) := by
  obtain ⟨hW, hR, hword⟩ := select_of_low haddr
  refine fun s hs ⟨hw, hout⟩ => spec_mono (readBlock_wired (H := True) hlength hn hpos hout fun _ =>
    ⟨hW ▸ hdevW, hR ▸ hdevR, Nat.le_refl _, by rw [hW]; rfl⟩) (fun _ h => h) (fun _ _ ⟨_, hr⟩ => ?_)
    (fun _ => Aborted.elim) s hs hw
  rw [hr trivial, hword]

theorem writeBlock_ready {addr : Addr} {data : List Byte} (hn : data.length ≤ 8) (hdata : data ≠ [])
    (haddr : addr.toNat < 256) (hdevW : (0xA0 : Byte) ∈ e.devsel) (htWr : e.tWr ≤ 10000) :
    Spec c (ready lines e) (writeBlock c addr data)
      (fun ok t => ok = true ∧ ∃ e', (sameMake e e' ∧ e'.mem = commitFrom e.page (wordByte addr) e.mem 0 data)
        ∧ ready lines e' t) (fun _ => False) := by
  obtain ⟨hW, -, -⟩ := select_of_low haddr
  intro s hs ⟨hw, hout⟩
  have hwrite := writeBlock_wired (c := c) (H := True) (τ := e.busyUntil) (lines := lines) (addr := addr) hn hout
    fun _ => ⟨hdata, hW ▸ hdevW, Nat.le_refl _, by rw [hW]; rfl⟩
  have hends := writeBlock_ends (madeAs_pinClosed c lines e) (fun _ _ hl => hl.madeAs) addr data
  refine spec_mono (spec_frame hwrite hends fun _ _ h => h) (fun _ h => h)
    (fun ok t ⟨⟨e', hw', _, hok, hall⟩, e'', hworld, hmake⟩ => ?_) (fun _ => Aborted.elim) s hs
    ⟨hw, e, hw.world, sameMake_refl e⟩
  obtain ⟨rfl, hmem, hbusy⟩ := hall trivial
  obtain ⟨hout', -⟩ := hok rfl
  obtain ⟨-, rfl⟩ := World.reference.inj (hw'.world.symm.trans hworld)
  have hover : e'.busyUntil ≤ t.now := by
    have : Config.tWrite = 10000 := rfl
    omega
  exact ⟨rfl, e', ⟨hmake, hmem⟩, { hw' with now := hover }, hout'⟩

/-- The last lines of an exposed operation, beside what they leave as it is. -/
theorem setOutcome_keeps {α : Type} {P : State → Prop} (code : Nibble) (g : State → α)
    (hP : ∀ s, P s → P (setOutcome code s)) :
    Spec c P (upd (setOutcome code) >>= fun _ => peek >>= fun s => pure (g s))
      (fun _ t => t.status = code ∧ P t) (fun _ => False) :=
  spec_bind (spec_upd (Q := fun _ t => t.status = code ∧ P t) fun s h => ⟨rfl, rfl, hP s h⟩) fun _ =>
    spec_peek fun _ hv => spec_pure _ fun _ h => h ▸ hv

theorem probe_ready (hsize : 2 ≤ e.size) (hdevW : (0xA0 : Byte) ∈ e.devsel) (hdevR : (0xA1 : Byte) ∈ e.devsel) :
    Spec c (ready lines e) (probe c)
      (fun _ t => t.success = (probeCode c true [e.mem.read 0, e.mem.read 1] == stOk)) (fun _ => False) := by
  refine spec_bind busInit_ready fun _ => spec_bind (readBlock_ready (n := 2) rfl (by decide) (by decide) (by decide)
    hdevW hdevR) fun ⟨ok, b⟩ => ?_
  refine fun s hs hr => spec_post (setOutcome_spec (P := fun _ => True) (probeCode c ok b) _)
    (fun _ _ ⟨hsuccess, _⟩ => ?_) s hs trivial
  obtain ⟨rfl, rfl⟩ := Prod.mk.inj hr
  have hbytes : ((List.range 2).map fun i => e.mem.read ((Config.sigAddr.toNat + i) % e.size))
      = [e.mem.read (0 % e.size), e.mem.read (1 % e.size)] := rfl
  rwa [hbytes, Nat.mod_eq_of_lt (by omega : 0 < e.size), Nat.mod_eq_of_lt (by omega : 1 < e.size)] at hsuccess

theorem readIdentifier_ready (hsize : 10 ≤ e.size) (hdevW : (0xA0 : Byte) ∈ e.devsel)
    (hdevR : (0xA1 : Byte) ∈ e.devsel) :
    Spec c (ready lines e) (readIdentifier c)
      (fun _ t => t.status = stOk ∧ t.idbuf = idbufOf ((List.range 8).map fun i => e.mem.read (2 + i)))
      (fun _ => False) := by
  refine spec_bind (readBlock_ready (n := 8) rfl (by decide) (by decide) (by decide) hdevW hdevR) fun ⟨ok, b⟩ => ?_
  refine spec_bind (Q := fun _ t => ok = true
      ∧ t.idbuf = idbufOf ((List.range 8).map fun i => e.mem.read (2 + i))) (spec_upd fun s hr => ?_) fun _ =>
    spec_of_fact fun hok => ?_
  · obtain ⟨rfl, rfl⟩ := Prod.mk.inj hr
    refine ⟨rfl, rfl, congrArg idbufOf (List.map_congr_left fun i hi => ?_)⟩
    have := List.mem_range.1 hi
    exact congrArg e.mem.read (Nat.mod_eq_of_lt (show 2 + i < e.size by omega))
  · subst hok
    exact setOutcome_keeps stOk _ fun _ h => h

theorem id8_ne_nil (text : List Byte) : id8 text ≠ [] :=
  List.ne_nil_of_length_pos (by rw [id8_length]; decide)

theorem writeIdField_ready (text : List Byte) (hdevW : (0xA0 : Byte) ∈ e.devsel) (htWr : e.tWr ≤ 10000) :
    Spec c (ready lines e) (writeIdField c text true)
      (fun code t => code = stOk ∧ ∃ e', (sameMake e e' ∧ e'.mem = commitFrom e.page 2 e.mem 0 (id8 text))
        ∧ ready lines e' t) (fun _ => False) :=
  spec_bind (writeBlock_ready (id8_length text).le (id8_ne_nil text) (by decide) hdevW htWr) fun ok =>
    spec_of_fact fun hok => spec_pure _ fun _ h => ⟨by rw [hok]; rfl, h⟩

theorem writeIdentifier_ready (text : List Byte) (hdevW : (0xA0 : Byte) ∈ e.devsel) (htWr : e.tWr ≤ 10000) :
    Spec c (ready lines e) (writeIdentifier c text)
      (fun _ t => t.status = stOk ∧ ∃ e', (sameMake e e'
        ∧ e'.mem = commitFrom e.page 2 (commitFrom e.page 0 e.mem 0 [sig0 c, sig1 c]) 0 (id8 text))
        ∧ ready lines e' t) (fun _ => False) := by
  refine spec_bind (writeBlock_ready (by simp) (by simp) (by decide) hdevW htWr) fun ok => spec_of_fact ?_
  rintro rfl
  refine spec_exists fun e₁ => spec_of_fact fun ⟨hmake, hmem⟩ => ?_
  have ⟨_, hpage, htWr', hdevsel⟩ := hmake
  refine spec_bind (writeIdField_ready text (hdevsel ▸ hdevW) (htWr' ▸ htWr)) fun code => spec_of_fact ?_
  rintro rfl
  refine spec_post (setOutcome_keeps stOk _ fun s ⟨e', he', hready⟩ =>
    ⟨e', he', hready.of_localRegs (localRegs_refl s)⟩) fun _ t ⟨hstatus, e', ⟨hmake', hmem'⟩, hready⟩ =>
    ⟨hstatus, e', ⟨hmake.trans hmake', ?_⟩, hready⟩
  rw [hmem', hpage, hmem]
  rfl

end Ready

/-- Settles O53: the two bytes read are those at 0 and 1. -/
theorem probeSucceedsIffTheSignatureIsThere : Obligations.ProbeSucceedsIffTheSignatureIsThere := by
  intro s lines e hsize hdevW hdevR hbusy hworld hreplies hquiet
  obtain ⟨r, t, ht, hf⟩ := finish_spec_ok (mk := fun r => .outcome r.1 r.2) (probe_ready hsize hdevW hdevR)
    (hquiet.ready hworld hreplies hbusy)
  refine ⟨_, hf, ?_⟩
  show t.success = true ↔ _
  rw [ht, probeCode_two]
  split
  next hsig => simpa using hsig
  next hsig => simpa [stOk, stBadSignature] using hsig

/-- What two page commits that do not wrap leave at the second one's addresses. -/
theorem read_id_committed {page : Nat} {m : Memory} {sig id : List Byte} (hm : m.wf = true) (hid : id.length = 8)
    (hpage : ∀ k, k < 8 → commitAddr page 2 k = 2 + k) :
    ((List.range 8).map fun i => (commitFrom page 2 (commitFrom page 0 m 0 sig) 0 id).read (2 + i)) = id := by
  refine Eq.trans (List.map_congr_left fun i hi => ?_) (hid ▸ map_range_getD id)
  have hi8 := List.mem_range.1 hi
  rw [commitFrom_read (base := 2) (commitFrom_wf _ _ _ _ _ hm) fun j _ hj => hpage j (by omega), if_pos (by omega),
    show 2 + i - (2 + 0) = i by omega]

/-- Settles O54: the second page commit leaves the identifier image where the read finds it. -/
theorem identifierRoundTrip : Obligations.IdentifierRoundTrip := by
  intro text s lines e hok htext hsize hdevW hdevR _ hpage htWr hbusy hworld hreplies hquiet
  obtain ⟨r, t, ⟨hstatus, e', ⟨⟨hsize', -, -, hdevsel⟩, hmem⟩, hready⟩, hf⟩ :=
    finish_spec_ok (mk := fun r => .outcome r.1 r.2) (writeIdentifier_ready text hdevW htWr)
      (hquiet.ready hworld hreplies hbusy)
  have hready' : ready lines e' { t with result := .outcome r.1 r.2 } := hready.of_localRegs (localRegs_refl t)
  obtain ⟨r', u, ⟨hstatus', hidbuf⟩, hf'⟩ := finish_spec_ok (mk := fun r => .identifier r.1 r.2.1 r.2.2)
    (readIdentifier_ready (hsize' ▸ hsize) (hdevsel ▸ hdevW) (hdevsel ▸ hdevR)) hready'
  refine ⟨_, _, (exec_text htext s).trans hf, hstatus, hf', hstatus', ?_⟩
  rw [hworld] at hok
  show u.idbuf.toList = _
  rw [hidbuf, hmem, read_id_committed hok (id8_length text) hpage, idbufOf_toList (id8_length text)]

end Sys2Proof.Machine
end

section
/-! The transport tier (60_exceptions.md R223, R224, R226): a run that ends has recorded no failure (`faultless`), a run
that is abandoned was cut short by its last event (`cutShort`). These are frames in the sense of Laws/Frame.lean. -/

namespace Sys2Proof.Machine

/-- The events from `s` to `t` are no failures. -/
def faultless (s t : State) : Prop := ∃ evs, t.trace = evs ++ s.trace ∧ ∀ e ∈ evs, isFailure e = false

/-- From `s`, the first failure ended the run in `t`, with the entry of R224; a failed output left its
value in LATCH. -/
def cutShort (s t : State) : Prop :=
  fatalMarks t ∧ t.seq = [] ∧ ∃ e evs, t.trace = e :: (evs ++ s.trace) ∧ isFailure e = true
    ∧ (∀ e' ∈ evs, isFailure e' = false) ∧ ∀ req ret, e = .out req ret → req.value = t.latch.zeroExtend 16

/-! ### The pieces of a run -/

theorem faultless_of_still {s t : State} (h : t.trace = s.trace) : faultless s t :=
  ⟨[], h, fun _ he => (List.not_mem_nil he).elim⟩

theorem faultless_of_event {s t : State} {e : Event} (h : t.trace = e :: s.trace) (he : isFailure e = false) :
    faultless s t :=
  ⟨[e], h, fun _ he' => List.mem_singleton.1 he' ▸ he⟩

theorem faultless.trans {s m t : State} (h : faultless s m) (h' : faultless m t) : faultless s t := by
  obtain ⟨evs, htrace, hclean⟩ := h
  obtain ⟨evs', htrace', hclean'⟩ := h'
  refine ⟨evs' ++ evs, by rw [htrace', htrace, List.append_assoc], fun e he => ?_⟩
  exact (List.mem_append.1 he).elim (hclean' e) (hclean e)

/-- What ended before is a part of the run that was cut short. -/
theorem faultless.cutShort {s m t : State} (h : faultless s m) (h' : cutShort m t) : cutShort s t := by
  obtain ⟨evs, htrace, hclean⟩ := h
  obtain ⟨hmarks, hseq, e, evs', htrace', hfailed, hclean', hvalue⟩ := h'
  refine ⟨hmarks, hseq, e, evs' ++ evs, by rw [htrace', htrace, List.append_assoc], hfailed, fun e' he' => ?_, hvalue⟩
  exact (List.mem_append.1 he').elim (hclean' e') (hclean e')

/-- TransportFatal raised right after a failed transfer. -/
theorem cutShort_fatalEntry {s u : State} {e : Event} (htrace : u.trace = e :: s.trace) (hfailed : isFailure e = true)
    (hvalue : ∀ req ret, e = .out req ret → req.value = u.latch.zeroExtend 16) : cutShort s (fatalEntry u) :=
  ⟨fatalMarks_fatalEntry u, rfl, e, [], htrace, hfailed, fun _ he => (List.not_mem_nil he).elim, hvalue⟩

/-- An output fails as its answer says (R223). -/
theorem writeEffect_faultless (v : Byte) (s : State)
    (h : outFails (nextReply false { s with latch := v }).1.ret = false) :
    faultless s (writeEffect v s) := faultless_of_event (writeEffect_trace v s) h

theorem writeEffect_cutShort (v : Byte) (s : State)
    (h : outFails (nextReply false { s with latch := v }).1.ret = true) :
    cutShort s (fatalEntry (writeEffect v s)) := by
  refine cutShort_fatalEntry (writeEffect_trace v s) h fun req ret he => ?_
  rw [(writeEffect_pins v s).1, ← (Event.out.inj he).1]
  rfl

/-- So does an input. -/
theorem readEffect_faultless (s : State) (h : inFails (nextReply true s).1.ret = false) : faultless s (readEffect s) :=
  faultless_of_event (readEffect_trace s) h

theorem readEffect_cutShort (s : State) (h : inFails (nextReply true s).1.ret = true) :
    cutShort s (fatalEntry (readEffect s)) :=
  cutShort_fatalEntry (readEffect_trace s) h fun _ _ he => by cases he

theorem faultless_pinClosed (c : Config) : PinClosed c faultless cutShort where
  refl _ := faultless_of_still rfl
  trans _ _ _ := faultless.trans
  transE _ _ _ := faultless.cutShort
  delay _ _ := faultless_of_event rfl rfl
  pin _ _ s _ _ := writeEffect_faultless _ s
  pinFatal _ _ s _ _ := writeEffect_cutShort _ s
  read s _ := readEffect_faultless s
  readFatal s _ := readEffect_cutShort s

/-! ### Whole operations -/

/-- `writeOutputs`, which `exec_ends` leaves out. -/
theorem finish_writeOutputs_faultless (v : Byte) (s : State) :
    faultless s (finish (fun _ => .none) (writeOutputs v) s)
        ∧ (finish (fun _ => .none) (writeOutputs v) s).result ≠ .fatal
      ∨ cutShort s (finish (fun _ => .none) (writeOutputs v) s) := by
  rw [finish_transfer (writeOutputs_eq v s)]
  cases hfails : outFails (nextReply false { s with latch := v }).1.ret with
  | false => exact .inl ⟨(writeEffect_faultless v s hfails).trans (faultless_of_still rfl), by simp⟩
  | true => exact .inr (writeEffect_cutShort v s hfails)

/-- The two ways any operation ends. -/
theorem exec_faultless_or_cutShort {i : Instr} {s t : State} (h : exec i s = .next t) :
    faultless s t ∧ t.result ≠ .fatal ∨ cutShort s t := by
  by_cases hi : ∃ v, i = .writeOutputs v
  · obtain ⟨v, rfl⟩ := hi
    obtain rfl := Host.Outcome.next.inj h
    exact finish_writeOutputs_faultless v s
  · have hregs : ∀ s' t', localRegs s' t' → faultless s' t' :=
      fun _ _ ⟨_, _, _, _, _, _, _, _, htrace, _⟩ => faultless_of_still htrace
    exact exec_ends (faultless_pinClosed s.cfg) hregs (fun v hv => hi ⟨v, hv⟩) h

theorem exec_cutShort {i : Instr} {s t : State} (h : exec i s = .next t) (hresult : t.result = .fatal) : cutShort s t :=
  (exec_faultless_or_cutShort h).resolve_left fun hended => hended.2 hresult

/-- Settles O41: a run with that result was cut short, and no operation writes the parameters or the port. -/
theorem transportFatalEntryState : Obligations.TransportFatalEntryState := by
  intro i s t h hresult
  obtain ⟨⟨hbus, hstatus, hsuccess, -⟩, hseq, e, evs, htrace, hfailed, -, hvalue⟩ := exec_cutShort h hresult
  exact ⟨hbus, hseq, hsuccess, hstatus, exec_sameHost h, e, evs ++ s.trace, htrace, hfailed, hvalue⟩

/-- Settles O42: a run that ended holds no failure, and one that was cut short holds one, its last event. -/
theorem fatalExactlyOnAFailedTransfer : Obligations.FatalExactlyOnAFailedTransfer := by
  intro i s t h
  rcases exec_faultless_or_cutShort h with ⟨⟨evs, htrace, hclean⟩, hresult⟩ |
    ⟨⟨-, -, -, hresult⟩, -, e, evs, htrace, hfailed, hclean, -⟩
  · refine ⟨evs, htrace, iff_of_false hresult ?_, fun e he => hclean e (List.mem_of_mem_tail he)⟩
    rintro ⟨e, he, hfailed⟩
    exact Bool.false_ne_true ((hclean e he).symm.trans hfailed)
  · exact ⟨e :: evs, htrace, iff_of_true hresult ⟨e, List.mem_cons_self, hfailed⟩, hclean⟩

end Sys2Proof.Machine
end

section
/-! A run against its queue of answers (60_exceptions.md R224): `Fed` says that with the answers `L` at the head of the
queue a piece of an operation ends, is abandoned, or asks for one more answer, and that up to there nothing depends on
what stands behind `L`. That two runs with the same first answers begin alike is then one fact about one run. -/

namespace Sys2Proof.Machine

/-! ### Counting transfers -/

/-- Number of transfers in a list of events. -/
def transfers (evs : List Event) : Nat := outCount evs + inCount evs

theorem transfers_append (xs ys : List Event) : transfers (xs ++ ys) = transfers xs + transfers ys := by
  simp only [transfers, outCount, inCount, List.countP_append]
  omega

theorem transfers_cons (e : Event) (evs : List Event) : transfers (e :: evs) = transfers [e] + transfers evs :=
  transfers_append [e] evs

theorem transfers_of_failure {e : Event} (h : isFailure e = true) : transfers [e] = 1 := by
  cases e with
  | out req ret => rfl
  | inp req ret b0 b1 => rfl
  | delay us => cases h

/-! ### A run and the head of its queue -/

/-- `s` with the answers `L` to come first, then the entries `X`. -/
def queued (L : List Reply) (X : List (Option Reply)) (s : State) : State := { s with replies := L.map some ++ X }

/-- The state in which a piece ends or is abandoned. -/
def endState {α : Type} : EStateM.Result Raise State α → State
  | .ok _ t => t
  | .error _ t => t

/-- From `s` to `t` one answer of `L` was taken for each transfer, and those of `L'` are left. -/
def took (L L' : List Reply) (s t : State) : Prop :=
  ∃ evs, t.trace = evs ++ s.trace ∧ transfers evs + L'.length = L.length

/-- From `s` to `t` the trace has grown by `evs` and a transfer, and perhaps more. -/
def passed (evs : List Event) (s t : State) : Prop :=
  ∃ later e, t.trace = later ++ e :: evs ++ s.trace ∧ transfers [e] = 1

/-- What `m` does in `s` with the answers `L`: it ends or is abandoned with `L'` of them left, or it records `evs` while
it takes them all, and then asks for another; each time whatever else is queued. -/
inductive Fed {α : Type} (m : Op α) (s : State) (L : List Reply) : Prop
  | ended (a : α) (t : State) (L' : List Reply) (run : ∀ X, m (queued L X s) = .ok a (queued L' X t))
      (spent : took L L' s t)
  | abandoned (e : Raise) (t : State) (L' : List Reply) (run : ∀ X, m (queued L X s) = .error e (queued L' X t))
      (spent : took L L' s t)
  | asks (evs : List Event) (all : transfers evs = L.length) (run : ∀ X, passed evs s (endState (m (queued L X s))))

/-- `m` is fed by its queue, from every state and with any answers. -/
def Feeds {α : Type} (m : Op α) : Prop := ∀ s L, Fed m s L

theorem took_of_still (L : List Reply) {s t : State} (h : t.trace = s.trace) : took L L s t :=
  ⟨[], h, Nat.zero_add _⟩

theorem took.trans {L M N : List Reply} {s m t : State} (h : took L M s m) (h' : took M N m t) : took L N s t := by
  obtain ⟨evs, htrace, hcount⟩ := h
  obtain ⟨evs', htrace', hcount'⟩ := h'
  refine ⟨evs' ++ evs, by rw [htrace', htrace, List.append_assoc], ?_⟩
  rw [transfers_append]
  omega

theorem took.of_trace {L L' : List Reply} {s t u : State} (h : took L L' s t) (hu : u.trace = t.trace) :
    took L L' s u := by
  obtain ⟨evs, htrace, hcount⟩ := h
  exact ⟨evs, hu.trans htrace, hcount⟩

/-- Of any queue one may take no answer as known. -/
theorem queued_nil (s : State) : queued [] s.replies s = s := rfl

/-- A piece never takes back an event. -/
theorem Feeds.trace_grows {α : Type} {m : Op α} (h : Feeds m) (s : State) :
    ∃ evs, (endState (m s)).trace = evs ++ s.trace := by
  cases h s [] with
  | ended a t L' run spent =>
    obtain ⟨evs, htrace, -⟩ := spent
    exact ⟨evs, by rw [← queued_nil s, run]; exact htrace⟩
  | abandoned e t L' run spent =>
    obtain ⟨evs, htrace, -⟩ := spent
    exact ⟨evs, by rw [← queued_nil s, run]; exact htrace⟩
  | asks evs all run =>
    obtain ⟨later, e, htrace, -⟩ := run s.replies
    exact ⟨later ++ e :: evs, htrace⟩

/-- What comes first is passed as well. -/
theorem passed.after {evs evs' : List Event} {s m t : State} (htrace : m.trace = evs ++ s.trace) (h : passed evs' m t) :
    passed (evs' ++ evs) s t := by
  obtain ⟨later, e, htrace', he⟩ := h
  exact ⟨later, e, by rw [htrace', htrace]; simp, he⟩

/-- What is passed stays passed. -/
theorem passed.grown {evs more : List Event} {s m t : State} (h : passed evs s m) (hgrows : t.trace = more ++ m.trace) :
    passed evs s t := by
  obtain ⟨later, e, htrace, he⟩ := h
  exact ⟨more ++ later, e, by rw [hgrows, htrace]; simp, he⟩

/-! ### The rules -/

section Rules

variable {α β : Type}

theorem feeds_pure (a : α) : Feeds (pure a : Op α) := fun s L => .ended a s L (fun _ => rfl) (took_of_still L rfl)

theorem feeds_raiseFatal : Feeds (raiseFatal : Op α) := fun s L =>
  .abandoned .transportFatal (fatalEntry s) L (fun _ => rfl) (took_of_still L rfl)

theorem feeds_bind {m : Op α} {f : α → Op β} (hm : Feeds m) (hf : ∀ a, Feeds (f a)) : Feeds (m >>= f) := by
  intro s L
  cases hm s L with
  | ended a t M run spent =>
    have hrun X : (m >>= f) (queued L X s) = f a (queued M X t) := op_bind_ok (run X)
    cases hf a t M with
    | ended b u N run' spent' => exact .ended b u N (fun X => (hrun X).trans (run' X)) (spent.trans spent')
    | abandoned e u N run' spent' => exact .abandoned e u N (fun X => (hrun X).trans (run' X)) (spent.trans spent')
    | asks evs' all run' =>
      obtain ⟨evs, htrace, hcount⟩ := spent
      refine .asks (evs' ++ evs) (by rw [transfers_append]; omega) fun X => ?_
      rw [hrun]
      exact (run' X).after htrace
  | abandoned e t M run spent => exact .abandoned e t M (fun X => op_bind_error (run X)) spent
  | asks evs all run =>
    refine .asks evs all fun X => ?_
    have hpassed := run X
    cases h : m (queued L X s) with
    | ok a t =>
      obtain ⟨more, hgrows⟩ := (hf a).trace_grows t
      rw [op_bind_ok h]
      rw [h] at hpassed
      exact hpassed.grown hgrows
    | error e t =>
      rw [op_bind_error h]
      rwa [h] at hpassed

/-- An update that neither reads nor writes the queue, and records no transfer. -/
theorem feeds_upd {g : State → State} (hqueue : ∀ s L X, g (queued L X s) = queued L X (g s))
    (htook : ∀ s L, took L L s (g s)) : Feeds (upd g) := fun s L =>
  .ended () (g s) L (fun X => congrArg (EStateM.Result.ok ()) (hqueue s L X)) (htook s L)

/-- An update of the registers and what follows it. -/
theorem feeds_updThen {g : State → State} {f : Unit → Op α} (hqueue : ∀ s L X, g (queued L X s) = queued L X (g s))
    (htrace : ∀ s, (g s).trace = s.trace) (hf : Feeds (f ())) : Feeds (upd g >>= f) :=
  feeds_bind (feeds_upd hqueue fun s L => took_of_still L (htrace s)) fun _ => hf

/-- A read of the state by what does not look at the queue. -/
theorem feeds_peek {g : State → Op α} (hqueue : ∀ s L X, g (queued L X s) = g s) (hg : ∀ s, Feeds (g s)) :
    Feeds (peek >>= g) := by
  intro s L
  have hrun X : (peek >>= g) (queued L X s) = g s (queued L X s) :=
    (op_bind_ok (op_peek _)).trans (congrFun (hqueue s L X) _)
  cases hg s s L with
  | ended a t L' run spent => exact .ended a t L' (fun X => (hrun X).trans (run X)) spent
  | abandoned e t L' run spent => exact .abandoned e t L' (fun X => (hrun X).trans (run X)) spent
  | asks evs all run => exact .asks evs all fun X => by rw [hrun]; exact run X

theorem feeds_ite {p : Prop} [Decidable p] {m n : Op α} (hm : Feeds m) (hn : Feeds n) : Feeds (if p then m else n) := by
  split
  · exact hm
  · exact hn

theorem feeds_delay (us : Nat) : Feeds (delay us) :=
  feeds_upd (fun _ _ _ => rfl) fun _ _ => ⟨[.delay us], rfl, Nat.zero_add _⟩

end Rules

/-! ### Transfers and pins -/

theorem outEffect_queued (v : BitVec 16) (r : Reply) (L : List Reply) (X : List (Option Reply)) (s : State) :
    outEffect v r (queued L X s) = queued L X (outEffect v r s) := by
  unfold outEffect
  dsimp only
  split <;> rfl

/-- What a whole output transfer records, the drawing of its answer included. -/
theorem outTransfer_trace (v : BitVec 16) (s : State) :
    (outEffect v (nextReply false s).1 (nextReply false s).2).trace =
      .out (outRequest s.cfg v) (nextReply false s).1.ret :: s.trace := by
  obtain ⟨n, hn⟩ := nextReply_spec false s
  rw [outEffect_trace, hn]

/-- With no answer left an output asks for one; else it takes the first. -/
theorem feeds_xferOut (v : BitVec 16) : Feeds (xferOut v) := by
  intro s L
  cases L with
  | nil =>
    exact .asks [] rfl fun X => ⟨[], .out _ _, outTransfer_trace v (queued [] X s), rfl⟩
  | cons r L =>
    have hrun X := congrArg (EStateM.Result.ok (ε := Raise) r.ret) (outEffect_queued v r L X s)
    exact .ended r.ret (outEffect v r s) L hrun ⟨[_], outEffect_trace v r s, Nat.add_comm _ _⟩

theorem feeds_xferIn : Feeds xferIn := by
  intro s L
  cases L with
  | nil => exact .asks [] rfl fun X => ⟨[], _, readEffect_trace (queued [] X s), rfl⟩
  | cons r L =>
    exact .ended (r.ret, r.b0, r.b1) (inEffect r s) L (fun _ => rfl) ⟨[_], inEffect_trace r s, Nat.add_comm _ _⟩

theorem feeds_readInputs : Feeds readInputs :=
  feeds_bind feeds_xferIn fun _ => feeds_ite feeds_raiseFatal (feeds_pure _)

theorem feeds_writeOutputs (v : Byte) : Feeds (writeOutputs v) :=
  feeds_updThen (fun _ _ _ => rfl) (fun _ => rfl) <|
  feeds_bind (feeds_xferOut _) fun _ => feeds_ite feeds_raiseFatal (feeds_pure ())

theorem feeds_getSDA (c : Config) : Feeds (getSDA c) := feeds_bind feeds_readInputs fun _ => feeds_pure _

theorem feeds_setPin (mask : Byte) (b : Bool) : Feeds (setPin mask b) :=
  feeds_peek (fun _ _ _ => rfl) fun _ => feeds_bind (feeds_writeOutputs _) fun _ => feeds_delay _

theorem feeds_setSCL (c : Config) (b : Bool) : Feeds (setSCL c b) := feeds_setPin _ b

theorem feeds_setSDA (c : Config) (b : Bool) : Feeds (setSDA c b) := feeds_setPin _ b

/-! ### The engine -/

section Operations

variable (c : Config)

theorem feeds_busInit : Feeds (busInit c) :=
  feeds_bind (feeds_setSCL c true) fun _ => feeds_bind (feeds_setSDA c true) fun _ =>
  feeds_upd (fun _ _ _ => rfl) fun _ L => took_of_still L rfl

theorem feeds_start : Feeds (start c) :=
  feeds_updThen (fun _ _ _ => rfl) countStart_trace <|
  feeds_bind (feeds_setSDA c false) fun _ => feeds_bind (feeds_setSCL c false) fun _ =>
  feeds_upd (fun _ _ _ => rfl) fun _ L => took_of_still L rfl

theorem feeds_stop : Feeds (stop c) :=
  feeds_updThen (fun _ _ _ => rfl) countStop_trace <|
  feeds_bind (feeds_setSDA c false) fun _ => feeds_bind (feeds_setSCL c true) fun _ =>
  feeds_bind (feeds_setSDA c true) fun _ => feeds_upd (fun _ _ _ => rfl) fun _ L => took_of_still L rfl

theorem feeds_txBits (left : Nat) : Feeds (txBits c left) := by
  induction left with
  | zero => exact feeds_pure ()
  | succ left ih =>
    exact feeds_peek (fun _ _ _ => rfl) fun _ => feeds_bind (feeds_setSDA c _) fun _ =>
      feeds_bind (feeds_setSCL c true) fun _ => feeds_bind (feeds_setSCL c false) fun _ =>
      feeds_updThen (fun _ _ _ => rfl) (fun _ => rfl) ih

theorem feeds_txByte (v : Byte) : Feeds (txByte c v) :=
  feeds_updThen (fun _ _ _ => rfl) (fun _ => rfl) <|
  feeds_bind (feeds_txBits c 8) fun _ => feeds_bind (feeds_setSDA c true) fun _ =>
  feeds_bind (feeds_setSCL c true) fun _ => feeds_bind (feeds_getSDA c) fun sample =>
  feeds_bind (feeds_setSCL c false) fun _ => feeds_updThen (fun _ _ _ => rfl) (setAck_trace sample) <|
  feeds_updThen (fun _ _ _ => rfl) setBusByte_trace <| feeds_pure _

theorem feeds_rxBits (left : Nat) : Feeds (rxBits c left) := by
  induction left with
  | zero => exact feeds_pure ()
  | succ left ih =>
    exact feeds_bind (feeds_setSCL c true) fun _ => feeds_bind (feeds_getSDA c) fun _ =>
      feeds_bind (feeds_setSCL c false) fun _ => feeds_updThen (fun _ _ _ => rfl) (fun _ => rfl) ih

theorem feeds_rxByte (isLast : Bool) : Feeds (rxByte c isLast) :=
  feeds_updThen (fun _ _ _ => rfl) (fun _ => rfl) <|
  feeds_bind (feeds_rxBits c 8) fun _ => feeds_bind (feeds_setSDA c isLast) fun _ =>
  feeds_bind (feeds_setSCL c true) fun _ => feeds_bind (feeds_setSCL c false) fun _ =>
  feeds_bind (feeds_setSDA c true) fun _ => feeds_updThen (fun _ _ _ => rfl) setBusByte_trace <|
  feeds_peek (fun _ _ _ => rfl) fun _ => feeds_pure _

/-! ### The protocol -/

theorem feeds_readBytes (left : Nat) : Feeds (readBytes c left) := by
  induction left with
  | zero => exact feeds_pure ()
  | succ left ih =>
    exact feeds_peek (fun _ _ _ => rfl) fun _ => feeds_bind (feeds_rxByte c _) fun _ =>
      feeds_updThen (fun _ _ _ => rfl) (fun _ => rfl) ih

theorem feeds_readSelected (addr : Addr) (length : Nibble) : Feeds (readSelected c addr length) :=
  feeds_bind (feeds_txByte c _) fun _ => feeds_ite
    (feeds_updThen (fun _ _ _ => rfl) (fun _ => rfl) <| feeds_bind (feeds_readBytes c _) fun _ => feeds_pure true)
    (feeds_pure false)

theorem feeds_readAddressed (addr : Addr) (length : Nibble) : Feeds (readAddressed c addr length) :=
  feeds_bind (feeds_txByte c _) fun _ => feeds_ite
    (feeds_bind (feeds_stop c) fun _ => feeds_bind (feeds_delay _) fun _ => feeds_bind (feeds_start c) fun _ =>
      feeds_readSelected c addr length)
    (feeds_pure false)

theorem feeds_readBody (addr : Addr) (length : Nibble) : Feeds (readBody c addr length) :=
  feeds_bind (feeds_start c) fun _ => feeds_bind (feeds_txByte c _) fun _ =>
    feeds_ite (feeds_readAddressed c addr length) (feeds_pure false)

theorem feeds_readBlock (addr : Addr) (length : Nibble) : Feeds (readBlock c addr length) :=
  feeds_updThen (fun _ _ _ => rfl) (fun _ => rfl) <|
  feeds_bind (feeds_readBody c addr length) fun ok => feeds_bind (feeds_stop c) fun _ =>
  feeds_updThen (fun _ _ _ => by cases ok <;> rfl) (fun _ => by cases ok <;> rfl) <|
  feeds_peek (fun _ _ _ => rfl) fun _ => feeds_pure _

theorem feeds_writeBytes (left : Nat) : Feeds (writeBytes c left) := by
  induction left with
  | zero => exact feeds_pure true
  | succ left ih =>
    exact feeds_peek (fun _ _ _ => rfl) fun _ => feeds_bind (feeds_txByte c _) fun _ =>
      feeds_ite (feeds_updThen (fun _ _ _ => rfl) (fun _ => rfl) ih) (feeds_pure false)

theorem feeds_writeAddressed (addr : Addr) (n : Nat) : Feeds (writeAddressed c addr n) :=
  feeds_bind (feeds_txByte c _) fun _ => feeds_ite
    (feeds_updThen (fun _ _ _ => rfl) (fun _ => rfl) (feeds_writeBytes c n)) (feeds_pure false)

theorem feeds_writeBody (addr : Addr) (n : Nat) : Feeds (writeBody c addr n) :=
  feeds_bind (feeds_start c) fun _ => feeds_bind (feeds_txByte c _) fun _ =>
    feeds_ite (feeds_writeAddressed c addr n) (feeds_pure false)

theorem feeds_writeBlock (addr : Addr) (data : List Byte) : Feeds (writeBlock c addr data) :=
  feeds_updThen (fun _ _ _ => rfl) (fun _ => rfl) <|
  feeds_bind (feeds_writeBody c addr data.length) fun ok => feeds_bind (feeds_stop c) fun _ =>
  feeds_bind (feeds_delay _) fun _ => feeds_pure ok

/-- The last lines of an exposed operation. -/
theorem feeds_setOutcome {α : Type} (code : Nibble) {g : State → α} (hqueue : ∀ s L X, g (queued L X s) = g s) :
    Feeds (upd (setOutcome code) >>= fun _ => peek >>= fun s => pure (g s)) :=
  feeds_updThen (fun _ _ _ => rfl) (setOutcome_trace code) <|
  feeds_peek (fun s L X => congrArg pure (hqueue s L X)) fun _ => feeds_pure _

theorem feeds_probe : Feeds (probe c) :=
  feeds_bind (feeds_busInit c) fun _ => feeds_bind (feeds_readBlock c _ _) fun _ => feeds_setOutcome _ fun _ _ _ => rfl

theorem feeds_readIdentifier : Feeds (readIdentifier c) :=
  feeds_bind (feeds_readBlock c _ _) fun ⟨ok, _⟩ =>
  feeds_updThen (fun _ _ _ => by cases ok <;> rfl) (fun _ => by cases ok <;> rfl) <|
  feeds_setOutcome _ fun _ _ _ => rfl

theorem feeds_writeIdField (text : List Byte) (signed : Bool) : Feeds (writeIdField c text signed) :=
  feeds_ite (feeds_bind (feeds_writeBlock c _ _) fun _ => feeds_pure _) (feeds_pure _)

theorem feeds_writeIdentifier (text : List Byte) : Feeds (writeIdentifier c text) :=
  feeds_bind (feeds_writeBlock c _ _) fun signed => feeds_bind (feeds_writeIdField c text signed) fun _ =>
  feeds_setOutcome _ fun _ _ _ => rfl

end Operations

/-! ### Whole operations -/

/-- What the queue cannot change of a whole operation: its run is over within the answers `L`, or it has recorded `evs`
when it asks for another. -/
def fedRun (i : Instr) (s : State) (L : List Reply) : Prop :=
  (∀ X t, exec i (queued L X s) = .next t → ∃ L', took L L' s t)
    ∨ ∃ evs, transfers evs = L.length ∧ ∀ X t, exec i (queued L X s) = .next t → passed evs s t

theorem finish_trace {α : Type} (mk : α → Result) (m : Op α) (s : State) :
    (finish mk m s).trace = (endState (m s)).trace := by
  rcases finish_cases mk m s with ⟨a, t, h, hf⟩ | ⟨e, t, h, hf⟩ <;> rw [hf, h] <;> rfl

theorem Feeds.fedRun {α : Type} {mk : α → Result} {m : Op α} (hm : Feeds m) {i : Instr} {s : State} {L : List Reply}
    (hexec : ∀ X, exec i (queued L X s) = .next (finish mk m (queued L X s))) : fedRun i s L := by
  have hend {X t} (h : exec i (queued L X s) = .next t) : t.trace = (endState (m (queued L X s))).trace := by
    rw [← finish_trace mk, Host.Outcome.next.inj (h.symm.trans (hexec X))]
  cases hm s L with
  | ended a u L' run spent =>
    exact .inl fun X t h => ⟨L', spent.of_trace (by rw [hend h, run]; rfl)⟩
  | abandoned e u L' run spent =>
    exact .inl fun X t h => ⟨L', spent.of_trace (by rw [hend h, run]; rfl)⟩
  | asks evs all run =>
    exact .inr ⟨evs, all, fun X t h => (run X).grown (more := []) (hend h)⟩

/-- Every operation that runs is fed by its queue. -/
theorem exec_fedRun {i : Instr} {s t : State} (h : exec i s = .next t) (L : List Reply) : fedRun i s L := by
  obtain ⟨hwf, -⟩ := exec_next_wellFormed h
  cases i with
  | readInputs => exact feeds_readInputs.fedRun fun _ => rfl
  | writeOutputs v => exact (feeds_writeOutputs v).fedRun fun _ => rfl
  | getSDA => exact (feeds_getSDA s.cfg).fedRun fun _ => rfl
  | setSCL b => exact (feeds_setSCL s.cfg b).fedRun fun _ => rfl
  | setSDA b => exact (feeds_setSDA s.cfg b).fedRun fun _ => rfl
  | busInit => exact (feeds_busInit s.cfg).fedRun fun _ => rfl
  | start => exact (feeds_start s.cfg).fedRun fun _ => rfl
  | stop => exact (feeds_stop s.cfg).fedRun fun _ => rfl
  | txByte v => exact (feeds_txByte s.cfg v).fedRun fun _ => rfl
  | rxByte isLast => exact (feeds_rxByte s.cfg isLast).fedRun fun _ => rfl
  | readBlock addr length => exact (feeds_readBlock s.cfg addr length).fedRun fun _ => if_pos hwf
  | writeBlock addr data => exact (feeds_writeBlock s.cfg addr data).fedRun fun _ => if_pos hwf
  | probe => exact (feeds_probe s.cfg).fedRun fun _ => rfl
  | readIdentifier => exact (feeds_readIdentifier s.cfg).fedRun fun _ => rfl
  | writeIdentifier text => exact (feeds_writeIdentifier s.cfg text).fedRun fun _ => if_pos hwf
  | reserved15 => cases h
  | devselW b => exact (feeds_txByte s.cfg (selectWByte b)).fedRun fun _ => rfl
  | devselR b => exact (feeds_txByte s.cfg (selectRByte b)).fedRun fun _ => rfl
  | wordAddr a => exact (feeds_txByte s.cfg a).fedRun fun _ => rfl
  | dataFrame f =>
    cases f with
    | sent d => exact (feeds_txByte s.cfg d).fedRun fun _ => rfl
    | received isLast => exact (feeds_rxByte s.cfg isLast).fedRun fun _ => rfl

/-- Settles O43: the failed transfer is the first one past the common answers, so that what the failed run has recorded
before it is what every run has recorded when it asks for that answer. -/
theorem failedRunIsAPrefixOfTheFaultFreeRun : Obligations.FailedRunIsAPrefixOfTheFaultFreeRun := by
  intro i s t t' pre bad good rest evs hbad hresult htrace hcount hgood
  obtain ⟨-, -, e, before, hcut, hfailed, -, -⟩ := exec_cutShort hbad hresult
  obtain rfl : evs = e :: before := List.append_cancel_right (htrace.symm.trans hcut)
  have hfirst : transfers [e] = 1 := transfers_of_failure hfailed
  have hall : transfers (e :: before) = pre.length + 1 := hcount
  rcases exec_fedRun hbad pre with hover | ⟨shared, hshared, hasks⟩
  · obtain ⟨L', evs', htrace', hcount'⟩ := hover [some bad] t hbad
    obtain rfl : e :: before = evs' := List.append_cancel_right (htrace.symm.trans htrace')
    omega
  · obtain ⟨later, x, htrace', hx⟩ := hasks [some bad] t hbad
    obtain ⟨later', x', htrace'', -⟩ := hasks (some good :: rest) t' hgood
    have hsplit : e :: before = later ++ x :: shared := List.append_cancel_right (htrace.symm.trans htrace')
    have hlater : transfers later = 0 := by
      rw [hsplit, transfers_append, transfers_cons] at hall
      omega
    cases later with
    | nil =>
      obtain ⟨rfl, rfl⟩ := List.cons.inj hsplit
      exact ⟨later' ++ [x'], by rw [htrace'']; simp⟩
    | cons y later =>
      obtain rfl := List.head_eq_of_cons_eq hsplit
      rw [transfers_cons] at hlater
      omega

end Sys2Proof.Machine
end

section
/-! What a step runs (10_state.md R25, 30_encoding.md R91, 60_exceptions.md R237): the first thing there is of a line of
the sequencer, a call and an operation of the host. -/

namespace Sys2Proof.Machine

theorem step_busy {s : State} (h : s.seq ≠ []) : step s = .next (seqStep s) := by
  unfold step
  split
  next => rfl
  next hseq => exact absurd hseq h

theorem step_call {s : State} {p : Packet} {rest : List Packet} (hseq : s.seq = []) (hcalls : s.calls = p :: rest) :
    step s = runPacket p { s with calls := rest } := by
  unfold step
  rw [hseq, hcalls]

theorem step_hostOp {s : State} {h : HostOp} {rest : List HostOp} (hseq : s.seq = []) (hcalls : s.calls = [])
    (hport : s.port = h :: rest) : step s = exec h.instr { s with port := rest } := by
  unfold step
  rw [hseq, hcalls, hport]

theorem step_waits {s : State} (hseq : s.seq = []) (hcalls : s.calls = []) (hport : s.port = []) :
    step s = .next s := by
  unfold step
  rw [hseq, hcalls, hport]

/-- The exposed operations are those that a host command names. -/
theorem exposed_iff_hostOp (i : Instr) : i.exposed = true ↔ ∃ h : HostOp, h.instr = i := by
  constructor
  · intro h
    cases i with
    | probe => exact ⟨.probe, rfl⟩
    | readIdentifier => exact ⟨.readIdentifier, rfl⟩
    | writeIdentifier text => exact ⟨.writeIdentifier text, rfl⟩
    | _ => cases h
  · rintro ⟨h, rfl⟩
    cases h <;> rfl

/-- Settles O6: one case of `step` each, a packet being run as it decodes. -/
theorem stepRunsThePacket : Obligations.StepRunsThePacket := by
  refine ⟨fun s => ⟨fun p rest i hseq hcalls hdecode => ?_, fun p rest e hseq hcalls hdecode => ?_,
    fun h rest => step_hostOp, step_waits, step_busy⟩, exposed_iff_hostOp⟩
  · rw [step_call hseq hcalls, runPacket, hdecode]
  · rw [step_call hseq hcalls, runPacket, hdecode]

end Sys2Proof.Machine
end

section
/-! Reset (70_reset_and_hazards.md R260, 10_state.md R34): a block with nothing to run, whose registers lie in their
ranges. With `everyStepKeepsTheInvariant` this is the base case of the invariant. -/

namespace Sys2Proof.Machine

/-- Nothing has been called or issued yet. -/
theorem step_reset : step State.reset = .next State.reset := step_waits rfl rfl rfl

/-- The registers of 10_state.md R20 at reset, with the values that the model names (log 4, 6, 7): no EEPROM is
attached, STATUS is 0 with SUCCESS set, LEN is 1 and BITCNT 0. -/
theorem regsOk_reset : regsOk State.reset := by
  have hmem : memOk State.reset.world = true := rfl
  have hstatus : State.reset.status.toNat ≤ 6 := by decide
  have hsuccess : State.reset.success = (State.reset.status == stOk) := rfl
  have hlen : 1 ≤ State.reset.len.toNat ∧ State.reset.len.toNat ≤ 8 := by decide
  have hbitcnt : State.reset.bitcnt.toNat ≤ 8 := by decide
  exact ⟨hmem, hstatus, hsuccess, hlen.1, hlen.2, hbitcnt⟩

/-- Settles O8: the fields as `State.reset` gives them, and a step that waits. -/
theorem resetStateIsAsStated : Obligations.ResetStateIsAsStated := ⟨rfl, rfl, rfl, rfl, step_reset⟩

/-- Settles O55: registers in range, and the empty stack is a legal one. -/
theorem resetMeetsTheInvariant : Obligations.ResetMeetsTheInvariant :=
  (inv_iff State.reset).2 ⟨regsOk_reset, rfl⟩

end Sys2Proof.Machine
end
